-- ==== Sys2Proof/Word.lean ====
section
/-! DEFINITION. The word types of the ZL9 and their plainest names (R3, R8): a scalar register, a word, a byte. -/

namespace Sys2Proof

/-- A scalar register, CSR, address or doubleword: 64 bits (R3, R8). -/
abbrev Word := BitVec 64

/-- The smallest addressable unit (R3). -/
abbrev Byte := BitVec 8

/-- A register number of the scalar or vector file, 0 to 31 (R8). -/
abbrev Reg := Fin 32

/-- One row of a subarray: 8,192 one-bit lanes (R17, R220). -/
abbrev Row := BitVec 8192

end Sys2Proof
end

