-- ==== Sys2Proof/Machine/Num.lean ====
section
/-! DEFINITION. Numbers and formats (R26 to R50): exact values, the element types that VTYPE selects, decoding a code
to its value, rounding a value into a type with its flags, and the exact sums and functions that the vector words, the
tiles, the bank units and the stream accumulators share. -/

namespace Sys2Proof.Machine

/-- Flags in the order of R40: bit 0 NV, 1 DZ, 2 OF, 3 UF, 4 NX, 5 PZ. -/
abbrev Flags := BitVec 6
def fNV : Flags := 0x01#6
def fDZ : Flags := 0x02#6
def fOF : Flags := 0x04#6
def fUF : Flags := 0x08#6
def fNX : Flags := 0x10#6
def fPZ : Flags := 0x20#6

/-- Rounding modes, codes 1 to 5 of R37. -/
inductive RM where
  | rne | rtz | rdn | rup | srne
  deriving DecidableEq, Repr

/-- An exact value (R42): the NaNs, the infinities, the zeros and m·2^e with m above 0. -/
inductive Num where
  | nan | poison
  | inf (neg : Bool)
  | zero (neg : Bool)
  | fin (neg : Bool) (m : Nat) (e : Int)
  deriving DecidableEq, Repr

/-- A binary format (R30 to R34) by what its codes mean: trailing bits, the exponent of the least quantum, the
largest finite magnitude code, the sign bit if it has one, and its special codes. -/
structure Fmt where
  trail : Nat
  qmin  : Int
  cmax  : Nat
  sign  : Option Nat
  nan   : Nat
  inf   : Option Nat
  poison : Option Nat
  negZero : Bool
  deriving DecidableEq, Repr

/-- An element type: format code and width of R26, with P, INF and SAT of VTYPE. -/
structure ETy where
  fmt : Nat
  w   : Nat
  p   : Nat
  infOn : Bool
  sat : Bool
  deriving DecidableEq, Repr

/-- Width code and format code that R26 allows together with P. -/
def typeOk (fmt wcode p : Nat) : Bool :=
  match fmt with
  | 0 | 1 => wcode ≤ 6 && p == 0
  | 2 => wcode == 1 && p == 0
  | 3 => wcode == 0 && p == 0
  | 4 => (wcode == 4 || wcode == 5) && p == 0
  | 5 => wcode == 4 && p == 0
  | 6 | 7 => wcode == 3 && 1 ≤ p && p ≤ 7
  | _ => false

/-- f32, f16 and bf16 (R30, R41). -/
def fmtF32 : Fmt :=
  { trail := 23, qmin := -149, cmax := 0x7F7FFFFF, sign := some 31, nan := 0x7FC00000, inf := some 0x7F800000,
    poison := some 0x7FE00001, negZero := true }
def fmtF16 : Fmt :=
  { trail := 10, qmin := -24, cmax := 0x7BFF, sign := some 15, nan := 0x7E00, inf := some 0x7C00,
    poison := some 0x7F01, negZero := true }
def fmtBf16 : Fmt :=
  { trail := 7, qmin := -133, cmax := 0x7F7F, sign := some 15, nan := 0x7FC0, inf := some 0x7F80,
    poison := some 0x7FE0, negZero := true }

/-- The signed P3109 format of precision p (R31). -/
def fmtB8 (p : Nat) (infOn : Bool) : Fmt :=
  { trail := p - 1, qmin := 2 - (2 ^ (7 - p) : Nat) - (p : Int), cmax := if infOn then 0x7E else 0x7F, sign := some 7,
    nan := 0x80, inf := if infOn then some 0x7F else none, poison := none, negZero := false }

/-- The unsigned P3109 format of precision p (R32). -/
def fmtB8n (p : Nat) (infOn : Bool) : Fmt :=
  { trail := p - 1, qmin := 2 - (2 ^ (8 - p) : Nat) - (p : Int), cmax := if infOn then 0xFD else 0xFE, sign := none,
    nan := 0xFF, inf := if infOn then some 0xFE else none, poison := none, negZero := false }

/-- The binary format of an element type with format code 4 to 7 (R26). -/
def ETy.float (t : ETy) : Option Fmt :=
  match t.fmt with
  | 4 => some (if t.w == 16 then fmtF16 else fmtF32)
  | 5 => some fmtBf16
  | 6 => some (fmtB8 t.p t.infOn)
  | 7 => some (fmtB8n t.p t.infOn)
  | _ => none

def ETy.isB8 (t : ETy) : Bool := t.fmt == 6 || t.fmt == 7
def ETy.f32 : ETy := { fmt := 4, w := 32, p := 0, infOn := false, sat := false }

/-! ### Values of codes -/

/-- The value of sign and magnitude of a finite code (R30 to R32). -/
def Fmt.magnitude (f : Fmt) (neg : Bool) (c : Nat) : Num :=
  let e := c >>> f.trail
  let t := c % 2 ^ f.trail
  if e == 0 then
    if t == 0 then .zero neg else .fin neg t f.qmin
  else .fin neg (2 ^ f.trail + t) (f.qmin + (e - 1 : Nat))

/-- The value of a code of a format (R30 to R32, R41). Any NaN code that is not poison is an ordinary NaN. -/
def Fmt.value (f : Fmt) (c : Nat) : Num :=
  if f.poison == some c then .poison
  else if c == f.nan then .nan
  else
    let (neg, mag) := match f.sign with
      | some s => (c.testBit s, c % 2 ^ s)
      | none => (false, c)
    if f.inf == some mag then .inf neg
    else if f.cmax < mag then .nan
    else f.magnitude neg mag

/-- The integer of an element under an integer, tern or bin1 format (R28, R29). -/
def ETy.int (t : ETy) (c : Nat) : Int :=
  match t.fmt with
  | 0 => (BitVec.ofNat t.w c).toInt
  | 2 => if c == 1 then 1 else if c == 3 then -1 else 0
  | 3 => if c == 1 then 1 else -1
  | _ => (c : Int)

def ETy.isInt (t : ETy) : Bool := t.fmt ≤ 3

/-- An integer as a value. -/
def Num.ofInt (x : Int) : Num :=
  if x == 0 then .zero false else .fin (decide (x < 0)) x.natAbs 0

/-- An integer multiple of 2^e as a value. -/
def Num.ofScaled (x : Int) (e : Int) : Num :=
  if x == 0 then .zero false else .fin (decide (x < 0)) x.natAbs e

/-- The value of an element code under its type. -/
def ETy.value (t : ETy) (c : Nat) : Num :=
  match t.float with
  | some f => f.value c
  | none => .ofInt (t.int c)

def Num.isNeg : Num → Bool
  | .inf n | .zero n | .fin n _ _ => n
  | _ => false

def Num.neg : Num → Num
  | .inf n => .inf (!n)
  | .zero n => .zero (!n)
  | .fin n m e => .fin (!n) m e
  | x => x

def Num.abs : Num → Num
  | .inf _ => .inf false
  | .zero _ => .zero false
  | .fin _ m e => .fin false m e
  | x => x

def Num.isNan : Num → Bool
  | .nan | .poison => true
  | _ => false

/-! ### Rounding -/

/-- Bits of a number: 0 for 0, else the place of its leading bit plus 1. -/
def bitLen (n : Nat) : Nat := if n == 0 then 0 else n.log2 + 1

/-- Where the part cut off stands to half a quantum. -/
inductive Cut where
  | exact | below | half | above
  deriving DecidableEq, Repr

/-- Cut m·2^e (with something more below when sticky) to a multiple of 2^q. -/
def cutAt (m : Nat) (e q : Int) (sticky : Bool) : Nat × Cut :=
  if q ≤ e then (m <<< (e - q).toNat, if sticky then .below else .exact)
  else
    let sh := (q - e).toNat
    if bitLen m < sh then (0, if m == 0 && !sticky then .exact else .below)
    else
      let r := m >>> sh
      let low := m % 2 ^ sh
      let half := 2 ^ (sh - 1)
      (r, if low == 0 then (if sticky then .below else .exact)
          else if low < half then .below
          else if low == half && !sticky then .half
          else .above)

/-- Whether a magnitude is stepped up (R37); odd says that the cut code is odd. -/
def stepUp (mode : RM) (neg odd : Bool) (c : Cut) : Bool :=
  match c with
  | .exact => false
  | c =>
    match mode with
    | .rtz => false
    | .rdn => neg
    | .rup => !neg
    | .rne | .srne =>
      match c with
      | .above => true
      | .half => odd
      | _ => false

/-- Overflow of a rounded finite value of the given sign (R43, R46): the code, and NaN where the format has no
infinity. -/
def Fmt.overflow (f : Fmt) (sat : Bool) (mode : RM) (neg : Bool) : Nat :=
  let signed := fun (c : Nat) => match f.sign with
    | some s => if neg then c + 2 ^ s else c
    | none => c
  let big := signed f.cmax
  let inf := match f.inf with
    | some c => signed c
    | none => f.nan
  if sat && !f.negZero then big
  else match mode with
    | .rne => inf
    | .rtz | .srne => big
    | .rdn => if neg then inf else big
    | .rup => if neg then big else inf

/-- Round the magnitude m·2^e (and something more below when sticky; m then has bits to spare) of the given sign into
a format: the unbounded magnitude code, whether it is inexact, and whether it is tiny after rounding (R35, R43). Where a
format has no trailing bit, a tie of the code goes to the even code, and a tie just below the least normal is taken as
upward when tininess is judged (log entry 33). -/
def Fmt.roundMag (f : Fmt) (mode : RM) (neg : Bool) (m : Nat) (e : Int) (sticky : Bool) : Nat × Bool × Bool :=
  let lead : Int := e + (bitLen m : Int) - 1
  let q := max f.qmin (lead - f.trail)
  let (r, cut) := cutAt m e q sticky
  let code := ((q - f.qmin).toNat <<< f.trail) + r
  let code' := if stepUp mode neg (code % 2 == 1) cut then code + 1 else code
  let norm : Int := f.qmin + f.trail
  let tiny :=
    if norm ≤ lead then false
    else if lead + 1 < norm then true
    else
      let (r', cut') := cutAt m e (lead - f.trail) sticky
      !(stepUp mode neg (r' % 2 == 1) cut' && r' + 1 == 2 ^ (f.trail + 1))
  (code', cut != .exact, tiny)

/-- Round a finite magnitude into a format (R43, R44, R46). -/
def Fmt.roundFin (f : Fmt) (sat : Bool) (mode : RM) (neg : Bool) (m : Nat) (e : Int) (sticky : Bool) : Nat × Flags :=
  let (code, inexact, tiny) := f.roundMag mode neg m e sticky
  let small : Flags := (if inexact then fNX else 0) ||| (if inexact && tiny then fUF else 0)
  match f.sign with
  | none =>
    if neg then
      if code == 0 then (0, small) else (if sat then 0 else f.nan, fNV)
    else if f.cmax < code then (f.overflow sat mode neg, fOF ||| fNX)
    else (code, small)
  | some s =>
    if f.cmax < code then (f.overflow sat mode neg, fOF ||| fNX)
    else if code == 0 && !f.negZero then (0, small)
    else (if neg then code + 2 ^ s else code, small)

/-- A value into a binary format with its flags (R42, R43, R44, R46). -/
def Fmt.round (f : Fmt) (sat : Bool) (mode : RM) (x : Num) : Nat × Flags :=
  match x with
  | .nan => (f.nan, 0)
  | .poison =>
    match f.poison with
    | some c => (c, 0)
    | none => (f.nan, fPZ)
  | .zero neg =>
    match f.sign with
    | some s => if neg && f.negZero then (2 ^ s, 0) else (0, 0)
    | none => (0, 0)
  | .inf neg =>
    match f.sign with
    | none =>
      if neg then (if sat then 0 else f.nan, fNV)
      else match f.inf with
        | some c => (c, 0)
        | none => if sat then (f.cmax, 0) else (f.nan, fNV)
    | some s =>
      match f.inf with
      | some c => (if neg then c + 2 ^ s else c, 0)
      | none => if sat then (if neg then f.cmax + 2 ^ s else f.cmax, 0) else (f.nan, fNV)
  | .fin neg m e => f.roundFin sat mode neg m e false

/-- f32 rounding, the one of R48, R50, R238 and R285. -/
def roundF32 (mode : RM) (x : Num) : Nat × Flags := fmtF32.round false mode x

/-- A finite value rounded to an integer by the mode, code 5 acting as RNE, and whether it changed (R45). -/
def roundInt (mode : RM) (neg : Bool) (m : Nat) (e : Int) : Int × Bool :=
  let (r, cut) := cutAt m e 0 false
  let r' := if stepUp mode neg (r % 2 == 1) cut then r + 1 else r
  (if neg then -(r' : Int) else (r' : Int), cut != .exact)

/-- The range of an integer type (R28). -/
def intLow (signed : Bool) (w : Nat) : Int := if signed then -((2 ^ (w - 1) : Nat) : Int) else 0
def intHigh (signed : Bool) (w : Nat) : Int := if signed then ((2 ^ (w - 1) : Nat) : Int) - 1 else ((2 ^ w : Nat) : Int) - 1

/-- The w-bit code of an integer. -/
def intCode (w : Nat) (x : Int) : Nat := (BitVec.ofInt w x).toNat

/-- Clamp an integer to a type's range, with OF when it changes (R45, R417). -/
def clampInt (signed : Bool) (w : Nat) (x : Int) : Int × Flags :=
  if x < intLow signed w then (intLow signed w, fOF)
  else if intHigh signed w < x then (intHigh signed w, fOF)
  else (x, 0)

/-- The code of a tern value (R29). -/
def ternCode (x : Int) : Nat := if x < 0 then 3 else if 0 < x then 1 else 0

/-- A floating-point value into an integer, tern or bin1 type (R29, R42, R45). -/
def ETy.roundToInt (t : ETy) (mode : RM) (x : Num) : Nat × Flags :=
  match t.fmt with
  | 2 =>
    match x with
    | .nan => (0, fNV)
    | .poison => (0, fPZ)
    | .inf neg => (ternCode (if neg then -1 else 1), fNX)
    | .zero _ => (0, 0)
    | .fin neg m e =>
      let (r, inexact) := roundInt mode neg m e
      let c := if r < -1 then -1 else if 1 < r then 1 else r
      (ternCode c, if inexact || c != r then fNX else 0)
  | 3 =>
    match x with
    | .nan => (1, fNV)
    | .poison => (1, fPZ)
    | .inf neg | .fin neg _ _ => (if neg then 0 else 1, 0)
    | .zero _ => (1, 0)
  | k =>
    let signed := k == 0
    match x with
    | .nan => (0, fNV)
    | .poison => (0, fPZ)
    | .zero _ => (0, 0)
    | .inf neg => (intCode t.w (if neg then intLow signed t.w else intHigh signed t.w), fOF)
    | .fin neg m e =>
      let (r, inexact) := roundInt mode neg m e
      let (c, fl) := clampInt signed t.w r
      (intCode t.w c, if fl != 0 then fl else if inexact then fNX else 0)

/-- A value into any element type (R422, R423). -/
def ETy.round (t : ETy) (mode : RM) (x : Num) : Nat × Flags :=
  match t.float with
  | some f => f.round t.sat mode x
  | none => t.roundToInt mode x

/-- An integer of an integer, tern or bin1 source into an element type (R29, R45): a narrowing keeps the low bits
under codes 1 to 4 and clamps with OF under code 5. A value that does not fit although the width does not narrow (i8 to n16)
is treated in the same way (log entry 62). -/
def ETy.ofIntSource (t : ETy) (mode : RM) (x : Int) : Nat × Flags :=
  match t.fmt with
  | 0 | 1 =>
    if mode == .srne then
      let (c, fl) := clampInt (t.fmt == 0) t.w x
      (intCode t.w c, fl)
    else (intCode t.w x, 0)
  | _ => t.round mode (.ofInt x)

/-! ### Exact arithmetic -/

/-- The R42 result of an operation over its inputs, or none where its inputs are numbers. -/
def nanOf (xs : List Num) : Option Num :=
  if xs.any (· == .poison) then some .poison
  else if xs.any (· == .nan) then some .nan
  else none

/-- The exact product of two numbers that are not NaNs, with NV for 0 × Inf (R42). -/
def mulRaw (a b : Num) : Num × Flags :=
  match a, b with
  | .inf n, .inf k => (.inf (n != k), 0)
  | .inf n, .fin k _ _ | .fin n _ _, .inf k => (.inf (n != k), 0)
  | .inf _, .zero _ | .zero _, .inf _ => (.nan, fNV)
  | .fin n m e, .fin k m' e' => (.fin (n != k) (m * m') (e + e'), 0)
  | .zero n, .zero k | .zero n, .fin k _ _ | .fin n _ _, .zero k => (.zero (n != k), 0)
  | _, _ => (.nan, 0)

/-- The exact product, by R42. -/
def Num.mul (a b : Num) : Num × Flags :=
  match nanOf [a, b] with
  | some x => (x, 0)
  | none => mulRaw a b

/-- The finite part of a term as a signed multiple of 2^q. -/
def Num.atQuantum (q : Int) : Num → Int
  | .fin neg m e => let v : Int := ((m <<< (e - q).toNat : Nat) : Int); if neg then -v else v
  | _ => 0

def Num.exponent : Num → Option Int
  | .fin _ _ e => some e
  | _ => none

/-- The least exponent among the finite terms. -/
def leastExp : List Num → Option Int
  | [] => none
  | x :: xs =>
    match x.exponent, leastExp xs with
    | some a, some b => some (min a b)
    | some a, none => some a
    | none, r => r

/-- The exact sum of numbers that are not NaNs (R42): NV where both infinities occur; a zero sum takes the IEEE
sign, that of its terms where all are zeros of one sign, else + but − under RDN (log entry 8; log entry 6). -/
def sumRaw (mode : RM) (xs : List Num) : Num × Flags :=
  let pos := xs.any (· == .inf false)
  let neg := xs.any (· == .inf true)
  if pos && neg then (.nan, fNV)
  else if pos then (.inf false, 0)
  else if neg then (.inf true, 0)
  else
    match leastExp xs with
    | none =>
      if xs.all (· == .zero true) then (.zero true, 0)
      else if xs.all (· == .zero false) then (.zero false, 0)
      else (.zero (mode == .rdn), 0)
    | some q =>
      let total := xs.foldl (fun acc x => acc + x.atQuantum q) 0
      if total == 0 then (.zero (mode == .rdn), 0) else (.ofScaled total q, 0)

/-- ExactSum over products given as lists of factors, by R42: NaN and poison among all factors decide first. -/
def sumProducts (mode : RM) (terms : List (List Num)) : Num × Flags :=
  match nanOf terms.flatten with
  | some x => (x, 0)
  | none =>
    let prods := terms.map fun fs => fs.foldl (fun (acc : Num × Flags) f =>
      let (p, fl) := if acc.1 == .nan then (.nan, 0) else mulRaw acc.1 f
      (p, acc.2 ||| fl)) (.fin false 1 0, 0)
    if prods.any (fun p => p.1 == .nan) then (.nan, fNV)
    else sumRaw mode (prods.map (·.1))

/-- a + b, by R42. -/
def Num.add (mode : RM) (a b : Num) : Num × Flags := sumProducts mode [[a], [b]]

/-- Compare two numbers that are not NaNs; the zeros are equal. -/
def Num.cmp (a b : Num) : Ordering :=
  let key : Num → Int := fun
    | .inf true => -2 | .inf false => 2
    | .fin true _ _ => -1 | .fin false _ _ => 1
    | _ => 0
  match a, b with
  | .fin n m e, .fin k m' e' =>
    if n != k then (if n then .lt else .gt)
    else
      let q := min e e'
      let x := (Num.fin n m e).atQuantum q
      let y := (Num.fin k m' e').atQuantum q
      compare x y
  | a, b => compare (key a) (key b)

/-- The lesser or greater, with −0 below +0 (R42). -/
def Num.minmax (greater : Bool) (a b : Num) : Num :=
  match nanOf [a, b] with
  | some x => x
  | none =>
    let aFirst := match a.cmp b with
      | .lt => true
      | .gt => false
      | .eq => a.isNeg
    if greater then (if aFirst then b else a) else (if aFirst then a else b)

/-! ### Quotients, roots and powers -/

/-- Floor of the square root, bit by bit from bit k down. -/
def isqrtFrom (n : Nat) : Nat → Nat → Nat
  | 0, r => if (r + 1) * (r + 1) ≤ n then r + 1 else r
  | k + 1, r =>
    let r' := r + 2 ^ (k + 1)
    isqrtFrom n k (if r' * r' ≤ n then r' else r)

/-- Floor of the square root of n. -/
def isqrt (n : Nat) : Nat := isqrtFrom n (bitLen n / 2 + 1) 0

/-- A non-negative quotient n/d·2^e as a magnitude with at least 128 bits and a sticky bit. -/
def quotMag (n d : Nat) (e : Int) : Nat × Int × Bool :=
  let sh := 160 + bitLen d
  let q := (n <<< sh) / d
  (q, e - sh, (n <<< sh) % d != 0)

/-- Round the signed rational num/den·2^e into a type; a zero is +0. -/
def ETy.roundRat (t : ETy) (mode : RM) (num : Int) (den : Nat) (e : Int) : Nat × Flags :=
  if num == 0 then t.round mode (.zero false)
  else
    let (m, e', sticky) := quotMag num.natAbs den e
    match t.float with
    | some f => f.roundFin t.sat mode (decide (num < 0)) m e' sticky
    | none => t.round mode (.fin (decide (num < 0)) m e')

/-- VFDIV: a / b correctly rounded, special inputs by R42 and R47 (log entry 32). -/
def divRound (f : Fmt) (sat : Bool) (mode : RM) (a b : Num) : Nat × Flags :=
  match nanOf [a, b] with
  | some x => f.round sat mode x
  | none =>
    match a, b with
    | .inf _, .inf _ | .zero _, .zero _ => ((f.round sat mode .nan).1, fNV)
    | .inf n, y => f.round sat mode (.inf (n != y.isNeg))
    | .fin n _ _, .zero k =>
      let (c, fl) := f.round sat mode (.inf (n != k))
      (c, fl ||| fDZ)
    | x, .inf k => f.round sat mode (.zero (x.isNeg != k))
    | .zero n, y => f.round sat mode (.zero (n != y.isNeg))
    | .fin n m e, .fin k m' e' =>
      let (q, e'', sticky) := quotMag m m' (e - e')
      f.roundFin sat mode (n != k) q e'' sticky
    | _, _ => f.round sat mode .nan

/-- The magnitude of √(m·2^e) with a sticky bit. -/
def sqrtMag (m : Nat) (e : Int) : Nat × Int × Bool :=
  let e' := if e % 2 == 0 then e else e - 1
  let m' := (if e % 2 == 0 then m else 2 * m) <<< 200
  let r := isqrt m'
  (r, (e' - 200) / 2, r * r != m')

/-- The magnitude of 1/√(n/d·2^e) for n above 0, with a sticky bit. -/
def rsqrtMag (n d : Nat) (e : Int) : Nat × Int × Bool :=
  let (n', e') := if e % 2 == 0 then (n, e) else (2 * n, e - 1)
  let sh := 2 * (160 + bitLen n')
  let y := (d <<< sh) / n'
  let r := isqrt y
  (r, -(e' / 2) - (sh / 2 : Nat), r * r * n' != d <<< sh)

/-- VFSQRT (R47). -/
def sqrtRound (f : Fmt) (sat : Bool) (mode : RM) (a : Num) : Nat × Flags :=
  match a with
  | .nan | .poison => f.round sat mode a
  | .zero n => f.round sat mode (.zero n)
  | .inf false => f.round sat mode (.inf false)
  | .inf true | .fin true _ _ => ((f.round sat mode .nan).1, fNV)
  | .fin false m e =>
    let (r, e', sticky) := sqrtMag m e
    f.roundFin sat mode false r e' sticky

/-- VFRSQ (R47); of a zero into a b8 format without infinity and without SAT the NaN code, with NV beside DZ (log entry 32). -/
def rsqrtRound (f : Fmt) (sat : Bool) (mode : RM) (a : Num) : Nat × Flags :=
  match a with
  | .nan | .poison => f.round sat mode a
  | .zero n =>
    let (c, fl) := f.round sat mode (.inf n)
    (c, fl ||| fDZ)
  | .inf false => f.round sat mode (.zero false)
  | .inf true | .fin true _ _ => ((f.round sat mode .nan).1, fNV)
  | .fin false m e =>
    let (r, e', sticky) := rsqrtMag m 1 e
    f.roundFin sat mode false r e' sticky

/-- ln 2 in units of 2^(-384), rounded down. -/
def ln2Fix : Nat :=
  0xb17217f7d1cf79abc9e3b39803f2f6af40f343267298b62d8a0d175b8baafa2be7b876206debac98559552fb4afa1b10

/-- Terms of the exponential series in units of 2^(-384), from term n down to 0, by Horner's rule. -/
def expFix (y : Nat) : Nat → Nat → Nat
  | 0, acc => acc
  | n + 1, acc => expFix y n ((1 <<< 384) + ((acc * y / (n + 1)) >>> 384))

/-- 2^f for a fraction f in units of 2^(-384), to about 2^(-370) (log entry 9). -/
def exp2Frac (f : Nat) : Nat := expFix ((f * ln2Fix) >>> 384) 100 (1 <<< 384)

/-- VFEXP2 (R47): exact for integers, else irrational and rounded from 370 correct bits. -/
def exp2Round (f : Fmt) (sat : Bool) (mode : RM) (a : Num) : Nat × Flags :=
  match a with
  | .nan | .poison => f.round sat mode a
  | .zero _ => f.roundFin sat mode false 1 0 false
  | .inf true => f.round sat mode (.zero false)
  | .inf false => f.round sat mode (.inf false)
  | .fin neg m e =>
    if 0 ≤ e then
      let v : Int := ((m <<< e.toNat : Nat) : Int)
      f.roundFin sat mode false 1 (if neg then -v else v) false
    else
      let k := (-e).toNat
      let v : Int := if neg then -(m : Int) else (m : Int)
      let i := v / ((2 ^ k : Nat) : Int)
      let fr := (v % ((2 ^ k : Nat) : Int)).toNat
      if fr == 0 then f.roundFin sat mode false 1 i false
      else f.roundFin sat mode false (exp2Frac ((fr <<< 384) >>> k)) (i - 384) true

/-! ### Dot products and reductions -/

/-- One group of R48: the exact sum of the incoming f32 and the group's products, rounded once to f32. -/
def groupStep (mode : RM) (acc : Nat × Flags) (products : List (List Num)) : Nat × Flags :=
  let (s, fl) := sumProducts mode ([fmtF32.value acc.1] :: products)
  let (c, fl') := roundF32 mode s
  (c, acc.2 ||| fl ||| fl')

/-- Cut a list into pieces of n, for at most the given number of pieces. -/
def chunksOf {α : Type} (n : Nat) : Nat → List α → List (List α)
  | 0, _ => []
  | k + 1, xs => if xs.isEmpty then [] else xs.take n :: chunksOf n k (xs.drop n)

/-- A dot product into f32 (R48): groups of the given number of products. -/
def dotF32 (mode : RM) (perGroup : Nat) (acc : Nat) (products : List (List Num)) : Nat × Flags :=
  (chunksOf perGroup products.length products).foldl (groupStep mode) (acc, 0)

/-- A dot product into i32 (R49): exact, clamped once. -/
def dotI32 (acc : Nat) (products : List (Int × Int)) : Nat × Flags :=
  let total := products.foldl (fun s p => s + p.1 * p.2) (BitVec.ofNat 32 acc).toInt
  let (c, fl) := clampInt true 32 total
  (intCode 32 c, fl)

/-- One stage of R50: neighbours added in pairs and rounded to f32. -/
def pairStage (mode : RM) : List Nat → List Nat × Flags
  | a :: b :: rest =>
    let (s, fl) := Num.add mode (fmtF32.value a) (fmtF32.value b)
    let (c, fl') := roundF32 mode s
    let (cs, fls) := pairStage mode rest
    (c :: cs, fl ||| fl' ||| fls)
  | xs => (xs, 0)

/-- The tree of R50 over a list whose length is a power of two. -/
def pairTree (mode : RM) : Nat → List Nat → Nat × Flags
  | 0, xs => (xs.headD 0, 0)
  | k + 1, xs =>
    let (ys, fl) := pairStage mode xs
    let (r, fl') := pairTree mode k ys
    (r, fl ||| fl')

/-- The least k with n at most 2^k. -/
def ceilLog2 (n : Nat) : Nat := if n ≤ 1 then 0 else bitLen (n - 1)

/-- The floating-point sum of R50 over f32 codes, extended with +0 to a power of two. -/
def treeSum (mode : RM) (xs : List Nat) : Nat × Flags :=
  let k := ceilLog2 xs.length
  pairTree mode k (xs ++ List.replicate (2 ^ k - xs.length) 0)

end Sys2Proof.Machine
end

