-- ==== Sys2Proof/Syntax.lean ====
section
/-! DEFINITION. The instruction set of the ZL9 as data: one constructor of Instr for each row of
spec/opcode_table.json, in the table's order but for some without operands, which stand last. Scalar words (R91-R100),
vector words (R101-R105), row-program words (R106-R107), expression operators (R110), and the steps of the device that
have no word (packets, scheduling, pager replies, management writes and the others of spec/95), which carry what the
outside party or unit supplies. -/

namespace Sys2Proof

/-- Scopes of acquire, release and performing (R97, R166), codes 0 to 4. -/
inductive Scope where
  | core | cluster | tower | package | fabric
  deriving DecidableEq, Repr

/-- Order of an atomic, fn[7:6] (R97). -/
inductive AmoOrder where
  | rlx | acq | rel | acqrel
  deriving DecidableEq, Repr

/-- The cache hint of a load or store (R95, R425). sync is acquire on a load and release on a store. -/
inductive Hint where
  | normal | bypass | sync | nonTemporal
  deriving DecidableEq, Repr

/-- The size of SEXT (R93). -/
inductive ExtSize where
  | byte | half | word
  deriving DecidableEq, Repr

/-- The access size of LD and ST (R95), codes 0 to 3. -/
inductive Size where
  | byte | half | word | dword
  deriving DecidableEq, Repr

/-- The kind of a FENCE, sel[4:3] (R98); code 00 is no instruction. -/
inductive FenceKind where
  | acq | rel | full
  deriving DecidableEq, Repr

/-- The FL field of a vector word (R101, R104); code 11 is no instruction. -/
inductive Fl where
  | always | first | last
  deriving DecidableEq, Repr

/-- The second operand of an integer vector word: a group, or the immediate form I (R416). -/
inductive VSrc where
  | reg (v : Reg)
  | imm (i : BitVec 16)
  deriving DecidableEq, Repr

/-- Conditions of VCMP, fn6[3:1] (R416). -/
inductive ICond where
  | eq | ne | lt | ge | le | gt
  deriving DecidableEq, Repr

/-- Conditions of VFCMP, fn6[2:0] (R420). -/
inductive FCond where
  | eq | ne | lt | le | gt | ge | un
  deriving DecidableEq, Repr

/-- Operations of VRED, fn6[2:0] (R432). -/
inductive RedOp where
  | sum | min | max | sums | and | or | xor
  deriving DecidableEq, Repr

/-- The fields common to masked vector words: msel, width override and FL (R101). -/
structure VMod where
  msel  : BitVec 3
  width : BitVec 3
  fl    : Fl
  deriving DecidableEq, Repr

/-- A row operand of a row-program word (R107): a compute row, or base b(j+1) plus an offset. -/
inductive RowRef where
  | comp (n : Fin 16)
  | data (j : Fin 7) (off : BitVec 8)
  deriving DecidableEq, Repr

/-- A host access: to device memory through CXL.mem (R148), or a doubleword of the register BAR at an offset (R328). -/
inductive HostAcc where
  | read (len : Nat)
  | write (bytes : List Byte)
  | barRead
  | barWrite (v : Word)
  deriving DecidableEq, Repr

/-- A request that another device of the load-store domain sends to this one (R144). -/
inductive FabricAcc where
  | load (len : Nat)
  | store (bytes : List Byte)
  | atomic (op : BitVec 5) (dword : Bool) (operand expected : Word)
  | tlsig (value : Word)
  | copyWrite (bytes : List Byte) (poison : Bool)
  deriving DecidableEq, Repr

/-- A latency capture unit (R316). -/
inductive MonUnit where
  | core (k : Nat)
  | tower (t : Nat)
  | queue (q : Nat)
  deriving DecidableEq, Repr

/-- The storage in which a row is learned at LV (R155). -/
inductive RowStore where
  | vault (k : Fin 4)
  | sa
  | cache
  deriving DecidableEq, Repr

/-- Registers that REGISTER_WRITE writes: those with no row of their own. Host queue registers (R72), page-request
controllers (R305), the event ring (R307), the monitors (R316), BERR (R248) and the management CSRs. -/
inductive MReg where
  | qbase (q : Nat) | qsize (q : Nat) | qhead (q : Nat) | qperiod (q : Nat) | qbudget (q : Nat) | qgang (q : Nat)
  | prqbase (t : Nat) | prqsize (t : Nat) | prqhead (t : Nat) | prtag (t : Nat) | prstat (t : Nat)
  | evbase | evhead
  | monCtl (u : MonUnit)
  | berr (t : Nat) (bank : Nat)
  | waitswap | ctxscope | railstat | clipstat | railcmd | thermcfg | clustersel | ptsel | ptroot
  | escrow
  | route (node : Nat)
  | lease (va : Word)
  deriving DecidableEq, Repr

/-- What the boot ROM meets in one start (R323): the failing stage with its tower and error code, if any, the
retired and narrowed channels that training found, tower by tower, and the images found in the boot flash. -/
structure StartRun where
  fail     : Option (Nat × Nat × BitVec 32)
  retired  : List (Nat × BitVec 48)
  narrowed : List (Nat × BitVec 48)
  deriving DecidableEq, Repr

/-- One constructor for each row of spec/opcode_table.json. -/
inductive Instr where
  -- ALU words (R330, R331)
  | add (d a b : Reg) | addw (d a b : Reg) | sub (d a b : Reg) | subw (d a b : Reg)
  | and (d a b : Reg) | or (d a b : Reg) | xor (d a b : Reg)
  | sll (d a b : Reg) | sllw (d a b : Reg) | srl (d a b : Reg) | srlw (d a b : Reg)
  | sra (d a b : Reg) | sraw (d a b : Reg) | slt (d a b : Reg) | sltu (d a b : Reg)
  | min (d a b : Reg) | max (d a b : Reg) | minu (d a b : Reg) | maxu (d a b : Reg)
  | clz (d a : Reg) | clzw (d a : Reg) | popc (d a : Reg) | popcw (d a : Reg)
  | sext (d a : Reg) (z : ExtSize)
  | mul (d a b : Reg) | mulw (d a b : Reg) | mulh (d a b : Reg) | mulhu (d a b : Reg)
  | div (d a b : Reg) | divw (d a b : Reg) | divu (d a b : Reg) | divuw (d a b : Reg)
  | rem (d a b : Reg) | remw (d a b : Reg) | remu (d a b : Reg) | remuw (d a b : Reg)
  -- immediates (R332, R396, R378, R337)
  | addi (d a : Reg) (i : BitVec 16) | andi (d a : Reg) (i : BitVec 16) | ori (d a : Reg) (i : BitVec 16)
  | xori (d a : Reg) (i : BitVec 16) | slti (d a : Reg) (i : BitVec 16)
  | slli (d a : Reg) (n : BitVec 6) | srli (d a : Reg) (n : BitVec 6) | srai (d a : Reg) (n : BitVec 6)
  | slliw (d a : Reg) (n : BitVec 5) | srliw (d a : Reg) (n : BitVec 5) | sraiw (d a : Reg) (n : BitVec 5)
  | lui (d : Reg) (i : BitVec 16) | auipc (d : Reg) (i : BitVec 16)
  -- loads, stores, atomics (R372, R399, R334)
  | ld (d a : Reg) (s : BitVec 3) (h : Hint) (z : Size) (n : Bool) (o : BitVec 8)
  | st (d a : Reg) (s : BitVec 3) (h : Hint) (z : Size) (o : BitVec 8)
  | amoswap (d a b : Reg) (sc : Scope) (o : AmoOrder) (w : Bool)
  | amoadd (d a b : Reg) (sc : Scope) (o : AmoOrder) (w : Bool)
  | amoand (d a b : Reg) (sc : Scope) (o : AmoOrder) (w : Bool)
  | amoor (d a b : Reg) (sc : Scope) (o : AmoOrder) (w : Bool)
  | amoxor (d a b : Reg) (sc : Scope) (o : AmoOrder) (w : Bool)
  | amomin (d a b : Reg) (sc : Scope) (o : AmoOrder) (w : Bool)
  | amomax (d a b : Reg) (sc : Scope) (o : AmoOrder) (w : Bool)
  | amominu (d a b : Reg) (sc : Scope) (o : AmoOrder) (w : Bool)
  | amomaxu (d a b : Reg) (sc : Scope) (o : AmoOrder) (w : Bool)
  | amocas (d a b : Reg) (sc : Scope) (o : AmoOrder) (w : Bool)
  -- branches and jumps (R338, R368, R339)
  | beq (a b : Reg) (o : BitVec 13) | bne (a b : Reg) (o : BitVec 13) | blt (a b : Reg) (o : BitVec 13)
  | bge (a b : Reg) (o : BitVec 13) | bltu (a b : Reg) (o : BitVec 13) | bgeu (a b : Reg) (o : BitVec 13)
  | j (o : BitVec 26) | jal (o : BitVec 26) | jalr (d a : Reg) (i : BitVec 16) | bmz (o : BitVec 26)
  -- synchronisation (R172, R165, R187, R55, R178)
  | fence (eng sa : Bool) (k : FenceKind) (sc : Scope)
  | sbar (m : BitVec 8)
  | ifence (d a : Reg)
  | tbar
  | tlwait (a b : Reg) (sc : Scope) | tlpoll (d a : Reg) (sc : Scope) | tlsig (a b : Reg) (sc : Scope)
  -- engine commands and row synchronisation (R100, R185)
  | cpy (d a : Reg) (c : BitVec 3) | gthr (d a : Reg) (c : BitVec 3) | sctr (d a : Reg) (c : BitVec 3)
  | rpl (d a : Reg) (c : BitVec 3) | bxl (d a : Reg) (c : BitVec 3)
  | rlock (a b : Reg) | runlock (a b : Reg) | rfence (a b : Reg)
  -- acorns and worlds (R63-R65, R262-R270)
  | spawn (d a : Reg) | join (d a : Reg) | tend
  | forkw (d a b : Reg) | wend (a : Reg) | choose (a : Reg) | chooseSelf | wabort | wquery (d a : Reg)
  -- vector control (R103, R193, R201, R210, R204, R217)
  | vfetch (d a b : Reg) | vsett (d a : Reg) | vsetl (d a : Reg) | vsetlLq (d : Reg) | tcfg (a : Reg)
  | vdrain | unfs (a : Reg)
  -- stream-accumulator control (R280, R291, R292)
  | sacfg (n : Fin 16) (a : Reg) | sasave (n : Fin 16) (a : Reg) | saload (n : Fin 16) (a : Reg)
  -- system (R351, R302, R300, R157, R156)
  | csrr (d : Reg) (s : BitVec 11) | csrw (d a : Reg) (s : BitVec 11) | csrs (d a : Reg) (s : BitVec 11)
  | csrc (d a : Reg) (s : BitVec 11)
  | trap (c : BitVec 11) | eret | railsel (d a : Reg) | clipq (d a : Reg)
  -- vector words (R102)
  | vstop | vskz (n : BitVec 16) (fl : Fl)
  | vadd (vd va : Reg) (b : VSrc) (q : VMod) | vsub (vd va : Reg) (b : VSrc) (q : VMod)
  | vadds (vd va : Reg) (b : VSrc) (q : VMod) | vsubs (vd va : Reg) (b : VSrc) (q : VMod)
  | vmul (vd va : Reg) (b : VSrc) (q : VMod) | vmulh (vd va : Reg) (b : VSrc) (q : VMod)
  | vmin (vd va : Reg) (b : VSrc) (q : VMod) | vmax (vd va : Reg) (b : VSrc) (q : VMod)
  | vand (vd va : Reg) (b : VSrc) (q : VMod) | vor (vd va : Reg) (b : VSrc) (q : VMod)
  | vxor (vd va : Reg) (b : VSrc) (q : VMod) | vsll (vd va : Reg) (b : VSrc) (q : VMod)
  | vsrl (vd va : Reg) (b : VSrc) (q : VMod) | vsra (vd va : Reg) (b : VSrc) (q : VMod)
  | vcmp (c : ICond) (md va : Reg) (b : VSrc) (q : VMod)
  | vsel (vd va : Reg) (b : VSrc) (ms : BitVec 3) (q : VMod)
  | vfadd (vd va vb : Reg) (rm : BitVec 3) (q : VMod) | vfsub (vd va vb : Reg) (rm : BitVec 3) (q : VMod)
  | vfmul (vd va vb : Reg) (rm : BitVec 3) (q : VMod)
  | vfma (vd va vb vc : Reg) (rm : BitVec 3) (q : VMod)
  | vfmin (vd va vb : Reg) (rm : BitVec 3) (q : VMod) | vfmax (vd va vb : Reg) (rm : BitVec 3) (q : VMod)
  | vfdiv (vd va vb : Reg) (rm : BitVec 3) (q : VMod)
  | vfsqrt (vd va : Reg) (rm : BitVec 3) (q : VMod) | vfrsq (vd va : Reg) (rm : BitVec 3) (q : VMod)
  | vfexp2 (vd va : Reg) (rm : BitVec 3) (q : VMod)
  | vfcmp (c : FCond) (md va vb : Reg) (rm : BitVec 3) (q : VMod)
  | vfcvt (vd va : Reg) (rm : BitVec 3) (p w : BitVec 3) (f : BitVec 5) (k : BitVec 4) (q : VMod)
  | vred (op : RedOp) (vd va : Reg) (rm : BitVec 3) (q : VMod)
  | vxch (vd va : Reg) (d : BitVec 16) (q : VMod) | vperm (vd va vb : Reg) (q : VMod)
  | vslide (vd va : Reg) (n : BitVec 16) (q : VMod)
  | vpopc (ms : BitVec 3) (fl : Fl)
  | mpush (ms : BitVec 3) (fl : Fl) | minv (fl : Fl) | mpop (fl : Fl) | mmov (md ms : BitVec 3) (fl : Fl)
  | vld (vd : Reg) (a : BitVec 2) (o : BitVec 16) (s : BitVec 3) (h : Hint) (q : VMod)
  | vst (vd : Reg) (a : BitVec 2) (o : BitVec 16) (s : BitVec 3) (h : Hint) (q : VMod)
  | vldx (vd : Reg) (a : BitVec 2) (vb : Reg) (s : BitVec 3) (h : Hint) (x64 : Bool) (q : VMod)
  | vstx (vd : Reg) (a : BitVec 2) (vb : Reg) (s : BitVec 3) (h : Hint) (x64 : Bool) (q : VMod)
  | tzero (t : BitVec 3) (fl : Fl)
  | troww (t : BitVec 3) (vs : Reg) (i : BitVec 4) (ix : Bool) (msel : BitVec 3) (fl : Fl)
  | trowr (vd : Reg) (t : BitVec 3) (i : BitVec 4) (ix : Bool) (msel : BitVec 3) (fl : Fl)
  | tcolw (t : BitVec 3) (vs : Reg) (i : BitVec 4) (ix : Bool) (msel : BitVec 3) (fl : Fl)
  | tcolr (vd : Reg) (t : BitVec 3) (i : BitVec 4) (ix : Bool) (msel : BitVec 3) (fl : Fl)
  | opa (t : BitVec 3) (va vb : Reg) (rm : BitVec 3) (u cs : Bool) (k : BitVec 8) (fl : Fl)
  | opag (t : BitVec 3) (va vb vc : Reg) (rm : BitVec 3) (u cs : Bool) (pairs k : BitVec 8) (fl : Fl)
  | saadd (vs : Reg) (a : BitVec 2) (o : BitVec 16) (s : BitVec 3) (q : VMod)
  | sanrm (vd : Reg) (a : BitVec 2) (o : BitVec 16) (s : BitVec 3) (rm : BitVec 3) (q : VMod)
  -- row-program words (R106)
  | aap (s d : RowRef) | tra (k : BitVec 2) | dnot (s d : RowRef) | lshf (s d : RowRef) | rshf (s d : RowRef)
  | loopw (c : BitVec 5) (m : BitVec 7)
  -- expression operators (R110)
  | eLdk (k : BitVec 2) | eCvt (k : BitVec 4) (p : BitVec 3)
  -- packets and queues (R72-R75)
  | qtailDoorbell (q : Nat) (tail : Word)
  | nop (q : Nat)
  | launch (q : Nat) (kernel frame counter value : Word)
  | wait (q : Nat) (counter value : Word)
  | packetWaitDone (q : Nat)
  | signal (q : Nat) (counter value : Word)
  | copy (q : Nat) (desc : Word)
  | bind (q : Nat) (table : Word)
  | configDeadline (q : Nat) (value : Word)
  | configGangTable (q : Nat) (table : Word)
  | queueRestart (q : Nat)
  | launchReady (l : Nat)
  -- scheduling (R58-R88)
  | periodStart (q : Nat) | budgetOverrun (q : Nat) | preempt (core : Nat)
  | gangrdyWrite (q m : Nat) (p : Word) | gangSkew (q : Nat)
  | heldAcornPlace (k : Nat) | watcherPush (k : Nat) | dequeSteal (thief victim : Nat)
  | teamSwapOut (team : Nat) | teamRequeue (team : Nat) | waitSatisfied (team hart : Nat)
  | hwErrorRestart (core : Nat) | forkContinuation (handle : Nat) | asyncFaultDelivery (team hart : Nat)
  -- pager, translation, memory from outside (R146-R161, R304)
  | mapped (tower : Nat) (tag : Word) | refuse (tower : Nat) (tag : Word) | deny (tower : Nat) (tag : Word)
  | ptinvPage (va : Word) | ptinvAsid | ptinvAll
  | leaseExpiry (va : Word)
  | hostMemAccess (h : Nat) (acc : HostAcc)
  | linkRetry (port : Nat)
  -- rails, power, heat (R153-R158, R308-R315)
  | railSwitchDone (cluster : Nat)
  | learnedRow (cluster : Nat) (store : RowStore) (row : Nat)
  | railcmdGo (cluster : Nat) (rail : Bool)
  | powermodeWrite (mode : BitVec 2)
  | matrixWindow (core : Nat)
  | thermalStep1 (tower temp : Nat) | thermalStep2 (tower temp : Nat) | thermalOffline (tower temp : Nat)
  | thermalUnwind (tower temp : Nat) | towerReturn (mask : BitVec 8)
  -- monitors, alarm, start-up, mailbox (R316-R326)
  | monitorClr (u : MonUnit) | monitorSample (u : MonUnit) (event : Nat) (sample : Nat)
  | alarmcfgWrite (v : Word) | alarm (sources : BitVec 5)
  | start (r : StartRun)
  | recover (image : List Byte) | provision (chain : List Byte)
  | writefw (image : List Byte) | attestationReport (nonce : BitVec 384)
  -- banks and engines (R227-R255, R175, R287, R293)
  | refreshDue (bank : Nat)
  | rowProgramStart (cid : Nat) | waveAdmit (cid : Nat) | bxlStart (cid : Nat) | copyStart (cid : Nat)
  | gatherStart (cid : Nat) | scatterStart (cid : Nat) | engineComplete (cid : Nat)
  | saaddApply (k : Nat) | saEvict (launch cluster : Nat) | saRestore (launch cluster : Nat)
  -- registers and the fabric
  | registerWrite (r : MReg) (v : Word)
  | illegal (w : BitVec 32)
  | fabricRequest (asid : BitVec 16) (va : Word) (acc : FabricAcc)
  -- row-program words, expression operators and device steps without operands
  | halt | endw | step
  | eLda | eLdb | eAdd | eSub | eMul | eFma | eMin | eMax | eAbs | eNeg | eCmplt | eSel | eDup | eSwap | eDrop
  | eSumr | eMaxr | eSto
  | pendingClear | contractLoss | contractHolds | startTimeout | report | clear | reset | done
  deriving DecidableEq, Repr

end Sys2Proof
end

