-- ==== Sys2Proof/WellFormed.lean ====
section
/-! DEFINITION. Which terms of Instr stand for a word (R90): the limits on register numbers, masks, scopes and
options that the types of Syntax.lean do not already carry. -/

namespace Sys2Proof

/-- The second operand of an integer vector word is always encodable (R416). -/
def VSrc.wf (_ : VSrc) : Bool := true

/-- The rm field of a vector word: 6 and 7 are ILLEGAL (R101). -/
def rmOk (rm : BitVec 3) : Bool := rm.toNat ≤ 5

/-- A mask register m2 to m7 named by a register field (R416, R420). -/
def maskRegOk (m : Reg) : Bool := 2 ≤ m.val && m.val ≤ 7

/-- The destination of AAP, DNOT, LSHF and RSHF: c2, c4 to c15 or a data row (R108, R329). -/
def rowDestOk : RowRef → Bool
  | .comp n => n.val == 2 || 4 ≤ n.val
  | .data _ _ => true

/-- Argument registers of an ENG word: xa is not 0 and the last is at most x31 (R100). -/
def engArgsOk (a : Reg) (count : Nat) : Bool := a.val ≠ 0 && a.val + count - 1 ≤ 31

/-- The E.CVT format byte: kind 0 to 8, P 1 to 7 for the b8 kinds and 0 otherwise (R110). -/
def cvtOk (k : BitVec 4) (p : BitVec 3) : Bool :=
  if k.toNat == 7 || k.toNat == 8 then p.toNat ≠ 0 else k.toNat ≤ 6 && p.toNat == 0

/-- Well-formed words (R90). The steps of the device that have no word are well formed as they stand. -/
def Instr.wf : Instr → Bool
  | .ld _ _ _ _ z n _ => !(n && z == .dword)
  | .sbar m => m ≠ 0
  | .cpy _ a _ => engArgsOk a 1
  | .gthr _ a _ | .sctr _ a _ => engArgsOk a 5
  | .rpl _ a _ => engArgsOk a 4
  | .bxl _ a _ => engArgsOk a 6
  | .vfetch d _ _ => d.val ≤ 28
  | .vskz n _ => n ≠ 0
  | .vcmp _ md _ _ _ => maskRegOk md
  | .vsel _ _ _ ms _ => ms ≠ 0
  | .vfadd _ _ _ rm _ | .vfsub _ _ _ rm _ | .vfmul _ _ _ rm _ | .vfma _ _ _ _ rm _ | .vfmin _ _ _ rm _
  | .vfmax _ _ _ rm _ | .vfdiv _ _ _ rm _ | .vfsqrt _ _ rm _ | .vfrsq _ _ rm _ | .vfexp2 _ _ rm _
  | .vred _ _ _ rm _ | .sanrm _ _ _ _ rm _ => rmOk rm
  | .vfcvt _ _ rm _ w f _ _ => rmOk rm && decide (w.toNat ≤ 6) && decide (f.toNat ≤ 7)
  | .vfcmp _ md _ _ rm _ => maskRegOk md && rmOk rm
  | .vpopc ms _ => ms ≠ 0
  | .mpush ms _ => 2 ≤ ms.toNat
  | .mmov md ms _ => 2 ≤ md.toNat && ms ≠ 0
  | .opa _ va _ rm u cs _ _ | .opag _ va _ _ rm u cs _ _ _ =>
      rmOk rm && (!u || va.val == 0) && (!cs || u)
  | .aap _ d | .dnot _ d | .lshf _ d | .rshf _ d => rowDestOk d
  | .eCvt k p => cvtOk k p
  | _ => true

end Sys2Proof
end

