-- ==== Sys2Proof/Decode.lean ====
section
/-! DEFINITION. From words to instructions and back, from the tables of R91 to R110: scalar words (32 bits),
vector words (64 bits), row-program words (32 bits) and expression operators (bytes). Decoding is total and rejects
by the name of the part of R90 that a word breaks. -/

namespace Sys2Proof

/-- Which condition of R90 a word breaks. -/
inductive Reject where
  /-- the major code is not assigned -/
  | major
  /-- a sub-field value is not assigned -/
  | subField
  /-- a field that the instruction does not use is not zero -/
  | unusedField
  /-- a register, mask or row field is outside its limits -/
  | limit
  deriving DecidableEq, Repr

/-- n bits of a word from bit lo up. -/
abbrev bits {w : Nat} (x : BitVec w) (lo n : Nat) : BitVec n := x.extractLsb' lo n

/-- A register number from its five bits. -/
def regOf (b : BitVec 5) : Reg := b.toFin

/-- The five bits of a register number. -/
def regBits (r : Reg) : BitVec 5 := BitVec.ofFin r

/-- One bit as a Bool, and back. -/
def flagOf (b : BitVec 1) : Bool := b == 1#1
def flagBits (b : Bool) : BitVec 1 := if b then 1#1 else 0#1

/-- Accept i when the condition holds, or reject by name. -/
def accept (c : Bool) (r : Reject) (i : Instr) : Except Reject Instr := if c then .ok i else .error r

/-- Scope codes (R97, R98, R99): 5 to 7 are unassigned. -/
def scopeOf : BitVec 3 → Option Scope
  | 0#3 => some .core | 1#3 => some .cluster | 2#3 => some .tower | 3#3 => some .package | 4#3 => some .fabric
  | _ => none
def scopeBits : Scope → BitVec 3
  | .core => 0#3 | .cluster => 1#3 | .tower => 2#3 | .package => 3#3 | .fabric => 4#3

def orderOf : BitVec 2 → AmoOrder
  | 0#2 => .rlx | 1#2 => .acq | 2#2 => .rel | _ => .acqrel
def orderBits : AmoOrder → BitVec 2
  | .rlx => 0#2 | .acq => 1#2 | .rel => 2#2 | .acqrel => 3#2

def hintOf : BitVec 2 → Hint
  | 0#2 => .normal | 1#2 => .bypass | 2#2 => .sync | _ => .nonTemporal
def hintBits : Hint → BitVec 2
  | .normal => 0#2 | .bypass => 1#2 | .sync => 2#2 | .nonTemporal => 3#2

def sizeOf' : BitVec 2 → Size
  | 0#2 => .byte | 1#2 => .half | 2#2 => .word | _ => .dword
def sizeBits : Size → BitVec 2
  | .byte => 0#2 | .half => 1#2 | .word => 2#2 | .dword => 3#2

def extOf : BitVec 2 → Option ExtSize
  | 0#2 => some .byte | 1#2 => some .half | 2#2 => some .word | _ => none
def extBits : ExtSize → BitVec 2
  | .byte => 0#2 | .half => 1#2 | .word => 2#2

def kindOf : BitVec 2 → Option FenceKind
  | 1#2 => some .acq | 2#2 => some .rel | 3#2 => some .full | _ => none
def kindBits : FenceKind → BitVec 2
  | .acq => 1#2 | .rel => 2#2 | .full => 3#2

def flOf : BitVec 2 → Option Fl
  | 0#2 => some .always | 1#2 => some .first | 2#2 => some .last | _ => none
def flBits : Fl → BitVec 2
  | .always => 0#2 | .first => 1#2 | .last => 2#2

def icondOf : BitVec 3 → Option ICond
  | 0#3 => some .eq | 1#3 => some .ne | 2#3 => some .lt | 3#3 => some .ge | 4#3 => some .le | 5#3 => some .gt
  | _ => none
def icondBits : ICond → BitVec 3
  | .eq => 0#3 | .ne => 1#3 | .lt => 2#3 | .ge => 3#3 | .le => 4#3 | .gt => 5#3

def fcondOf : BitVec 3 → Option FCond
  | 0#3 => some .eq | 1#3 => some .ne | 2#3 => some .lt | 3#3 => some .le | 4#3 => some .gt | 5#3 => some .ge
  | 6#3 => some .un | _ => none
def fcondBits : FCond → BitVec 3
  | .eq => 0#3 | .ne => 1#3 | .lt => 2#3 | .le => 3#3 | .gt => 4#3 | .ge => 5#3 | .un => 6#3

def redOf : BitVec 3 → Option RedOp
  | 0#3 => some .sum | 1#3 => some .min | 2#3 => some .max | 3#3 => some .sums | 4#3 => some .and | 5#3 => some .or
  | 6#3 => some .xor | _ => none
def redBits : RedOp → BitVec 3
  | .sum => 0#3 | .min => 1#3 | .max => 2#3 | .sums => 3#3 | .and => 4#3 | .or => 5#3 | .xor => 6#3

/-! ### Scalar words -/

/-- The fields of a 32-bit scalar word (R91): op, xd, xa, xb and fn of format SR; imm16 covers xb and fn. -/
structure SFields where
  op : BitVec 6
  d  : Reg
  a  : Reg
  b  : Reg
  fn : BitVec 11
  deriving DecidableEq, Repr

def SFields.of (w : BitVec 32) : SFields :=
  { op := bits w 26 6, d := regOf (bits w 21 5), a := regOf (bits w 16 5), b := regOf (bits w 11 5), fn := bits w 0 11 }

/-- A word of format SR (R91). -/
def encSR (op : BitVec 6) (d a b : BitVec 5) (fn : BitVec 11) : BitVec 32 := op ++ d ++ a ++ b ++ fn
/-- A word of format SI (R91). -/
def encSI (op : BitVec 6) (d a : BitVec 5) (i : BitVec 16) : BitVec 32 := op ++ d ++ a ++ i
/-- A word of format SJ (R91). -/
def encSJ (op : BitVec 6) (o : BitVec 26) : BitVec 32 := op ++ o

/-- ALU operations with three registers, with their fn (R93, R331). -/
def decodeAlu3 (fn : BitVec 11) (d a b : Reg) : Option Instr :=
  match fn with
  | 0x000#11 => some (.add d a b)  | 0x400#11 => some (.addw d a b)
  | 0x001#11 => some (.sub d a b)  | 0x401#11 => some (.subw d a b)
  | 0x002#11 => some (.and d a b)  | 0x003#11 => some (.or d a b)   | 0x004#11 => some (.xor d a b)
  | 0x005#11 => some (.sll d a b)  | 0x405#11 => some (.sllw d a b)
  | 0x006#11 => some (.srl d a b)  | 0x406#11 => some (.srlw d a b)
  | 0x007#11 => some (.sra d a b)  | 0x407#11 => some (.sraw d a b)
  | 0x008#11 => some (.slt d a b)  | 0x009#11 => some (.sltu d a b)
  | 0x00A#11 => some (.min d a b)  | 0x00B#11 => some (.max d a b)
  | 0x00C#11 => some (.minu d a b) | 0x00D#11 => some (.maxu d a b)
  | 0x018#11 => some (.mul d a b)  | 0x418#11 => some (.mulw d a b)
  | 0x019#11 => some (.mulh d a b) | 0x01A#11 => some (.mulhu d a b)
  | 0x01C#11 => some (.div d a b)  | 0x41C#11 => some (.divw d a b)
  | 0x01D#11 => some (.divu d a b) | 0x41D#11 => some (.divuw d a b)
  | 0x01E#11 => some (.rem d a b)  | 0x41E#11 => some (.remw d a b)
  | 0x01F#11 => some (.remu d a b) | 0x41F#11 => some (.remuw d a b)
  | _ => none

/-- ALU operations with one source, with their fn (R93, R331); xb must be zero. -/
def decodeAlu2 (fn : BitVec 11) (d a : Reg) : Option Instr :=
  match fn with
  | 0x00E#11 => some (.clz d a)  | 0x40E#11 => some (.clzw d a)
  | 0x00F#11 => some (.popc d a) | 0x40F#11 => some (.popcw d a)
  | 0x010#11 => some (.sext d a .byte) | 0x050#11 => some (.sext d a .half) | 0x090#11 => some (.sext d a .word)
  | _ => none

def decodeAlu (f : SFields) : Except Reject Instr :=
  match decodeAlu3 f.fn f.d f.a f.b with
  | some i => .ok i
  | none =>
    match decodeAlu2 f.fn f.d f.a with
    | some i => accept (f.b.val == 0) .unusedField i
    | none => .error .subField

/-- Shift immediates (R94, R396). -/
def decodeShi (d a : Reg) (i : BitVec 16) : Except Reject Instr :=
  if bits i 6 7 ≠ 0#7 then .error .unusedField
  else match bits i 13 3 with
    | 0#3 => .ok (.slli d a (bits i 0 6))
    | 2#3 => .ok (.srli d a (bits i 0 6))
    | 4#3 => .ok (.srai d a (bits i 0 6))
    | 1#3 => accept (bits i 5 1 == 0#1) .limit (.slliw d a (bits i 0 5))
    | 3#3 => accept (bits i 5 1 == 0#1) .limit (.srliw d a (bits i 0 5))
    | 5#3 => accept (bits i 5 1 == 0#1) .limit (.sraiw d a (bits i 0 5))
    | _ => .error .subField

/-- LD and ST (R95). -/
def decodeLd (d a : Reg) (i : BitVec 16) : Except Reject Instr :=
  let z := sizeOf' (bits i 9 2)
  let n := flagOf (bits i 8 1)
  accept (!(n && z == .dword)) .subField
    (.ld d a (bits i 13 3) (hintOf (bits i 11 2)) z n (bits i 0 8))
def decodeSt (d a : Reg) (i : BitVec 16) : Except Reject Instr :=
  accept (bits i 8 1 == 0#1) .unusedField
    (.st d a (bits i 13 3) (hintOf (bits i 11 2)) (sizeOf' (bits i 9 2)) (bits i 0 8))

/-- Atomics (R97). -/
def decodeAmo (f : SFields) : Except Reject Instr :=
  match scopeOf (bits f.fn 8 3) with
  | none => .error .subField
  | some sc =>
    let o := orderOf (bits f.fn 6 2)
    let w := flagOf (bits f.fn 5 1)
    match bits f.fn 0 5 with
    | 0x00#5 => .ok (.amoswap f.d f.a f.b sc o w) | 0x01#5 => .ok (.amoadd f.d f.a f.b sc o w)
    | 0x02#5 => .ok (.amoand f.d f.a f.b sc o w)  | 0x03#5 => .ok (.amoor f.d f.a f.b sc o w)
    | 0x04#5 => .ok (.amoxor f.d f.a f.b sc o w)  | 0x05#5 => .ok (.amomin f.d f.a f.b sc o w)
    | 0x06#5 => .ok (.amomax f.d f.a f.b sc o w)  | 0x07#5 => .ok (.amominu f.d f.a f.b sc o w)
    | 0x08#5 => .ok (.amomaxu f.d f.a f.b sc o w) | 0x10#5 => .ok (.amocas f.d f.a f.b sc o w)
    | _ => .error .subField

/-- Conditional branches (R96): xa in [25:21], xb in [20:16]. -/
def decodeBcc (a b : Reg) (i : BitVec 16) : Except Reject Instr :=
  let o := bits i 0 13
  match bits i 13 3 with
  | 0#3 => .ok (.beq a b o) | 1#3 => .ok (.bne a b o) | 2#3 => .ok (.blt a b o)
  | 3#3 => .ok (.bge a b o) | 4#3 => .ok (.bltu a b o) | 5#3 => .ok (.bgeu a b o)
  | _ => .error .subField

/-- SYNC words (R98): sub in the place of xb, sel in the place of fn. -/
def decodeSync (f : SFields) : Except Reject Instr :=
  match f.b.val with
  | 0 =>
    match kindOf (bits f.fn 3 2), scopeOf (bits f.fn 0 3) with
    | some k, some sc =>
      accept (bits f.fn 7 4 == 0#4 && f.d.val == 0 && f.a.val == 0) .unusedField
        (.fence (flagOf (bits f.fn 6 1)) (flagOf (bits f.fn 5 1)) k sc)
    | _, _ => .error .subField
  | 1 =>
    if bits f.fn 0 8 = 0#8 then .error .subField
    else accept (bits f.fn 8 3 == 0#3 && f.d.val == 0 && f.a.val == 0) .unusedField (.sbar (bits f.fn 0 8))
  | 2 => accept (f.fn == 0#11) .unusedField (.ifence f.d f.a)
  | 3 => accept (f.fn == 0#11 && f.d.val == 0 && f.a.val == 0) .unusedField .tbar
  | _ => .error .subField

/-- Timeline-counter words (R99, R409). -/
def decodeTl (f : SFields) : Except Reject Instr :=
  match scopeOf (bits f.fn 2 3) with
  | none => .error .subField
  | some sc =>
    if bits f.fn 5 6 ≠ 0#6 then .error .unusedField
    else match bits f.fn 0 2 with
      | 0#2 => accept (f.d.val == 0) .unusedField (.tlwait f.a f.b sc)
      | 1#2 => accept (f.b.val == 0) .unusedField (.tlpoll f.d f.a sc)
      | 2#2 => accept (f.d.val == 0) .unusedField (.tlsig f.a f.b sc)
      | _ => .error .subField

/-- Engine commands (R99, R100). -/
def decodeEng (f : SFields) : Except Reject Instr :=
  if bits f.fn 7 4 ≠ 0#4 || f.b.val ≠ 0 then .error .unusedField
  else
    let c := bits f.fn 0 3
    match bits f.fn 3 4 with
    | 0#4 => accept (engArgsOk f.a 1) .limit (.cpy f.d f.a c)
    | 1#4 => accept (engArgsOk f.a 5) .limit (.gthr f.d f.a c)
    | 2#4 => accept (engArgsOk f.a 5) .limit (.sctr f.d f.a c)
    | 3#4 => accept (engArgsOk f.a 4) .limit (.rpl f.d f.a c)
    | 4#4 => accept (engArgsOk f.a 6) .limit (.bxl f.d f.a c)
    | _ => .error .subField

/-- Row synchronisation (R99, R386). -/
def decodeRowsync (f : SFields) : Except Reject Instr :=
  match f.fn with
  | 0#11 => accept (f.d.val == 0) .unusedField (.rlock f.a f.b)
  | 1#11 => accept (f.d.val == 0) .unusedField (.runlock f.a f.b)
  | 2#11 => accept (f.d.val == 0) .unusedField (.rfence f.a f.b)
  | _ => .error .subField

/-- Acorn words (R62). -/
def decodeAcorn (f : SFields) : Except Reject Instr :=
  match f.fn with
  | 0#11 => accept (f.b.val == 0) .unusedField (.spawn f.d f.a)
  | 1#11 => accept (f.b.val == 0) .unusedField (.join f.d f.a)
  | 2#11 => accept (f.b.val == 0 && f.d.val == 0 && f.a.val == 0) .unusedField .tend
  | _ => .error .subField

/-- World words (R261). -/
def decodeWorld (f : SFields) : Except Reject Instr :=
  match f.fn with
  | 0x00#11 => .ok (.forkw f.d f.a f.b)
  | 0x01#11 => accept (f.d.val == 0 && f.b.val == 0) .unusedField (.wend f.a)
  | 0x02#11 => accept (f.d.val == 0 && f.b.val == 0) .unusedField (.choose f.a)
  | 0x22#11 => accept (f.d.val == 0 && f.a.val == 0 && f.b.val == 0) .unusedField .chooseSelf
  | 0x03#11 => accept (f.d.val == 0 && f.a.val == 0 && f.b.val == 0) .unusedField .wabort
  | 0x04#11 => accept (f.b.val == 0) .unusedField (.wquery f.d f.a)
  | _ => .error .subField

/-- Vector control (R99). -/
def decodeVctl (f : SFields) : Except Reject Instr :=
  match f.fn with
  | 0x00#11 => accept (f.d.val ≤ 28) .limit (.vfetch f.d f.a f.b)
  | 0x01#11 => accept (f.b.val == 0) .unusedField (.vsett f.d f.a)
  | 0x02#11 => accept (f.b.val == 0) .unusedField (.vsetl f.d f.a)
  | 0x22#11 => accept (f.b.val == 0 && f.a.val == 0) .unusedField (.vsetlLq f.d)
  | 0x03#11 => accept (f.b.val == 0 && f.d.val == 0) .unusedField (.tcfg f.a)
  | 0x04#11 => accept (f.b.val == 0 && f.d.val == 0 && f.a.val == 0) .unusedField .vdrain
  | 0x05#11 => accept (f.b.val == 0 && f.d.val == 0) .unusedField (.unfs f.a)
  | _ => .error .subField

/-- An accumulator number, xd of an SACTL word: 0 to 15 (R99). -/
def saOf (d : Reg) : Fin 16 := ⟨d.val % 16, Nat.mod_lt _ (by decide)⟩

/-- Stream-accumulator control (R99, R280). -/
def decodeSactl (f : SFields) : Except Reject Instr :=
  if f.b.val ≠ 0 then .error .unusedField
  else if 16 ≤ f.d.val then .error .limit
  else match f.fn with
    | 0#11 => .ok (.sacfg (saOf f.d) f.a)
    | 1#11 => .ok (.sasave (saOf f.d) f.a)
    | 2#11 => .ok (.saload (saOf f.d) f.a)
    | _ => .error .subField

/-- SYS words (R98). -/
def decodeSys (f : SFields) : Except Reject Instr :=
  match f.b.val with
  | 0 => accept (f.a.val == 0) .unusedField (.csrr f.d f.fn)
  | 1 => .ok (.csrw f.d f.a f.fn)
  | 2 => .ok (.csrs f.d f.a f.fn)
  | 3 => .ok (.csrc f.d f.a f.fn)
  | 4 => accept (f.d.val == 0 && f.a.val == 0) .unusedField (.trap f.fn)
  | 5 => accept (f.d.val == 0 && f.a.val == 0 && f.fn == 0#11) .unusedField .eret
  | 6 => accept (f.fn == 0#11) .unusedField (.railsel f.d f.a)
  | 7 => accept (f.fn == 0#11) .unusedField (.clipq f.d f.a)
  | _ => .error .subField

/-- The instruction of a scalar word, or why it is none (R90, R92). -/
def decodeScalar (w : BitVec 32) : Except Reject Instr :=
  let f := SFields.of w
  let i : BitVec 16 := bits w 0 16
  let o : BitVec 26 := bits w 0 26
  match f.op with
  | 0x00#6 => decodeAlu f
  | 0x01#6 => .ok (.addi f.d f.a i)
  | 0x02#6 => .ok (.andi f.d f.a i)
  | 0x03#6 => .ok (.ori f.d f.a i)
  | 0x04#6 => .ok (.xori f.d f.a i)
  | 0x05#6 => decodeShi f.d f.a i
  | 0x06#6 => .ok (.slti f.d f.a i)
  | 0x07#6 => accept (f.a.val == 0) .unusedField (.lui f.d i)
  | 0x08#6 => accept (f.a.val == 0) .unusedField (.auipc f.d i)
  | 0x09#6 => decodeLd f.d f.a i
  | 0x0A#6 => decodeSt f.d f.a i
  | 0x0B#6 => decodeAmo f
  | 0x10#6 => decodeBcc f.d f.a i
  | 0x11#6 => .ok (.j o)
  | 0x12#6 => .ok (.jal o)
  | 0x13#6 => .ok (.jalr f.d f.a i)
  | 0x14#6 => .ok (.bmz o)
  | 0x18#6 => decodeSync f
  | 0x19#6 => decodeTl f
  | 0x1A#6 => decodeEng f
  | 0x1B#6 => decodeRowsync f
  | 0x1C#6 => decodeAcorn f
  | 0x1D#6 => decodeWorld f
  | 0x1E#6 => decodeVctl f
  | 0x1F#6 => decodeSactl f
  | 0x3F#6 => decodeSys f
  | _ => .error .major

/-! ### Vector words -/

/-- The fields of a 64-bit vector word (R101). -/
structure VFields where
  vop : BitVec 8
  vd  : Reg
  va  : Reg
  vb  : Reg
  vc  : Reg
  msel : BitVec 3
  st  : BitVec 3
  rm  : BitVec 3
  wo  : BitVec 3
  fn6 : BitVec 6
  fl  : BitVec 2
  imm : BitVec 16
  deriving DecidableEq, Repr

def VFields.of (w : BitVec 64) : VFields :=
  { vop := bits w 56 8, vd := regOf (bits w 51 5), va := regOf (bits w 46 5), vb := regOf (bits w 41 5),
    vc := regOf (bits w 36 5), msel := bits w 33 3, st := bits w 30 3, rm := bits w 27 3, wo := bits w 24 3,
    fn6 := bits w 18 6, fl := bits w 16 2, imm := bits w 0 16 }

/-- A vector word from its fields (R101). -/
def VFields.word (f : VFields) : BitVec 64 :=
  f.vop ++ regBits f.vd ++ regBits f.va ++ regBits f.vb ++ regBits f.vc ++ f.msel ++ f.st ++ f.rm ++ f.wo ++ f.fn6
    ++ f.fl ++ f.imm

/-- A word with every field but vop zero. -/
def VFields.zero (vop : BitVec 8) : VFields :=
  { vop, vd := 0, va := 0, vb := 0, vc := 0, msel := 0, st := 0, rm := 0, wo := 0, fn6 := 0, fl := 0, imm := 0 }

/-- Reject an instruction unless re-encoding it gives back every field: so every field that the instruction does not
use is zero (R90). -/
def VFields.exact (f g : VFields) (i : Instr) : Except Reject Instr := accept (decide (f = g)) .unusedField i

/-- The second operand of an integer word (R416): I is fn6[0]; vb must be 0 with I, imm16 zero without. -/
def vsrcOf (f : VFields) : VSrc := if f.fn6.getLsbD 0 then .imm f.imm else .reg f.vb
def VSrc.put (b : VSrc) (f : VFields) : VFields :=
  match b with
  | .reg v => { f with vb := v }
  | .imm i => { f with imm := i, fn6 := f.fn6 ||| 1#6 }

def VMod.put (q : VMod) (f : VFields) : VFields := { f with msel := q.msel, wo := q.width, fl := flBits q.fl }

/-- A tile or mask number from the low three bits of a register field. -/
def low3 (r : Reg) : BitVec 3 := bits (regBits r) 0 3
/-- A register field that holds a number below 8. -/
def reg3 (b : BitVec 3) : Reg := regOf (0#2 ++ b)
/-- An address base a0 to a3 in the va field (R101). -/
def reg2 (b : BitVec 2) : Reg := regOf (0#3 ++ b)

/-- The fields of a slice move (R212). -/
def VFields.tileMove (vop : BitVec 8) (vd va : Reg) (i : BitVec 4) (ix : Bool) (m : BitVec 3) (fl : Fl) : VFields :=
  { VFields.zero vop with vd, va, msel := m, fl := flBits fl, fn6 := 0#5 ++ flagBits ix, imm := 0#12 ++ i }

/-- The fields of an outer product (R381). -/
def VFields.outer (vop : BitVec 8) (t : BitVec 3) (va vb vc : Reg) (rm : BitVec 3) (u cs : Bool)
    (pairs k : BitVec 8) (fl : Fl) : VFields :=
  { VFields.zero vop with vd := reg3 t, va, vb, vc, rm, fl := flBits fl,
                          fn6 := 0#1 ++ flagBits u ++ flagBits cs ++ 0#3, imm := pairs ++ k }

/-- A vector word of a well-formed vector instruction (R101, R102 and the entries of the reference). -/
def encodeVFields : Instr → Option VFields
  | .vstop => some (.zero 0x01)
  | .vskz n fl => some { VFields.zero 0x02 with imm := n, fl := flBits fl }
  | .vadd vd va b q => some (q.put (b.put { VFields.zero 0x10 with vd, va }))
  | .vsub vd va b q => some (q.put (b.put { VFields.zero 0x11 with vd, va }))
  | .vadds vd va b q => some (q.put (b.put { VFields.zero 0x12 with vd, va }))
  | .vsubs vd va b q => some (q.put (b.put { VFields.zero 0x13 with vd, va }))
  | .vmul vd va b q => some (q.put (b.put { VFields.zero 0x14 with vd, va }))
  | .vmulh vd va b q => some (q.put (b.put { VFields.zero 0x15 with vd, va }))
  | .vmin vd va b q => some (q.put (b.put { VFields.zero 0x16 with vd, va }))
  | .vmax vd va b q => some (q.put (b.put { VFields.zero 0x17 with vd, va }))
  | .vand vd va b q => some (q.put (b.put { VFields.zero 0x18 with vd, va }))
  | .vor vd va b q => some (q.put (b.put { VFields.zero 0x19 with vd, va }))
  | .vxor vd va b q => some (q.put (b.put { VFields.zero 0x1A with vd, va }))
  | .vsll vd va b q => some (q.put (b.put { VFields.zero 0x1B with vd, va }))
  | .vsrl vd va b q => some (q.put (b.put { VFields.zero 0x1C with vd, va }))
  | .vsra vd va b q => some (q.put (b.put { VFields.zero 0x1D with vd, va }))
  | .vcmp c md va b q =>
      some (q.put (b.put { VFields.zero 0x1E with vd := md, va, fn6 := 0#2 ++ icondBits c ++ 0#1 }))
  | .vsel vd va b ms q => some (q.put (b.put { VFields.zero 0x1F with vd, va, vc := reg3 ms }))
  | .vfadd vd va vb rm q => some (q.put { VFields.zero 0x20 with vd, va, vb, rm })
  | .vfsub vd va vb rm q => some (q.put { VFields.zero 0x21 with vd, va, vb, rm })
  | .vfmul vd va vb rm q => some (q.put { VFields.zero 0x22 with vd, va, vb, rm })
  | .vfma vd va vb vc rm q => some (q.put { VFields.zero 0x23 with vd, va, vb, vc, rm })
  | .vfmin vd va vb rm q => some (q.put { VFields.zero 0x24 with vd, va, vb, rm })
  | .vfmax vd va vb rm q => some (q.put { VFields.zero 0x25 with vd, va, vb, rm })
  | .vfdiv vd va vb rm q => some (q.put { VFields.zero 0x26 with vd, va, vb, rm })
  | .vfsqrt vd va rm q => some (q.put { VFields.zero 0x27 with vd, va, rm })
  | .vfrsq vd va rm q => some (q.put { VFields.zero 0x28 with vd, va, rm })
  | .vfexp2 vd va rm q => some (q.put { VFields.zero 0x29 with vd, va, rm })
  | .vfcmp c md va vb rm q => some (q.put { VFields.zero 0x2A with vd := md, va, vb, rm, fn6 := 0#3 ++ fcondBits c })
  | .vfcvt vd va rm p w f k q =>
      some (q.put { VFields.zero 0x2B with vd, va, rm, fn6 := 0#3 ++ p, imm := w ++ f ++ 0#4 ++ k })
  | .vred op vd va rm q => some (q.put { VFields.zero 0x30 with vd, va, rm, fn6 := 0#3 ++ redBits op })
  | .vxch vd va d q => some (q.put { VFields.zero 0x31 with vd, va, imm := d })
  | .vperm vd va vb q => some (q.put { VFields.zero 0x32 with vd, va, vb })
  | .vslide vd va n q => some (q.put { VFields.zero 0x33 with vd, va, imm := n })
  | .vpopc ms fl => some { VFields.zero 0x34 with va := reg3 ms, fl := flBits fl }
  | .mpush ms fl => some { VFields.zero 0x38 with va := reg3 ms, fl := flBits fl }
  | .minv fl => some { VFields.zero 0x39 with fl := flBits fl }
  | .mpop fl => some { VFields.zero 0x3A with fl := flBits fl }
  | .mmov md ms fl => some { VFields.zero 0x3B with vd := reg3 md, va := reg3 ms, fl := flBits fl }
  | .vld vd a o s h q => some (q.put { VFields.zero 0x40 with vd, va := reg2 a, imm := o, st := s, fn6 := 0#4 ++ hintBits h })
  | .vst vd a o s h q => some (q.put { VFields.zero 0x41 with vd, va := reg2 a, imm := o, st := s, fn6 := 0#4 ++ hintBits h })
  | .vldx vd a vb s h x q =>
      some (q.put { VFields.zero 0x42 with vd, va := reg2 a, vb, st := s, fn6 := 0#3 ++ flagBits x ++ hintBits h })
  | .vstx vd a vb s h x q =>
      some (q.put { VFields.zero 0x43 with vd, va := reg2 a, vb, st := s, fn6 := 0#3 ++ flagBits x ++ hintBits h })
  | .tzero t fl => some { VFields.zero 0x50 with vd := reg3 t, fl := flBits fl }
  | .troww t vs i ix m fl => some (VFields.tileMove 0x51 (reg3 t) (vs) i ix m fl)
  | .trowr vd t i ix m fl => some (VFields.tileMove 0x52 (vd) (reg3 t) i ix m fl)
  | .tcolw t vs i ix m fl => some (VFields.tileMove 0x53 (reg3 t) (vs) i ix m fl)
  | .tcolr vd t i ix m fl => some (VFields.tileMove 0x54 (vd) (reg3 t) i ix m fl)
  | .opa t va vb rm u cs k fl => some (VFields.outer 0x55 t va vb 0 rm u cs 0 k fl)
  | .opag t va vb vc rm u cs pairs k fl => some (VFields.outer 0x56 t va vb vc rm u cs pairs k fl)
  | .saadd vs a o s q => some (q.put { VFields.zero 0x58 with vd := vs, va := reg2 a, imm := o, st := s })
  | .sanrm vd a o s rm q => some (q.put { VFields.zero 0x59 with vd, va := reg2 a, imm := o, st := s, rm })
  | _ => none

/-- A vector word (R101, R102). -/
def encodeVector (i : Instr) : Option (BitVec 64) := (encodeVFields i).map VFields.word

/-- The instruction that a vector word's fields name when every unused field is zero (R102). -/
def vectorShape (f : VFields) (fl : Fl) : Except Reject Instr :=
  let q : VMod := { msel := f.msel, width := f.wo, fl := fl }
  let b := vsrcOf f
  let ab := bits (regBits f.va) 0 2
  let h := hintOf (bits f.fn6 0 2)
  let x := flagOf (bits f.fn6 2 1)
  let ix := flagOf (bits f.fn6 0 1)
  let i4 : BitVec 4 := bits f.imm 0 4
  let u := flagOf (bits f.fn6 4 1)
  let cs := flagOf (bits f.fn6 3 1)
  match f.vop with
  | 0x01#8 => .ok .vstop
  | 0x02#8 => .ok (.vskz f.imm fl)
  | 0x10#8 => .ok (.vadd f.vd f.va b q) | 0x11#8 => .ok (.vsub f.vd f.va b q)
  | 0x12#8 => .ok (.vadds f.vd f.va b q) | 0x13#8 => .ok (.vsubs f.vd f.va b q)
  | 0x14#8 => .ok (.vmul f.vd f.va b q) | 0x15#8 => .ok (.vmulh f.vd f.va b q)
  | 0x16#8 => .ok (.vmin f.vd f.va b q) | 0x17#8 => .ok (.vmax f.vd f.va b q)
  | 0x18#8 => .ok (.vand f.vd f.va b q) | 0x19#8 => .ok (.vor f.vd f.va b q) | 0x1A#8 => .ok (.vxor f.vd f.va b q)
  | 0x1B#8 => .ok (.vsll f.vd f.va b q) | 0x1C#8 => .ok (.vsrl f.vd f.va b q) | 0x1D#8 => .ok (.vsra f.vd f.va b q)
  | 0x1E#8 =>
    match icondOf (bits f.fn6 1 3) with
    | some c => .ok (.vcmp c f.vd f.va b q)
    | none => .error .subField
  | 0x1F#8 => .ok (.vsel f.vd f.va b (low3 f.vc) q)
  | 0x20#8 => .ok (.vfadd f.vd f.va f.vb f.rm q) | 0x21#8 => .ok (.vfsub f.vd f.va f.vb f.rm q)
  | 0x22#8 => .ok (.vfmul f.vd f.va f.vb f.rm q) | 0x23#8 => .ok (.vfma f.vd f.va f.vb f.vc f.rm q)
  | 0x24#8 => .ok (.vfmin f.vd f.va f.vb f.rm q) | 0x25#8 => .ok (.vfmax f.vd f.va f.vb f.rm q)
  | 0x26#8 => .ok (.vfdiv f.vd f.va f.vb f.rm q)
  | 0x27#8 => .ok (.vfsqrt f.vd f.va f.rm q) | 0x28#8 => .ok (.vfrsq f.vd f.va f.rm q)
  | 0x29#8 => .ok (.vfexp2 f.vd f.va f.rm q)
  | 0x2A#8 =>
    match fcondOf (bits f.fn6 0 3) with
    | some c => .ok (.vfcmp c f.vd f.va f.vb f.rm q)
    | none => .error .subField
  | 0x2B#8 => .ok (.vfcvt f.vd f.va f.rm (bits f.fn6 0 3) (bits f.imm 13 3) (bits f.imm 8 5) (bits f.imm 0 4) q)
  | 0x30#8 =>
    match redOf (bits f.fn6 0 3) with
    | some op => .ok (.vred op f.vd f.va f.rm q)
    | none => .error .subField
  | 0x31#8 => .ok (.vxch f.vd f.va f.imm q) | 0x32#8 => .ok (.vperm f.vd f.va f.vb q)
  | 0x33#8 => .ok (.vslide f.vd f.va f.imm q)
  | 0x34#8 => .ok (.vpopc (low3 f.va) fl)
  | 0x38#8 => .ok (.mpush (low3 f.va) fl) | 0x39#8 => .ok (.minv fl) | 0x3A#8 => .ok (.mpop fl)
  | 0x3B#8 => .ok (.mmov (low3 f.vd) (low3 f.va) fl)
  | 0x40#8 => .ok (.vld f.vd ab f.imm f.st h q) | 0x41#8 => .ok (.vst f.vd ab f.imm f.st h q)
  | 0x42#8 => .ok (.vldx f.vd ab f.vb f.st h x q) | 0x43#8 => .ok (.vstx f.vd ab f.vb f.st h x q)
  | 0x50#8 => .ok (.tzero (low3 f.vd) fl)
  | 0x51#8 => .ok (.troww (low3 f.vd) f.va i4 ix f.msel fl) | 0x52#8 => .ok (.trowr f.vd (low3 f.va) i4 ix f.msel fl)
  | 0x53#8 => .ok (.tcolw (low3 f.vd) f.va i4 ix f.msel fl) | 0x54#8 => .ok (.tcolr f.vd (low3 f.va) i4 ix f.msel fl)
  | 0x55#8 => .ok (.opa (low3 f.vd) f.va f.vb f.rm u cs (bits f.imm 0 8) fl)
  | 0x56#8 => .ok (.opag (low3 f.vd) f.va f.vb f.vc f.rm u cs (bits f.imm 8 8) (bits f.imm 0 8) fl)
  | 0x58#8 => .ok (.saadd f.vd ab f.imm f.st q) | 0x59#8 => .ok (.sanrm f.vd ab f.imm f.st f.rm q)
  | _ => .error .major

/-- The instruction of a vector word, or why it is none (R90, R101, R102). -/
def decodeVector (w : BitVec 64) : Except Reject Instr :=
  let f := VFields.of w
  match flOf f.fl with
  | none => .error .subField
  | some fl =>
    match vectorShape f fl with
    | .error r => .error r
    | .ok i =>
      if i.wf then
        match encodeVFields i with
        | some g => f.exact g i
        | none => .error .unusedField
      else .error .limit

/-! ### Row-program words -/

/-- Row operands (R107). -/
def rowOf (b : BitVec 11) : Option RowRef :=
  let j : BitVec 3 := bits b 8 3
  let n : BitVec 8 := bits b 0 8
  if h : j.toNat = 0 then
    if h' : n.toNat < 16 then some (.comp ⟨n.toNat, h'⟩) else none
  else some (.data ⟨j.toNat - 1, by have := j.isLt; omega⟩ n)
def rowBits : RowRef → BitVec 11
  | .comp n => BitVec.ofNat 11 n.val
  | .data j o => BitVec.ofNat 3 (j.val + 1) ++ o

/-- A two-operand row word: source [27:17], destination [16:6], [5:0] zero (R106). -/
def encRow2 (rop : BitVec 4) (s d : RowRef) : BitVec 32 := rop ++ rowBits s ++ rowBits d ++ 0#6
def decodeRow2 (w : BitVec 32) (mk : RowRef → RowRef → Instr) : Except Reject Instr :=
  if bits w 0 6 ≠ 0#6 then .error .unusedField
  else match rowOf (bits w 17 11), rowOf (bits w 6 11) with
    | some s, some d => accept (rowDestOk d) .limit (mk s d)
    | _, _ => .error .limit

/-- The instruction of a row-program word (R106), or why it is none. -/
def decodeRow (w : BitVec 32) : Except Reject Instr :=
  match bits w 28 4 with
  | 0#4 => accept (w == 0#32) .unusedField .halt
  | 1#4 => decodeRow2 w .aap
  | 2#4 => accept (bits w 0 26 == 0#26) .unusedField (.tra (bits w 26 2))
  | 3#4 => decodeRow2 w .dnot
  | 4#4 => decodeRow2 w .lshf
  | 5#4 => decodeRow2 w .rshf
  | 6#4 => accept (bits w 0 16 == 0#16) .unusedField (.loopw (bits w 23 5) (bits w 16 7))
  | 7#4 => accept (bits w 0 28 == 0#28) .unusedField .endw
  | 8#4 => accept (bits w 0 28 == 0#28) .unusedField .step
  | _ => .error .major

/-- A row-program word (R106). -/
def encodeRow : Instr → Option (BitVec 32)
  | .halt => some 0#32
  | .aap s d => some (encRow2 1#4 s d)
  | .tra k => some (2#4 ++ k ++ 0#26)
  | .dnot s d => some (encRow2 3#4 s d)
  | .lshf s d => some (encRow2 4#4 s d)
  | .rshf s d => some (encRow2 5#4 s d)
  | .loopw c m => some (6#4 ++ c ++ m ++ 0#16)
  | .endw => some (7#4 ++ 0#28)
  | .step => some (8#4 ++ 0#28)
  | _ => none

/-! ### Expression operators -/

/-- The first operator of a byte stream with the bytes after it, or why there is none (R110). -/
def decodeExpr : List Byte → Except Reject (Instr × List Byte)
  | [] => .error .major
  | 0x03#8 :: [] => .error .unusedField
  | 0x0E#8 :: [] => .error .unusedField
  | 0x03#8 :: k :: rest => if k.toNat < 4 then .ok (.eLdk (bits k 0 2), rest) else .error .limit
  | 0x0E#8 :: f :: rest =>
      if f.getLsbD 3 then .error .unusedField
      else if cvtOk (bits f 4 4) (bits f 0 3) then .ok (.eCvt (bits f 4 4) (bits f 0 3), rest) else .error .subField
  | b :: rest =>
    match b with
    | 0x01#8 => .ok (.eLda, rest) | 0x02#8 => .ok (.eLdb, rest)
    | 0x04#8 => .ok (.eAdd, rest) | 0x05#8 => .ok (.eSub, rest) | 0x06#8 => .ok (.eMul, rest)
    | 0x07#8 => .ok (.eFma, rest) | 0x08#8 => .ok (.eMin, rest) | 0x09#8 => .ok (.eMax, rest)
    | 0x0A#8 => .ok (.eAbs, rest) | 0x0B#8 => .ok (.eNeg, rest) | 0x0C#8 => .ok (.eCmplt, rest)
    | 0x0D#8 => .ok (.eSel, rest) | 0x0F#8 => .ok (.eDup, rest) | 0x10#8 => .ok (.eSwap, rest)
    | 0x11#8 => .ok (.eDrop, rest) | 0x12#8 => .ok (.eSumr, rest) | 0x13#8 => .ok (.eMaxr, rest)
    | 0x14#8 => .ok (.eSto, rest)
    | _ => .error .major

/-- The bytes of an expression operator (R110). -/
def encodeExpr : Instr → Option (List Byte)
  | .eLda => some [0x01] | .eLdb => some [0x02] | .eLdk k => some [0x03, 0#6 ++ k]
  | .eAdd => some [0x04] | .eSub => some [0x05] | .eMul => some [0x06] | .eFma => some [0x07]
  | .eMin => some [0x08] | .eMax => some [0x09] | .eAbs => some [0x0A] | .eNeg => some [0x0B]
  | .eCmplt => some [0x0C] | .eSel => some [0x0D] | .eCvt k p => some [0x0E, k ++ 0#1 ++ p]
  | .eDup => some [0x0F] | .eSwap => some [0x10] | .eDrop => some [0x11] | .eSumr => some [0x12]
  | .eMaxr => some [0x13] | .eSto => some [0x14]
  | _ => none

/-! ### The scalar encoder -/

/-- An atomic's fn field (R97). -/
def amoFn (sc : Scope) (o : AmoOrder) (w : Bool) (op : BitVec 5) : BitVec 11 :=
  scopeBits sc ++ orderBits o ++ flagBits w ++ op

/-- A memory word's low half (R95): stream, hint, size, n, off8. -/
def smBits (s : BitVec 3) (h : Hint) (z : Size) (n : Bool) (o : BitVec 8) : BitVec 16 :=
  s ++ hintBits h ++ sizeBits z ++ flagBits n ++ o

/-- A scalar word (R91 to R100), from the fields of the tables of R92 to R99. -/
def encodeScalar : Instr → Option (BitVec 32)
  | .add d a b => some (encSR 0x00#6 (regBits d) (regBits a) (regBits b) 0x000#11)
  | .addw d a b => some (encSR 0x00#6 (regBits d) (regBits a) (regBits b) 0x400#11)
  | .sub d a b => some (encSR 0x00#6 (regBits d) (regBits a) (regBits b) 0x001#11)
  | .subw d a b => some (encSR 0x00#6 (regBits d) (regBits a) (regBits b) 0x401#11)
  | .and d a b => some (encSR 0x00#6 (regBits d) (regBits a) (regBits b) 0x002#11)
  | .or d a b => some (encSR 0x00#6 (regBits d) (regBits a) (regBits b) 0x003#11)
  | .xor d a b => some (encSR 0x00#6 (regBits d) (regBits a) (regBits b) 0x004#11)
  | .sll d a b => some (encSR 0x00#6 (regBits d) (regBits a) (regBits b) 0x005#11)
  | .sllw d a b => some (encSR 0x00#6 (regBits d) (regBits a) (regBits b) 0x405#11)
  | .srl d a b => some (encSR 0x00#6 (regBits d) (regBits a) (regBits b) 0x006#11)
  | .srlw d a b => some (encSR 0x00#6 (regBits d) (regBits a) (regBits b) 0x406#11)
  | .sra d a b => some (encSR 0x00#6 (regBits d) (regBits a) (regBits b) 0x007#11)
  | .sraw d a b => some (encSR 0x00#6 (regBits d) (regBits a) (regBits b) 0x407#11)
  | .slt d a b => some (encSR 0x00#6 (regBits d) (regBits a) (regBits b) 0x008#11)
  | .sltu d a b => some (encSR 0x00#6 (regBits d) (regBits a) (regBits b) 0x009#11)
  | .min d a b => some (encSR 0x00#6 (regBits d) (regBits a) (regBits b) 0x00A#11)
  | .max d a b => some (encSR 0x00#6 (regBits d) (regBits a) (regBits b) 0x00B#11)
  | .minu d a b => some (encSR 0x00#6 (regBits d) (regBits a) (regBits b) 0x00C#11)
  | .maxu d a b => some (encSR 0x00#6 (regBits d) (regBits a) (regBits b) 0x00D#11)
  | .mul d a b => some (encSR 0x00#6 (regBits d) (regBits a) (regBits b) 0x018#11)
  | .mulw d a b => some (encSR 0x00#6 (regBits d) (regBits a) (regBits b) 0x418#11)
  | .mulh d a b => some (encSR 0x00#6 (regBits d) (regBits a) (regBits b) 0x019#11)
  | .mulhu d a b => some (encSR 0x00#6 (regBits d) (regBits a) (regBits b) 0x01A#11)
  | .div d a b => some (encSR 0x00#6 (regBits d) (regBits a) (regBits b) 0x01C#11)
  | .divw d a b => some (encSR 0x00#6 (regBits d) (regBits a) (regBits b) 0x41C#11)
  | .divu d a b => some (encSR 0x00#6 (regBits d) (regBits a) (regBits b) 0x01D#11)
  | .divuw d a b => some (encSR 0x00#6 (regBits d) (regBits a) (regBits b) 0x41D#11)
  | .rem d a b => some (encSR 0x00#6 (regBits d) (regBits a) (regBits b) 0x01E#11)
  | .remw d a b => some (encSR 0x00#6 (regBits d) (regBits a) (regBits b) 0x41E#11)
  | .remu d a b => some (encSR 0x00#6 (regBits d) (regBits a) (regBits b) 0x01F#11)
  | .remuw d a b => some (encSR 0x00#6 (regBits d) (regBits a) (regBits b) 0x41F#11)
  | .clz d a => some (encSR 0x00#6 (regBits d) (regBits a) 0#5 0x00E#11)
  | .clzw d a => some (encSR 0x00#6 (regBits d) (regBits a) 0#5 0x40E#11)
  | .popc d a => some (encSR 0x00#6 (regBits d) (regBits a) 0#5 0x00F#11)
  | .popcw d a => some (encSR 0x00#6 (regBits d) (regBits a) 0#5 0x40F#11)
  | .sext d a z => some (encSR 0x00#6 (regBits d) (regBits a) 0#5 (0#3 ++ extBits z ++ 0x10#6))
  | .addi d a i => some (encSI 0x01#6 (regBits d) (regBits a) i)
  | .andi d a i => some (encSI 0x02#6 (regBits d) (regBits a) i)
  | .ori d a i => some (encSI 0x03#6 (regBits d) (regBits a) i)
  | .xori d a i => some (encSI 0x04#6 (regBits d) (regBits a) i)
  | .slti d a i => some (encSI 0x06#6 (regBits d) (regBits a) i)
  | .slli d a n => some (encSI 0x05#6 (regBits d) (regBits a) (0#3 ++ 0#7 ++ n))
  | .srli d a n => some (encSI 0x05#6 (regBits d) (regBits a) (2#3 ++ 0#7 ++ n))
  | .srai d a n => some (encSI 0x05#6 (regBits d) (regBits a) (4#3 ++ 0#7 ++ n))
  | .slliw d a n => some (encSI 0x05#6 (regBits d) (regBits a) (1#3 ++ 0#8 ++ n))
  | .srliw d a n => some (encSI 0x05#6 (regBits d) (regBits a) (3#3 ++ 0#8 ++ n))
  | .sraiw d a n => some (encSI 0x05#6 (regBits d) (regBits a) (5#3 ++ 0#8 ++ n))
  | .lui d i => some (encSI 0x07#6 (regBits d) 0#5 i)
  | .auipc d i => some (encSI 0x08#6 (regBits d) 0#5 i)
  | .ld d a s h z n o => some (encSI 0x09#6 (regBits d) (regBits a) (smBits s h z n o))
  | .st d a s h z o => some (encSI 0x0A#6 (regBits d) (regBits a) (smBits s h z false o))
  | .amoswap d a b sc o w => some (encSR 0x0B#6 (regBits d) (regBits a) (regBits b) (amoFn sc o w 0x00#5))
  | .amoadd d a b sc o w => some (encSR 0x0B#6 (regBits d) (regBits a) (regBits b) (amoFn sc o w 0x01#5))
  | .amoand d a b sc o w => some (encSR 0x0B#6 (regBits d) (regBits a) (regBits b) (amoFn sc o w 0x02#5))
  | .amoor d a b sc o w => some (encSR 0x0B#6 (regBits d) (regBits a) (regBits b) (amoFn sc o w 0x03#5))
  | .amoxor d a b sc o w => some (encSR 0x0B#6 (regBits d) (regBits a) (regBits b) (amoFn sc o w 0x04#5))
  | .amomin d a b sc o w => some (encSR 0x0B#6 (regBits d) (regBits a) (regBits b) (amoFn sc o w 0x05#5))
  | .amomax d a b sc o w => some (encSR 0x0B#6 (regBits d) (regBits a) (regBits b) (amoFn sc o w 0x06#5))
  | .amominu d a b sc o w => some (encSR 0x0B#6 (regBits d) (regBits a) (regBits b) (amoFn sc o w 0x07#5))
  | .amomaxu d a b sc o w => some (encSR 0x0B#6 (regBits d) (regBits a) (regBits b) (amoFn sc o w 0x08#5))
  | .amocas d a b sc o w => some (encSR 0x0B#6 (regBits d) (regBits a) (regBits b) (amoFn sc o w 0x10#5))
  | .beq a b o => some (encSI 0x10#6 (regBits a) (regBits b) (0#3 ++ o))
  | .bne a b o => some (encSI 0x10#6 (regBits a) (regBits b) (1#3 ++ o))
  | .blt a b o => some (encSI 0x10#6 (regBits a) (regBits b) (2#3 ++ o))
  | .bge a b o => some (encSI 0x10#6 (regBits a) (regBits b) (3#3 ++ o))
  | .bltu a b o => some (encSI 0x10#6 (regBits a) (regBits b) (4#3 ++ o))
  | .bgeu a b o => some (encSI 0x10#6 (regBits a) (regBits b) (5#3 ++ o))
  | .j o => some (encSJ 0x11#6 o) | .jal o => some (encSJ 0x12#6 o) | .bmz o => some (encSJ 0x14#6 o)
  | .jalr d a i => some (encSI 0x13#6 (regBits d) (regBits a) i)
  | .fence eng sa k sc => some (encSR 0x18#6 0#5 0#5 0#5 (0#4 ++ flagBits eng ++ flagBits sa ++ kindBits k ++ scopeBits sc))
  | .sbar m => some (encSR 0x18#6 0#5 0#5 1#5 (0#3 ++ m))
  | .ifence d a => some (encSR 0x18#6 (regBits d) (regBits a) 2#5 0#11)
  | .tbar => some (encSR 0x18#6 0#5 0#5 3#5 0#11)
  | .tlwait a b sc => some (encSR 0x19#6 0#5 (regBits a) (regBits b) (0#6 ++ scopeBits sc ++ 0#2))
  | .tlpoll d a sc => some (encSR 0x19#6 (regBits d) (regBits a) 0#5 (0#6 ++ scopeBits sc ++ 1#2))
  | .tlsig a b sc => some (encSR 0x19#6 0#5 (regBits a) (regBits b) (0#6 ++ scopeBits sc ++ 2#2))
  | .cpy d a c => some (encSR 0x1A#6 (regBits d) (regBits a) 0#5 (0#4 ++ 0#4 ++ c))
  | .gthr d a c => some (encSR 0x1A#6 (regBits d) (regBits a) 0#5 (0#4 ++ 1#4 ++ c))
  | .sctr d a c => some (encSR 0x1A#6 (regBits d) (regBits a) 0#5 (0#4 ++ 2#4 ++ c))
  | .rpl d a c => some (encSR 0x1A#6 (regBits d) (regBits a) 0#5 (0#4 ++ 3#4 ++ c))
  | .bxl d a c => some (encSR 0x1A#6 (regBits d) (regBits a) 0#5 (0#4 ++ 4#4 ++ c))
  | .rlock a b => some (encSR 0x1B#6 0#5 (regBits a) (regBits b) 0#11)
  | .runlock a b => some (encSR 0x1B#6 0#5 (regBits a) (regBits b) 1#11)
  | .rfence a b => some (encSR 0x1B#6 0#5 (regBits a) (regBits b) 2#11)
  | .spawn d a => some (encSR 0x1C#6 (regBits d) (regBits a) 0#5 0#11)
  | .join d a => some (encSR 0x1C#6 (regBits d) (regBits a) 0#5 1#11)
  | .tend => some (encSR 0x1C#6 0#5 0#5 0#5 2#11)
  | .forkw d a b => some (encSR 0x1D#6 (regBits d) (regBits a) (regBits b) 0#11)
  | .wend a => some (encSR 0x1D#6 0#5 (regBits a) 0#5 0x01#11)
  | .choose a => some (encSR 0x1D#6 0#5 (regBits a) 0#5 0x02#11)
  | .chooseSelf => some (encSR 0x1D#6 0#5 0#5 0#5 0x22#11)
  | .wabort => some (encSR 0x1D#6 0#5 0#5 0#5 0x03#11)
  | .wquery d a => some (encSR 0x1D#6 (regBits d) (regBits a) 0#5 0x04#11)
  | .vfetch d a b => some (encSR 0x1E#6 (regBits d) (regBits a) (regBits b) 0x00#11)
  | .vsett d a => some (encSR 0x1E#6 (regBits d) (regBits a) 0#5 0x01#11)
  | .vsetl d a => some (encSR 0x1E#6 (regBits d) (regBits a) 0#5 0x02#11)
  | .vsetlLq d => some (encSR 0x1E#6 (regBits d) 0#5 0#5 0x22#11)
  | .tcfg a => some (encSR 0x1E#6 0#5 (regBits a) 0#5 0x03#11)
  | .vdrain => some (encSR 0x1E#6 0#5 0#5 0#5 0x04#11)
  | .unfs a => some (encSR 0x1E#6 0#5 (regBits a) 0#5 0x05#11)
  | .sacfg n a => some (encSR 0x1F#6 (BitVec.ofNat 5 n.val) (regBits a) 0#5 0#11)
  | .sasave n a => some (encSR 0x1F#6 (BitVec.ofNat 5 n.val) (regBits a) 0#5 1#11)
  | .saload n a => some (encSR 0x1F#6 (BitVec.ofNat 5 n.val) (regBits a) 0#5 2#11)
  | .csrr d s => some (encSR 0x3F#6 (regBits d) 0#5 0#5 s)
  | .csrw d a s => some (encSR 0x3F#6 (regBits d) (regBits a) 1#5 s)
  | .csrs d a s => some (encSR 0x3F#6 (regBits d) (regBits a) 2#5 s)
  | .csrc d a s => some (encSR 0x3F#6 (regBits d) (regBits a) 3#5 s)
  | .trap c => some (encSR 0x3F#6 0#5 0#5 4#5 c)
  | .eret => some (encSR 0x3F#6 0#5 0#5 5#5 0#11)
  | .railsel d a => some (encSR 0x3F#6 (regBits d) (regBits a) 6#5 0#11)
  | .clipq d a => some (encSR 0x3F#6 (regBits d) (regBits a) 7#5 0#11)
  | _ => none

/-- The bytes of a word of n bytes in little-endian order (R3, R89). -/
def bytesLE (n : Nat) (v : Nat) : List Byte := (List.range n).map fun k => BitVec.ofNat 8 (v >>> (8 * k))

/-- The number that bytes hold in little-endian order (R3). -/
def natLE (bs : List Byte) : Nat := bs.foldr (fun b acc => b.toNat + 256 * acc) 0

/-- The bytes of an instruction that has a word, as memory holds them (R89): a scalar, vector or row-program word,
or an expression operator. -/
def encode (i : Instr) : Option (List Byte) :=
  match encodeScalar i with
  | some w => some (bytesLE 4 w.toNat)
  | none =>
    match encodeVector i with
    | some w => some (bytesLE 8 w.toNat)
    | none =>
      match encodeRow i with
      | some w => some (bytesLE 4 w.toNat)
      | none => encodeExpr i

/-- A 32-bit word of the opcode table: a scalar word, else a row-program word. The two kinds share their numbers
(R89 keeps them apart by where they are fetched), so a number that both kinds assign is read as the scalar word (log
entry 36). -/
def decodeWord32 (w : BitVec 32) : Option Instr :=
  match decodeScalar w with
  | .ok i => some i
  | .error _ =>
    match decodeRow w with
    | .ok i => some i
    | .error _ => none

/-- Expression bytes of the opcode table that are exactly one operator. -/
def decodeExprExact (bs : List Byte) : Option Instr :=
  match decodeExpr bs with
  | .ok (i, []) => some i
  | _ => none

/-- What the decoder reads from an instruction whose bits are w, numbered as spec/opcode_table.json numbers them.
The table writes the two bytes of E.LDK and E.CVT with the operator byte in bits 15 to 8, so two bytes are read in
both orders (log entry 7); no pair of bytes is an operator in both orders unless the bytes are equal. -/
def decodeTableWord (nbits w : Nat) : Option Instr :=
  match nbits with
  | 8 => decodeExprExact (bytesLE 1 w)
  | 16 =>
    match decodeExprExact (bytesLE 2 w) with
    | some i => some i
    | none => decodeExprExact (bytesLE 2 w).reverse
  | 32 => decodeWord32 (BitVec.ofNat 32 w)
  | 64 => (decodeVector (BitVec.ofNat 64 w)).toOption
  | _ => none

end Sys2Proof
end

