-- ==== Sys2Proof/Config.lean ====
section
/-! DEFINITION. What the manual leaves open. Every constant here is opaque: it has no body, so no proof can see its
value and a claim holds whatever it is (R6, and the log entries named below). -/

namespace Sys2Proof

/-- Contents of vector register n that seed names, above its mark or before its first write (R53, R84; log entry 10). -/
opaque Config.undefVec : Nat → Nat → BitVec 49152
/-- Contents of mask slice n that seed names (R53, R197; log entry 10). -/
opaque Config.undefMask : Nat → Nat → BitVec 12288
/-- Contents of a tile that seed names (R210; log entry 10). -/
opaque Config.undefTile : Nat → BitVec 8192
/-- Scalar registers of a hart that has ended (R65; log entry 10). -/
opaque Config.undefWord : Nat → Word
/-- The 128 cells of an uncorrectable segment as a row program without CHK reads them (R232; log entry 10). -/
opaque Config.rawCells : Nat → BitVec 128
/-- Cycles of the cluster clock and nanoseconds of fabric time that pass at an observation (R353; log entry 11). -/
opaque Config.cycleGap : Nat → Nat
opaque Config.timeGap : Nat → Nat
/-- SHA-384 (R320, R321; log entry 12). -/
opaque Config.sha384 : List Byte → BitVec 384
/-- ECDSA P-384 verification of a signature over a digest under a public key (R321; log entry 12). -/
opaque Config.ecdsaVerify : List Byte → BitVec 384 → List Byte → Bool
/-- ECDSA P-384 signature of a digest by the identity key of an erase epoch (R322, R326; log entry 12). -/
opaque Config.ecdsaSign : Nat → BitVec 384 → List Byte
/-- The root of a certificate chain as a digest (R326; log entry 12). -/
opaque Config.chainRoot : List Byte → BitVec 384
/-- Clipped rows that production test found: rows of a core's vault, and accumulator and cache rows of a cluster (R153; log
entry 22). -/
opaque Config.clipVault : Nat → Nat
opaque Config.clipSa : Nat → Nat
opaque Config.clipCache : Nat → Nat
/-- The context block area that the CP allocates for a team, in units of 4 KiB (R83; log entry 13). -/
opaque Config.teamArea : Nat → Nat

/-- Where the CP allocates the completion record of a launch: 16-byte units of this device's ordinary memory (R68; log
entry 16). -/
opaque Config.joinArea : Nat → BitVec 41
/-- Where the CP allocates the area for an evicted accumulator of a launch, a cluster and a number: 4 KiB units of the
tower's DRAM (R293; log entry 26). -/
opaque Config.saArea : Nat → Nat → Nat → BitVec 24
/-- Where the copy of a trap record lies that FAULT_RECORD names: 64-byte units of tower 0's DRAM (R299, R306; log entry 20). -/
opaque Config.recordCopy : Nat → BitVec 30
/-- Whether choice n evicts a line from the caches (R182), and whether row command n finds a copy of a line there (R228; log entry 72). -/
opaque Config.evicted : Nat → Nat → Bool
opaque Config.cached : Nat → Nat → Bool
/-- Whether the device is the ZL9M-384-L on its carrier module, the one that reports a cooling contract (R1, R308; log entry
29). -/
opaque Config.onModule : Bool
/-- The error code with which a stage reports an image that it rejects (R325; log entry 30). -/
opaque Config.stageError : Nat → BitVec 32
/-- Which of the copies of a line in a core's L1, or of the point of coherence, a load takes where they differ (R139, R143; log entry 5). -/
opaque Config.staleLine : Nat → Nat
/-- Whether choice n takes the older copy of a word of code that has changed (R187; log entry 74). -/
opaque Config.staleCode : Nat → Bool
/-- The alarm policies and the escrow lines of a tower that a management image sets at stage 5 (R272, R318, R323; log entry 30). -/
opaque Config.imagePolicies : List Byte → Word
opaque Config.imageEscrow : List Byte → Nat
/-- The port-based routing ID of this device (R80; log entry 27). -/
opaque Config.pbrId : BitVec 16
/-- Whether a write still in flight reached the pool after its lease had run out (R161; log entry 21). -/
opaque Config.poolLate : Nat → Bool

end Sys2Proof
end

