-- ==== Sys2Proof/Machine/State.lean ====
section
/-! DEFINITION. The state of one ZL9: plain data for every piece of state the manual names (see INVENTORY.md), the
faults and refusals of the model, and the state after reset. -/

namespace Sys2Proof.Machine

/-- Reasons for a stuck machine. Every trap of the manual is a next state, so none of these stands for one. -/
inductive Fault where
  /-- Raised by step when the device is halted by the alarm (R319), in husk mode or under its recovery firmware (R325) and
  the agenda is empty: nothing runs until an input arrives. Safe: the device does nothing either. -/
  | stopped
  deriving DecidableEq, Repr

/-- Reasons for not giving a meaning. -/
inductive Refusal where
  /-- Raised by exec for an instruction that has no meaning yet. Safe: nothing can be proved of it. -/
  | notModelled (mnemonic : String)
  deriving DecidableEq, Repr

/-- Where a trap comes from (R295, R298): side names the core whose side log it is. -/
inductive Source where
  | scalar | block (word : Word) | engine (ctx cmd seq : Nat) | side (core : Nat)
  deriving DecidableEq, Repr

/-- A trap or a held fault: cause, subcode, TVAL, AUX of the record and source (R295, R296), the world whose version it
discarded (R275), and the gather fault record that it places in the record area (R151). -/
structure Trap where
  code : Nat
  sub  : Nat
  tval : Word
  aux  : Nat
  src  : Source
  disc : Option Nat
  more : List Byte
  deriving DecidableEq, Repr

/-- What a stalled hart waits for (R82 and the waits outside its table): full is a page-request controller without a free
entry, accumulator one of a cluster, adds the hart's own SAADDs, arriving at TBAR its own accesses (R403), busy a row that a row command holds or a bank between step boundaries, and parts a word
that waits with that many parts of its store made, its side-log entries bearing a number (R150). -/
inductive Wait where
  | counter (a v : Word) | rows | watcher | page (tower : Nat) (tag : Word) | pages (l : List (Nat × Word)) | full (tower : Nat)
  | sideLog | accumulator (cluster n : Nat) | adds | slot | quota | block | team | arriving | barrier | commands | busy | hold | parts (made word : Nat) (w : Wait)
  deriving DecidableEq, Repr

/-- One engine context of a hart (R175, R301): commands issued, the timeline counter, faults of completed commands that
the counter has not passed, and the one undelivered fault. -/
structure Ctx where
  seq  : Nat
  tc   : Nat
  late : List (Nat × Trap)
  fault : Option Trap
  deriving DecidableEq, Repr

/-- One level of a loop nest: count and byte strides of a0 to a3 (R66, R104). -/
structure Level where
  count : Nat
  strides : List Word
  deriving DecidableEq, Repr

/-- The vector block of a hart (R103, R204, R205, R207): what VFETCH loaded and captured, where it stands, what its
running word waits for, the pager's answers for that word, and the number under which that word's stores enter the side log (R150). -/
structure Block where
  addr   : Word
  words  : List (BitVec 64)
  idx    : Nat
  levels : List Level
  index  : List Nat
  bases  : List Word
  vtype  : Word
  vl     : Nat
  frm    : BitVec 3
  suspended : Bool
  wait   : Option Wait
  answers : List (Word × Nat)
  word   : Nat
  deriving DecidableEq, Repr

/-- The unfolding unit's descriptor (R217) and the address it came from. -/
structure Unfold where
  addr : Word
  base : Word
  c : Nat
  h : Nat
  w : Nat
  pt : Nat
  pl : Nat
  kh : Nat
  kw : Nat
  sh : Nat
  sw : Nat
  dh : Nat
  dw : Nat
  oh : Nat
  ow : Nat
  deriving DecidableEq, Repr

/-- One destination row of a deferred copy: its bytes, and those that came from uncorrectable data (R273, R348). -/
structure LogRow where
  dest : Word
  bytes : List Byte
  bad : List Nat
  deriving DecidableEq, Repr

/-- A deferred copy of an effect log, with the number of its command, which gives the order of issue, its first
uncorrectable source byte, and the bytes of one of its rows (R273). -/
structure LogCopy where
  cid : Nat
  rows : List LogRow
  asid : BitVec 16
  src : Option Word
  size : Nat
  deriving DecidableEq, Repr

/-- One hart (R51, R53, R294 and the per-hart CSRs of R352). pending lists the undelivered faults in order of
occurrence: 0 to 7 engine contexts, 8 the block, 9 the side log (R301); blkNext is the SA_OVERFLOW that follows the FP trap of
one SANRM (R286). entry is a trap whose record store is held,
with its resume address (R295). answers are pages that the pager refused or denied for this hart, with the cause. replay is the
rest of an effect log that CHOOSE or TEND replays, with its first failure (R270); saving has the row images of an SASAVE under
way, with the cluster and the number of its accumulator (R288, R291); forkArgs are the operands with which
the hart stands at a FORKW (R262). -/
structure Hart where
  idx    : Nat
  alive  : Bool
  x      : Vector Word 32
  pc     : Word
  vtype  : Word
  vl     : Nat
  fcsr   : Word
  sperr  : Word
  lqOvf  : Bool
  lqUnd  : Bool
  lq     : List (BitVec 32)
  depth  : Nat
  stk    : Vector (BitVec 12288) 8
  lskew  : BitVec 2
  tepc   : Word
  tcause : Word
  tval   : Word
  tstat  : Word
  pixV   : Vector (BitVec 16) 32
  pixT   : Vector (BitVec 16) 8
  pixW   : List (Nat × BitVec 16)
  v      : Vector (BitVec 49152) 32
  vmark  : Vector Nat 32
  m      : Vector (BitVec 12288) 8
  mmark  : Vector Nat 8
  ctxs   : Vector Ctx 8
  blk    : Option Block
  unf    : Option Unfold
  wait   : Option Wait
  blkFault  : Option Trap
  blkNext   : Option Trap
  sideFault : Option Trap
  pending   : List Nat
  entry     : Option (Trap × Word)
  answers   : List (Word × Nat)
  poolRefused : Option (Word × Nat)
  replay    : Option (List LogCopy × Option Trap)
  saving    : Option (Nat × Nat × List (List Byte))
  forkArgs  : Option (Word × Word × Reg)
  seed   : Nat
  deriving DecidableEq, Repr

/-- An acorn (R56) with what the CP keeps beside its record: the launch, the core that pushed it, where its record
was read (x3), its spatial index or fork handle (x4), the rival team it starts (R263), the forks that end with it (R268),
how many versions it takes over (log entry 23), the core on which its last attempt failed (R87), and the rivals (fork handle and index, the latest first) that it counts for after their worlds were merged (R270). -/
structure Acorn where
  code : Word
  frame : Word
  joinrec : Word
  world : Nat
  pri : Nat
  restartable : Bool
  versioned : Bool
  size : Nat
  a1 : Word
  v1 : Word
  a2 : Word
  v2 : Word
  launch : Nat
  core : Nat
  x3 : Word
  x4 : Word
  rival : Option Nat
  forks : List Nat
  carries : Nat
  moved : List (Nat × Nat)
  attempts : Nat
  avoid : Option Nat
  deriving DecidableEq, Repr

/-- A team (R51 to R53, R83, R294): its numbers, its size code, its core, its world and depth, its trap vector and
record area, its launch and its task's obligations, the outer versions that it commits at its end (log entry 23), the merged rivals it still counts for (R270), the forks that end with it
(R268), its tiles and its context block. owed is the continuation that its last arrival gave to the watcher, for which the end of
the task waits (R65). -/
structure Team where
  no : Nat
  task : Nat
  size : Nat
  core : Nat
  world : Nat
  depth : Nat
  tvec : Word
  trec : Word
  launch : Nat
  asid : BitVec 16
  joinrec : Word
  spatial : Word
  acorn : Option Acorn
  versioned : Bool
  carried : Nat
  restartable : Bool
  attempts : Nat
  moved : List (Nat × Nat)
  contOf : List Nat
  owed : Option Acorn
  ctxBlk : Nat
  tshape : Vector (BitVec 16) 8
  inSlot : Vector Bool 8
  slots : Vector (BitVec 8192) 8
  deriving DecidableEq, Repr

/-- Where a team that is not at the focus stands (R52, R82). -/
inductive Place where
  | running | swapped | ready | rival
  deriving DecidableEq, Repr

/-- A team away from the focus with its harts. -/
structure TeamCtx where
  team  : Team
  harts : List Hart
  place : Place
  deriving DecidableEq, Repr

/-- End states of a world (R264). -/
inductive WState where
  | running | ended | aborted | cancelled | exhausted | chosen | discarded
  deriving DecidableEq, Repr

/-- A speculative world whose id is not free (R256, R271 to R273): merged says that its bytes have gone to the parent
and its tasks run there; home is the tower whose escrow area holds its log. -/
structure World where
  id : Nat
  parent : Nat
  depth : Nat
  fork : Option (Nat × Nat)
  trapx : Bool
  merged : Bool
  home : Nat
  log : List LogCopy
  deriving DecidableEq, Repr

/-- A rival of a fork as WQUERY reports it (R264, R269). -/
structure Rival where
  wid : Nat
  depth : Nat
  st : WState
  score : Option Word
  deriving DecidableEq, Repr

/-- A live fork (R262, R268). -/
structure Fork where
  handle : Nat
  parent : Nat
  rivals : List Rival
  decided : Bool
  cont : Acorn
  contAddr : Word
  core : Nat
  pushed : Bool
  deriving DecidableEq, Repr

/-- A physical tile (R85): contents, owning team and dirty bit. -/
structure Tile where
  data : BitVec 8192
  owner : Option Nat
  dirty : Bool
  deriving DecidableEq, Repr

/-- A core's deque, tiles, matrix words of its window with a cap that a fallen one leaves it until the window ends, and
side-log-full state (R58, R85, R150, R309, R310). -/
structure CoreSt where
  deque : List Acorn
  tiles : Vector Tile 8
  matrix : Nat
  cap : Nat
  sideFull : Bool
  deriving DecidableEq, Repr

/-- Who wrote to the pool: a hart, a replay of effect logs by it, or a command of one of its engine contexts. -/
inductive PoolBy where
  | hart | replay | command (cid ctx seq : Nat)
  deriving DecidableEq, Repr

/-- A write to the pool that no release at fabric scope has waited for: its hart, who wrote, its address, its key and the bytes
it replaced (R160, R161). -/
structure PoolWrite where
  team : Nat
  hart : Nat
  by_ : PoolBy
  va : Word
  key : Nat
  old : List Byte
  deriving DecidableEq, Repr

/-- An access held in a core's side log (R150): bytes by their offset from va, of which those of masks change only the bits
of a mask; keys are the storage of the bytes of a window access. word numbers the word that made it, and rel has the pool
writes of its hart that a release waits for, if its store is one whose scope its page decides (R171); tag is the page request that it
has joined (R304). -/
structure SideEntry where
  core : Nat
  team : Nat
  hart : Nat
  stream : Nat
  va : Word
  bytes : List (Nat × Byte)
  masks : List (Nat × Byte)
  amo : Option (BitVec 5 × Nat × Word × Word)
  keys : Option (List (Option Nat))
  world : Nat
  asid : BitVec 16
  word : Nat
  rel : Option (List PoolWrite)
  tag : Option Word
  deriving DecidableEq, Repr

/-- A pending page request (R152, R304). -/
structure PageReq where
  tag : Word
  page : Word
  asid : BitVec 16
  waiters : Nat
  rd : Bool
  wr : Bool
  fx : Bool
  posted : Bool
  deriving DecidableEq, Repr

/-- An entry of a tower's memory-side TLB (R144, R145): the page OFFSET base up to base + 2^lg, its entry at key slot. -/
structure TlbEntry where
  asid : BitVec 16
  tower : Nat
  base : Nat
  lg : Nat
  slot : Nat
  pte : Word
  deriving DecidableEq, Repr

/-- A refusal that waits behind an undelivered one of the same core's side log (R150). -/
structure HeldRefusal where
  core : Nat
  page : Word
  asid : BitVec 16
  cause : Nat
  deriving DecidableEq, Repr

/-- A tower's page-request controller (R305). -/
structure PageCtl where
  base : Word
  size : BitVec 4
  head : Word
  tail : Word
  tag : Word
  bad : Bool
  reqs : List PageReq
  deriving DecidableEq, Repr

/-- Counts of a completion record (R245). -/
structure Tally where
  ue : Nat
  flags : BitVec 6
  oob : Nat
  ce : Nat
  first : Word
  done : Nat
  deriving DecidableEq, Repr

def Tally.zero : Tally := { ue := 0, flags := 0, oob := 0, ce := 0, first := 0, done := 0 }

/-- What a command has done when it is held midway (R252, R347): nothing, the first half of a descriptor, a copy with its descriptor, its next row, the bytes of
that row written and the first uncorrectable source byte, or a gather or scatter with the indices that it read, the elements
whose pages were refused, its next element and its counts. -/
inductive Work where
  | none
  | descriptor (a : List Byte)
  | copy (a b : List Byte) (row done : Nat) (bytes : List (Byte × Bool)) (bad : Option Word)
  | index (elems : List (Nat × Option Word)) (refused : List (Nat × Word)) (next : Nat) (t : Tally)
  deriving DecidableEq, Repr

/-- An engine command (R100, R175): its kind by fn[6:3], its arguments and its issuer. hold lists the page requests that
it waits for and answers the pages refused or denied to it, with the cause. accepted says that its CP has read and checked it
(R227, R242), started and finished that it has begun and been performed. dropped says that its world has been discarded,
so that it completes without a write (R267). work is what it has done before it was held. -/
structure Cmd where
  cid : Nat
  kind : Nat
  args : List Word
  team : Nat
  hart : Nat
  ctx : Nat
  seq : Nat
  core : Nat
  world : Nat
  asid : BitVec 16
  launch : Nat
  queue : Option Nat
  hold : List (Nat × Word)
  answers : List (Word × Nat)
  accepted : Bool
  started : Bool
  finished : Bool
  dropped : Bool
  work : Work
  fault : Option Trap
  deriving DecidableEq, Repr

/-- A row program that its CP has accepted (R225 to R235), or one of its waves: its number among the row commands of its
tower (R228), its tower, its members as coordinate words and as subarray
numbers, its words, the bases of its arguments, W, TX and CHK; the DRAM rows that it reads and writes (R183, R228); the bytes from and up to which the range flush has left no
line in a cache (R182); and
once it runs, the wave of members from lo up to hi, where the wave stands, and its stale, shadow, checked and bad rows. A
subarray is numbered by its DRAM rows, of which it holds 1,024. -/
structure Run where
  cid : Nat
  order : Nat
  tower : Nat
  coords : List (BitVec 32)
  subs : List Nat
  words : List (BitVec 32)
  args : List Nat
  wcount : Nat
  tx : Bool
  chk : Bool
  flushed : List (Nat × Nat)
  reads : List Nat
  writes : List Nat
  live : Bool
  lo : Nat
  hi : Nat
  pc : Nat
  bases : List Nat
  loops : List (Nat × Nat × BitVec 7)
  stale : List (Nat × Nat)
  shadow : List (Nat × Nat × BitVec 8192)
  checked : List (Nat × Nat)
  bad : List Nat
  atStep : Bool
  halted : Bool
  deriving DecidableEq, Repr

/-- A bank expression that its CP has accepted (R238 to R247): its number among the row commands of its tower (R228), its tower, operators and constants, the keys of the pages
of its operands, and the DRAM rows that it reads and writes (R183, R228); and once it runs, the operators left for the
element at which it stands, the stack, the terms of the burst and the reduction so far, the values of the result slots
that reductions start from, the slots made so far, and the record's counts. ended says that every element is done. -/
structure ExprRun where
  cid : Nat
  order : Nat
  tower : Nat
  ops : List Byte
  consts : List (BitVec 32)
  aMap : List (Word × Nat)
  bMap : List (Word × Nat)
  reads : List Nat
  writes : List Nat
  live : Bool
  rest : List Byte
  elem : Nat
  stack : List (BitVec 32)
  terms : List (BitVec 32)
  acc : Option (BitVec 32)
  accs : List (BitVec 32)
  flags : BitVec 6
  ue : Nat
  ce : Nat
  firstUe : Word
  out : List (List Byte)
  ended : Bool
  deriving DecidableEq, Repr

/-- A row lock of a tower's table (R185, R387): team and rows, as DRAM row numbers. -/
structure RowLock where
  tower : Nat
  team : Nat
  rows : List Nat
  deriving DecidableEq, Repr

/-- A row of a stream accumulator (R278). -/
structure SaRow where
  x : List Int
  s : Nat
  t : Int
  ovf : Bool
  deriving DecidableEq, Repr

/-- A configured stream accumulator (R276 to R279). -/
structure Sa where
  launch : Nat
  cluster : Nat
  n : Nat
  len : Nat
  frac : Nat
  ln : Bool
  ovfe : Bool
  eps : BitVec 32
  gain : List (BitVec 32)
  bias : List (BitVec 32)
  rows : List SaRow
  evicted : Bool
  deriving DecidableEq, Repr

/-- An SAADD issued and not yet applied (R283, R287): converted elements with their positions. -/
structure SaAddP where
  launch : Nat
  cluster : Nat
  n : Nat
  row : Nat
  team : Nat
  hart : Nat
  stream : Nat
  elems : List (Nat × Int × Bool)
  deriving DecidableEq, Repr

/-- An operand range of a launch (R180). -/
structure Range where
  base : Word
  len : Word
  flush : Bool
  access : Nat
  handle : Nat
  deriving DecidableEq, Repr

/-- A launch (R66 to R71, R180, R181), with the offset of its packet: bound is its binding set, cores those of its clusters that
may take its teams (R159), and saOut the clusters from whose arrays its reservation has been evicted (R293). -/
structure Launch where
  id : Nat
  queue : Nat
  offset : Word
  asid : BitVec 16
  code : Word
  pri : Nat
  restartable : Bool
  versioned : Bool
  size : Nat
  spneed : Nat
  saneed : Nat
  temporal : List Level
  spatial : List (Nat × Nat × Word)
  ranges : List Range
  roles : List (BitVec 64)
  bound : List Nat
  cores : List Nat
  alloc : List (Nat × Nat × Nat)
  sares : List (Nat × Nat × Nat)
  saOut : List Nat
  frame : Word
  counter : Word
  value : Word
  joinrec : Word
  deadline : Nat
  deps : List Nat
  placed : Bool
  started : Bool
  complete : Bool
  status : Nat
  statusTask : Nat
  deriving DecidableEq, Repr

/-- A buffer handle's last writer and the readers since (R181). -/
structure HandleRec where
  handle : Nat
  writer : Option Nat
  readers : List Nat
  deriving DecidableEq, Repr

/-- Where the slice of a gang queue's period stands (R79): none is due, the devices are waited for, it runs, or it has
been abandoned. -/
inductive Slice where
  | none | waiting | running | abandoned
  deriving DecidableEq, Repr

/-- A SIGNAL packet that waits for launches, copies and the signals before it (R74). -/
structure PendSignal where
  counter : Word
  value : Word
  asid : BitVec 16
  launches : List Nat
  copies : List Nat
  deriving DecidableEq, Repr

/-- A host queue (R72 to R80): its registers, with the period, budget and gang values that the host wrote last beside
those of the period that runs; the budget left in core-ns; the bound table; the address space and the period with which the
packet at its head was read; the counter of a WAIT packet that holds it, with its value and its address space; its outstanding copies and signals; the start of its period in ns; and the pages that its front end waits for with the
pager's refusals. -/
structure Queue where
  base : Word
  size : Word
  head : Word
  tail : Word
  period : Word
  budget : Word
  gang : Word
  newPeriod : Word
  newBudget : Word
  newGang : Word
  halted : Bool
  haltOff : Word
  demoted : Bool
  left : Nat
  bound : Option Word
  deadline : Nat
  gangTable : List (Nat × Nat)
  seen : Option (BitVec 16 × Option Nat)
  blockedOn : Option (Word × Word × BitVec 16)
  copies : List Nat
  signals : List PendSignal
  begun : Option Nat
  slice : Slice
  hold : List (Nat × Word)
  answers : List (Word × Nat)
  deriving DecidableEq, Repr

/-- Who moves a rail: a hart with the register that waits, RAILCMD, or the device itself (R155, R157, R312, R314). -/
inductive Mover where
  | hart (team hart : Nat) (d : Reg)
  | command
  | device
  deriving DecidableEq, Repr

/-- A cluster's rail, its barred and locked bits, its clip map as clipped rows of each vault, of the accumulator arrays
and of the caches, whether a row was learned, the move in progress with what began it, the moves that wait behind it, and its
clock (R153 to R158, R353). -/
structure Cluster where
  lv : Bool
  lock : Bool
  lvbar : Bool
  last : BitVec 3
  grown : Bool
  vaultClip : Vector Nat 4
  saClip : Nat
  cacheClip : Nat
  target : Option Bool
  mover : Mover
  queued : List (Mover × Bool)
  cycles : Nat
  deriving DecidableEq, Repr

/-- A tower's throttle step, offline bit, whether that is for a lost logic die (R25), its last temperature in degrees, and its lost
channels (R237, R313 to R315). -/
structure Tower where
  step : Nat
  offline : Bool
  lost : Bool
  temp : Nat
  retired : BitVec 48
  narrowed : BitVec 48
  deriving DecidableEq, Repr

/-- A latency capture unit (R316). -/
structure Mon where
  unit : MonUnit
  ctl : Word
  lo : Word
  hi : Word
  count : Word
  buckets : List (BitVec 32)
  slip : Word
  deriving DecidableEq, Repr

/-- Start-up, strongroom, fuses and boot flash (R320 to R326): mayClear says that no erase has been since a recovery image was
accepted. -/
structure Boot where
  ready : Bool
  stage : Nat
  counter : Nat
  husk : Bool
  reason : Nat
  tower : Nat
  error : BitVec 32
  recovery : Bool
  recovering : Bool
  mayClear : Bool
  mgmtImage : List Byte
  cpImage : List Byte
  recImage : List Byte
  fuseRoot : BitVec 384
  fuseSvn : Nat
  epoch : Nat
  keyPresent : Bool
  keyEpoch : Nat
  chain : List Byte
  attest : Nat
  digests : List (BitVec 384)
  deriving DecidableEq, Repr

/-- What moves next: an event with its operands, a hart, a hart's vector block or the next progress group of its word (R86), a wave of a row program, a bank
expression, the side logs, the front ends of the queues, or a core that seeks work (log entry 14). -/
inductive Input where
  | event (i : Instr)
  | hart (team hart : Nat)
  | block (team hart : Nat)
  | group (team hart : Nat)
  | row (cid lo : Nat)
  | bank (cid : Nat)
  | sideLogs
  | queues
  | seek (core : Nat)
  deriving DecidableEq, Repr

/-- The counters of a hart of a team that has ended, with its launch and the numbers issued (R137). -/
structure PastHart where
  team : Nat
  hart : Nat
  launch : Nat
  tc : List Nat
  seq : List Nat
  deriving DecidableEq, Repr

/-- A 64-byte line of code as a cluster's instruction cache, or the CP of tower cluster - 64 for a row program, has read it last
(R14, R108, R138, R187): its world, where it is stored, its address space and address, and its bytes. -/
structure CodeLine where
  cluster : Nat
  world : Nat
  key : Nat
  asid : BitVec 16
  va : Word
  bytes : List Byte
  deriving DecidableEq, Repr

/-- How a core's L1 treats a line (R139): its page is private to the core, shared or homed in another tower, or of the pool. -/
inductive L1Kind where
  | own | shared | pool
  deriving DecidableEq, Repr

/-- A 64-byte line of a core's L1 (R14, R138, R139): the world that read it, its tag (R143), where it is stored, and its bytes as
the core reads them. -/
structure L1Line where
  core : Nat
  world : Nat
  asid : BitVec 16
  va : Word
  key : Nat
  kind : L1Kind
  bytes : List Byte
  deriving DecidableEq, Repr

/-- A write of the device itself that waits for a row command (R183): where it goes, its bytes, and whether it is an event record. -/
structure LateWrite where
  key : Nat
  bytes : List Byte
  event : Bool
  deriving DecidableEq, Repr

/-- The whole device. unowned lists the page-table entries that an agent other than a core has used before any core (R141), and
nextSide numbers the words that enter side logs (R150). -/
structure State where
  live : Bool
  me : Hart
  team : Team
  peers : List Hart
  parked : List TeamCtx
  past : List PastHart
  mem : List Host.Cell
  under : List (Nat × Byte × Bool)
  ver : List (Nat × Nat × Byte)
  ue : List Nat
  ce : List Nat
  verUe : List (Nat × Nat)
  rowPoison : List Nat
  raws : List (Nat × BitVec 128)
  worlds : List World
  forks : List Fork
  crows : List ((Nat × Nat) × BitVec 8192)
  tlb : List TlbEntry
  ptroots : List ((Nat × Nat) × Word)
  ptsel : Word
  code : List CodeLine
  l1 : List L1Line
  unowned : List Nat
  routes : List (Nat × Bool)
  leases : List Word
  poolOut : List PoolWrite
  pctl : Vector PageCtl 8
  side : List SideEntry
  refusals : List HeldRefusal
  cmds : List Cmd
  runs : List Run
  exprs : List ExprRun
  locks : List RowLock
  berr : List (Nat × Word)
  refreshes : List Nat
  late : List LateWrite
  sas : List Sa
  adds : List SaAddP
  cores : List (Nat × CoreSt)
  watch : List Acorn
  held : List Acorn
  launches : List Launch
  handles : List HandleRec
  queues : List (Nat × Queue)
  gangrdy : List ((Nat × Nat) × Word)
  served : Nat
  evbase : Word
  evhead : Word
  evtail : Word
  evseq : Word
  waitswap : BitVec 32
  ctxscope : BitVec 3
  powermode : Word
  railcmd : Word
  hard : BitVec 16
  limit : BitVec 16
  clustersel : BitVec 6
  clusters : List (Nat × Cluster)
  towers : Vector Tower 8
  mons : List Mon
  alarmcfg : Word
  halted : Bool
  escrow : Nat
  boot : Boot
  time : Nat
  agenda : List Input
  turn : Nat
  reply : List Byte
  fresh : Nat
  nextTask : Nat
  nextTeam : Nat
  nextLaunch : Nat
  nextCmd : Nat
  nextOrder : Nat
  nextTag : Nat
  nextWorld : Nat
  nextSide : Nat
  deriving DecidableEq, Repr

/-! ### Reset -/

def Ctx.init : Ctx := { seq := 0, tc := 0, late := [], fault := none }

/-- A hart at device reset: the CSRs at the values R353 to R197 give, every other register 0 (log entry 2). -/
def Hart.reset : Hart :=
  { idx := 0, alive := false, x := Vector.replicate 32 0, pc := 0, vtype := 0x25, vl := 0, fcsr := 0, sperr := 0,
    lqOvf := false, lqUnd := false, lq := [], depth := 0, stk := Vector.replicate 8 0, lskew := 1, tepc := 0,
    tcause := 0, tval := 0, tstat := 0, pixV := Vector.replicate 32 0, pixT := Vector.replicate 8 0, pixW := [],
    v := Vector.replicate 32 0, vmark := Vector.replicate 32 0, m := Vector.replicate 8 0,
    mmark := Vector.replicate 8 0, ctxs := Vector.replicate 8 .init, blk := none, unf := none, wait := none,
    blkFault := none, blkNext := none, sideFault := none, pending := [], entry := none, answers := [], poolRefused := none, replay := none, saving := none, forkArgs := none, seed := 0 }

def Team.reset : Team :=
  { no := 0, task := 0, size := 0, core := 0, world := 0, depth := 0, tvec := 0, trec := 0, launch := 0, asid := 0,
    joinrec := 0, spatial := 0, acorn := none, versioned := false, carried := 0, restartable := false, attempts := 0,
    moved := [], contOf := [], owed := none, ctxBlk := 0, tshape := Vector.replicate 8 0,
    inSlot := Vector.replicate 8 false, slots := Vector.replicate 8 0 }

def PageCtl.reset : PageCtl := { base := 0, size := 0, head := 0, tail := 0, tag := 0, bad := false, reqs := [] }

def Tile.reset : Tile := { data := 0, owner := none, dirty := false }
def CoreSt.reset : CoreSt := { deque := [], tiles := Vector.replicate 8 .reset, matrix := 0, cap := 0, sideFull := false }

/-- A host queue at reset (R72): every field 0 but GRACE, which is 50. -/
def Queue.reset : Queue :=
  { base := 0, size := 0, head := 0, tail := 0, period := 0, budget := 0, gang := 50#64 <<< 40, newPeriod := 0,
    newBudget := 0, newGang := 50#64 <<< 40, halted := false, haltOff := 0, demoted := false, left := 0, bound := none,
    deadline := 0, gangTable := [], seen := none, blockedOn := none, copies := [], signals := [], begun := none, slice := .none,
    hold := [], answers := [] }

/-- A cluster at reset: on the HV rail with the clipped rows of production test (R153), which leave the guaranteed
capacity (R21). -/
def Cluster.reset (k : Nat) : Cluster :=
  { lv := false, lock := false, lvbar := false, last := 0, grown := false,
    vaultClip := Vector.ofFn fun n : Fin 4 => min 2048 (Config.clipVault (4 * k + n.val)), saClip := min 4096 (Config.clipSa k),
    cacheClip := Config.clipCache k, target := none, mover := .device, queued := [], cycles := 0 }

def Tower.reset : Tower := { step := 0, offline := false, lost := false, temp := 0, retired := 0, narrowed := 0 }

/-- A capture unit at reset (R316): MIN all ones, the rest 0. -/
def Mon.reset (u : MonUnit) : Mon :=
  { unit := u, ctl := 0, lo := BitVec.allOnes 64, hi := 0, count := 0, buckets := List.replicate 32 0, slip := 0 }

/-- Start-up before stage 0 (R323): the counter at 0, an identity key present, the flash and fuses as log entry 2
names them. -/
def Boot.reset : Boot :=
  { ready := false, stage := 0, counter := 0, husk := false, reason := 0, tower := 0, error := 0, recovery := false,
    recovering := false, mayClear := true, mgmtImage := [], cpImage := [], recImage := [], fuseRoot := 0,
    fuseSvn := 0, epoch := 0, keyPresent := true, keyEpoch := 0, chain := [], attest := 0, digests := [] }

/-- The device right after reset: no task runs, memory lists nothing, every register at the value the manual states
for reset, and every register without a stated value at the value of log entry 2. -/
def State.reset : State :=
  { live := false, me := .reset, team := .reset, peers := [], parked := [], past := [], mem := [], under := [], ver := [], ue := [], ce := [],
    verUe := [], rowPoison := [], raws := [], worlds := [], forks := [], crows := [], tlb := [], ptroots := [], ptsel := 0,
    code := [], l1 := [], unowned := [], routes := [], leases := [], poolOut := [], pctl := Vector.replicate 8 .reset, side := [], refusals := [], cmds := [], runs := [], exprs := [],
    locks := [], berr := [], refreshes := [], late := [], sas := [], adds := [], cores := [], watch := [], held := [],
    launches := [], handles := [], queues := [], gangrdy := [], served := 63, evbase := 0, evhead := 0, evtail := 0,
    evseq := 0, waitswap := 20000, ctxscope := 2, powermode := 0, railcmd := 0, hard := 125, limit := 105,
    clustersel := 0, clusters := [], towers := Vector.replicate 8 .reset, mons := [],
    alarmcfg := 0x296, halted := false, escrow := 8388608, boot := .reset, time := 0, agenda := [], turn := 0,
    reply := [], fresh := 0, nextTask := 1, nextTeam := 0, nextLaunch := 1, nextCmd := 1, nextOrder := 0, nextTag := 1, nextWorld := 0, nextSide := 0 }

end Sys2Proof.Machine
end

