-- ==== Sys2Proof/Machine/Mem.lean ====
section
/-! DEFINITION. Bytes of the device: the one numbering of every byte store (log entry 15), canonical lists of cells,
the view that a world has of them (R256 to R258), and uncorrectable data (R233, R297). -/

namespace Sys2Proof.Machine

/-! ### The numbering of bytes -/

/-- Byte pa of tower t's DRAM (R147, R221). -/
def dramKey (t pa : Nat) : Nat := t * 2 ^ 36 + pa
/-- A context block: 4 KiB units of the DRAM of the eight towers (R83; log entry 13). -/
def blockKey (n : Nat) : Nat := n % 2 ^ 27 * 4096
/-- Byte o of core k's vault (R14, R134). -/
def vaultKey (k o : Nat) : Nat := 2 ^ 40 + k * 2 ^ 21 + o
/-- Byte o of the completion record of launch l (R68; log entry 16). -/
def joinKey (l o : Nat) : Nat := 2 ^ 48 + l * 16 + o
/-- Byte pa of fabric-attached memory (R147). -/
def poolKey (pa : Nat) : Nat := 2 ^ 52 + pa
/-- Byte va of another device (R128; log entry 17). -/
def remoteKey (va : Nat) : Nat := 2 ^ 64 + va

/-- A byte of a tower's DRAM. -/
def isDram (k : Nat) : Bool := k < 2 ^ 40
/-- A byte of ordinary memory of this device: the store that versions cover (R258, R440). -/
def isOrdinary (k : Nat) : Bool := isDram k || (decide (2 ^ 48 ≤ k) && decide (k < 2 ^ 52))

/-! ### Cells -/

/-- What an address with no entry reads as (log entry 3). -/
def Memory.blank : Byte := 0#8

/-- Read one byte. -/
def Memory.read : List Host.Cell → Nat → Byte
  | [], _ => Memory.blank
  | (a, b) :: rest, k => if k < a then Memory.blank else if a = k then b else Memory.read rest k

/-- A cell for byte b, unless b is what an unlisted address reads as. -/
def Memory.cell (k : Nat) (b : Byte) (rest : List Host.Cell) : List Host.Cell :=
  if b = Memory.blank then rest else (k, b) :: rest

/-- Write one byte, keeping the canonical form. -/
def Memory.write : List Host.Cell → Nat → Byte → List Host.Cell
  | [], k, b => Memory.cell k b []
  | (a, c) :: rest, k, b =>
    if k < a then Memory.cell k b ((a, c) :: rest)
    else if a = k then Memory.cell k b rest
    else (a, c) :: Memory.write rest k b

/-- The canonical form: addresses strictly rise and no entry equals the blank byte. -/
def Memory.wfFrom (lo : Nat) : List Host.Cell → Bool
  | [] => true
  | (a, b) :: rest => decide (lo ≤ a) && decide (b ≠ Memory.blank) && Memory.wfFrom (a + 1) rest

def Memory.wf (m : List Host.Cell) : Bool := Memory.wfFrom 0 m

/-- Write consecutive bytes from k up. -/
def Memory.writeBytes (m : List Host.Cell) (k : Nat) : List Byte → List Host.Cell
  | [] => m
  | b :: bs => Memory.writeBytes (Memory.write m k b) (k + 1) bs

/-- Read n consecutive bytes from k up. -/
def Memory.readBytes (m : List Host.Cell) (k n : Nat) : List Byte := (List.range n).map fun i => Memory.read m (k + i)

/-! ### Little-endian values (R3) -/

/-- The value of bytes in address order. -/
def leVal (bs : List Byte) : Nat := natLE bs
/-- The n low bytes of a value in address order. -/
def leBytes (n v : Nat) : List Byte := bytesLE n v

/-! ### The view of a world -/

/-- The parent of a world: 0 for a world that is not live. -/
def State.parentOf (s : State) (w : Nat) : Nat :=
  match s.worlds.find? (·.id == w) with
  | some x => x.parent
  | none => 0

/-- The byte that world w itself wrote at k, if it wrote it. -/
def State.verByte (s : State) (w k : Nat) : Option Byte :=
  (s.ver.find? fun e => e.1 == w && e.2.1 == k).map (·.2.2)

/-- The world whose byte an agent of world w sees at k: w, or the nearest ancestor that wrote it, or 0; only ordinary
memory has versions. -/
def State.holder (s : State) (k : Nat) : Nat → Nat → Nat
  | 0, _ => 0
  | n + 1, w => if w = 0 ∨ !isOrdinary k then 0 else if (s.verByte w k).isSome then w else s.holder k n (s.parentOf w)

/-- One byte as world w sees it (R257). The depth of a world is at most 4. -/
def State.byteIn (s : State) (w k : Nat) : Byte :=
  let h := s.holder k 5 w
  if h = 0 then Memory.read s.mem k else (s.verByte h k).getD (Memory.read s.mem k)

/-- n bytes as world w sees them. -/
def State.bytesIn (s : State) (w k n : Nat) : List Byte := (List.range n).map fun i => s.byteIn w (k + i)

/-- An order of version bytes, so that equal sets of versions are equal lists. -/
def verLt (w k : Nat) (e : Nat × Nat × Byte) : Bool := decide (w < e.1) || (decide (w = e.1) && decide (k < e.2.1))

def verWrite : List (Nat × Nat × Byte) → Nat → Nat → Byte → List (Nat × Nat × Byte)
  | [], w, k, b => [(w, k, b)]
  | e :: rest, w, k, b =>
    if verLt w k e then (w, k, b) :: e :: rest
    else if e.1 = w ∧ e.2.1 = k then (w, k, b) :: rest
    else e :: verWrite rest w k b

/-- Write one byte in world w's view: a version of an ordinary byte in a speculative world (R258), the store itself
otherwise (scratchpads are not versioned, R259). -/
def State.setByte (s : State) (w k : Nat) (b : Byte) : State :=
  if w ≠ 0 ∧ isOrdinary k then { s with ver := verWrite s.ver w k b } else { s with mem := Memory.write s.mem k b }

/-! ### Uncorrectable data -/

/-- Whether segment g (16 bytes) is uncorrectable in the view of world w (R233, R297, R348). -/
def State.segBad (s : State) (w g : Nat) : Bool :=
  let h := s.holder (g * 16) 5 w
  if h = 0 then s.ue.contains g || (isDram (g * 16) && s.rowPoison.contains (g / 64)) else s.verUe.contains (h, g)

/-- The same for one byte: the layer that supplies the byte decides. -/
def State.byteBad (s : State) (w k : Nat) : Bool :=
  let h := s.holder k 5 w
  if h = 0 then s.ue.contains (k / 16) || (isDram k && s.rowPoison.contains (k / 1024)) else s.verUe.contains (h, k / 16)

/-- Segments wholly inside the n bytes from k. -/
def wholeSegs (k n : Nat) : List Nat :=
  let lo := (k + 15) / 16
  let hi := (k + n) / 16
  (List.range (hi - lo)).map (lo + ·)

/-- A store that covers a whole 128-bit segment clears its error (R297), and one that covers a whole row its poison mark
(R233). -/
def State.clearSegs (s : State) (w k n : Nat) : State :=
  if s.ue.isEmpty && s.verUe.isEmpty && s.rowPoison.isEmpty then s
  else if w ≠ 0 ∧ isOrdinary k then
    { s with verUe := s.verUe.filter fun e => !(e.1 == w && (wholeSegs k n).contains e.2) }
  else
    { s with ue := s.ue.filter fun g => !(wholeSegs k n).contains g,
             rowPoison := s.rowPoison.filter fun r => !(isDram k && decide (k ≤ r * 1024 ∧ r * 1024 + 1024 ≤ k + n)) }

/-- Segments that the n bytes from k touch. -/
def touchedSegs (k n : Nat) : List Nat := if n = 0 then [] else (List.range ((k + n - 1) / 16 - k / 16 + 1)).map (k / 16 + ·)

/-- A store of a speculative world that covers only a part of an uncorrectable segment keeps its error, in the line that the
world's version copies from its parent's view (R258, R297). -/
def State.keepBad (s : State) (w k n : Nat) : State :=
  if w = 0 ∨ !isOrdinary k ∨ (s.ue.isEmpty && s.verUe.isEmpty && s.rowPoison.isEmpty) then s
  else
    let whole := wholeSegs k n
    let bad := (touchedSegs k n).filter fun g => !whole.contains g && !s.verUe.contains (w, g) &&
      (List.range 16).any fun i => s.byteBad w (g * 16 + i)
    { s with verUe := s.verUe ++ bad.map fun g => (w, g) }

/-- Lines that a write changes have fresh check bits, in the caches and once they are written back: their segments are no longer
correctable (R247). -/
def State.dropCe (s : State) (w k n : Nat) : State :=
  if s.ce.isEmpty ∨ (w ≠ 0 ∧ isOrdinary k) ∨ n = 0 then s
  else { s with ce := s.ce.filter fun g => !(decide (k / 64 ≤ g / 4) && decide (g / 4 ≤ (k + n - 1) / 64)) }

/-- Write bytes from k up in world w's view. -/
def State.setBytesAt (s : State) (w k : Nat) : List Byte → State
  | [] => s
  | b :: bs => (s.setByte w k b).setBytesAt w (k + 1) bs

/-! ### Rows and banks that row commands hold (R183, R234) -/

/-- The DRAM rows of n bytes from a key. -/
def rowsOf (k n : Nat) : List Nat := (List.range ((k + n - 1) / 1024 - k / 1024 + 1)).map (k / 1024 + ·)

/-- Whether a running row program or expression reads or writes one of the rows of n bytes (R183). -/
def State.rowsBusy (s : State) (k n : Nat) : Bool :=
  isDram k && ((s.runs.any fun r => r.live && (rowsOf k n).any fun w => r.reads.contains w || r.writes.contains w) ||
    s.exprs.any fun r => r.live && (rowsOf k n).any fun w => r.reads.contains w || r.writes.contains w)

/-- Members of the wave that a run has under way. -/
def Run.wave (r : Run) : List Nat := (r.subs.drop r.lo).take (r.hi - r.lo)

/-- The number tower*512 + present-bank index of the bank of a subarray. -/
def bankOfSub (sub : Nat) : Nat := sub / 128

/-- Whether a wave has members in a bank and has not halted. -/
def Run.inBank (r : Run) (b : Nat) : Bool := r.live && !r.halted && r.wave.any fun m => bankOfSub m == b

/-- Whether the bank of a key admits no ordinary request now (R224, R234): a write enters only where no program runs, a read
at a step boundary of every program that runs there too (log entry 71). -/
def State.bankShut (s : State) (k : Nat) (wr : Bool) : Bool :=
  isDram k && s.runs.any fun r => r.inBank (k / 2 ^ 27) && (wr || !r.atStep)

/-- Whether an ordinary access to n bytes of one page waits for a row command: for its rows, or for its bank. -/
def State.rowHeld (s : State) (k n : Nat) (wr : Bool) : Bool :=
  !(s.runs.isEmpty && s.exprs.isEmpty) && (s.rowsBusy k n || s.bankShut k wr)

/-! ### What the DRAM holds under the lines of the caches (R182, R228)

The bytes of mem are those of the point of coherence, the LLC (R138). A write leaves its line dirty in a cache, and a row program that writes
under a cached line leaves an older copy there: under then holds what the DRAM has of a byte, with whether the line is dirty.
Row programs and expressions read the DRAM. -/

/-- Byte k of the DRAM. -/
def State.dramByte (s : State) (k : Nat) : Byte := ((s.under.find? (·.1 == k)).map (·.2.1)).getD (Memory.read s.mem k)

def State.dramBytes (s : State) (k n : Nat) : List Byte :=
  if s.under.isEmpty then Memory.readBytes s.mem k n else (List.range n).map fun i => s.dramByte (k + i)

/-- Keep what the DRAM has of n bytes that a write is about to make dirty. -/
def State.keepUnder (s : State) (w k : Nat) : Nat → State
  | 0 => s
  | n + 1 =>
    let s1 := s.keepUnder w k n
    if (w ≠ 0 ∧ isOrdinary (k + n)) ∨ !isDram (k + n) then s1
    else if s1.under.any (·.1 == k + n) then
      { s1 with under := s1.under.map fun e => if e.1 = k + n then (e.1, e.2.1, true) else e }
    else { s1 with under := s1.under ++ [(k + n, Memory.read s1.mem (k + n), true)] }

/-- Segments that a write of n bytes touches have no raw bits of old (R232). -/
def State.dropRaws (s : State) (k n : Nat) : State :=
  if s.raws.isEmpty then s else { s with raws := s.raws.filter fun r => !(decide (r.1 * 16 < k + n) && decide (k < r.1 * 16 + 16)) }

/-- A write of the arrays: a cached line, one of those that cached picks among them, keeps the older bytes, which are then no dirty
ones (log entry 72). -/
def State.dramWrite (s : State) (cached : Nat → Bool) (k : Nat) : List Byte → State
  | [] => s
  | b :: bs =>
    let s1 : State :=
      if s.under.any (·.1 == k) then { s with under := s.under.map fun e => if e.1 = k then (e.1, b, false) else e }
      else if cached k && Memory.read s.mem k != b then { s with under := s.under ++ [(k, b, false)] }
      else { s with mem := Memory.write s.mem k b }
    s1.dramWrite cached (k + 1) bs

/-- Rows of the arrays take new contents that no cache stands over: the lines of those rows leave every cache (R184). -/
def State.dramCommit (s : State) (k : Nat) (bs : List Byte) : State :=
  { s with mem := Memory.writeBytes s.mem k bs, under := s.under.filter fun e => !(decide (k ≤ e.1) && decide (e.1 < k + bs.length)),
           l1 := s.l1.filter fun l => !(decide (k ≤ l.key) && decide (l.key < k + bs.length)) }

/-- The lines that out picks leave the caches: a dirty one is written back, an older copy gives way to the DRAM. -/
def State.evict (s : State) (out : Nat → Bool) : State :=
  let gone : List (Nat × Byte × Bool) := s.under.filter fun e => out e.1
  let s1 := gone.foldl (fun (s : State) (e : Nat × Byte × Bool) =>
    if e.2.2 then s else { s with mem := Memory.write s.mem e.1 e.2.1 }) s
  { s1 with
    under := s.under.filter fun e => !out e.1 }

/-- Lines that the caches of one tower hold at most: the LLC of 48 MiB, the L2 of 4 MiB of each of its eight clusters and the L1 of
64 KiB of each of its 32 cores, in lines of 64 bytes (R14, R21, R138). -/
def cacheLines : Nat := 786432 + 8 * 65536 + 32 * 1024

/-- The lines of a tower that under lists, the oldest first. -/
def State.underLines (s : State) (t : Nat) : List Nat :=
  ((s.under.filter fun e => e.1 / 2 ^ 36 == t).map fun e => e.1 / 64).eraseDups

/-- The caches of every tower hold no more lines than they have room for: the oldest leave (R21), but those of rows that a row command
holds stay (R183). -/
def State.trimUnder (s : State) : State :=
  if s.under.length ≤ cacheLines then s
  else (List.range 8).foldl (fun s t =>
    let ls := (s.underLines t).filter fun l => !s.rowHeld (l * 64) 64 true
    let gone := ls.take ((s.underLines t).length - cacheLines)
    s.evict fun k => gone.contains (k / 64)) s

/-- Lines leave the caches by a free choice; those of rows that a row command holds stay until it has halted (R183). -/
def State.evictSome (s : State) : State :=
  if s.under.isEmpty then s
  else { s.trimUnder.evict fun k => Config.evicted s.fresh (k / 64) && !s.rowHeld k 1 true with fresh := s.fresh + 1 }

/-- A store of consecutive bytes (R247, R258, R297). -/
def State.storeAt (s : State) (w k : Nat) (bs : List Byte) : State :=
  (((((s.keepBad w k bs.length).keepUnder w k bs.length).setBytesAt w k bs).clearSegs w k bs.length).dropRaws k bs.length).dropCe
    w k bs.length

/-- The segments that lie wholly within a list of keys have been written (R297). -/
def State.clearKeys (s : State) (ks : List Nat) : State :=
  if s.ue.isEmpty then s
  else
    let gs := (ks.map (· / 16)).eraseDups.filter fun g => (List.range 16).all fun i => ks.contains (g * 16 + i)
    { s with ue := s.ue.filter fun g => !gs.contains g }

/-- Mark segments as uncorrectable in the view of world w (R233, R348). -/
def State.poisonSegs (s : State) (w : Nat) (gs : List Nat) : State :=
  match gs with
  | [] => s
  | g :: rest =>
    (if w ≠ 0 ∧ isOrdinary (g * 16) then { s with verUe := if s.verUe.contains (w, g) then s.verUe else s.verUe ++ [(w, g)] }
     else { s with ue := if s.ue.contains g then s.ue else s.ue ++ [g] }).poisonSegs w rest

/-! ### Room for versions in the LLC (R138, R258, R272) -/

/-- The version lines of tower t: distinct pairs of a world and a 64-byte line homed there. -/
def State.verLines (s : State) (t : Nat) : List (Nat × Nat) :=
  ((s.ver.filter fun e => e.2.1 / 2 ^ 36 == t).map fun e => (e.1, e.2.1 / 64)).eraseDups

/-- Lines of 64 bytes that an LLC of 48 MiB holds (R138). -/
def llcLines : Nat := 786432

/-- 128-byte lines of the escrow area that the rows of a log take. -/
def logLines (log : List LogCopy) : Nat := (log.map fun c => ((c.rows.map (·.bytes.length)).sum + 127) / 128).sum

/-- Lines of tower t's escrow area that effect logs take. -/
def State.escrowLogs (s : State) (t : Nat) : Nat := ((s.worlds.filter (·.home == t)).map fun w => logLines w.log).sum

/-- Whether a write of world w to the line of k can be placed: the line has a version already, or the home tower's LLC
and what effect logs leave of its escrow area have room (R272; log entry 18). -/
def State.placeable (s : State) (w k : Nat) : Bool :=
  w == 0 || !isOrdinary k || s.ver.isEmpty ||
    (let ls := s.verLines (k / 2 ^ 36)
     ls.contains (w, k / 64) || decide (ls.length + s.escrowLogs (k / 2 ^ 36) < llcLines + s.escrow))

end Sys2Proof.Machine
end

