-- ==== Sys2Proof/Machine/Translate.lean ====
section
/-! DEFINITION. Virtual addresses (R128), the page-table walk and the memory-side TLBs (R144 to R147), and the class
of a page (R141). -/

namespace Sys2Proof.Machine

/-! ### The fields of an address (R128) -/

def nodeOf (va : Word) : Nat := (bits va 46 18).toNat
def towerOf (va : Word) : Nat := (bits va 43 3).toNat
def offsetOf (va : Word) : Nat := (bits va 0 43).toNat
/-- The node value of the local windows. -/
def windowNode : Nat := 0x3FFFF
def isWindow (va : Word) : Bool := nodeOf va == windowNode
/-- An address of this device outside the windows. -/
def isOwn (va : Word) : Bool := nodeOf va == 0
/-- The 64 KiB page that holds an address. -/
def pageOf (va : Word) : Word := va &&& ~~~0xFFFF#64

/-! ### Writes that the device makes for itself -/

/-- A write of the device itself to its DRAM, with no translation: its row or bank may be held (R183). ev says that it is an event
record, behind which EVTAIL moves on. -/
def State.ownWrite (s : State) (k : Nat) (bs : List Byte) (ev : Bool := false) : State :=
  if s.late.isEmpty && !s.rowHeld k bs.length true then
    { s with mem := Memory.writeBytes s.mem k bs, evtail := if ev then BitVec.ofNat 64 ((s.evtail.toNat + 32) % 32768) else s.evtail }
  else { s with late := s.late ++ [{ key := k, bytes := bs, event := ev }] }

/-- Event records that wait for a row command. -/
def State.lateEvents (s : State) : Nat := (s.late.filter (·.event)).length

/-- The device's own writes that waited for a row command are made in their order, those of rows still held later. -/
def State.flushLate (s : State) : State :=
  s.late.foldl (fun s w =>
    if (w.event && s.late.any (·.event)) || s.rowHeld w.key w.bytes.length true then { s with late := s.late ++ [w] }
    else
      { s with mem := Memory.writeBytes s.mem w.key w.bytes,
               evtail := if w.event then BitVec.ofNat 64 ((s.evtail.toNat + 32) % 32768) else s.evtail })
    { s with late := [] }

/-! ### Page-table entries (R145) -/

def pteValid (p : Word) : Bool := p.getLsbD 0
def pteLeaf (p : Word) : Bool := p.getLsbD 1
def pteRead (p : Word) : Bool := p.getLsbD 2
def pteWrite (p : Word) : Bool := p.getLsbD 3
def pteExec (p : Word) : Bool := p.getLsbD 4
def pteClass (p : Word) : Nat := (bits p 5 2).toNat
def pteShared (p : Word) : Bool := p.getLsbD 7
def pteAccessed (p : Word) : Bool := p.getLsbD 8
def pteOwner (p : Word) : Nat := (bits p 52 8).toNat
/-- Physical address bits [51:12] of the next table or the frame, in place. -/
def ptePa (p : Word) : Nat := (bits p 12 40).toNat * 4096
def pteReserved (p : Word) : Bool := bits p 60 4 != 0 || bits p 10 2 != 0

/-- Log2 of the page size of a leaf at level l, and entries of a table of level l (R145). -/
def levelShift : Nat → Nat
  | 1 => 16
  | 2 => 21
  | _ => 30
def levelSize : Nat → Nat
  | 1 => 32
  | 2 => 512
  | _ => 8192

/-- Banks that a tower has lost: eight for a retired channel and four for a narrowed one (R237). -/
def Tower.lostBanks (t : Tower) : Nat :=
  ((List.range 48).map fun c => if t.retired.getLsbD c then 8 else if t.narrowed.getLsbD c then 4 else 0).sum

/-- The bytes of tower t's DRAM: 48 GiB less 128 MiB for each lost bank (R147). -/
def State.capacity (s : State) (t : Nat) : Nat :=
  (384 - (s.towers[t % 8]'(Nat.mod_lt _ (by decide))).lostBanks) * 2 ^ 27

/-- Whether a physical address exists for an entry of this class (R147). -/
def State.paOk (s : State) (t pa cls : Nat) : Bool :=
  if pa < 2 ^ 51 then decide (pa < s.capacity t) else cls == 2

/-- The key of a physical address of tower t. -/
def physKey (t pa : Nat) : Nat := if pa < 2 ^ 51 then dramKey t pa else poolKey (pa - 2 ^ 51)

/-- Whether an entry read at level l is no missing translation (R145). -/
def State.pteOk (s : State) (t l : Nat) (p : Word) : Bool :=
  pteValid p && !pteReserved p && pteClass p != 3 && s.paOk t (ptePa p) (pteClass p) &&
    (if pteLeaf p then ptePa p % 2 ^ levelShift l == 0 else decide (l > 1))

/-- A doubleword of committed memory. -/
def State.dwordAt (s : State) (k : Nat) : Word := BitVec.ofNat 64 (leVal (Memory.readBytes s.mem k 8))

/-- The walk from level l with its table at a physical address (R145). -/
def State.walkFrom (s : State) (asid : BitVec 16) (t off : Nat) : Nat → Nat → Option TlbEntry
  | 0, _ => none
  | l + 1, table =>
    let lg := levelShift (l + 1)
    let k := physKey t table + 8 * (off / 2 ^ lg % levelSize (l + 1))
    let p := s.dwordAt k
    if !s.pteOk t (l + 1) p then none
    else if pteLeaf p then
      some { asid := asid, tower := t, base := off / 2 ^ lg * 2 ^ lg, lg := lg, slot := k, pte := p }
    else s.walkFrom asid t off l (ptePa p)

/-- The entries that the walk reads from level l on. -/
def State.walkSlots (s : State) (t off : Nat) : Nat → Nat → List Nat
  | 0, _ => []
  | l + 1, table =>
    let k := physKey t table + 8 * (off / 2 ^ levelShift (l + 1) % levelSize (l + 1))
    let p := s.dwordAt k
    k :: (if s.pteOk t (l + 1) p && !pteLeaf p then s.walkSlots t off l (ptePa p) else [])

/-- The root of an address space at a tower, if valid (R146). -/
def State.rootOf (s : State) (asid : BitVec 16) (t : Nat) : Option Nat :=
  match s.ptroots.find? (·.1 == (asid.toNat, t)) with
  | some (_, r) =>
    let pa := (bits r 16 36).toNat * 65536
    if r.getLsbD 0 && s.paOk t pa 0 then some pa else none
  | none => none

/-- The TLB entry that holds an address, if any (R144). -/
def State.tlbHit (s : State) (asid : BitVec 16) (t off : Nat) : Option TlbEntry :=
  s.tlb.find? fun e => e.asid == asid && e.tower == t && decide (e.base ≤ off) && decide (off < e.base + 2 ^ e.lg)

/-- The translation of an OFFSET at a tower: the TLB, or a walk (R144, R145); a byte of a page that lies beyond the tower's
capacity has none (R147). -/
def State.lookup (s : State) (asid : BitVec 16) (t off : Nat) : Option TlbEntry :=
  let found :=
    match s.tlbHit asid t off with
    | some e => some e
    | none =>
      match s.rootOf asid t with
      | some table => s.walkFrom asid t off 3 table
      | none => none
  found.filter fun e => s.paOk t (ptePa e.pte + (off - e.base)) (pteClass e.pte)

/-- Whether the walk for an OFFSET waits for a row command (R183). -/
def State.walkHeld (s : State) (asid : BitVec 16) (t off : Nat) : Bool :=
  !(s.runs.isEmpty && s.exprs.isEmpty) && (s.tlbHit asid t off).isNone &&
    match s.rootOf asid t with
    | some table => (s.walkSlots t off 3 table).any fun k => s.rowHeld k 8 false
    | none => false

/-! ### The marks that hardware writes into an entry -/

/-- The entry after an access by an agent: A and D set, OWNER the first core, SH for any other agent that comes later (R141, R145).
An agent is a core, or none for engines, units and the host; owned says that a core owns the page. -/
def pteMark (p : Word) (agent : Option Nat) (wr : Bool) (owned : Bool := pteAccessed p) : Word :=
  let p1 := p ||| 0x100#64 ||| (if wr then 0x200#64 else 0#64)
  match agent with
  | some k =>
    if !owned then (p1 &&& ~~~(0xFF#64 <<< 52)) ||| (BitVec.ofNat 64 (k % 256) <<< 52)
    else if pteOwner p == k then p1 else p1 ||| 0x80#64
  | none => if owned then p1 ||| 0x80#64 else p1

/-- Replace or add an entry of the TLB; the oldest of a tower's 16,384 leaves when there is no room (R144). -/
def tlbPut (es : List TlbEntry) (e : TlbEntry) : List TlbEntry :=
  let rest := es.filter fun x => !(x.asid == e.asid && x.tower == e.tower && x.base == e.base)
  let full := decide ((rest.filter (·.tower == e.tower)).length ≥ 16384)
  (if full then rest.eraseP (·.tower == e.tower) else rest) ++ [e]

/-- The entry m of the page table after the hardware has changed its own fields from those of old to those of new: SH, A
and D are set, OWNER is written when it changes, and nothing else (R145). -/
def pteWriteBack (m old new : Word) : Word :=
  let own : Word := 0xFF#64 <<< 52
  (if old &&& own = new &&& own then m else (m &&& ~~~own) ||| (new &&& own)) ||| (new &&& 0x380#64)

/-- Whether a core owns a page: one has used it since it was mapped (R141). -/
def State.ownedPage (s : State) (e : TlbEntry) : Bool := pteAccessed e.pte && !s.unowned.contains e.slot

/-- The entries that other agents have used before any core, once an agent has used entry e (R141). -/
def State.noteOwner (s : State) (e : TlbEntry) (agent : Option Nat) : State :=
  match agent with
  | some _ => if s.unowned.contains e.slot then { s with unowned := s.unowned.filter (· != e.slot) } else s
  | none => if pteAccessed e.pte || s.unowned.contains e.slot then s else { s with unowned := s.unowned ++ [e.slot] }

/-- Whether a virtual address lies in the page of an entry. -/
def TlbEntry.holds (e : TlbEntry) (va : Word) : Bool :=
  isOwn va && towerOf va == e.tower && decide (e.base ≤ offsetOf va) && decide (offsetOf va < e.base + 2 ^ e.lg)

/-- A page whose entry changes to p becomes shared: its owner's L1 lines of it are written back and invalid (R141). -/
def State.sharePage (s : State) (e : TlbEntry) (p : Word) : State :=
  if pteShared p && !pteShared e.pte then
    { s with l1 := s.l1.filter fun l => !(l.core == pteOwner e.pte && l.asid == e.asid && e.holds l.va) }
  else s

/-- Whether the mark of an access waits for a row command (R183). -/
def State.markHeld (s : State) (e : TlbEntry) (agent : Option Nat) (wr : Bool) : Bool :=
  !(s.runs.isEmpty && s.exprs.isEmpty) && pteMark e.pte agent wr (s.ownedPage e) != e.pte && s.rowHeld e.slot 8 true

/-- Whether an ordinary access to n bytes of one page waits for a row command: for its bytes or for the mark of its entry. -/
def State.accessHeld (s : State) (k n : Nat) (e : TlbEntry) (agent : Option Nat) (wr : Bool) : Bool :=
  s.rowHeld k n wr || s.markHeld e agent wr

/-- Record an access through an entry: the marks in the page table and in the TLB (log entry 35). -/
def State.markPage (s : State) (e : TlbEntry) (agent : Option Nat) (wr : Bool) : State :=
  let p := pteMark e.pte agent wr (s.ownedPage e)
  let s1 := if p = e.pte then s
    else { s with mem := Memory.writeBytes s.mem e.slot (leBytes 8 (pteWriteBack (s.dwordAt e.slot) e.pte p).toNat) }
  let s2 := if s1.tlb.contains { e with pte := p } then s1 else { s1 with tlb := tlbPut s1.tlb { e with pte := p } }
  (s2.noteOwner e agent).sharePage e p

/-- The pages that the tables below a table of level l map, from OFFSET base on (R145). -/
def State.leavesFrom (s : State) (asid : BitVec 16) (t : Nat) : Nat → Nat → Nat → List TlbEntry
  | 0, _, _ => []
  | l + 1, base, table =>
    let lg := levelShift (l + 1)
    (List.range (levelSize (l + 1))).flatMap fun i =>
      let k := physKey t table + 8 * i
      let p := s.dwordAt k
      if !s.pteOk t (l + 1) p then []
      else if pteLeaf p then [{ asid := asid, tower := t, base := base + i * 2 ^ lg, lg := lg, slot := k, pte := p }]
      else s.leavesFrom asid t l (base + i * 2 ^ lg) (ptePa p)

/-- The pages of tower t that an address space maps: those of its tables, as the TLB holds them where it does. -/
def State.leaves (s : State) (asid : BitVec 16) (t : Nat) : List TlbEntry :=
  let held := s.tlb.filter fun e => e.asid == asid && e.tower == t
  let found := match s.rootOf asid t with
    | some table => s.leavesFrom asid t 3 0 table
    | none => []
  held ++ found.filter fun e => !(held.any (·.base == e.base))

/-- An agent that is no core meets a mapped page: its entry is marked, in the TLB too where it stands there (R141). -/
def State.shareLeaf (s : State) (e : TlbEntry) (wr : Bool) : State :=
  if s.tlb.any (·.slot == e.slot) then s.markPage e none wr
  else
    let p := pteMark e.pte none wr (s.ownedPage e)
    ({ s with mem := Memory.writeBytes s.mem e.slot (leBytes 8 (pteWriteBack (s.dwordAt e.slot) e.pte p).toNat) }.noteOwner e
      none).sharePage e p

/-! ### Access kinds -/

/-- What an access needs of its page: read, write, execute. -/
structure Acc where
  rd : Bool
  wr : Bool
  fx : Bool
  deriving DecidableEq, Repr

def Acc.load : Acc := { rd := true, wr := false, fx := false }
def Acc.store : Acc := { rd := false, wr := true, fx := false }
def Acc.atomic : Acc := { rd := true, wr := true, fx := false }
def Acc.fetch : Acc := { rd := false, wr := false, fx := true }

def Acc.allowed (a : Acc) (p : Word) : Bool :=
  (!a.rd || pteRead p) && (!a.wr || pteWrite p) && (!a.fx || pteExec p)

/-- Where an ordinary address leads. -/
inductive Xl where
  /-- a byte of this device or the pool, its page's class, and its TLB entry -/
  | at_ (key cls : Nat) (e : TlbEntry)
  /-- a completion record that the CP allocated for a launch (R68) -/
  | record (key : Nat)
  /-- another device of the load-store domain -/
  | remote (key : Nat)
  /-- a message-only device -/
  | message (key : Nat)
  | missing
  /-- the walk reads a row that a row command holds -/
  | busy
  /-- a page of a class that does not allow the access -/
  | denied (cls : Nat)
  | unrouted
  deriving DecidableEq, Repr

/-- The key of an address in the completion record of a launch of this address space (R68; log entry 16). -/
def State.recordAt (s : State) (asid : BitVec 16) (va : Word) : Option Nat :=
  match s.launches.find? fun l => l.asid == asid && decide (l.joinrec ≤ va) && decide (va.toNat < l.joinrec.toNat + 16) with
  | some l => some (joinKey l.id (va.toNat - l.joinrec.toNat))
  | none => none

/-- Translate an ordinary address: another device by the routing table (R129, R130), this one by the owner's TLB. -/
def State.xlate (s : State) (asid : BitVec 16) (a : Acc) (va : Word) : Xl :=
  if isOwn va then
    match s.recordAt asid va with
    | some k => .record k
    | none =>
      if s.walkHeld asid (towerOf va) (offsetOf va) then .busy
      else match s.lookup asid (towerOf va) (offsetOf va) with
      | some e =>
        if a.allowed e.pte then .at_ (physKey e.tower (ptePa e.pte + (offsetOf va - e.base))) (pteClass e.pte) e
        else .denied (pteClass e.pte)
      | none => .missing
  else
    match s.routes.find? (·.1 == nodeOf va) with
    | some (_, true) => .remote (remoteKey va.toNat)
    | some (_, false) => .message (remoteKey va.toNat)
    | none => .unrouted

/-- Consecutive pieces of the n bytes from va that lie in one 64 KiB page each (R131). -/
def piecesOf (va : Word) : Nat → Nat → List (Word × Nat)
  | 0, _ => []
  | fuel + 1, n =>
    if n = 0 then []
    else
      let m := min n (65536 - va.toNat % 65536)
      (va, m) :: piecesOf (va + BitVec.ofNat 64 m) fuel (n - m)

end Sys2Proof.Machine
end

