-- ==== Sys2Proof/Machine/Base.lean ====
section
/-! DEFINITION. The plainest operations of the machine: scalar registers (R8), tables of the device by number, harts
and teams at and away from the focus, fabric time and the cluster clock (R353), and event records (R306, R307). -/

namespace Sys2Proof.Machine

/-! ### Tables keyed by number -/

def tableGet {α : Type} (t : List (Nat × α)) (k : Nat) (dflt : α) : α :=
  match t with
  | [] => dflt
  | (a, x) :: rest => if a = k then x else tableGet rest k dflt

def tableSet {α : Type} (t : List (Nat × α)) (k : Nat) (v : α) : List (Nat × α) :=
  match t with
  | [] => [(k, v)]
  | (a, x) :: rest => if a = k then (a, v) :: rest else if k < a then (k, v) :: (a, x) :: rest else (a, x) :: tableSet rest k v

/-! ### Numbers of units (R13) -/

def clusterOf (core : Nat) : Nat := core / 4
def towerOfCore (core : Nat) : Nat := core / 32

/-! ### Scalar registers (R8) -/

/-- Read a scalar register; x0 reads 0. -/
def Hart.reg (h : Hart) (r : Reg) : Word := if r = 0 then 0 else h.x[r.val]'r.isLt

/-- Write a scalar register; a write to x0 is discarded. -/
def Hart.setReg (h : Hart) (r : Reg) (v : Word) : Hart := if r = 0 then h else { h with x := h.x.set r.val v r.isLt }

/-- X[r] of the focused hart. -/
def State.x (s : State) (r : Reg) : Word := s.me.reg r
/-- X[d] := v at the focused hart. -/
def State.setX (s : State) (d : Reg) (v : Word) : State := { s with me := s.me.setReg d v }
def State.setPc (s : State) (pc : Word) : State := { s with me := { s.me with pc := pc } }
/-- Move past a scalar word (R89). -/
def State.next (s : State) : State := s.setPc (s.me.pc + 4)
/-- X[d] := v, and past the word. -/
def State.put (s : State) (d : Reg) (v : Word) : State := (s.setX d v).next
def State.setWait (s : State) (w : Option Wait) : State := { s with me := { s.me with wait := w } }

/-! ### Units of the device -/

def State.coreAt (s : State) (k : Nat) : CoreSt := tableGet s.cores k .reset
def State.setCore (s : State) (k : Nat) (c : CoreSt) : State := { s with cores := tableSet s.cores k c }
def State.clusterAt (s : State) (k : Nat) : Cluster := tableGet s.clusters k (.reset k)
def State.setCluster (s : State) (k : Nat) (c : Cluster) : State := { s with clusters := tableSet s.clusters k c }
def State.queueAt (s : State) (q : Nat) : Queue := tableGet s.queues q .reset
def State.setQueue (s : State) (q : Nat) (c : Queue) : State := { s with queues := tableSet s.queues q c }
/-- Change a queue. -/
def State.onQueue (s : State) (q : Nat) (f : Queue → Queue) : State := s.setQueue q (f (s.queueAt q))
def State.towerAt (s : State) (t : Nat) : Tower := s.towers[t % 8]'(Nat.mod_lt _ (by decide))
def State.setTower (s : State) (t : Nat) (v : Tower) : State :=
  { s with towers := s.towers.set (t % 8) v (Nat.mod_lt _ (by decide)) }
def State.pctlAt (s : State) (t : Nat) : PageCtl := s.pctl[t % 8]'(Nat.mod_lt _ (by decide))
def State.setPctl (s : State) (t : Nat) (v : PageCtl) : State :=
  { s with pctl := s.pctl.set (t % 8) v (Nat.mod_lt _ (by decide)) }
def State.launchAt (s : State) (l : Nat) : Option Launch := s.launches.find? (·.id == l)
def State.setLaunch (s : State) (l : Launch) : State :=
  { s with launches := s.launches.map fun x => if x.id == l.id then l else x }
def State.worldAt (s : State) (w : Nat) : Option World := s.worlds.find? (·.id == w)
def State.setWorld (s : State) (w : World) : State :=
  { s with worlds := s.worlds.map fun x => if x.id == w.id then w else x }

/-! ### Harts and teams -/

/-- Harts of a team of a size code (R51, R56). -/
def hartsOf (size : Nat) : Nat := 2 ^ (size % 4)

/-- The harts of the focused team. -/
def State.teamHarts (s : State) : List Hart := s.me :: s.peers

/-- The focused team with its harts, as a team away from the focus would stand. -/
def State.focusCtx (s : State) : TeamCtx := { team := s.team, harts := s.teamHarts, place := .running }

/-- Every team of the device. -/
def State.teams (s : State) : List TeamCtx := if s.live then s.focusCtx :: s.parked else s.parked

/-- Change hart h of team t, wherever the team stands. -/
def State.onHart (s : State) (t h : Nat) (f : Hart → Hart) : State :=
  if s.live ∧ s.team.no = t then
    if s.me.idx = h then { s with me := f s.me }
    else { s with peers := s.peers.map fun x => if x.idx == h then f x else x }
  else
    { s with parked := s.parked.map fun c =>
        if c.team.no == t then { c with harts := c.harts.map fun x => if x.idx == h then f x else x } else c }

/-- Hart h of team t, if there is one. -/
def State.hartAt (s : State) (t h : Nat) : Option Hart :=
  match s.teams.find? (·.team.no == t) with
  | some c => c.harts.find? (·.idx == h)
  | none => none

/-- Change team t, wherever it stands. -/
def State.onTeam (s : State) (t : Nat) (f : Team → Team) : State :=
  if s.live ∧ s.team.no = t then { s with team := f s.team }
  else { s with parked := s.parked.map fun c => if c.team.no == t then { c with team := f c.team } else c }

/-- Change every hart of the focused team. -/
def State.allHarts (s : State) (f : Hart → Hart) : State := { s with me := f s.me, peers := s.peers.map f }

/-- Move the focus to hart h of its own team. -/
def State.focusHart (s : State) (h : Nat) : State :=
  if s.me.idx = h then s
  else
    match s.peers.find? (·.idx == h) with
    | some p => { s with me := p, peers := s.me :: s.peers.filter (·.idx != h) }
    | none => s

/-- Put the focused team among the parked ones at a place. -/
def State.park (s : State) (p : Place) : State :=
  if s.live then { s with parked := s.parked ++ [{ s.focusCtx with place := p }], live := false } else s

/-- Move the focus to team t, if it has a live hart; the team at the focus is parked where it runs. -/
def State.focusTeam (s : State) (t : Nat) : State :=
  if s.live ∧ s.team.no = t then s
  else
    match s.parked.find? (·.team.no == t) with
    | some c =>
      match (c.harts.filter (·.alive)) ++ c.harts.filter (!·.alive) with
      | h :: rest =>
        let s1 := s.park .running
        { s1 with live := true, me := h, peers := rest, team := c.team,
                  parked := s1.parked.filter (·.team.no != t) }
      | [] => s
    | none => s

/-- Move the focus to hart h of team t. -/
def State.focus (s : State) (t h : Nat) : State :=
  let s1 := s.focusTeam t
  if s1.team.no = t then s1.focusHart h else s1

/-- The team that runs on core k, if any (R52). -/
def State.runningOn (s : State) (k : Nat) : Option TeamCtx :=
  s.teams.find? fun c => c.place == .running && c.team.core == k

/-! ### Time (R353; log entry 11) and the budgets that it charges (R76) -/

/-- Cores that teams of a queue's launches occupy. -/
def State.occupied (s : State) (q : Nat) : Nat :=
  (s.teams.filter fun c => c.place == .running && (s.launchAt c.team.launch).any (·.queue == q)).length

/-- Occupied cores charge their queues for dt ns; an abandoned slice charges nothing (R76, R79). -/
def State.charge (s : State) (dt : Nat) : State :=
  { s with queues := s.queues.map fun (q, c) =>
      (q, if c.slice == .abandoned then c else { c with left := c.left - dt * s.occupied q }) }

/-- Fabric time moves on by a free amount. -/
def State.passTime (s : State) : State :=
  let dt := Config.timeGap s.fresh
  { s.charge dt with time := s.time + dt, fresh := s.fresh + 1 }

/-- Fabric time is at least t. -/
def State.timeTo (s : State) (t : Nat) : State := { s.charge (t - s.time) with time := max s.time t }

/-- The focused hart's cluster clock moves on by a free amount. -/
def State.passCycles (s : State) : State :=
  let k := clusterOf s.team.core
  let c := s.clusterAt k
  { s.setCluster k { c with cycles := c.cycles + Config.cycleGap s.fresh } with fresh := s.fresh + 1 }

def State.cyclesNow (s : State) : Nat := (s.clusterAt (clusterOf s.team.core)).cycles

/-! ### Event records (R306, R307) -/

def State.evFull (s : State) : Bool := (s.evtail.toNat + 32 * (s.lateEvents + 1)) % 32768 == s.evhead.toNat % 32768

/-- Write an event record, or count it as lost when the ring is full; a row command that holds its row holds the record (R183). -/
def State.event (s : State) (code unit tower : Nat) (d0 d1 : Word) : State :=
  let s1 := { s.passTime with evseq := s.evseq + 1 }
  if s1.evFull then s1
  else
    let head := ((s1.evseq.toNat % 2 ^ 32) <<< 32) + ((unit % 65536) <<< 16) + ((tower % 256) <<< 8) + code % 256
    let k := dramKey 0 ((s1.evbase.toNat + (s1.evtail.toNat + 32 * s1.lateEvents) % 32768) % 2 ^ 36)
    let bs := leBytes 8 head ++ leBytes 8 d0.toNat ++ leBytes 8 d1.toNat ++ leBytes 8 s1.time
    s1.ownWrite k bs true

/-! ### Trap values -/

def Trap.of (code : Nat) (tval : Word) : Trap := { code := code, sub := 0, tval := tval, aux := 0, src := .scalar, disc := none, more := [] }
def Trap.sized (code : Nat) (tval : Word) (n : Nat) : Trap := { Trap.of code tval with aux := n }
def Trap.window (sub : Nat) (tval : Word) (n : Nat) : Trap := { Trap.sized 0x06 tval n with sub := sub }

/-- Cause codes (R296). -/
def cILLEGAL := 0x01
def cMISALIGN := 0x02
def cPAGE_LOAD := 0x03
def cPAGE_GATHER := 0x04
def cPROTECT := 0x05
def cWINDOW := 0x06
def cTILE_UNCONFIG := 0x07
def cVTYPE := 0x08
def cMASK_STACK := 0x09
def cFP := 0x0A
def cPOISON := 0x0B
def cBANK_UE := 0x0C
def cROWPROG := 0x0D
def cLAYOUT := 0x0E
def cWORLD_ESCAPE := 0x0F
def cVIEW_EXHAUSTED := 0x10
def cWORLD_DEPTH := 0x11
def cSA_OVERFLOW := 0x12
def cSA_INTEGRITY := 0x13
def cCAPACITY := 0x14
def cBIND_SHORT := 0x15
def cENGINE := 0x16
def cTRAP := 0x17
def cDEQUE_FULL := 0x18

/-- Management-core causes (R306). -/
def eQUEUE_MALFORMED := 0x40
def eQUEUE_UNKNOWN := 0x41
def eBUDGET_OVERRUN := 0x42
def eGANG_SKEW := 0x43
def eTHERMAL_OFFLINE := 0x44
def eALARM := 0x45
def eSIDE_LOG_FULL := 0x46
def eFAULT_RECORD := 0x47
def eRESTART := 0x48

end Sys2Proof.Machine
end

