-- ==== Sys2Proof/Machine/Views.lean ====
section
/-! DEFINITION. Worlds and forks as the CP keeps them (R256 to R275): which worlds lie below another, which tasks a
world has, cancelling tasks, discarding and merging versions, and ids that are free. -/

namespace Sys2Proof.Machine

/-! ### The tree of worlds -/

/-- Whether world x lies strictly below world w. -/
def State.isBelow (s : State) (w : Nat) : Nat → Nat → Bool
  | 0, _ => false
  | n + 1, x =>
    if x = 0 then false
    else
      let p := s.parentOf x
      (p == w) || s.isBelow w n p

/-- The worlds strictly below w that have not been merged. -/
def State.below (s : State) (w : Nat) : List Nat :=
  (s.worlds.filter fun x => !x.merged && s.isBelow w 5 x.id).map (·.id)

/-- Depth of a world (R256). -/
def State.depthOf (s : State) (w : Nat) : Nat :=
  match s.worldAt w with
  | some x => x.depth
  | none => 0

/-- World ids that are free (R271). -/
def State.freeIds (s : State) : List Nat :=
  ((List.range 4095).map fun i => 1 + (s.nextWorld + i) % 4095).filter fun w => !(s.worlds.any (·.id == w))

/-- The number of free ids, at most 4,095. -/
def State.freeCount (s : State) : Nat := 4095 - s.worlds.length

/-! ### Acorns of the device -/

/-- Every acorn that waits in a deque, a readiness watcher or with the CP. -/
def State.acorns (s : State) : List Acorn := (s.cores.map (·.2.deque)).flatten ++ s.watch ++ s.held

/-- Change or drop every acorn. -/
def State.mapAcorns (s : State) (f : Acorn → Option Acorn) : State :=
  { s with cores := s.cores.map fun c => (c.1, { c.2 with deque := c.2.deque.filterMap f }),
           watch := s.watch.filterMap f, held := s.held.filterMap f }

/-! ### Tasks of a world -/

/-- Whether a task of world w or of a world below it has not completed: a team, an acorn, or a fork whose continuation is
still to come (R264). -/
def State.hasTasks (s : State) (w : Nat) : Bool :=
  let in_ (x : Nat) : Bool := x == w || s.isBelow w 5 x
  s.teams.any (fun c => in_ c.team.world && c.place != .rival) || s.acorns.any (fun a => in_ a.world) ||
    s.forks.any fun f => in_ f.parent && !f.pushed

/-- The tag of tasks that go on in the parent of a merged world: the fork and index of a rival, or the id of a versioned task's
world with 8. -/
def World.tag (x : World) : Nat × Nat := x.fork.getD (x.id, 8)

/-- Whether a task still counts for a merged world with a tag (R270, R271). -/
def State.hasMoved (s : State) (h k : Nat) : Bool :=
  s.teams.any (·.team.moved.contains (h, k)) || s.acorns.any (·.moved.contains (h, k)) ||
    s.forks.any fun f => !f.pushed && f.cont.moved.contains (h, k)

/-- Whether rival k of a fork has ended (R264, R270). -/
def State.rivalEnded (s : State) (f : Fork) (k : Nat) (r : Rival) : Bool :=
  r.st != .running && !s.hasMoved f.handle k &&
    (match s.worldAt r.wid with
     | some w => w.merged || w.fork != some (f.handle, k) || !s.hasTasks r.wid
     | none => true)

def State.forkEnded (s : State) (f : Fork) : Bool := f.rivals.zipIdx.all fun (r, k) => s.rivalEnded f k r

def State.forkAt (s : State) (h : Nat) : Option Fork := s.forks.find? (·.handle == h)
def State.setFork (s : State) (f : Fork) : State :=
  { s with forks := s.forks.map fun x => if x.handle == f.handle then f else x }

/-- Change rival k of fork h. -/
def State.onRival (s : State) (h k : Nat) (f : Rival → Rival) : State :=
  { s with forks := s.forks.map fun x =>
      if x.handle == h then { x with rivals := x.rivals.zipIdx.map fun (r, j) => if j = k then f r else r } else x }

/-- Change the rival of world w, if w is a rival's world. -/
def State.onRivalOf (s : State) (w : Nat) (f : Rival → Rival) : State :=
  match s.worldAt w with
  | some x => match x.fork with
    | some (h, k) => s.onRival h k f
    | none => s
  | none => s

/-- Free the id of a world, unless it is the handle of a live fork (R271). -/
def State.freeWorld (s : State) (w : Nat) : State :=
  if s.forks.any (·.handle == w) then
    { s with worlds := s.worlds.map fun x => if x.id == w then { x with merged := true, log := [] } else x }
  else { s with worlds := s.worlds.filter (·.id != w) }

/-- Free the ids of merged worlds whose tasks have stopped (R271). -/
def State.freeMerged (s : State) : State :=
  { s with worlds := s.worlds.filter fun x =>
      !x.merged || s.forks.any (·.handle == x.id) || s.hasMoved x.tag.1 x.tag.2 }

/-! ### Tiles and locks of a team -/

/-- The tiles of a team are discarded (R65, R85). -/
def State.dropTiles (s : State) (team : Nat) : State :=
  { s with cores := s.cores.map fun c =>
      (c.1, { c.2 with tiles := c.2.tiles.map fun t => if t.owner == some team then .reset else t }) }

/-- The contents of physical tile p of a core go to its owner's slot, and the tile is without an owner: a dirty tile is
written to the owner's context block first (R85, R211). -/
def State.vacateTile (s : State) (core p : Nat) : State :=
  let c := s.coreAt core
  let tile := c.tiles[p % 8]'(Nat.mod_lt _ (by decide))
  let free (s : State) : State :=
    s.setCore core { c with tiles := c.tiles.set (p % 8) { tile with owner := none, dirty := false } (Nat.mod_lt _ (by decide)) }
  match tile.owner with
  | none => s
  | some t =>
    match s.teams.find? (·.team.no == t) with
    | none => free s
    | some o =>
      let s1 := if tile.dirty then
          s.ownWrite (o.team.ctxBlk + 0xA00 + 0x400 * (p % 8)) (leBytes 1024 tile.data.toNat)
        else s
      free (s1.onTeam t fun x =>
        { x with inSlot := x.inSlot.set (p % 8) true (Nat.mod_lt _ (by decide)),
                 slots := if tile.dirty then x.slots.set (p % 8) tile.data (Nat.mod_lt _ (by decide)) else x.slots })

/-- The tiles of a team on a core are saved, before it resumes on another core (R85). -/
def State.vacateTiles (s : State) (core team : Nat) : State :=
  (List.range 8).foldl (fun s p =>
    if ((s.coreAt core).tiles[p % 8]'(Nat.mod_lt _ (by decide))).owner = some team then s.vacateTile core p else s) s

/-- The row locks of a team are removed (R185). -/
def State.dropLocks (s : State) (team : Nat) : State := { s with locks := s.locks.filter (·.team != team) }

/-- Counters of a team's contexts keep their values after it ends (R137). -/
def pastOf (c : TeamCtx) : List PastHart :=
  c.harts.map fun h => { team := c.team.no, hart := h.idx, launch := c.team.launch, tc := h.ctxs.toList.map (·.tc),
                         seq := h.ctxs.toList.map (·.seq) }

/-! ### Cancelling and discarding -/

/-- What cancelling the tasks of some worlds leaves (R267): their teams stop, save one, and their acorns, side-log
entries and locks go; their engine commands complete without a write. -/
def State.cancelTasks (s : State) (ws : List Nat) (keep : Option Nat) : State :=
  let gone := s.teams.filter fun c => ws.contains c.team.world && some c.team.no != keep
  let nos := gone.map (·.team.no)
  let s1 := s.mapAcorns fun a => if ws.contains a.world then none else some a
  let s2 := { s1 with
    live := s.live && !nos.contains s.team.no, parked := s.parked.filter fun c => !nos.contains c.team.no,
    past := s.past ++ (gone.map pastOf).flatten,
    side := s.side.filter fun e => !ws.contains e.world,
    locks := s.locks.filter fun l => !nos.contains l.team,
    cmds := s.cmds.map fun c => if ws.contains c.world then { c with dropped := true } else c }
  nos.foldl (fun s no => s.dropTiles no) s2

/-- The versions, marks and logs of some worlds vanish (R271). -/
def State.dropVersions (s : State) (ws : List Nat) : State :=
  { s with ver := s.ver.filter fun e => !ws.contains e.1, verUe := s.verUe.filter fun e => !ws.contains e.1,
           code := s.code.filter fun c => !ws.contains c.world, l1 := s.l1.filter fun l => !ws.contains l.world,
           worlds := s.worlds.map fun x => if ws.contains x.id then { x with log := [] } else x }

/-- End some worlds: their tasks are cancelled, their versions discarded, rivals still running become CANCELLED and
those that have ended DISCARDED (R264), forks inside them end, and their ids are free (R266, R267, R271). -/
def State.killWorlds (s : State) (ws : List Nat) (keep : Option Nat) : State :=
  let s1 := ((s.cancelTasks ws keep).dropVersions ws)
  let s2 := ws.foldl (fun s w => s.onRivalOf w fun r =>
    { r with st := if r.st = .running then .cancelled else if r.st = .ended then .discarded else r.st }) s1
  let s3 := { s2 with forks := s2.forks.filter fun f => !ws.contains f.parent }
  ws.foldl (fun s w => s.freeWorld w) s3

/-- World w ends in a state of R264 other than by choice, with every world below it. -/
def State.abortWorld (s : State) (w : Nat) (st : WState) (keep : Option Nat) : State :=
  (s.onRivalOf w fun r => { r with st := st }).killWorlds (w :: s.below w) keep

/-- End a rival that is not chosen: one still RUNNING is CANCELLED, one that has ended is DISCARDED. -/
def State.dropRival (s : State) (h k : Nat) (r : Rival) : State :=
  match r.st with
  | .running => s.abortWorld r.wid .cancelled none
  | .ended | .aborted =>
    let s1 := s.onRival h k fun r => { r with st := .discarded }
    if r.st = .ended then s1.killWorlds (r.wid :: s1.below r.wid) none else s1
  | _ => s

/-! ### Merging (R270) -/

/-- Segments that world w wrote whole. -/
def State.wholeVers (s : State) (w : Nat) : List Nat :=
  let ks := (s.ver.filter (·.1 == w)).map (·.2.1)
  ((ks.map (· / 16)).eraseDups).filter fun g => (List.range 16).all fun i => ks.contains (g * 16 + i)

/-- The bytes of world w go over its parent's bytes; uncorrectable segments go with them. -/
def State.mergeBytes (s : State) (w p : Nat) : State :=
  let mine := s.ver.filter (·.1 == w)
  let s1 := { s with ver := s.ver.filter (·.1 != w) }
  let s2 := mine.foldl (fun s e => (((s.keepUnder p e.2.1 1).setByte p e.2.1 e.2.2).dropRaws e.2.1 1).dropCe p e.2.1 1) s1
  let s3 := (s.wholeVers w).foldl (fun s g => s.clearSegs p (g * 16) 16) s2
  let bad := (s.verUe.filter (·.1 == w)).map (·.2)
  ({ s3 with verUe := s3.verUe.filter (·.1 != w) }).poisonSegs p bad

/-- Merge world w into its parent: the bytes move, worlds below that were never committed are discarded, and the tasks,
acorns, commands and forks of w go on in the parent (R270). The effect log is left to the caller. -/
def State.mergeWorld (s : State) (w : Nat) : State :=
  match s.worldAt w with
  | none => s
  | some x =>
    let p := x.parent
    let d := s.depthOf p
    let s1 := s.killWorlds (s.below w) none
    let s2 := s1.mergeBytes w p
    let s3 := s2.mapAcorns fun a =>
      some (if a.world = w then { a with world := p, moved := x.tag :: a.moved } else a)
    let go (t : Team) : Team := if t.world = w then { t with world := p, depth := d, moved := x.tag :: t.moved } else t
    { s3 with
      team := go s3.team, parked := s3.parked.map fun c => { c with team := go c.team },
      side := s3.side.map fun e => if e.world = w then { e with world := p } else e,
      cmds := s3.cmds.map fun c => if c.world = w then { c with world := p } else c,
      code := s3.code.filter (·.world != w), l1 := s3.l1.filter (·.world != w),
      forks := s3.forks.map fun f =>
        if f.parent = w then
          { f with parent := p, cont := { f.cont with world := p, moved := x.tag :: f.cont.moved } }
        else f,
      worlds := s3.worlds.map fun y => if y.id = w then { y with merged := true, log := [] } else y }

/-- The version of a versioned task is discarded by a trap (R275): the task goes on in the parent world. -/
def State.discardVersion (s : State) : State :=
  let w := s.team.world
  let p := s.parentOf w
  let d := s.depthOf p
  let s1 := s.killWorlds (w :: s.below w) (some s.team.no)
  { s1 with team := { s1.team with world := p, depth := d, versioned := false, restartable := false } }

end Sys2Proof.Machine
end

