-- ==== Sys2Proof/Machine/Cache.lean ====
section
/-! DEFINITION. What caches keep of memory (R14, R21, R138 to R143, R187): the lines of a core's L1, which no other agent
invalidates, and the lines of code of an instruction cache or of a CP. The L2 of a cluster and the LLC of a tower are coherent: what
they hold is in State.mem and State.ver, and what the DRAM has beneath them in State.under (log entry 5). -/

namespace Sys2Proof.Machine

/-- Bytes of a line in every cache (R138). -/
def lineBytes : Nat := 64

/-- Lines of 64 bytes that the 64 KiB of a core's L1 hold (R14, R21). -/
def l1Lines : Nat := 1024

/-- Lines of 64 bytes that the 256 KiB of a cluster's instruction cache hold (R14, R21). -/
def codeLines : Nat := 4096

/-- The line of an address. -/
def lineOf (va : Word) : Word := va &&& ~~~63#64

/-- What a copy of a line that an agent of world c read shows to one of world w: a byte that a world from w up to below c has
written since is that world's (R257, R258). -/
def State.viaCopy (s : State) (w c key : Nat) (bytes : List Byte) : List Byte :=
  bytes.zipIdx.map fun (b, i) =>
    let h := s.holder (key + i) 5 w
    if h == c || s.isBelow h 5 c then b else s.byteIn w (key + i)

/-- Whether a copy that an agent of world c read serves one of world w: its own world's, or an ancestor's (R257). -/
def State.serves (s : State) (c w : Nat) : Bool := c == w || s.isBelow c 5 w

/-! ### The L1 of a core (R139, R143) -/

/-- How the L1 of a core treats the line of an address that its world-w agents read: not at all where the page is uncached, and no line
of another device (R138, R139). -/
def State.l1Kind (s : State) (core : Nat) (asid : BitVec 16) (va : Word) : Option L1Kind :=
  match s.xlate asid .load va with
  | .at_ _ cls e =>
    if cls = 1 then none
    else if cls = 2 then some .pool
    else if pteShared e.pte || pteOwner e.pte != core then some .shared
    else some .own
  | _ => none

/-- The lines that a load of a core may find for one 64-byte line: of its address space, under its own address or an alias (R143),
with bytes other than those of the point of coherence, or with those where the point of coherence has lost them. -/
def State.l1Older (s : State) (core w : Nat) (asid : BitVec 16) (key : Nat) : List L1Line :=
  s.l1.filter fun l => l.core == core && l.asid == asid && l.key == key && s.serves l.world w &&
    (s.viaCopy w l.world key l.bytes != s.bytesIn w key lineBytes || (List.range lineBytes).any fun i => s.byteBad w (key + i))

/-- The lines of a core's L1 under one tag that serve a world. -/
def State.l1Tagged (s : State) (core w : Nat) (asid : BitVec 16) (va : Word) (l : L1Line) : Bool :=
  l.core == core && l.asid == asid && l.va == va && s.serves l.world w

/-- The bytes that a load takes from the L1, if it takes any: where an older copy of the line is there, a free value decides between it
and the point of coherence (R139, R143). It is then the only one under its tag, so that no later load takes a still older one (R173). -/
def State.l1Pick (s : State) (core w : Nat) (asid : BitVec 16) (key : Nat) : Option (List Byte) × State :=
  match s.l1Older core w asid key with
  | [] => (none, s)
  | old =>
    match old[Config.staleLine s.fresh % (old.length + 1)]? with
    | some l =>
      (some (s.viaCopy w l.world key l.bytes),
        { s with l1 := s.l1.filter fun x => x == l || !s.l1Tagged core w asid l.va x, fresh := s.fresh + 1 })
    | none => (none, { s with fresh := s.fresh + 1 })

/-- Put a line in its core's L1 in place of the copy under its tag; where the L1 has no room its oldest line leaves (R139). A line
with an uncorrectable segment is not kept. -/
def State.l1Fill (s : State) (l : L1Line) : State :=
  let rest := s.l1.filter fun x => !s.l1Tagged l.core l.world l.asid l.va x
  if (List.range lineBytes).any fun i => s.byteBad l.world (l.key + i) then { s with l1 := rest }
  else
    let full := decide (l1Lines ≤ (rest.filter (·.core == l.core)).length)
    { s with l1 := (if full then rest.eraseP (·.core == l.core) else rest) ++ [l] }

/-- A copy of a line after world w has written bytes from va up: those that the copy's world sees change. -/
def State.l1Patch (s : State) (w : Nat) (va : Word) (bs : List Byte) (l : L1Line) : L1Line :=
  { l with bytes := l.bytes.zipIdx.map fun (b, i) =>
      let j := l.va.toNat + i
      if va.toNat ≤ j && s.holder (l.key + i) 5 l.world == w then bs.getD (j - va.toNat) b else b }

/-- A store of a core goes through its L1: the core's copies of the lines, under the address of the store, have the bytes
(R139). It comes after the store itself. -/
def State.l1Store (s : State) (core w : Nat) (asid : BitVec 16) (va : Word) (bs : List Byte) : State :=
  if s.l1.isEmpty then s
  else
    { s with l1 := s.l1.map fun l =>
        if l.core == core && l.asid == asid && s.serves w l.world then s.l1Patch w va bs l else l }

/-- An acquire at a scope by a hart of a core: from cluster up the shared-class and remote-homed lines of its L1 are invalid, at fabric
scope the pool lines too (R168). -/
def State.l1Acquire (s : State) (core : Nat) (sc : Scope) : State :=
  if sc = .core then s
  else { s with l1 := s.l1.filter fun l => !(l.core == core && (l.kind == .shared || (l.kind == .pool && sc == .fabric))) }

/-! ### Writes in flight to the pool (R160, R161) -/

/-- Whether a key is one of a byte of the pool. -/
def isPool (k : Nat) : Bool := decide (2 ^ 52 ≤ k) && decide (k < 2 ^ 64)

/-- Remember a write for hart h of a team to the pool until its completion is waited for (R160, R161). -/
def State.notePool (s : State) (team h : Nat) (va : Word) (k n : Nat) (who : PoolBy := .hart) : State :=
  if isPool k then
    { s with poolOut := s.poolOut ++ [{ team := team, hart := h, by_ := who, va := va, key := k, old := s.bytesIn 0 k n }] }
  else s

/-- An agent has read n bytes of the pool at k and not from its own core's L1: the writes of others that it observes, and the earlier
ones of the same writers, have reached the pool, and so stand (R161, R169; log entry 21). mine are the reader's own. -/
def State.poolSeen (s : State) (k n : Nat) (mine : PoolWrite → Bool) : State :=
  if !isPool k || s.poolOut.isEmpty then s
  else
    let same (p q : PoolWrite) : Bool := p.team == q.team && p.hart == q.hart && p.by_ == q.by_
    let hit (p : PoolWrite) : Bool := !mine p && decide (p.key < k + n) && decide (k < p.key + p.old.length)
    let ps := s.poolOut.zipIdx
    { s with poolOut := (ps.filter fun x => !ps.any fun y => decide (x.2 ≤ y.2) && hit y.1 && same x.1 y.1).map (·.1) }

/-! ### Copies of code (R108, R187) -/

/-- A cluster's instruction cache holds no more lines than it has room for. -/
def trimCode (code : List CodeLine) (cluster : Nat) : List CodeLine :=
  if cluster < 64 ∧ codeLines < (code.filter (·.cluster == cluster)).length then code.eraseP (·.cluster == cluster) else code

/-- n bytes of code at va, with key k, that lie in one line, as a unit takes them: where the unit has a copy of the line with other
bytes there and no IFENCE has come between, the older ones or the newer (R108, R187; log entry 74). -/
def State.takeCode (s : State) (unit w : Nat) (asid : BitVec 16) (va : Word) (k n : Nat) : List Byte × State :=
  let o := va.toNat % lineBytes
  let line : CodeLine := { cluster := unit, world := w, key := k - o, asid := asid, va := lineOf va,
                           bytes := s.bytesIn w (k - o) lineBytes }
  let now := s.bytesIn w k n
  let mine (e : CodeLine) : Bool :=
    e.cluster == unit && e.key == line.key && e.asid == asid && e.va == line.va && s.serves e.world w
  match s.code.find? mine with
  | some e =>
    let old := ((s.viaCopy w e.world e.key e.bytes).drop o).take n
    if old = now then (now, s)
    else if Config.staleCode s.fresh then (old, { s with fresh := s.fresh + 1 })
    else (now, { s with code := s.code.filter (!mine ·) ++ [line], fresh := s.fresh + 1 })
  | none => (now, { s with code := trimCode (s.code ++ [line]) unit })

/-- The copies that some units hold of the lines of the bytes from lo up to hi are invalid (R138, R187); an empty range has no line
(R366). -/
def State.dropCode (s : State) (units : Nat → Bool) (asid : BitVec 16) (lo hi : Nat) : State :=
  if hi ≤ lo then s
  else
    { s with code := s.code.filter fun e =>
        !(units e.cluster && e.asid == asid && decide (lo / lineBytes ≤ e.va.toNat / lineBytes) &&
          decide (e.va.toNat / lineBytes ≤ (hi - 1) / lineBytes)) }

end Sys2Proof.Machine
end

