-- ==== Sys2Proof/Machine/Pages.lean ====
section
/-! DEFINITION. Page requests and their rings (R152, R304, R305), and stores that the CP makes for itself. -/

namespace Sys2Proof.Machine

/-! ### The request ring of a tower (R305) -/

/-- Bytes of the ring, when LOG2 is valid. -/
def PageCtl.ringSize (c : PageCtl) : Option Nat :=
  if 5 ≤ c.size.toNat ∧ c.size.toNat ≤ 10 then some (32 * 2 ^ c.size.toNat) else none

def PageCtl.full (c : PageCtl) (n : Nat) : Bool := (c.tail.toNat + 32) % n == c.head.toNat % n

/-- The 32 bytes of a request (R304). -/
def PageReq.bytes (r : PageReq) (tower : Nat) : List Byte :=
  let bit (b : Bool) (k : Nat) : Nat := if b then 2 ^ k else 0
  leBytes 8 ((r.page.toNat / 65536) * 65536 + r.asid.toNat)
    ++ leBytes 8 ((min r.waiters 0xFFFFFFFF) * 2 ^ 32 + tower * 32 + bit r.fx 2 + bit r.wr 1 + bit r.rd 0)
    ++ leBytes 8 r.tag.toNat ++ leBytes 8 0

/-- Post requests at PRQTAIL while the ring has room and no row command holds it (R183); the rest stay in the controller. -/
def State.drainRing (s : State) (t : Nat) : Nat → State
  | 0 => s
  | n + 1 =>
    let c := s.pctlAt t
    match c.ringSize, c.reqs.find? (!·.posted) with
    | some size, some r =>
      let k := dramKey 0 ((c.base.toNat + c.tail.toNat % size) % 2 ^ 36)
      if c.full size || s.rowHeld k 32 true then s
      else
        let c' := { c with tail := BitVec.ofNat 64 ((c.tail.toNat + 32) % size),
                           reqs := c.reqs.map fun x => if x.tag == r.tag then { x with posted := true } else x }
        State.drainRing ({ s with mem := Memory.writeBytes s.mem k (r.bytes t) }.setPctl t c') t n
    | _, _ => s

/-- Hold an access on the page of va: it joins the page's request, or a new request is made and posted. None when the
controller's 1,024 entries are taken by other pages (R152). An atomic counts as a write that waits (R304). -/
def State.postPage (s : State) (asid : BitVec 16) (a : Acc) (va : Word) : Option Word × State :=
  let rd := a.rd && !a.wr
  let t := towerOf va
  let c := s.pctlAt t
  match c.reqs.find? fun r => r.page == pageOf va && r.asid == asid with
  | some r =>
    let r' := { r with waiters := r.waiters + 1, rd := r.rd || rd, wr := r.wr || a.wr, fx := r.fx || a.fx }
    (some r.tag, s.setPctl t { c with reqs := c.reqs.map fun x => if x.tag == r.tag then r' else x })
  | none =>
    if c.reqs.length ≥ 1024 then (none, s)
    else
      let tag := BitVec.ofNat 64 s.nextTag
      let r : PageReq := { tag := tag, page := pageOf va, asid := asid, waiters := 1, rd := rd, wr := a.wr,
                           fx := a.fx, posted := false }
      (some tag, ({ s with nextTag := s.nextTag + 1 }.setPctl t { c with reqs := c.reqs ++ [r] }).drainRing t 1024)

/-- Rows have become free: the device's own writes that waited for them are made, and requests are posted (R183). -/
def State.rowsFree (s : State) : State :=
  (List.range 8).foldl (fun s t => if (s.pctlAt t).reqs.any (!·.posted) then s.drainRing t 1024 else s)
    (if s.late.isEmpty then s else s.flushLate)

/-! ### The range flush (R141, R182) -/

/-- The mapped pages of a range of virtual addresses, each with the bytes of the range in it as keys from and up to. -/
def State.rangeLeaves (s : State) (asid : BitVec 16) (r : Range) : List (TlbEntry × Nat × Nat) :=
  let lo := r.base.toNat
  let hi := min (2 ^ 46) (lo + r.len.toNat)
  (List.range 8).flatMap fun t =>
    if t * 2 ^ 43 < hi ∧ lo < (t + 1) * 2 ^ 43 then
      (s.leaves asid t).filterMap fun e =>
        let a := max lo (t * 2 ^ 43 + e.base)
        let b := min hi (t * 2 ^ 43 + e.base + 2 ^ e.lg)
        let k (v : Nat) : Nat := physKey t (ptePa e.pte) + (v - (t * 2 ^ 43 + e.base))
        if a < b then some (e, k a, k b) else none
    else []

/-- The ranges of a launch marked FLUSH, with its address space. -/
def State.flushRanges (s : State) (launch : Nat) : BitVec 16 × List Range :=
  match s.launchAt launch with
  | some l => (l.asid, l.ranges.filter (·.flush))
  | none => (0, [])

/-- Whether the range flush of a launch waits to mark a page whose entry a row command holds (R183). -/
def State.flushHeld (s : State) (launch : Nat) : Bool :=
  !(s.runs.isEmpty && s.exprs.isEmpty) &&
    ((s.flushRanges launch).2.flatMap (s.rangeLeaves (s.flushRanges launch).1)).any fun x => s.markHeld x.1 none false

/-- The range flush of a launch: the pages of its ranges marked FLUSH are shared with it, and their lines leave every cache;
other lines may. Answers the bytes that are clean. -/
def State.rangeFlush (s : State) (launch : Nat) : List (Nat × Nat) × State :=
  let (asid, rs) := s.flushRanges launch
  let ls := rs.flatMap (s.rangeLeaves asid)
  let spans := ls.map (·.2)
  let s1 := ls.foldl (fun s x => s.shareLeaf x.1 false) s
  let flushed (k : Nat) : Bool := spans.any fun x => decide (x.1 < k + lineBytes ∧ k < x.2)
  (spans, ({ s1 with l1 := s1.l1.filter fun l => !flushed l.key }.evict fun k =>
    spans.any fun x => decide (x.1 ≤ k ∧ k < x.2)).evictSome)

/-! ### Stores of the CP -/

/-- The core number under which the CP's own held stores stand in the side log. -/
def cpCore : Nat := 256

/-- Hold a write of the CP until it can be made. -/
def State.cpHold (s : State) (asid : BitVec 16) (w : Nat) (va : Word) (bs : List Byte) (tag : Option Word := none) : State :=
  { s with side := s.side ++ [{ core := cpCore, team := 0, hart := 0, stream := 0, va := va,
                                bytes := bs.zipIdx.map fun (b, i) => (i, b), masks := [], amo := none, keys := none,
                                world := w, asid := asid, word := 0, rel := none, tag := tag }] }

/-- Whether the status of a launch, written before its counter at the doubleword below, is still held (R69). -/
def State.statusHeld (s : State) (asid : BitVec 16) (va : Word) : Bool :=
  s.side.any fun e => e.core == cpCore && e.asid == asid && e.va == va + 8

/-- A write of the CP in an address space and a world (R65, R68, R69, R74): a missing page or a row command holds it like a
side-log entry (R183); one that is denied or names a message-only device is dropped (R130; log entry 19). -/
def State.cpStore (s : State) (asid : BitVec 16) (w : Nat) (va : Word) (bs : List Byte) : State :=
  if s.statusHeld asid va then s.cpHold asid w va bs
  else
    match s.xlate asid .store va with
    | .at_ k _ e =>
      if s.accessHeld k bs.length e none true then s.cpHold asid w va bs else (s.markPage e none true).storeAt w k bs
    | .record k => s.storeAt w k bs
    | .remote k => s.storeAt w k bs
    | .message _ => s
    | .missing => (s.postPage asid .store va).2.cpHold asid w va bs (s.postPage asid .store va).1
    | .busy => s.cpHold asid w va bs
    | .denied _ => s
    | .unrouted => s

/-- A read of the CP or of an engine in an address space and a world, when every byte translates and no row command holds
it (R183). -/
def State.cpRead (s : State) (asid : BitVec 16) (w : Nat) (va : Word) (n : Nat) : Option (List Byte) :=
  match s.xlate asid .load va with
  | .at_ k _ _ => if s.rowHeld k n false then none else some (s.bytesIn w k n)
  | .record k => some (s.bytesIn w k n)
  | .remote k => some (s.bytesIn w k n)
  | _ => none

end Sys2Proof.Machine
end

