-- ==== Sys2Proof/Machine/Front.lean ====
section
/-! DEFINITION. The front end of the host queues: reads of rings and records by the CP, packets and their checks (R72 to
R75), and what a queue does when earlier packets have completed. -/

namespace Sys2Proof.Machine

/-! ### Reads of the front end -/

/-- Why a read of the front end fails: a page request is pending, or the bytes cannot be read. -/
inductive QStop where
  | wait | bad
  deriving DecidableEq, Repr

/-- An action of the front end. -/
abbrev QM := EStateM QStop State

def qneed (c : Bool) : QM Unit := fun s => if c then .ok () s else .error .bad s

/-- Hold a queue on the page of va, or fail when the pager has refused it (R149). -/
def qHold {α : Type} (q : Nat) (asid : BitVec 16) (va : Word) : QM α := fun s =>
  let c := s.queueAt q
  if c.answers.any (·.1 == pageOf va) then .error .bad s
  else
    let t := towerOf va
    match (s.pctlAt t).reqs.find? fun r => r.page == pageOf va && r.asid == asid && c.hold.contains (t, r.tag) with
    | some _ => .error .wait s
    | none =>
      match s.postPage asid .load va with
      | (some g, s1) => .error .wait (s1.setQueue q { s1.queueAt q with hold := (s1.queueAt q).hold ++ [(t, g)] })
      | (none, s1) => .error .wait s1

/-- n bytes in the address space of a queue; a row command that holds them delays the read (R183). -/
def qRead (q : Nat) (asid : BitVec 16) (va : Word) (n : Nat) : QM (List Byte) := do
  let parts ← (piecesOf va (n / 65536 + 2) n).mapM fun (v, m) => fun s =>
    if isWindow v then .error .bad s
    else
      match s.xlate asid .load v with
      | .at_ k _ e =>
        if s.accessHeld k m e none false then .error .wait s
        else .ok (s.bytesIn 0 k m) ((s.markPage e none false).poolSeen k m fun _ => false)
      | .record k => .ok (s.bytesIn 0 k m) s
      | .remote k => .ok (s.bytesIn 0 k m) s
      | .missing => qHold q asid v s
      | .busy => .error .wait s
      | _ => .error .bad s
  return parts.flatten

/-! ### Queue registers (R72) -/

def Queue.asid (c : Queue) : BitVec 16 := bits c.size 48 16
/-- The address space of the packet at the head: that of the queue when it was read first. -/
def Queue.packetAsid (c : Queue) : BitVec 16 := (c.seen.map (·.1)).getD c.asid
def Queue.log2 (c : Queue) : Nat := (bits c.size 0 5).toNat
/-- Bytes of the ring; a LOG2 outside 4 to 20 stops the queue. -/
def Queue.bytes (c : Queue) : Nat := 16 * 2 ^ c.log2
def Queue.sized (c : Queue) : Bool := decide (4 ≤ c.log2 ∧ c.log2 ≤ 20)
def Queue.offset (c : Queue) : Nat := c.head.toNat % c.bytes
/-- Bytes between HEAD and TAIL. -/
def Queue.avail (c : Queue) : Nat := (c.tail.toNat % c.bytes + c.bytes - c.offset) % c.bytes
/-- PERIOD in µs and BUDGET. -/
def Queue.periodUs (c : Queue) : Nat := c.period.toNat % 2 ^ 32
def Queue.budgetUs (c : Queue) : Nat := c.budget.toNat % 2 ^ 32
/-- QGANG as it holds: before the first period, as it was written last. -/
def Queue.gangReg (c : Queue) : Word := if c.begun.isNone then c.newGang else c.gang
def Queue.gangEn (c : Queue) : Bool := c.gangReg.getLsbD 63
def Queue.fallback (c : Queue) : Nat := (bits c.gangReg 56 7).toNat
def Queue.epoch (c : Queue) : Nat := (bits c.gangReg 0 40).toNat

/-- n bytes of the ring from an offset; they continue at the base (R73; log entry 51). -/
def ringRead (q : Nat) (off n : Nat) : QM (List Byte) := fun s =>
  let c := s.queueAt q
  let m := min n (c.bytes - off)
  (do
    let a ← qRead q c.packetAsid (c.base + BitVec.ofNat 64 off) m
    let b ← if m < n then qRead q c.packetAsid c.base (n - m) else pure []
    return a ++ b : QM (List Byte)) s

/-! ### Packets (R73, R74) -/

/-- One bit of CRC-16. -/
def crcStep (c : BitVec 16) : BitVec 16 := if c.getLsbD 15 then (c <<< 1) ^^^ 0x1021#16 else c <<< 1

/-- CRC-16 with polynomial 0x1021 and initial value 0xFFFF (R73). -/
def crc16 (bs : List Byte) : BitVec 16 :=
  bs.foldl (fun c b =>
    (List.range 8).foldl (fun c _ => crcStep c) (c ^^^ (BitVec.ofNat 16 b.toNat <<< 8))) 0xFFFF#16

/-- Doubleword k of a packet. -/
def packetWord (bs : List Byte) (k : Nat) : Word := BitVec.ofNat 64 (leVal ((bs.drop (8 * k)).take 8))

/-- The length that a type other than NOP requires. -/
def typeLen (ty : Nat) : Nat := if ty = 1 then 3 else 2

/-- Whether a packet of a known type is well formed (R75; log entry 49). -/
def packetOk (bs : List Byte) (len ty : Nat) : Bool :=
  let w1 := packetWord bs 1
  bits (packetWord bs 0) 17 15 == 0 && bits w1 16 48 == 0 &&
    crc16 (bs.take 8 ++ [0, 0] ++ bs.drop 10) == bits w1 0 16 &&
    (ty == 0 || len == typeLen ty) &&
    (!(ty == 4 || ty == 5) || packetWord bs 3 == 0) && (ty != 6 || decide ((packetWord bs 2).toNat ≤ 1))

/-- The step that a well-formed packet of queue q stands for. -/
def packetInstr (q ty : Nat) (bs : List Byte) : Instr :=
  let w := packetWord bs
  match ty with
  | 0 => .nop q
  | 1 => .launch q (w 2) (w 3) (w 4) (w 5)
  | 2 => .wait q (w 2) (w 3)
  | 3 => .signal q (w 2) (w 3)
  | 4 => .copy q (w 2)
  | 5 => .bind q (w 2)
  | _ => if w 2 = 0 then .configDeadline q (w 3) else .configGangTable q (w 3)

/-- What the front end finds at the head of a ring. -/
inductive Head where
  /-- no whole packet lies between HEAD and TAIL -/
  | none
  /-- a bad packet: its cause and SEQ -/
  | bad (cause : Nat) (seq : Word)
  /-- a packet, with its ORDER flag -/
  | packet (i : Instr) (order : Bool)
  deriving DecidableEq, Repr

/-- Read the packet at the head: LEN first, then TYPE, then the rest of R75. A ring that cannot be read is malformed. -/
def readHead (q : Nat) : QM Head := fun s =>
  let c := s.queueAt q
  if c.avail < 16 then .ok .none s
  else
    (do
      let hd ← ringRead q c.offset 16
      let w := packetWord hd 0
      let len := (bits w 8 8).toNat
      let ty := (bits w 0 8).toNat
      let seq := w >>> 32
      if len = 0 ∨ 16 < len then return .bad eQUEUE_MALFORMED seq
      else if c.avail < 16 * len then return .none
      else
        let bs ← ringRead q c.offset (16 * len)
        if 6 < ty then return .bad eQUEUE_UNKNOWN seq
        else if packetOk bs len ty then return .packet (packetInstr q ty bs) (w.getLsbD 16)
        else return .bad eQUEUE_MALFORMED seq : QM Head) s

/-- A queue halts at the packet at its head (R75). -/
def State.haltQueue (s : State) (q cause : Nat) (seq : Word) : State :=
  let c := s.queueAt q
  let off := BitVec.ofNat 64 c.offset
  (s.setQueue q { c with halted := true, haltOff := off, seen := none, hold := [], answers := [] }).event cause q 0 off seq

/-- The queue of a packet. -/
def packetQueue : Instr → Option Nat
  | .nop q => some q
  | .launch q _ _ _ _ => some q
  | .wait q _ _ => some q
  | .signal q _ _ => some q
  | .copy q _ => some q
  | .bind q _ => some q
  | .configDeadline q _ => some q
  | .configGangTable q _ => some q
  | _ => none

/-- Whether a packet of the queue is about to be taken. -/
def State.packetDue (s : State) (q : Nat) : Bool :=
  s.agenda.any fun x => match x with
    | .event i => packetQueue i == some q
    | _ => false

/-- Launches of a queue that have not completed. -/
def State.openLaunches (s : State) (q : Nat) : List Nat :=
  (s.launches.filter fun l => l.queue == q && !l.complete).map (·.id)

/-- Whether every earlier packet of a queue has completed. -/
def State.queueDrained (s : State) (q : Nat) : Bool :=
  (s.openLaunches q).isEmpty && (s.queueAt q).copies.isEmpty && (s.queueAt q).signals.isEmpty

/-- A period of a queue starts at a time: the values written since hold from now on, and the budget is full, counted in
core-ns. -/
def State.beginPeriod (s : State) (q t : Nat) : State :=
  let c := s.queueAt q
  let c1 := { c with period := c.newPeriod, budget := c.newBudget, gang := c.newGang, demoted := false,
                     begun := some t, slice := .none }
  s.setQueue q (if c1.periodUs = 0 then { c1 with begun := none, left := 0 } else { c1 with left := c1.budgetUs * 1000 })

/-- Whether a packet that reaches the head of a queue starts its first period: a LAUNCH, after the queue has left background mode; a
gang queue's starts at EPOCH (R72, R76). -/
def Queue.startsPeriods (c : Queue) (i : Instr) : Bool :=
  (match i with
   | .launch _ _ _ _ _ => true
   | _ => false) && c.periodUs != 0 && c.begun.isNone && !c.gangEn

/-- The front end has read the packet at the head, in this address space and this period (R72, R76), whether or not ORDER holds it
there. -/
def State.sawPacket (s : State) (q : Nat) (i : Instr) : State :=
  let s1 := if (s.queueAt q).startsPeriods i then s.passTime.beginPeriod q s.passTime.time else s
  let c := s1.queueAt q
  s1.setQueue q { c with seen := some (c.seen.getD (c.asid, c.begun)) }

/-- Whether nothing runs before an input arrives: after an alarm's halt, in husk mode, and under the recovery firmware (R319,
R325, R326). -/
def State.still (s : State) : Bool := s.halted || s.boot.husk || s.boot.recovering

/-- Whether no CP and no core works: as above, and until stage 4 of a start has started the CPs (R323). -/
def State.asleep (s : State) : Bool := s.still || !s.boot.ready

/-- The front end looks at the head of a queue: a bad packet halts it, a good one is taken next, unless its ORDER flag
or a WAIT packet holds it. -/
def State.frontEnd (s : State) (q : Nat) : State :=
  let c := s.queueAt q
  if s.asleep || c.halted || !c.sized || c.blockedOn.isSome || s.packetDue q then s
  else
    match readHead q s with
    | .ok .none s1 => s1
    | .ok (.bad cause seq) s1 => s1.haltQueue q cause seq
    | .ok (.packet i order) s1 =>
      let s2 := s1.sawPacket q i
      if order && !s2.queueDrained q then s2 else { s2 with agenda := s2.agenda ++ [.event i] }
    | .error .wait s1 => s1
    | .error .bad s1 => s1.haltQueue q eQUEUE_MALFORMED 0

/-! ### Signals (R74) -/

/-- Whether what a signal waits for has completed. -/
def State.signalDue (s : State) (q : Nat) (g : PendSignal) : Bool :=
  !(g.launches.any (s.openLaunches q).contains) && !(g.copies.any (s.queueAt q).copies.contains)

/-- Write the signals of a queue that are due, in their order (log entry 53). -/
def State.fireSignals (s : State) (q : Nat) : List PendSignal → State
  | [] => s
  | g :: rest =>
    if s.signalDue q g then
      ((s.setQueue q { s.queueAt q with signals := rest }).cpStore g.asid 0 g.counter (leBytes 8 g.value.toNat)).fireSignals
        q rest
    else s

/-- A queue moves on after something that it may wait for. -/
def State.kickQueue (s : State) (q : Nat) : State := (s.fireSignals q (s.queueAt q).signals).frontEnd q

/-! ### Launches that become ready (R181) -/

/-- Whether a launch depends on nothing that is incomplete. -/
def State.depsDone (s : State) (l : Launch) : Bool := l.deps.all fun d => (s.launchAt d).all (·.complete)

/-- Launches that may be placed are placed next. -/
def State.postReady (s : State) : State :=
  let due := s.launches.filter fun l => !l.placed && !l.complete && s.depsDone l &&
    !(s.agenda.contains (.event (.launchReady l.id)))
  { s with agenda := s.agenda ++ due.map fun l => .event (.launchReady l.id) }

/-- Every queue and every held launch looks again. -/
def State.kickAll (s : State) : State := ((s.queues.map (·.1)).foldl State.kickQueue s).postReady

end Sys2Proof.Machine
end

