-- ==== Sys2Proof/Machine/Tasks.lean ====
section
/-! DEFINITION. Tasks as the CP handles them: acorn records and their readiness (R56, R57), deques (R58 to R61), the
start of a task (R53), what an idle core takes (R59, R77), and the end of tasks and launches (R65, R68, R69). -/

namespace Sys2Proof.Machine

/-! ### Acorn records (R56) -/

/-- Doubleword k of a record. -/
def dwordOf (bs : List Byte) (off : Nat) : Word := BitVec.ofNat 64 (leVal ((bs.drop off).take 8))

/-- Whether a 64-byte record passes the checks of SPAWN (R63). -/
def acornOk (bs : List Byte) : Bool :=
  let f := dwordOf bs 24
  bits f 32 32 == 0 && bits f 10 10 == 0 && bits f 4 4 == 0 && (!f.getLsbD 3 || f.getLsbD 2) &&
    bits (dwordOf bs 0) 0 2 == 0 && bits (dwordOf bs 16) 0 4 == 0 && bits (dwordOf bs 32) 0 3 == 0 &&
    bits (dwordOf bs 48) 0 3 == 0

/-- The acorn of a record at address at_, pushed by a task on a core for a launch. -/
def acornOf (bs : List Byte) (at_ : Word) (launch core : Nat) : Acorn :=
  let f := dwordOf bs 24
  { code := dwordOf bs 0, frame := dwordOf bs 8, joinrec := dwordOf bs 16, world := (bits f 20 12).toNat,
    pri := (bits f 8 2).toNat, restartable := f.getLsbD 3, versioned := f.getLsbD 2, size := (bits f 0 2).toNat,
    a1 := dwordOf bs 32, v1 := dwordOf bs 40, a2 := dwordOf bs 48, v2 := dwordOf bs 56,
    launch := launch, core := core, x3 := at_, x4 := 0, rival := none, forks := [], carries := 0,
    moved := [], attempts := 0, avoid := none }

/-- The code of the counter window, and its own-team number (R132, R137). -/
def counterCode : Nat := 4
def ownTeam : Nat := 0x7FFFFF

/-- A readiness address with the own-team code replaced by a team number (R57). -/
def resolveOwn (team : Nat) (a : Word) : Word :=
  if isWindow a && towerOf a == counterCode && (bits a 9 23).toNat == ownTeam then
    (a &&& ~~~(0x7FFFFF#64 <<< 9)) ||| (BitVec.ofNat 64 (team % 0x800000) <<< 9)
  else a

def Acorn.resolve (a : Acorn) (team : Nat) : Acorn := { a with a1 := resolveOwn team a.a1, a2 := resolveOwn team a.a2 }

/-! ### Counters and readiness (R57, R137) -/

/-- The value of counter c of hart h of team t: that of the team, or the last one of a team that has ended. -/
def State.counterOf (s : State) (t h c : Nat) : Nat :=
  match s.hartAt t h with
  | some x => (x.ctxs[c % 8]'(Nat.mod_lt _ (by decide))).tc
  | none =>
    match s.past.find? fun p => p.team == t && p.hart == h with
    | some p => p.tc.getD (c % 8) 0
    | none => 0

/-- The address-space identifier of a launch. -/
def State.asidOf (s : State) (l : Nat) : BitVec 16 :=
  match s.launchAt l with
  | some x => x.asid
  | none => 0

/-- Eight bytes as the watcher reads them for an acorn, in the acorn's world; none while they have no translation. -/
def State.watched (s : State) (asid : BitVec 16) (w : Nat) (a : Word) : Option Nat :=
  if isWindow a && towerOf a == counterCode then
    some (s.counterOf (bits a 9 23).toNat (bits a 6 3).toNat (bits a 3 3).toNat)
  else (s.cpRead asid w a 8).map leVal

/-- One readiness condition. -/
def State.condition (s : State) (asid : BitVec 16) (w : Nat) (a v : Word) : Bool :=
  a == 0 || (match s.watched asid w a with
    | some x => decide (v.toNat ≤ x)
    | none => false)

def State.readyAcorn (s : State) (a : Acorn) : Bool :=
  s.condition (s.asidOf a.launch) a.world a.a1 a.v1 && s.condition (s.asidOf a.launch) a.world a.a2 a.v2

/-- Post page requests for readiness counters that have no translation (R149). -/
def State.postReadiness (s : State) (a : Acorn) : State :=
  [a.a1, a.a2].foldl (fun s va =>
    if va ≠ 0 ∧ isOwn va ∧ s.xlate (s.asidOf a.launch) .load va = .missing then
      (s.postPage (s.asidOf a.launch) .load va).2
    else s) s

/-! ### Deques (R58) -/

def dequeRoom : Nat := 4096
def watcherRoom : Nat := 16384

/-- Acorns in the watcher of the tower of a core (R58). -/
def State.watchCount (s : State) (core : Nat) : Nat :=
  (s.watch.filter fun a => towerOfCore a.core == towerOfCore core).length

/-- Push an acorn at the bottom of its core's deque; the list runs from the top. -/
def State.pushBottom (s : State) (a : Acorn) : State :=
  let c := s.coreAt a.core
  s.setCore a.core { c with deque := c.deque ++ [a] }

/-- Whether the deque of a core has a free entry. -/
def State.dequeFree (s : State) (core : Nat) : Bool := decide ((s.coreAt core).deque.length < dequeRoom)

/-- Put an acorn into the watcher of its tower. -/
def State.watchAcorn (s : State) (a : Acorn) : State := { s.postReadiness a with watch := s.watch ++ [a] }

/-- Push an acorn of a launch: into its deque while it has room, else the CP holds it (R61). -/
def State.cpPush (s : State) (a : Acorn) : State :=
  if !s.readyAcorn a then s.watchAcorn a
  else if s.dequeFree a.core then s.pushBottom a
  else { s with held := s.held ++ [a] }

/-- Push a continuation of the CP: the watcher keeps it while it is not ready or its deque is full (R61). -/
def State.cpContinue (s : State) (a : Acorn) : State :=
  if s.readyAcorn a && s.dequeFree a.core then s.pushBottom a else s.watchAcorn a

/-! ### The start of a task (R53, R54) -/

/-- A hart at the start of a task; seed names the undefined contents of its vector and mask registers. -/
def Hart.start (a : Acorn) (h seed : Nat) : Hart :=
  { Hart.reset with
    idx := h, alive := true, pc := a.code,
    x := (((((Vector.replicate 32 0).set 1 (BitVec.ofNat 64 h)).set 2 a.frame).set 3 a.x3).set 4 a.x4).set 5 a.joinrec,
    v := Vector.ofFn fun n : Fin 32 => Config.undefVec seed n.val,
    m := Vector.ofFn fun n : Fin 8 => Config.undefMask seed n.val,
    stk := Vector.ofFn fun n : Fin 8 => Config.undefMask seed (8 + n.val),
    seed := seed }

/-- Whether a team number is still in use: by a team, by a command, or by the counters of a team whose launch has not
completed (R137). -/
def State.teamUsed (s : State) (n : Nat) : Bool :=
  s.teams.any (·.team.no == n) || s.cmds.any (·.team == n) ||
    s.past.any fun p => p.team == n && (s.launchAt p.launch).any (!·.complete)

/-- The first free team number from n on, among fuel + 1. -/
def State.freeTeam (s : State) : Nat → Nat → Nat
  | 0, n => n % ownTeam
  | fuel + 1, n => if s.teamUsed (n % ownTeam) then s.freeTeam fuel (n + 1) else n % ownTeam

/-- The number of the next team. -/
def State.teamNo (s : State) : Nat := s.freeTeam (s.teams.length + s.cmds.length + s.past.length) s.nextTeam

/-- The team of a task that starts on a core in world w at depth d. -/
def teamStart (s : State) (a : Acorn) (core w d : Nat) : Team :=
  { Team.reset with
    no := s.teamNo, task := s.nextTask % 2 ^ 32, size := a.size, core := core, world := w, depth := d,
    launch := a.launch, asid := s.asidOf a.launch, joinrec := a.joinrec, spatial := a.x4, acorn := some a,
    versioned := a.versioned || decide (0 < a.carries), carried := if a.versioned then a.carries else a.carries - 1,
    restartable := a.restartable, attempts := a.attempts, moved := a.moved,
    contOf := a.forks, ctxBlk := blockKey (Config.teamArea s.nextTeam) }

/-- Run a team on its core: at the focus when no team is there. -/
def State.runTeam (s : State) (c : TeamCtx) : State :=
  if s.live then { s with parked := s.parked ++ [{ c with place := .running }] }
  else
    match c.harts with
    | h :: rest => { s with live := true, me := h, peers := rest, team := c.team }
    | [] => s

/-- Start the task of an acorn on a core, with an acquire at package scope (R54). A versioned task takes a world of its own (R274); a rival's acorn restores
its team (R263). -/
def State.startTask (s : State) (core : Nat) (a : Acorn) : State :=
  match a.rival with
  | some t =>
    match s.parked.find? (·.team.no == t) with
    | some c =>
      let s1 := { s with parked := s.parked.filter (·.team.no != t) }
      (s1.runTeam { c with team := { c.team with core := core, world := a.world, depth := s.depthOf a.world,
                                                 moved := a.moved } }).l1Acquire core .package
    | none => s
  | none =>
    let mk (s : State) (w d : Nat) : State :=
      let n := hartsOf a.size
      let harts := (List.range n).map fun h => Hart.start a h (s.fresh + h)
      (({ s with fresh := s.fresh + n, nextTeam := s.nextTeam + 1, nextTask := s.nextTask + 1,
                 past := s.past.filter (·.team != s.teamNo) }).runTeam
        { team := teamStart s a core w d, harts := harts, place := .running }).l1Acquire core .package
    if a.versioned then
      match s.freeIds with
      | w :: _ =>
        let d := s.depthOf a.world + 1
        mk { s with nextWorld := w,
                    worlds := s.worlds ++ [{ id := w, parent := a.world, depth := d, fork := none, trapx := true,
                                             merged := false, home := towerOfCore core, log := [] }] } w d
      | [] => s
    else mk s a.world (s.depthOf a.world)

/-- Whether an acorn can start now: a versioned one waits for a free world id (R274). -/
def State.canStart (s : State) (a : Acorn) : Bool := !a.versioned || a.rival.isSome || decide (0 < s.freeCount)

/-! ### What a core takes (R59, R61, R77) -/

/-- Work that a core can take. -/
inductive Pick where
  | team (no : Nat)
  | bottom
  | top (core : Nat)
  | held (k : Nat)
  | watched (k : Nat)
  deriving DecidableEq, Repr

/-- Whether a core belongs to a gang: a launch of the gang's queue is bound to it (R79). -/
def State.gangCore (s : State) (q core : Nat) : Bool :=
  s.launches.any fun l => l.queue == q && !l.complete && l.cores.contains core

/-- Whether a core is kept free for the slice of a gang whose devices are waited for (R79). -/
def State.gangHeld (s : State) (core : Nat) : Bool :=
  s.queues.any fun (q, c) => c.gangEn && c.slice == .waiting && s.gangCore q core

/-- Whether a core may take work of a launch: its binding set includes the core (R59, R70), a gang's launch runs in its
slice only, and without a period it has none and never runs (R72, R79; log entry 53), a core kept for a gang takes nothing (R79), and the launch's evicted accumulators come back first (R293). -/
def State.bound (s : State) (l core : Nat) : Bool :=
  match s.launchAt l with
  | some x =>
    let q := s.queueAt x.queue
    x.cores.contains core && !x.saOut.contains (clusterOf core) && (!q.gangEn || q.slice == .running) && !s.gangHeld core
  | none => !s.gangHeld core

/-- Whether a core may take an acorn: a task that failed on a core is not run again there (R87). -/
def State.mayTake (s : State) (a : Acorn) (core : Nat) : Bool := s.bound a.launch core && a.avoid != some core

/-- Whether a queue is the fallback of an abandoned slice on one of the gang's cores (R79). -/
def State.fallsBack (s : State) (queue core : Nat) : Bool :=
  s.queues.any fun (q, c) => c.gangEn && c.slice == .abandoned && c.fallback == queue && s.gangCore q core

/-- The order of R77 for a launch on a core: the fallback of an abandoned slice, then by deadline and round-robin, then
demoted and background-only queues by arrival. -/
def State.rank (s : State) (l core : Nat) : Nat × Nat × Nat :=
  match s.launchAt l with
  | some x =>
    let q := s.queueAt x.queue
    if s.fallsBack x.queue core then (0, l, 0)
    else if q.periodUs = 0 ∨ q.demoted then (2, l, 0)
    else (1, x.deadline, (x.queue + 63 - s.served) % 64)
  | none => (2, l, 0)

def rankLt (a b : Nat × Nat × Nat) : Bool :=
  decide (a.1 < b.1) || (a.1 == b.1 && (decide (a.2.1 < b.2.1) || (a.2.1 == b.2.1 && decide (a.2.2 < b.2.2))))

/-- Distance of two towers in the mesh (R12, R19). -/
def meshDistance (a b : Nat) : Nat :=
  (if a / 4 = b / 4 then 0 else 1) + (a % 4 - b % 4) + (b % 4 - a % 4)

/-- The cores of a tower from one after a core of it, wrapping. -/
def coresAfter (t core : Nat) : List Nat :=
  if towerOfCore core = t then (List.range 31).map fun i => 32 * t + (core % 32 + 1 + i) % 32
  else (List.range 32).map fun i => 32 * t + i

/-- Towers by distance from t, equal distances by number. -/
def towersFrom (t : Nat) : List Nat :=
  (List.range 5).flatMap fun d => (List.range 8).filter fun u => meshDistance t u == d

/-- The re-queued teams of a core's tower that it may run, by priority and age. -/
def State.requeued (s : State) (core : Nat) : List TeamCtx :=
  let ts := s.parked.filter fun c =>
    c.place == .ready && towerOfCore c.team.core == towerOfCore core && s.bound c.team.launch core
  (List.range 4).flatMap fun p => ts.filter fun c => (c.team.acorn.map (·.pri)).getD 0 == 3 - p

/-- The first acorn of a core's share that the CP or the watcher keeps behind a full deque: an idle core takes it as if from
the top of the deque (R61). -/
def State.keptTop (s : State) (core v : Nat) : List (Pick × Nat) :=
  let ok (a : Acorn) : Bool := a.core == v && s.canStart a && s.mayTake a core
  (((s.held.zipIdx.filter fun x => ok x.1).map fun x => (Pick.held x.2, x.1.launch))
    ++ (if s.dequeFree v then []
        else (s.watch.zipIdx.filter fun x => ok x.1 && s.readyAcorn x.1).map fun x => (Pick.watched x.2, x.1.launch))).take 1

/-- The candidates of a core in the order of R59, with their launches. -/
def State.candidates (s : State) (core : Nat) : List (Pick × Nat) :=
  let own := (s.coreAt core).deque
  let teams := (s.requeued core).map fun c => (Pick.team c.team.no, c.team.launch, (c.team.acorn.map (·.pri)).getD 0)
  let bottom := match own.getLast? with
    | some a => if s.canStart a && s.mayTake a core then [(Pick.bottom, a.launch, a.pri)] else []
    | none => []
  let mine := match bottom, teams with
    | (b, l, p) :: _, (t, m, q) :: rest =>
      if p > q then (b, l) :: (t, m) :: rest.map (fun x => (x.1, x.2.1))
      else (t, m) :: rest.map (fun x => (x.1, x.2.1)) ++ [(b, l)]
    | bs, ts => ts.map (fun x => (x.1, x.2.1)) ++ bs.map (fun x => (x.1, x.2.1))
  let stolen := (towersFrom (towerOfCore core)).flatMap fun t => (coresAfter t core).flatMap fun v =>
    let top := match (s.coreAt v).deque.head? with
      | some a => if s.canStart a && s.mayTake a core then [(Pick.top v, a.launch)] else []
      | none => []
    s.keptTop core v ++ top
  mine ++ s.keptTop core core ++ stolen

/-- The first of the best-ranked candidates. -/
def bestPick (s : State) (core : Nat) : List (Pick × Nat) → Option (Pick × Nat)
  | [] => none
  | (p, l) :: rest =>
    match bestPick s core rest with
    | some (q, m) => if rankLt (s.rank m core) (s.rank l core) then some (q, m) else some (p, l)
    | none => some (p, l)

/-- Whether a core is in service: its tower is not offline (R25, R315), and the device is started and not halted or in reset. -/
def State.coreServes (s : State) (core : Nat) : Bool := !(s.towerAt (towerOfCore core)).offline && !s.asleep

/-! ### Scratchpad windows (R134, R135) -/

/-- The key of byte o of a launch's allocation on a core, if it lies within it (R134, R135); a tower that is offline has no
allocation (R25; log entry 57). -/
def State.spKey (s : State) (launch core o : Nat) : Option Nat :=
  if (s.towerAt (towerOfCore core)).offline then none
  else match s.launchAt launch with
  | some l =>
    match l.alloc.find? (·.1 == core) with
    | some (_, base, size) => if o < size then some (vaultKey core (base + o)) else none
    | none => none
  | none => none

/-- The key of a scratchpad-window address for a team's launch on its core (R134). -/
def State.scratchKey (s : State) (t : Team) (va : Word) : Option Nat :=
  let o := offsetOf va
  match towerOf va with
  | 0 => s.spKey t.launch t.core o
  | 1 => if o / 2 ^ 23 = 0 then s.spKey t.launch (clusterOf t.core * 4 + o / 2 ^ 21) (o % 2 ^ 21) else none
  | 2 =>
    if o / 2 ^ 26 = 0 then s.spKey t.launch (towerOfCore t.core * 32 + o / 2 ^ 21) (o % 2 ^ 21) else none
  | _ => none

/-! ### The unfolding unit (R217) -/

/-- The element width code of a VTYPE (R190). -/
def vtW (v : Word) : Nat := (bits v 0 3).toNat

/-- The descriptor in 64 bytes, when it is valid for elements of w bits. -/
def unfoldOf (va : Word) (w : Nat) (bs : List Byte) : Option Unfold :=
  let b := dwordOf bs 0
  let x := dwordOf bs 8
  let y := dwordOf bs 16
  let u : Unfold :=
    { addr := va, base := b, c := (bits x 0 16).toNat, h := (bits x 16 16).toNat, w := (bits x 32 16).toNat,
      pt := (bits x 48 8).toNat, pl := (bits x 56 8).toNat, kh := (bits y 0 8).toNat, kw := (bits y 8 8).toNat,
      sh := (bits y 16 4).toNat, sw := (bits y 20 4).toNat, dh := (bits y 24 4).toNat, dw := (bits y 28 4).toNat,
      oh := (bits y 32 16).toNat, ow := (bits y 48 16).toNat }
  let reserved := (bs.drop 24).take 40
  let counts := [u.c, u.h, u.w, u.kh, u.kw, u.sh, u.sw, u.dh, u.dw, u.oh, u.ow]
  if reserved.all (· == 0) && counts.all (· != 0) && isWindow b && decide (towerOf b ≤ 2) && u.c * w % 8 == 0 then some u
  else none

/-- Where the 64 bytes of a descriptor lie for a team, if they can be read. -/
def State.unfoldKeys (s : State) (t : Team) (va : Word) : Option (List Nat) :=
  let keys : List (Option Nat) :=
    if isWindow va then (List.range 64).map fun i => s.scratchKey t (va + BitVec.ofNat 64 i)
    else match s.xlate t.asid .load va with
      | .at_ k _ _ => (List.range 64).map fun i => some (k + i)
      | .record k => (List.range 64).map fun i => some (k + i)
      | .remote k => (List.range 64).map fun i => some (k + i)
      | _ => [none]
  if keys.all Option.isSome then some (keys.filterMap id) else none

/-- A restore reads the descriptor of the unfolding unit again; one that cannot be read or would be rejected leaves the unit as
it was (log entry 75). -/
def State.rereadUnfold (s : State) (t : Team) (h : Hart) : Hart :=
  match h.unf with
  | none => h
  | some u =>
    match (s.unfoldKeys t u.addr).bind fun ks => unfoldOf u.addr (2 ^ vtW h.vtype) (ks.map (s.byteIn t.world)) with
    | some v => { h with unf := some v }
    | none => h

/-- Resume a re-queued team on a core: every hart re-tests its wait (R82), and its unfolding unit reads its descriptor again
(R217). On another core nothing is left in the L1 that is older than what the team has read (R173; log entry 5). -/
def State.resumeTeam (s : State) (core no : Nat) : State :=
  match s.parked.find? (·.team.no == no) with
  | some c0 =>
    let s1 := if c0.team.core = core then s else (s.vacateTiles c0.team.core no).l1Acquire core .fabric
    match s1.parked.find? (·.team.no == no) with
    | some c =>
      let t := { c.team with core := core }
      ({ s1 with parked := s1.parked.filter (·.team.no != no) }).runTeam { c with team := t, harts := c.harts.map (s1.rereadUnfold t) }
    | none => s1
  | none => s

/-- Take one piece of work on a core. -/
def State.take (s : State) (core : Nat) : Pick → State
  | .team no => s.resumeTeam core no
  | .bottom =>
    let c := s.coreAt core
    match c.deque.getLast? with
    | some a => (s.setCore core { c with deque := c.deque.dropLast }).startTask core a
    | none => s
  | .top v =>
    let c := s.coreAt v
    match c.deque with
    | a :: rest => (s.setCore v { c with deque := rest }).startTask core a
    | [] => s
  | .held k =>
    match s.held[k]? with
    | some a => ({ s with held := s.held.eraseIdx k }).startTask core a
    | none => s
  | .watched k =>
    match s.watch[k]? with
    | some a => ({ s with watch := s.watch.eraseIdx k }).startTask core a
    | none => s

/-- A core without a team seeks work (R59). -/
def State.seek (s : State) (core : Nat) : State :=
  if (s.runningOn core).isSome || !s.coreServes core then s
  else
    match bestPick s core (s.candidates core) with
    | some (p, l) =>
      let q := (s.launchAt l).map (·.queue)
      (match q with
       | some n => { s with served := n }
       | none => s).take core p
    | none => s

/-! ### The slices of gangs (R79, R80) -/

/-- The number of the period that runs (R80). -/
def Queue.periodNo (c : Queue) : Nat :=
  if c.periodUs = 0 then 0 else ((c.begun.getD 0) / 1000 - c.epoch) / c.periodUs

/-- Devices of a gang's table that have not reported ready for the period, this device not counted. -/
def State.gangMissing (s : State) (q : Nat) : Nat :=
  let c := s.queueAt q
  let ready (m : Nat) : Bool := s.gangrdy.any fun (x : (Nat × Nat) × Word) => x.1 == (q, m) && x.2 == BitVec.ofNat 64 c.periodNo
  (c.gangTable.zipIdx.filter fun x => x.1.2 != Config.pbrId.toNat && !ready x.2).length

/-- Cores of a gang. -/
def State.gangCores (s : State) (q : Nat) : List Nat := (List.range 256).filter (s.gangCore q)

/-- Whether the slice of a gang can run: every device is ready and the gang's own cores are free. -/
def State.sliceDue (s : State) (q : Nat) : Bool :=
  let c := s.queueAt q
  c.gangEn && c.slice == .waiting && s.gangMissing q == 0 && (s.gangCores q).all fun k => (s.runningOn k).isNone

/-- Some cores seek work, after the slices that can run have begun: a slice that waited begins as its last core becomes
free. -/
def State.seekAll (s : State) (cores : List Nat) : State :=
  let due := (s.queues.map (·.1)).filter s.sliceDue
  let s1 := due.foldl (fun s q => s.setQueue q { s.queueAt q with slice := .running }) s
  (cores ++ due.flatMap s.gangCores).foldl State.seek s1

/-- Cores that run a team. -/
def State.busyCores (s : State) : List Nat := (s.teams.filter (·.place == .running)).map (·.team.core)

/-- After some teams have been cancelled, the cores they left seek work. -/
def State.reseek (s : State) (before : List Nat) : State := s.seekAll (before.filter fun k => !s.busyCores.contains k)

/-! ### The end of launches (R68, R69) -/

/-- A launch ends: its status word and its completion value are written, its allocations are
free, and what waits for it moves on. -/
def State.completeLaunch (s : State) (l : Launch) : State :=
  let s1 := s.cpStore l.asid 0 (l.counter + 8) (leBytes 8 (l.statusTask % 2 ^ 32 * 2 ^ 32 + l.status % 256))
  let s2 := s1.cpStore l.asid 0 l.counter (leBytes 8 l.value.toNat)
  ({ s2.setLaunch { l with complete := true } with
     sas := s2.sas.filter (·.launch != l.id), adds := s2.adds.filter (·.launch != l.id) }).kickAll

/-- Started launches whose join count has reached 0 complete. -/
def State.checkLaunches (s : State) : State :=
  (s.launches.filter fun l => l.started && !l.complete).foldl (fun s l =>
    if s.dwordAt (joinKey l.id 0) = 0 then s.completeLaunch l else s) s

/-- A launch completes with a failure; the first one recorded stands (R69). -/
def State.endLaunch (s : State) (id status task : Nat) : State :=
  match s.launchAt id with
  | some l =>
    if l.complete then s
    else s.completeLaunch (if l.status = 0 then { l with status := status, statusTask := task } else l)
  | none => s

/-- A failure of a launch that the management core receives as FAULT_RECORD (R69, R71, R299, R306; log entry 50). -/
def State.failLaunch (s : State) (id status sub task : Nat) (data1 : Word) : State :=
  match s.launchAt id with
  | some l =>
    let d0 := BitVec.ofNat 64 (task % 2 ^ 32 * 2 ^ 32 + sub % 256 * 256 + status % 256)
    (s.event eFAULT_RECORD l.queue 0 d0 data1).endLaunch id status task
  | none => s

/-! ### The end of a task (R65, R268) -/

/-- A fork ends: an undecided one loses every rival, and the ids of its worlds are free (R268, R271). -/
def State.endFork (s : State) (h : Nat) : State :=
  match s.forkAt h with
  | none => s
  | some f =>
    let s1 := if f.decided then s else f.rivals.zipIdx.foldl (fun s (r, j) => s.dropRival h j r) s
    ({ s1 with forks := s1.forks.filter (·.handle != h) }).freeWorld h

/-- Rivals still RUNNING whose last task has gone become ABORTED (R264). -/
def State.settleWorlds (s : State) : State :=
  s.forks.foldl (fun s f => f.rivals.foldl (fun s r =>
    if r.st = .running ∧ !(s.hasTasks r.wid) ∧ (s.worldAt r.wid).any (fun w => !w.merged && w.fork.isSome) then
      s.abortWorld r.wid .aborted none else s) s) s

/-- World w and its ancestors, n worlds in all. -/
def State.chain (s : State) (w : Nat) : Nat → List Nat
  | 0 => []
  | n + 1 => if w = 0 then [] else (w :: s.below w) ++ s.chain (s.parentOf w) n

/-- The focused team leaves the device: versions that it never committed go, its tiles and locks go, its counters keep their values, a fork whose
continuation it was ends, and worlds and launches that wait for it are settled. Its core is then without a team. -/
def State.retireTeam (s : State) : State :=
  let t := s.team
  let s0 := s.killWorlds (s.chain t.world (t.carried + if t.versioned then 1 else 0)) (some t.no)
  let s1 := { s0 with live := false, past := s0.past ++ pastOf s0.focusCtx }
  let s2 := (s1.dropTiles t.no).dropLocks t.no
  let s3 := t.contOf.foldl State.endFork s2
  s3.settleWorlds.freeMerged.checkLaunches

/-- The focused team leaves and its core seeks work (R59, R65). -/
def State.leave (s : State) : State :=
  let busy := s.busyCores
  s.retireTeam.reseek busy

end Sys2Proof.Machine
end

