-- ==== Sys2Proof/Machine/Ops.lean ====
section
/-! DEFINITION. The operations that meanings share: how an instruction stops (a trap, a wait), accesses to memory and
windows by the focused hart (R131 to R137, R149, R150, R259, R272, R297), taking a trap and returning from one (R294 to
R301), and the ends of a task that traps use (R299). -/

namespace Sys2Proof.Machine

/-! ### Actions -/

/-- Why an action stops before its end. -/
inductive Stop where
  /-- a precise trap: the instruction has no effect -/
  | trap (t : Trap)
  /-- the instruction is complete and then traps (R296, delivery C) -/
  | after (t : Trap)
  /-- the hart stalls and re-executes the instruction -/
  | wait (w : Wait)
  /-- the action is over: it has set the program counter or ended the hart itself -/
  | done
  deriving DecidableEq, Repr

/-- An action on the device that may stop. -/
abbrev M := EStateM Stop State

/-- Go on if the condition holds, else stop. -/
def need (c : Bool) (x : Stop) : M Unit := fun s => if c then .ok () s else .error x s
def stop {α : Type} (x : Stop) : M α := fun s => .error x s
def now : M State := fun s => .ok s s
def change (f : State → State) : M Unit := fun s => .ok () (f s)
def reg (r : Reg) : M Word := fun s => .ok (s.x r) s

/-- Stop with a trap when the option is one. -/
def trapIf (t : Option Trap) : M Unit := fun s =>
  match t with
  | some t => .error (.trap t) s
  | none => .ok () s

/-! ### Windows (R132 to R137) -/

/-- What the bytes of an access are: keys of storage (none beyond the extent), or a timeline counter. -/
inductive Target where
  | bytes (keys : List (Option Nat))
  | counter (team hart ctx : Nat)
  deriving DecidableEq, Repr

/-- The window trap of an access of n bytes, if it has one (R133). counterOk admits the counter window. -/
def windowFault (va : Word) (n : Nat) (counterOk : Bool) : Option Trap :=
  let last := va + BitVec.ofNat 64 (n - 1)
  let code := towerOf va
  if code ≥ 5 then some (.window 2 va n)
  else if !isWindow last || towerOf last != code then some (.window 1 va n)
  else if code = 3 then some (.window 4 va n)
  else if code = 4 then
    if !counterOk || n != 8 then some (.window 4 va n)
    else if bits va 32 11 != 0 || bits va 0 3 != 0 then some (.window 5 va n)
    else none
  else none

/-- The storage behind a window access that windowFault admits. -/
def State.windowTarget (s : State) (t : Team) (va : Word) (n : Nat) : Target :=
  if towerOf va = counterCode then
    let no := (bits va 9 23).toNat
    .counter (if no = ownTeam then t.no else no) (bits va 6 3).toNat (bits va 3 3).toNat
  else .bytes ((List.range n).map fun i => s.scratchKey t (va + BitVec.ofNat 64 i))

/-- Record the first byte beyond the extent in SPERR, unless it holds one (R135). -/
def Hart.beyond (h : Hart) (va : Word) (wr : Bool) : Hart :=
  if h.sperr.getLsbD 63 then h
  else { h with sperr := 1#64 <<< 63 ||| (if wr then 1#64 <<< 62 else 0#64) ||| (va &&& 0x3FFFFFFFFFFF#64) }

/-- SPERR after an access to these keys from va up. -/
def State.noteBeyond (s : State) (va : Word) (keys : List (Option Nat)) (wr : Bool) : State :=
  match keys.findIdx? (·.isNone) with
  | some i => { s with me := s.me.beyond (va + BitVec.ofNat 64 i) wr }
  | none => s

/-! ### Bank errors of ordinary reads (R248) -/

/-- Numbers die*32 + bank of the present banks of a tower (R221, R237). -/
def Tower.present (t : Tower) : List Nat :=
  (List.range 384).filter fun b => !(t.retired.getLsbD (b / 8) || (t.narrowed.getLsbD (b / 8) && decide (b % 8 ≥ 4)))

/-- The bank number of a DRAM key within its tower. -/
def State.bankOf (s : State) (k : Nat) : Nat :=
  let t := s.towerAt (k / 2 ^ 36)
  let ix := k % 2 ^ 36 / 2 ^ 27
  if t.retired = 0 ∧ t.narrowed = 0 then ix else t.present.getD ix 0

/-- Log an uncorrectable burst in the BERR of its bank (R248): src names the reader. -/
def State.logBerr (s : State) (k src team : Nat) : State :=
  if !isDram k then s
  else
    let b := k / 2 ^ 36 * 384 + s.bankOf k
    let old := tableGet s.berr b 0
    if old.getLsbD 63 then { s with berr := tableSet s.berr b (old ||| 1#64 <<< 62) }
    else
      let pm := s.rowPoison.contains (k / 1024)
      let g := k / 32 * 2
      let seg := (if s.ue.contains g then 1 else 0) + (if s.ue.contains (g + 1) then 2 else 0)
      let v := 2 ^ 63 + src * 2 ^ 60 + (if pm then 2 ^ 59 else 0) + (bits old 51 8).toNat * 2 ^ 51
        + (k / 1024 % 1024) * 2 ^ 41 + (k / 2 ^ 20 % 128) * 2 ^ 34 + (k % 1024 / 32) * 2 ^ 29
        + (if pm then 3 else seg) * 2 ^ 27 + team % 2 ^ 23
      { s with berr := tableSet s.berr b (BitVec.ofNat 64 v) }

/-! ### Translation for the focused hart -/

/-- The cause that the pager answered for the page of va, if it refused or denied it for this hart (R149). -/
def Hart.answerFor (h : Hart) (va : Word) : Option Nat := (h.answers.find? (·.1 == pageOf va)).map (·.2)

/-- The page requests that a wait names. -/
def Wait.tags : Wait → List (Nat × Word)
  | .page t g => [(t, g)]
  | .pages l => l
  | .parts _ _ w => w.tags
  | _ => []

/-- The wait of the focused hart, if it already waits for the request of the page of va. -/
def State.waitsFor (s : State) (asid : BitVec 16) (va : Word) : Option Wait :=
  match s.me.wait, (s.pctlAt (towerOf va)).reqs.find? fun r => r.page == pageOf va && r.asid == asid with
  | some w, some r => if w.tags.contains (towerOf va, r.tag) then some w else none
  | _, _ => none

/-- Hold the hart on the request of a page of an address space, or trap with the pager's refusal (R149). -/
def holdPageIn {α : Type} (asid : BitVec 16) (a : Acc) (va : Word) (n : Nat) : M α := fun s =>
  match s.me.answerFor va with
  | some cause => .error (.trap (.sized cause va n)) s
  | none =>
    match s.waitsFor asid va with
    | some w => .error (.wait w) s
    | none =>
      match s.postPage asid a va with
      | (some tag, s1) => .error (.wait (.page (towerOf va) tag)) s1
      | (none, s1) => .error (.wait (.full (towerOf va))) s1

/-- The same in the hart's own address space. -/
def holdPage {α : Type} (a : Acc) (va : Word) (n : Nat) : M α := fun s => holdPageIn s.team.asid a va n s

/-- Where the n bytes at an ordinary address lie, one page, for an access that holds or traps precisely: a load, an
atomic with a destination, a fetch (R149), and a store to a page that is mapped. -/
def findBytes (a : Acc) (va : Word) (n : Nat) : M Nat := fun s =>
  match s.xlate s.team.asid a va with
  | .at_ k cls e =>
    if a.wr && s.team.world != 0 && cls == 2 then .error (.trap (.sized cWORLD_ESCAPE va n)) s
    else if s.accessHeld k n e (some s.team.core) a.wr then .error (.wait .busy) s
    else .ok k (s.markPage e (some s.team.core) a.wr)
  | .record k => .ok k s
  | .remote k => if a.wr && s.team.world != 0 then .error (.trap (.sized cWORLD_ESCAPE va n)) s else .ok k s
  | .message _ => .error (.trap (.sized cPROTECT va n)) s
  | .missing => holdPage a va n s
  | .busy => .error (.wait .busy) s
  | .denied cls =>
    .error (.trap (.sized (if a.wr && s.team.world != 0 && cls == 2 then cWORLD_ESCAPE else cPROTECT) va n)) s
  | .unrouted => .error (.trap (.sized cPROTECT va n)) s

/-- The straddle trap of an access that begins below the window region and ends in it (R131, R133). -/
def straddle (va : Word) (n : Nat) : Option Trap :=
  if isWindow (va + BitVec.ofNat 64 (n - 1)) then some (.window 1 va n) else none

/-- A load that meets an uncorrectable byte traps POISON with the first such byte (R297). -/
def checkPoison (va : Word) (k n : Nat) : M Unit := fun s =>
  match (List.range n).find? fun i => s.byteBad s.team.world (k + i) with
  | some i => .error (.trap (.sized cPOISON (va + BitVec.ofNat 64 i) n)) (s.logBerr (k + i) 3 s.team.no)
  | none => .ok () s

/-! ### The side log (R150) -/

def sideRoom : Nat := 256

/-- Entries of a core. -/
def State.sideOf (s : State) (core : Nat) : List SideEntry := s.side.filter (·.core == core)

/-- Whether an entry is the focused hart's; it may stand in the log of a core that its team has left. -/
def State.owns (s : State) (e : SideEntry) : Bool := e.team == s.team.no && e.hart == s.me.idx && e.core != cpCore

/-- Whether a stream of the focused hart has entries in a log. -/
def State.streamHeld (s : State) (stream : Nat) : Bool := s.side.any fun e => s.owns e && e.stream == stream

/-- Whether any stream of the focused hart has entries in a log. -/
def State.anyHeld (s : State) : Bool := s.side.any s.owns

/-- Whether an entry holds one of n bytes from va. -/
def SideEntry.covers (e : SideEntry) (va : Word) (n : Nat) : Bool :=
  e.bytes.any fun b => decide ((va.toNat ≤ e.va.toNat + b.1) ∧ (e.va.toNat + b.1 < va.toNat + n))

/-- The address of the first byte of an entry. -/
def SideEntry.first (e : SideEntry) : Word := e.va + BitVec.ofNat 64 ((e.bytes.head?.map (·.1)).getD 0)

/-- Where an ordinary address of this device is stored, as far as it has a translation. -/
def State.placeOf (s : State) (asid : BitVec 16) (va : Word) : Option Nat :=
  if isOwn va then
    (s.recordAt asid va).or ((s.lookup asid (towerOf va) (offsetOf va)).map fun e =>
      physKey e.tower (ptePa e.pte + (offsetOf va - e.base)))
  else none

/-- The storage of the bytes of an entry, as far as it is known: two addresses, or two windows, may name one byte (R134, R143). -/
def State.entryPlaces (s : State) (e : SideEntry) : List Nat :=
  match e.keys with
  | some ks => ks.filterMap id
  | none =>
    match s.placeOf e.asid e.first with
    | some k => e.bytes.map fun b => k + b.1 - (e.first - e.va).toNat
    | none => []

/-- The storage of n bytes of the focused team's address space from va up, as far as it is known. -/
def State.placesOf (s : State) (va : Word) (n : Nat) : List Nat :=
  if isWindow va then
    match s.windowTarget s.team va n with
    | .bytes ks => ks.filterMap id
    | .counter _ _ _ => []
  else match s.placeOf s.team.asid va with
    | some k => (List.range n).map (k + ·)
    | none => []

/-- Whether an entry and an access have a byte in common, under one address or by its storage. -/
def State.shares (s : State) (e : SideEntry) (va : Word) (n : Nat) : Bool :=
  (e.asid == s.team.asid && e.covers va n) || (s.entryPlaces e).any (s.placesOf va n).contains

/-- Whether a byte of the access is in the core's log, or in an entry of the hart. -/
def State.byteHeld (s : State) (va : Word) (n : Nat) : Bool :=
  s.side.any fun e => (e.core == s.team.core || s.owns e) && s.shares e va n

/-- Whether a store retires into the log behind an earlier entry: one of its stream, or one of its hart that holds a common
byte (R150, R164). -/
def State.storeHeld (s : State) (stream : Nat) (va : Word) (n : Nat) : Bool :=
  s.streamHeld stream || s.side.any fun e => s.owns e && s.shares e va n

/-- A load waits for its stream's entries and for any entry that holds one of its bytes. -/
def loadHold (stream : Nat) (va : Word) (n : Nat) : M Unit := fun s =>
  if s.side.isEmpty then .ok () s
  else if s.streamHeld stream || s.byteHeld va n then .error (.wait .hold) s else .ok () s

/-- Mask of the streams of a core that hold entries. -/
def State.sideStreams (s : State) (core : Nat) : Nat :=
  ((List.range 8).map fun k => if (s.sideOf core).any (·.stream == k) then 2 ^ k else 0).sum

/-- The parts of a store by 64-byte line: the line's part of the bytes (R150). -/
def lineParts (va : Word) (bs : List (Nat × Byte)) : List (Word × List (Nat × Byte)) :=
  let lines := (bs.map fun b => (va + BitVec.ofNat 64 b.1) &&& ~~~63#64).eraseDups
  lines.map fun l =>
    (l, (bs.filter fun b => ((va + BitVec.ofNat 64 b.1) &&& ~~~63#64) == l).map fun b =>
      (((va + BitVec.ofNat 64 b.1) - l).toNat, b.2))

/-- Put an access into the core's side log, or hold the hart when the log is full; SIDE_LOG_FULL is raised once for each
time the log fills. -/
def sidePut (e : SideEntry) : M Unit := fun s =>
  let core := s.team.core
  if (s.sideOf core).length < sideRoom then .ok () { s with side := s.side ++ [e], nextSide := max s.nextSide (e.word + 1) }
  else
    let c := s.coreAt core
    if c.sideFull then .error (.wait .sideLog) s
    else
      .error (.wait .sideLog)
        ((s.setCore core { c with sideFull := true }).event eSIDE_LOG_FULL core (towerOfCore core)
          (BitVec.ofNat 64 (s.sideStreams core)) 0)

/-- A part of a store within one 64-byte line, or within a window: bytes by their offset from va, in the order in which they are
written; the bytes of masks change only in the bits of a mask (R150, R426). -/
structure Part where
  va : Word
  bytes : List (Nat × Byte)
  masks : List (Nat × Byte)
  deriving DecidableEq, Repr

/-- The address of the first byte of a part. -/
def Part.first (p : Part) : Word := p.va + BitVec.ofNat 64 ((p.bytes.head?.map (·.1)).getD 0)

/-- The parts of n bytes by line. -/
def partsOf (va : Word) (bs : List Byte) : List Part :=
  (lineParts va (bs.zipIdx.map fun (b, i) => (i, b))).map fun (l, part) => { va := l, bytes := part, masks := [] }

/-- The pool writes of the focused hart that no release at fabric scope has waited for. -/
def State.ownPool (s : State) : List PoolWrite :=
  s.poolOut.filter fun p => p.team == s.team.no && p.hart == s.me.idx && p.by_ == .hart

/-- The side-log entry of a part that word no stores; rel says that the store is a release whose scope its page decides (R171). -/
def State.partEntry (s : State) (stream : Nat) (p : Part) (keys : Option (List (Option Nat))) (no : Nat) (rel : Bool := false) :
    SideEntry :=
  { core := s.team.core, team := s.team.no, hart := s.me.idx, stream := stream, va := p.va, bytes := p.bytes,
    masks := p.masks, amo := none, keys := keys, world := s.team.world, asid := s.team.asid, word := no,
    rel := if rel then some s.ownPool else none, tag := none }

/-! ### Room for versions (R272) -/

/-- Whether a world traps on exhaustion: a fork's TRAPX, and every versioned task. -/
def State.trapsOnFull (s : State) (w : Nat) : Bool :=
  match s.worldAt w with
  | some x => x.trapx
  | none => true

/-- Stop the focused team without a release or an arrival, its core seeking work. -/
def State.endTask (s : State) : State :=
  ({ s with live := true }.allHarts fun h => { h with alive := false, wait := none }).leave

/-- End the world of the focused team as by WABORT (R266, R272): its tasks stop, this one included. -/
def State.endOwnWorld (s : State) (st : WState) : State :=
  let busy := s.busyCores
  let s1 := s.abortWorld s.team.world st (some s.team.no)
  s1.endTask.reseek busy

/-- The first byte of the access whose line cannot be placed. -/
def State.unplaced (s : State) (w k n : Nat) : Option Nat :=
  if w = 0 ∨ s.ver.isEmpty then none else (List.range n).find? fun i => !s.placeable w (k + i)

/-- A write that needs a version line with no room exhausts its world (R272). -/
def checkRoom (va : Word) (k n : Nat) : M Unit := fun s =>
  match s.unplaced s.team.world k n with
  | none => .ok () s
  | some _ =>
    if s.trapsOnFull s.team.world then .error (.trap (.sized cVIEW_EXHAUSTED va n)) s
    else .error .done (s.endOwnWorld .exhausted)

/-! ### Loads and stores of the focused hart -/

/-- The pool writes of the harts of the focused team, which its core's L1 may show them. -/
def State.coreWrote (s : State) (p : PoolWrite) : Bool := p.team == s.team.no && p.by_ == .hart

/-- A store of the focused hart in its view: the point of coherence, and its core's L1 (R139, R258). -/
def State.storeOwn (s : State) (va : Word) (k : Nat) (bs : List Byte) : State :=
  (s.storeAt s.team.world k bs).l1Store s.team.core s.team.world s.team.asid va bs

/-- Bytes of a window target; a counter gives its eight bytes. -/
def State.windowBytes (s : State) : Target → List Byte
  | .bytes keys => keys.map fun k => match k with
    | some k => Memory.read s.mem k
    | none => 0
  | .counter t h c => leBytes 8 (s.counterOf t h c)

/-- Write bytes behind a window; bytes beyond the extent are dropped, and whole segments are clean again (R297). -/
def State.windowWrite (s : State) (keys : List (Option Nat)) (bs : List Byte) : State :=
  ((keys.zip bs).foldl (fun s x => match x.1 with
    | some k => { s with mem := Memory.write s.mem k x.2 }
    | none => s) s).clearKeys (keys.filterMap id)

/-- Uncorrectable data behind a window (R297). -/
def checkWindowPoison (va : Word) (n : Nat) (keys : List (Option Nat)) : M Unit := fun s =>
  match keys.findIdx? fun k => (k.map fun k => s.ue.contains (k / 16)).getD false with
  | some i => .error (.trap (.sized cPOISON (va + BitVec.ofNat 64 i) n)) s
  | none => .ok () s

/-- Read n bytes of one page at the point of coherence (R140, R297). -/
def readHere (va : Word) (k n : Nat) : M (List Byte) := do
  checkPoison va k n
  let s ← now
  change fun s => s.poolSeen k n s.coreWrote
  return s.bytesIn s.team.world k n

/-- Read the bytes from lo up to hi of the line at va with its key, through the L1 of the core (R139); n is the size of the access
that a trap reports. -/
def readLine (kind : L1Kind) (n : Nat) (line : Word) (key lo hi : Nat) : M (List Byte) := fun s =>
  match s.l1Pick s.team.core s.team.world s.team.asid key with
  | (some bs, s1) => .ok ((bs.drop lo).take (hi - lo)) s1
  | (none, s1) =>
    match (List.range (hi - lo)).find? fun i => s1.byteBad s1.team.world (key + lo + i) with
    | some i => .error (.trap (.sized cPOISON (line + BitVec.ofNat 64 (lo + i)) n)) (s1.logBerr (key + lo + i) 3 s1.team.no)
    | none =>
      let l : L1Line := { core := s1.team.core, world := s1.team.world, asid := s1.team.asid, va := line, key := key,
                          kind := kind, bytes := s1.bytesIn s1.team.world key lineBytes }
      .ok ((l.bytes.drop lo).take (hi - lo)) ((s1.poolSeen (key + lo) (hi - lo) s1.coreWrote).l1Fill l)

/-- The lines of n bytes from va: for each its offset from the first line, and the bytes of it from and up to which the access
lies. -/
def linesOf (va : Word) (n : Nat) : List (Nat × Nat × Nat) :=
  let o := va.toNat % lineBytes
  (List.range ((o + n + lineBytes - 1) / lineBytes)).map fun (i : Nat) =>
    (i * lineBytes, if i = 0 then o else 0, min lineBytes (o + n - i * lineBytes))

/-- Read n bytes of one page as an ordinary load: through the L1 where the page may stand there (R139). -/
def readCached (va : Word) (k n : Nat) : M (List Byte) := fun s =>
  match s.l1Kind s.team.core s.team.asid va with
  | none => readHere va k n s
  | some kind =>
    let o := va.toNat % lineBytes
    (do
      let parts ← (linesOf va n).mapM fun (x : Nat × Nat × Nat) =>
        readLine kind n (lineOf va + BitVec.ofNat 64 x.1) (k - o + x.1) x.2.1 x.2.2
      return parts.flatten) s

/-- The trap that a load takes before anything holds it: its device is not routed, or takes messages only (R129, R130). -/
def State.loadTrap (s : State) (va : Word) (n : Nat) : Option Trap :=
  match s.xlate s.team.asid .load va with
  | .message _ | .unrouted => some (.sized cPROTECT va n)
  | _ => none

/-- Load n bytes at va in a stream, one page (R149, R150, R297); read says how the bytes of a page are read. -/
def loadVia (read : Word → Nat → Nat → M (List Byte)) (stream : Nat) (va : Word) (n : Nat) : M (List Byte) := do
  if isWindow va then
    trapIf (windowFault va n true)
    loadHold stream va n
    let s ← now
    let tgt := s.windowTarget s.team va n
    match tgt with
    | .bytes keys =>
      checkWindowPoison va n keys
      change fun s => s.noteBeyond va keys false
    | .counter _ _ _ => pure ()
    return s.windowBytes tgt
  else
    trapIf (straddle va n)
    let s ← now
    trapIf (s.loadTrap va n)
    loadHold stream va n
    let k ← findBytes .load va n
    read va k n

/-- A read that a word makes for itself, of a record, a table, a counter: it reads the point of coherence (log entry 5). -/
def loadBytes (stream : Nat) (va : Word) (n : Nat) : M (List Byte) := loadVia readHere stream va n

/-- A load of the program: an ordinary one may find its line in the core's L1, a bypass load reads the point of coherence and
allocates nowhere (R139, R140). -/
def loadCore (h : Hint) (stream : Nat) (va : Word) (n : Nat) : M (List Byte) :=
  loadVia (if h == .bypass then readHere else readCached) stream va n

/-- The trap that a store takes before a release of its own and whether or not it can be made at once (R129, R130, R259, R399). -/
def State.storeTrap (s : State) (va : Word) (n : Nat) : Option Trap :=
  match s.xlate s.team.asid .store va with
  | .remote _ => if s.team.world = 0 then none else some (.sized cWORLD_ESCAPE va n)
  | .at_ _ cls _ | .denied cls => if s.team.world = 0 ∨ cls ≠ 2 then none else some (.sized cWORLD_ESCAPE va n)
  | .message _ => some (.sized (if s.team.world = 0 then cPROTECT else cWORLD_ESCAPE) va n)
  | .unrouted => some (.sized cPROTECT va n)
  | _ => none

/-- The trap of a store whose mapped page has no W, whatever else would hold it (R145, R401). -/
def State.deniedTrap (s : State) (va : Word) (n : Nat) : Option Trap :=
  match s.xlate s.team.asid .store va with
  | .denied _ => some (.sized cPROTECT va n)
  | _ => none

/-- A byte of a masked part: the bits of its mask from b, the others as they are. -/
def maskByte (old b m : Byte) : Byte := (old &&& ~~~m) ||| (b &&& m)

/-- Runs of consecutive bytes. -/
def byteRuns : List (Nat × Byte) → List (Nat × List Byte)
  | [] => []
  | (o, b) :: rest =>
    match byteRuns rest with
    | (p, bs) :: more => if p = o + 1 then (o, b :: bs) :: more else (o, [b]) :: (p, bs) :: more
    | [] => [(o, [b])]

/-- The bytes of a part as a write stores them: those of masks joined with what memory has. -/
def mergeMasks (masks : List (Nat × Byte)) (old : Nat → Byte) (bytes : List (Nat × Byte)) : List (Nat × Byte) :=
  if masks.isEmpty then bytes
  else bytes.map fun (o, b) => match masks.find? (·.1 == o) with
    | some (_, m) => (o, maskByte (old o) b m)
    | none => (o, b)

/-- Write the bytes of a part whose offset 0 has key k, in world w. -/
def State.writePart (s : State) (w k : Nat) (bytes masks : List (Nat × Byte)) : State :=
  (byteRuns (mergeMasks masks (fun o => s.byteIn w (k + o)) bytes)).foldl (fun s (o, bs) => s.storeAt w (k + o) bs) s

/-- The keys behind a window part, byte by byte. -/
def State.partKeys (s : State) (p : Part) : List (Option Nat) :=
  p.bytes.map fun b => s.scratchKey s.team (p.va + BitVec.ofNat 64 b.1)

/-- Write the bytes of a window part at their keys. -/
def State.writeKeys (s : State) (keys : List (Option Nat)) (bytes masks : List (Nat × Byte)) : State :=
  s.windowWrite keys ((bytes.zip keys).map fun (b, k) => match masks.find? (·.1 == b.1), k with
    | some (_, m), some k => maskByte (Memory.read s.mem k) b.2 m
    | _, _ => b.2)

/-- Put a part that word no stores into the side log; a line which the word has logged already takes no new entry (R150). -/
def logPart (stream no : Nat) (rel : Bool) (p : Part) (keys : Option (List (Option Nat))) : M Unit := fun s =>
  match s.side.find? fun e => s.owns e && e.word == no && e.stream == stream && e.va == p.va && e.amo.isNone &&
      e.keys.isNone && keys.isNone && e.core == s.team.core with
  | some e =>
    .ok () { s with side := s.side.map fun x =>
      if x == e then { x with bytes := x.bytes ++ p.bytes, masks := x.masks ++ p.masks } else x }
  | none => sidePut (s.partEntry stream p keys no rel) s

/-- The entries of word no on the page of va wait for its request (R150, R304). -/
def joinPage (a : Acc) (va : Word) (no : Nat) : M Unit := change fun s =>
  let (g, s1) := s.postPage s.team.asid a va
  { s1 with side := s1.side.map fun e => if s.owns e && e.word == no && pageOf e.va == pageOf va then { e with tag := g } else e }

/-- The storage of the bytes of a part, as far as it is known. -/
def State.partPlaces (s : State) (p : Part) : List Nat :=
  if isWindow p.first then (s.partKeys p).filterMap id
  else match s.placeOf s.team.asid p.first with
    | some k => p.bytes.map fun b => k + b.1 - (p.first - p.va).toNat
    | none => []

/-- Whether a part retires into the log behind an earlier entry (R150, R164). The entries that a scatter has made itself hold only
the parts that share a byte with them (R428). -/
def State.partHeld (s : State) (stream no : Nat) (scatter : Bool) (p : Part) : Bool :=
  s.side.any fun e => s.owns e && ((e.stream == stream && !(scatter && e.word == no)) ||
    p.bytes.any (fun b => e.covers (p.va + BitVec.ofNat 64 b.1) 1) || (s.entryPlaces e).any (s.partPlaces p).contains)

/-- A core's L1 after it has written runs of bytes from offsets of va, whose offset 0 has key k, in world w. -/
def State.l1Runs (s : State) (core w : Nat) (asid : BitVec 16) (va : Word) (k : Nat) (bytes : List (Nat × Byte)) : State :=
  if s.l1.isEmpty then s
  else (byteRuns bytes).foldl (fun s (o, bs) =>
    s.l1Store core w asid (va + BitVec.ofNat 64 o) (s.bytesIn w (k + o) bs.length)) s

/-- Make a part whose offset 0 has key k. -/
def State.makePart (s : State) (p : Part) (k : Nat) : State :=
  (((byteRuns p.bytes).foldl (fun s (o, bs) => s.notePool s.team.no s.me.idx (p.va + BitVec.ofNat 64 o) (k + o) bs.length) s).writePart
    s.team.world k p.bytes p.masks).l1Runs s.team.core s.team.world s.team.asid p.va k p.bytes

/-- SPERR after a window part whose bytes have these keys. -/
def State.notePart (s : State) (p : Part) (keys : List (Option Nat)) : State :=
  match keys.findIdx? (·.isNone) with
  | some i => { s with me := s.me.beyond (p.va + BitVec.ofNat 64 ((p.bytes.getD i (0, 0)).1)) true }
  | none => s

/-- How a word stores its parts: its stream, the size of the access that a trap reports, whether it scatters, and whether it is a
release whose scope its pages decide. -/
structure Storing where
  stream : Nat
  size : Nat
  scatter : Bool
  rel : Bool
  deriving DecidableEq, Repr

/-- Store one part of word no, or log it: behind an earlier entry, or on a page without a translation (R150, R272). -/
def storePart (st : Storing) (no : Nat) (p : Part) : M Unit := do
  let s ← now
  let first := p.first
  if isWindow first then
    let keys := s.partKeys p
    if s.partHeld st.stream no st.scatter p then logPart st.stream no false p (some keys)
    else change fun s => s.writeKeys keys p.bytes p.masks
    change fun s => s.notePart p keys
  else
    trapIf (s.storeTrap first st.size)
    trapIf (s.deniedTrap first st.size)
    if s.partHeld st.stream no st.scatter p then logPart st.stream no false p none
    else if s.xlate s.team.asid .store first == .missing then
      logPart st.stream no st.rel p none
      joinPage .store first no
    else
      let k ← findBytes .store first st.size
      checkRoom first k st.size
      change fun s => s.makePart p (k - (first - p.va).toNat)

/-- Parts one after another; a wait keeps how many are made. -/
def storeFrom (st : Storing) (no : Nat) : Nat → List Part → M Unit
  | _, [] => pure ()
  | i, p :: rest => fun s =>
    match storePart st no p s with
    | .ok _ s1 => storeFrom st no (i + 1) rest s1
    | .error (.wait w) s1 => .error (.wait (if i = 0 then w else .parts i no w)) s1
    | .error e s1 => .error e s1

/-- The parts that a held word has made. -/
def Hart.partsMade (h : Hart) : Nat :=
  match h.wait with
  | some (.parts k _ _) => k
  | _ => 0

/-- The number of the scalar word that the focused hart stores parts of: that of a held word, or the next one. -/
def State.wordNo (s : State) : Nat :=
  match s.me.wait with
  | some (.parts _ no _) => no
  | _ => s.nextSide

/-- The parts have been stored: what the word stores next begins at its first part. -/
def Hart.partsDone (h : Hart) : Hart :=
  match h.wait with
  | some (.parts _ _ _) => { h with wait := none }
  | _ => h

/-- Store the parts of word no in their order. A trap leaves none of them stored, but those made before a wait (log entry 38). -/
def storeParts (st : Storing) (no : Nat) (ps : List Part) : M Unit := fun s =>
  let k := s.me.partsMade
  match storeFrom st no k (ps.drop k) s with
  | .ok _ s1 => .ok () { s1 with me := s1.me.partsDone }
  | .error (.trap t) _ => .error (.trap t) s
  | r => r

/-- Write bytes at va in a stream, within one line or window (R150, R272); rel says that the store is a release whose scope its page
decides (R171). -/
def storeBytes (stream : Nat) (va : Word) (bs : List Byte) (rel : Bool := false) : M Unit := do
  let n := bs.length
  if isWindow va then
    trapIf (windowFault va n false)
    let s ← now
    match s.windowTarget s.team va n with
    | .bytes keys =>
      if s.storeHeld stream va n then
        logPart stream s.nextSide false { va := va, bytes := bs.zipIdx.map fun (b, i) => (i, b), masks := [] } (some keys)
        change fun s => s.noteBeyond va keys true
      else change fun s => (s.windowWrite keys bs).noteBeyond va keys true
    | .counter _ _ _ => pure ()
  else
    trapIf (straddle va n)
    let s ← now
    trapIf (s.storeTrap va n)
    trapIf (s.deniedTrap va n)
    if s.storeHeld stream va n then (partsOf va bs).forM fun p => logPart stream s.nextSide false p none
    else
      match s.xlate s.team.asid .store va with
      | .missing =>
        (partsOf va bs).forM fun p => logPart stream s.nextSide rel p none
        joinPage .store va s.nextSide
      | _ =>
        let k ← findBytes .store va n
        checkRoom va k n
        change fun s => (s.notePool s.team.no s.me.idx va k n).storeOwn va k bs

/-- Read n bytes at va, page by page (R131). -/
def loadLong (stream : Nat) (va : Word) (n : Nat) : M (List Byte) := do
  let parts ← (piecesOf va (n / 65536 + 2) n).mapM fun p => loadBytes stream p.1 p.2
  return parts.flatten

/-! ### Ordering: the block in flight, releases and acquires (R165 to R172, R206)

Writes are performed at every scope when they are made (log entry 4): what is left of a release is to wait for what has not been made
yet, and of an acquire to invalidate lines of the core's L1 (R168). -/

/-- Whether a word of the block accesses memory or an accumulator: VLD to VSTX, OPA and OPAG with U, SAADD, SANRM. -/
def Block.hasMem (b : Block) : Bool :=
  b.words.any fun w =>
    let v := (bits w 56 8).toNat
    (decide (0x40 ≤ v) && decide (v ≤ 0x43)) || ((v == 0x55 || v == 0x56) && w.getLsbD 22) || v == 0x58 || v == 0x59

/-- The hart has a block in flight, and not one suspended by a trap. -/
def Hart.inFlight (h : Hart) : Bool := h.blk.any (!·.suspended)

/-- The accesses of a block stand in program order at its VFETCH (R206): a later access waits for them, in no wait of R82. -/
def afterBlock : M Unit := fun s =>
  if s.me.blk.any (fun b => !b.suspended && b.hasMem) then .error (.wait .hold) s else .ok () s

/-- Wait until the hart has no block in flight (R204). -/
def blockOver (w : Wait) : M Unit := fun s => if s.me.inFlight then .error (.wait w) s else .ok () s

/-- The same as a wait that counts by what the block's word waits for (R82). -/
def drained : M Unit := blockOver .block

/-- A release as a word of the block makes it (R169, R429): the side-log entries of the hart come first; at fabric scope a refused
pool write traps PROTECT (R161), and no pool write is outstanding afterwards. -/
def releaseHeld (sc : Scope) : M Unit := fun s =>
  if s.anyHeld then .error (.wait .hold) s
  else if sc = .fabric then
    match s.me.poolRefused with
    | some (va, n) =>
      .error (.trap (.sized cPROTECT va n)) { s with me := { s.me with poolRefused := none } }
    | none =>
      .ok () { s with poolOut := s.poolOut.filter fun p => !(p.team == s.team.no && p.hart == s.me.idx && p.by_ == .hart) }
  else .ok () s

/-- A release (R169): the block's accesses come first too. -/
def release (sc : Scope) : M Unit := do
  afterBlock
  releaseHeld sc

/-- Invalidate lines of the core's L1 as an acquire does (R168). -/
def invalidate (sc : Scope) : M Unit := change fun s => s.l1Acquire s.team.core sc

/-- An acquire (R168): the block's reads come first. -/
def acquire (sc : Scope) : M Unit := do
  afterBlock
  invalidate sc

/-- The scope of a hint form (R171): package for ordinary memory of this device and its windows, fabric elsewhere and
on pool pages (R440). That of a page without a translation is package until the page is mapped, when its store is made (log entry
77). -/
def State.hintScope (s : State) (va : Word) : Scope :=
  if isWindow va then .package
  else if isOwn va then
    match s.lookup s.team.asid (towerOf va) (offsetOf va) with
    | some e => if pteClass e.pte = 2 then .fabric else .package
    | none => .package
  else .fabric

/-! ### Fetch (R133, R149, R187, R297) -/

/-- Read n bytes of code or of a table that a fetch reads: a window address faults FETCH. -/
def fetchBytes (va : Word) (n : Nat) : M (List Byte) := do
  trapIf (if isWindow va then some (.window 3 va n) else straddle va n)
  let k ← findBytes .fetch va n
  checkPoison va k n
  let s ← now
  return s.bytesIn s.team.world k n

/-- Read n bytes of one word of code through the cluster's instruction cache. -/
def fetchCode (va : Word) (n : Nat) : M (List Byte) := do
  trapIf (if isWindow va then some (.window 3 va n) else straddle va n)
  let k ← findBytes .fetch va n
  checkPoison va k n
  fun s =>
    let (bs, s1) := s.takeCode (clusterOf s.team.core) s.team.world s.team.asid va k n
    .ok bs s1

def fetchLong (va : Word) (n : Nat) : M (List Byte) := do
  let parts ← (piecesOf va (n / 65536 + 2) n).mapM fun p => fetchBytes p.1 p.2
  return parts.flatten

/-- The scalar word at the program counter (R89, R133). -/
def fetchWord : M (BitVec 32) := fun s =>
  let pc := s.me.pc
  if pc.toNat % 4 ≠ 0 then .error (.trap (.sized cMISALIGN pc 4)) s
  else
    match fetchCode pc 4 s with
    | .ok bs s1 => .ok (BitVec.ofNat 32 (leVal bs)) s1
    | .error e s1 => .error e s1

/-! ### Trap status (R294) -/

def tIN : Nat := 0
def tBLK : Nat := 1
def tENG : Nat := 2
def tDISC : Nat := 3
def tSIDE : Nat := 4
def tOVR : Nat := 5

/-- A word with bit k set or cleared. -/
def putBit (w : Word) (k : Nat) (b : Bool) : Word := if b then w ||| (1#64 <<< k) else w &&& ~~~(1#64 <<< k)

def Hart.inHandler (h : Hart) : Bool := h.tstat.getLsbD tIN

def Source.isEngine : Source → Bool
  | .engine _ _ _ => true
  | _ => false

def Source.isSide : Source → Bool
  | .side _ => true
  | _ => false

/-! ### The trap record (R295) -/

/-- AUX of a record: the size of the faulting access for the causes that have one, and the counts of BANK_UE. -/
def Trap.auxField (t : Trap) : Nat :=
  if [cMISALIGN, cPAGE_LOAD, cPROTECT, cWINDOW, cPOISON, cBANK_UE].contains t.code then t.aux % 2 ^ 32 else 0

/-- The 64 bytes of a record. -/
def recordBytes (team : Team) (h : Hart) (t : Trap) (tepc : Word) (cycle : Nat) : List Byte :=
  let bit (b : Bool) (k : Nat) : Nat := if b then 2 ^ k else 0
  let word : Nat := match t.src with
    | .scalar => h.pc.toNat
    | .block a => a.toNat
    | _ => 0
  let blk := match t.src with
    | .block _ => true
    | _ => false
  let (ctx, cmd, seq) := match t.src with
    | .engine c k n => (c, k, n)
    | _ => (0, 0, 0)
  leBytes 8 (team.task % 2 ^ 32 * 2 ^ 32 + bit (h.tstat.getLsbD tOVR) 20 + bit t.disc.isSome 19
      + bit t.src.isSide 18 + bit t.src.isEngine 17 + bit blk 16 + t.sub % 256 * 256 + t.code % 256)
    ++ leBytes 8 tepc.toNat ++ leBytes 8 t.tval.toNat ++ leBytes 8 word ++ leBytes 8 seq
    ++ leBytes 8 (t.auxField * 2 ^ 32 + (t.disc.getD 0) % 4096 * 256 + cmd % 16 * 8 + ctx % 8)
    ++ leBytes 8 cycle ++ leBytes 8 0

/-! ### Double faults (R299) -/

/-- End the task of the focused team with a cause: its waits and tiles go, no release and no arrival is made, its launch
completes with the cause, and the management core receives FAULT_RECORD with a copy of the trap record in tower 0's DRAM
(R306; log entry 20 says where). -/
def State.doubleFault (s : State) (t : Trap) (tepc : Word) : State :=
  let s0 := s.passCycles
  let at_ := (Config.recordCopy s0.fresh).toNat * 64
  let s1 := { s0.ownWrite (dramKey 0 at_) (recordBytes s0.team s0.me t tepc s0.cyclesNow) with fresh := s0.fresh + 1 }
  (s1.failLaunch s1.team.launch t.code t.sub s1.team.task (BitVec.ofNat 64 at_)).endTask

/-- What storing part of a record comes to. -/
inductive RecordEnd where
  | stored (s : State)
  | held (w : Wait) (s : State)
  | failed (s : State)
  /-- a store found no room for its version, and the world has ended without a trap -/
  | ended (s : State)
  deriving Repr

/-- Store bytes of a record in one page, as an ordinary store that does not enter the side log (R295); a store that fails is
dropped, and those before it stay. Where a version cannot be placed, a world without TRAPX ends as EXHAUSTED (R272). -/
def State.recordPiece (s : State) (va : Word) (bs : List Byte) : RecordEnd :=
  let n := bs.length
  if isWindow va then
    match windowFault va n false, s.windowTarget s.team va n with
    | none, .bytes keys => .stored ((s.windowWrite keys bs).noteBeyond va keys true)
    | _, _ => .failed s
  else
    match s.xlate s.team.asid .store va with
    | .missing =>
      if (s.me.answerFor va).isSome then .failed s
      else
        match s.waitsFor s.team.asid va with
        | some w => .held w s
        | none =>
          match s.postPage s.team.asid .store va with
          | (some tag, s1) => .held (.page (towerOf va) tag) s1
          | (none, s1) => .held (.full (towerOf va)) s1
    | _ =>
      match findBytes .store va n s with
      | .ok k s1 =>
        if (s1.unplaced s1.team.world k n).isSome then
          if s1.trapsOnFull s1.team.world then .failed s1 else .ended (s1.endOwnWorld .exhausted)
        else .stored (s1.storeOwn va k bs)
      | .error (.wait w) s1 => .held w s1
      | .error _ s1 => .failed s1

/-- Store a record piece by piece. -/
def State.recordPieces (s : State) : List (Word × List Byte) → RecordEnd
  | [] => .stored s
  | (va, bs) :: rest =>
    match s.recordPiece va bs with
    | .stored s1 => s1.recordPieces rest
    | other => other

/-- Bytes at an address, page by page. -/
def pagesOf (va : Word) (bs : List Byte) : List (Word × List Byte) :=
  (piecesOf va (bs.length / 65536 + 2) bs.length).map fun p =>
    (p.1, (bs.drop (p.1 - va).toNat).take p.2)

/-- The record base of the focused hart (R295). -/
def State.recordBase (s : State) : Word := s.team.trec + BitVec.ofNat 64 (0x900 * s.me.idx)

/-- Write the records of a trap, when the team has an area. -/
def State.writeRecord (s : State) (t : Trap) (tepc : Word) : RecordEnd :=
  if s.team.trec = 0 then .stored s
  else
    let s1 := s.passCycles
    let b := s1.recordBase
    s1.recordPieces (pagesOf b (recordBytes s1.team s1.me t tepc s1.cyclesNow) ++
      (if t.more.isEmpty then [] else pagesOf (b + 64) t.more))

/-! ### Taking a trap (R298) -/

/-- The CSRs and the program counter at the entry. -/
def Hart.enter (h : Hart) (t : Trap) (tepc tvec : Word) : Hart :=
  let st := putBit (putBit (putBit (putBit (putBit h.tstat tIN true) tBLK (h.blk.any (·.suspended))) tENG t.src.isEngine)
    tDISC t.disc.isSome) tSIDE t.src.isSide
  { h with tepc := tepc, tcause := BitVec.ofNat 64 (t.sub % 256 * 256 + t.code % 256), tval := t.tval, tstat := st,
           pc := tvec, wait := none, entry := none, answers := [] }

/-- The part of the entry after the version has been discarded: a double fault, a record store that holds, or the
handler. -/
def State.enterHandler (s : State) (t : Trap) (tepc : Word) (sync : Bool) : State :=
  if (sync && s.me.inHandler) || s.team.tvec == 0 then s.doubleFault t tepc
  else
    match s.writeRecord t tepc with
    | .stored s1 => { s1 with me := s1.me.enter t tepc s1.team.tvec }
    | .held w s1 => { s1 with me := { s1.me with entry := some (t, tepc), wait := some w } }
    | .failed s1 => s1.doubleFault t tepc
    | .ended s1 => s1

/-- Take a trap at the focused hart, to resume at tepc (R275, R298). A synchronous trap in a handler is a double
fault. -/
def State.takeTrap (s : State) (t : Trap) (tepc : Word) (sync : Bool) : State :=
  if s.team.versioned then
    let busy := s.busyCores
    (s.discardVersion.enterHandler { t with disc := some s.team.world } tepc sync).reseek busy
  else s.enterHandler t tepc sync

/-! ### Asynchronous delivery (R301) -/

/-- The trap behind a pending number: 0 to 7 engine contexts, 8 the block, 9 the side log. -/
def Hart.pendingTrap (h : Hart) (p : Nat) : Option Trap :=
  if p = 8 then h.blkFault else if p = 9 then h.sideFault else (h.ctxs[p % 8]'(Nat.mod_lt _ (by decide))).fault

/-- The hart once a pending fault has left its place; the SA_OVERFLOW behind the FP trap of one SANRM is next (R286). -/
def Hart.clearPending (h : Hart) (p : Nat) : Hart :=
  let h1 := { h with pending := h.pending.filter (· != p), wait := none, answers := [] }
  if p = 8 then
    { h1 with blkFault := h.blkNext, blkNext := none,
              pending := if h.blkNext.isSome then 8 :: h1.pending else h1.pending }
  else if p = 9 then { h1 with sideFault := none }
  else
    let c := h1.ctxs[p % 8]'(Nat.mod_lt _ (by decide))
    { h1 with ctxs := h1.ctxs.set (p % 8) { c with fault := none } (Nat.mod_lt _ (by decide)) }

/-- Discard the side-log entries of a refused page in a core, and hold the refusal as a fault of each hart that had
one (R150). -/
def State.applyRefusal (s : State) (r : HeldRefusal) : State :=
  let mine (e : SideEntry) : Bool := e.core == r.core && e.asid == r.asid && pageOf e.va == r.page
  let hit := s.side.filter mine
  let s1 := { s with side := s.side.filter fun e => !mine e }
  let s2 := if r.core = cpCore then s1 else s1.setCore r.core { s1.coreAt r.core with sideFull := false }
  let owners := (hit.map fun e => (e.team, e.hart)).eraseDups
  if r.core = cpCore then s2
  else owners.foldl (fun s (t, h) =>
    let first := (hit.find? fun e => e.team == t && e.hart == h)
    let va := match first with
      | some e => e.va + BitVec.ofNat 64 ((e.bytes.head?.map (·.1)).getD 0)
      | none => r.page
    let n := (first.map (·.bytes.length)).getD 0
    s.onHart t h fun x => { x with sideFault := some { Trap.sized r.cause va n with src := .side r.core },
                                   pending := x.pending ++ [9] }) s2

/-- Whether a refusal in a core's side log is still undelivered; its hart's team may have left the core. -/
def State.refusalPending (s : State) (core : Nat) : Bool :=
  s.teams.any fun c => c.harts.any fun h => h.sideFault.any fun t => t.src == .side core

/-- Whether a hart has a refusal that is still undelivered. -/
def State.hasRefusal (s : State) (team hart : Nat) : Bool := (s.hartAt team hart).any (·.sideFault.isSome)

/-- Whether a refusal waits for the delivery of another: of the same core's side log, or to a hart that has entries of its page. -/
def State.refusalWaits (s : State) (r : HeldRefusal) : Bool :=
  r.core != cpCore && (s.refusalPending r.core ||
    s.side.any fun e => e.core == r.core && e.asid == r.asid && pageOf e.va == r.page && s.hasRefusal e.team e.hart)

/-- Apply the next held refusal that waits for no other any more (R150). -/
def State.nextRefusal (s : State) : State :=
  match s.refusals.find? (!s.refusalWaits ·) with
  | some r => ({ s with refusals := s.refusals.erase r }).applyRefusal r
  | none => s

/-- Deliver the first pending fault of the focused hart, if its hart is not in a handler; the trap is taken at the
instruction boundary, and a wait is abandoned (R301). -/
def State.deliver (s : State) : State :=
  if s.me.inHandler then s
  else
    match s.me.pending with
    | p :: _ =>
      match s.me.pendingTrap p with
      | some t =>
        let s1 := ({ s with me := s.me.clearPending p }).takeTrap t s.me.pc false
        if p = 9 then s1.nextRefusal else s1
      | none => { s with me := s.me.clearPending p }
    | [] => s

/-! ### Returning from a trap (R300) -/

/-- The progress indices written in the handler take effect; the block resumes at its word. -/
def Hart.leaveHandler (h : Hart) : Hart :=
  let h1 := h.pixW.foldl (fun h (k, v) =>
    if k < 32 then { h with pixV := h.pixV.set (k % 32) v (Nat.mod_lt _ (by decide)) }
    else { h with pixT := h.pixT.set (k % 8) v (Nat.mod_lt _ (by decide)) }) h
  { h1 with pixW := [],
            blk := if h1.tstat.getLsbD tBLK then h1.blk.map fun b => { b with suspended := h1.blkFault.isSome } else h1.blk,
            tstat := putBit (putBit (putBit (putBit (putBit h1.tstat tIN false) tBLK false) tENG false) tSIDE false) tDISC
              false,
            pc := h1.tepc, wait := none, entry := none }

def State.returnFromTrap (s : State) : State := { s with me := s.me.leaveHandler }

/-! ### Running a scalar word -/

/-- What is left behind by a word that has been held: the wait and the pager's answers (log entry 60). -/
def State.settle (s : State) : State := { s with me := { s.me with wait := none, answers := [] } }

/-- Run the action of a scalar word: past the word when it ends, else as its stop says (R89, R296). -/
def State.word (s : State) (act : M Unit) : State :=
  match act s with
  | .ok _ s1 => s1.settle.next
  | .error (.trap t) s1 => s1.settle.takeTrap t s1.me.pc true
  | .error (.after t) s1 => s1.settle.takeTrap t (s1.me.pc + 4) true
  | .error (.wait w) s1 => s1.setWait (some w)
  | .error .done s1 => s1

end Sys2Proof.Machine
end

