-- ==== Sys2Proof/Machine/Alu.lean ====
section
/-! DEFINITION. ALU and immediate words (R93, R94, R330 to R332, R337, R378, R396). -/

namespace Sys2Proof.Machine

/-! ### Operations on words of n bits -/

/-- The low 32 bits of a source, and a 32-bit result sign-extended (R93, R331). -/
def low32 (x : Word) : BitVec 32 := bits x 0 32
def wide (x : BitVec 32) : Word := x.signExtend 64
def sext16 (x : BitVec 16) : Word := x.signExtend 64
def zext16 (x : BitVec 16) : Word := x.zeroExtend 64

/-- 1 when the condition holds, else 0. -/
def truth (c : Bool) : Word := if c then 1 else 0

/-- Signed division: all ones for a zero divisor (R331). -/
def divS {n : Nat} (a b : BitVec n) : BitVec n := if b = 0 then BitVec.allOnes n else a.sdiv b
def divU {n : Nat} (a b : BitVec n) : BitVec n := if b = 0 then BitVec.allOnes n else a / b
/-- Remainder with the sign of a: a for a zero divisor (R331). -/
def remS {n : Nat} (a b : BitVec n) : BitVec n := if b = 0 then a else a.srem b
def remU {n : Nat} (a b : BitVec n) : BitVec n := if b = 0 then a else a % b

/-- Leading zeros of x among its n low bits. -/
def leadingZeros (n x : Nat) : Nat := n - bitLen x
/-- Number of 1 bits (R331). -/
def onesOf {n : Nat} (x : BitVec n) : Nat := ((List.range n).filter fun k => x.getLsbD k).length

/-- A three-operand word of 64 bits. -/
def State.alu (s : State) (f : Word → Word → Word) (d a b : Reg) : State := s.put d (f (s.x a) (s.x b))
/-- A three-operand word in W form. -/
def State.aluW (s : State) (f : BitVec 32 → BitVec 32 → BitVec 32) (d a b : Reg) : State :=
  s.put d (wide (f (low32 (s.x a)) (low32 (s.x b))))
/-- A two-operand word. -/
def State.alu1 (s : State) (f : Word → Word) (d a : Reg) : State := s.put d (f (s.x a))

/-! ### Meanings -/

def execAdd (d a b : Reg) (s : State) : Host.Outcome State Fault Refusal := .next (s.alu (· + ·) d a b)
def execAddw (d a b : Reg) (s : State) : Host.Outcome State Fault Refusal := .next (s.aluW (· + ·) d a b)
def execSub (d a b : Reg) (s : State) : Host.Outcome State Fault Refusal := .next (s.alu (· - ·) d a b)
def execSubw (d a b : Reg) (s : State) : Host.Outcome State Fault Refusal := .next (s.aluW (· - ·) d a b)
def execAnd (d a b : Reg) (s : State) : Host.Outcome State Fault Refusal := .next (s.alu (· &&& ·) d a b)
def execOr (d a b : Reg) (s : State) : Host.Outcome State Fault Refusal := .next (s.alu (· ||| ·) d a b)
def execXor (d a b : Reg) (s : State) : Host.Outcome State Fault Refusal := .next (s.alu (· ^^^ ·) d a b)
def execSll (d a b : Reg) (s : State) : Host.Outcome State Fault Refusal :=
  .next (s.alu (fun x y => x <<< (y.toNat % 64)) d a b)
def execSllw (d a b : Reg) (s : State) : Host.Outcome State Fault Refusal :=
  .next (s.aluW (fun x y => x <<< (y.toNat % 32)) d a b)
def execSrl (d a b : Reg) (s : State) : Host.Outcome State Fault Refusal :=
  .next (s.alu (fun x y => x >>> (y.toNat % 64)) d a b)
def execSrlw (d a b : Reg) (s : State) : Host.Outcome State Fault Refusal :=
  .next (s.aluW (fun x y => x >>> (y.toNat % 32)) d a b)
def execSra (d a b : Reg) (s : State) : Host.Outcome State Fault Refusal :=
  .next (s.alu (fun x y => x.sshiftRight (y.toNat % 64)) d a b)
def execSraw (d a b : Reg) (s : State) : Host.Outcome State Fault Refusal :=
  .next (s.aluW (fun x y => x.sshiftRight (y.toNat % 32)) d a b)
def execSlt (d a b : Reg) (s : State) : Host.Outcome State Fault Refusal :=
  .next (s.alu (fun x y => truth (x.slt y)) d a b)
def execSltu (d a b : Reg) (s : State) : Host.Outcome State Fault Refusal :=
  .next (s.alu (fun x y => truth (x.ult y)) d a b)
def execMin (d a b : Reg) (s : State) : Host.Outcome State Fault Refusal :=
  .next (s.alu (fun x y => if x.slt y then x else y) d a b)
def execMax (d a b : Reg) (s : State) : Host.Outcome State Fault Refusal :=
  .next (s.alu (fun x y => if x.slt y then y else x) d a b)
def execMinu (d a b : Reg) (s : State) : Host.Outcome State Fault Refusal :=
  .next (s.alu (fun x y => if x.ult y then x else y) d a b)
def execMaxu (d a b : Reg) (s : State) : Host.Outcome State Fault Refusal :=
  .next (s.alu (fun x y => if x.ult y then y else x) d a b)
def execClz (d a : Reg) (s : State) : Host.Outcome State Fault Refusal :=
  .next (s.alu1 (fun x => BitVec.ofNat 64 (leadingZeros 64 x.toNat)) d a)
def execClzw (d a : Reg) (s : State) : Host.Outcome State Fault Refusal :=
  .next (s.alu1 (fun x => BitVec.ofNat 64 (leadingZeros 32 (low32 x).toNat)) d a)
def execPopc (d a : Reg) (s : State) : Host.Outcome State Fault Refusal :=
  .next (s.alu1 (fun x => BitVec.ofNat 64 (onesOf x)) d a)
def execPopcw (d a : Reg) (s : State) : Host.Outcome State Fault Refusal :=
  .next (s.alu1 (fun x => BitVec.ofNat 64 (onesOf (low32 x))) d a)

/-- Sign extension of the low byte, half or word (R331). -/
def extendAt (z : ExtSize) (x : Word) : Word :=
  match z with
  | .byte => (bits x 0 8).signExtend 64
  | .half => (bits x 0 16).signExtend 64
  | .word => (bits x 0 32).signExtend 64
def execSext (d a : Reg) (z : ExtSize) (s : State) : Host.Outcome State Fault Refusal := .next (s.alu1 (extendAt z) d a)

/-- Bits [127:64] of the product (R331). -/
def mulHigh (x y : Word) : Word := bits (x.signExtend 128 * y.signExtend 128) 64 64
def mulHighU (x y : Word) : Word := bits (x.zeroExtend 128 * y.zeroExtend 128) 64 64

def execMul (d a b : Reg) (s : State) : Host.Outcome State Fault Refusal := .next (s.alu (· * ·) d a b)
def execMulw (d a b : Reg) (s : State) : Host.Outcome State Fault Refusal := .next (s.aluW (· * ·) d a b)
def execMulh (d a b : Reg) (s : State) : Host.Outcome State Fault Refusal := .next (s.alu mulHigh d a b)
def execMulhu (d a b : Reg) (s : State) : Host.Outcome State Fault Refusal := .next (s.alu mulHighU d a b)
def execDiv (d a b : Reg) (s : State) : Host.Outcome State Fault Refusal := .next (s.alu divS d a b)
def execDivw (d a b : Reg) (s : State) : Host.Outcome State Fault Refusal := .next (s.aluW divS d a b)
def execDivu (d a b : Reg) (s : State) : Host.Outcome State Fault Refusal := .next (s.alu divU d a b)
def execDivuw (d a b : Reg) (s : State) : Host.Outcome State Fault Refusal := .next (s.aluW divU d a b)
def execRem (d a b : Reg) (s : State) : Host.Outcome State Fault Refusal := .next (s.alu remS d a b)
def execRemw (d a b : Reg) (s : State) : Host.Outcome State Fault Refusal := .next (s.aluW remS d a b)
def execRemu (d a b : Reg) (s : State) : Host.Outcome State Fault Refusal := .next (s.alu remU d a b)
def execRemuw (d a b : Reg) (s : State) : Host.Outcome State Fault Refusal := .next (s.aluW remU d a b)

def execAddi (d a : Reg) (k : BitVec 16) (s : State) : Host.Outcome State Fault Refusal :=
  .next (s.alu1 (· + sext16 k) d a)
def execAndi (d a : Reg) (k : BitVec 16) (s : State) : Host.Outcome State Fault Refusal :=
  .next (s.alu1 (· &&& zext16 k) d a)
def execOri (d a : Reg) (k : BitVec 16) (s : State) : Host.Outcome State Fault Refusal :=
  .next (s.alu1 (· ||| zext16 k) d a)
def execXori (d a : Reg) (k : BitVec 16) (s : State) : Host.Outcome State Fault Refusal :=
  .next (s.alu1 (· ^^^ zext16 k) d a)
def execSlti (d a : Reg) (k : BitVec 16) (s : State) : Host.Outcome State Fault Refusal :=
  .next (s.alu1 (fun x => truth (x.slt (sext16 k))) d a)
def execSlli (d a : Reg) (n : BitVec 6) (s : State) : Host.Outcome State Fault Refusal :=
  .next (s.alu1 (fun x => x <<< n.toNat) d a)
def execSrli (d a : Reg) (n : BitVec 6) (s : State) : Host.Outcome State Fault Refusal :=
  .next (s.alu1 (fun x => x >>> n.toNat) d a)
def execSrai (d a : Reg) (n : BitVec 6) (s : State) : Host.Outcome State Fault Refusal :=
  .next (s.alu1 (fun x => x.sshiftRight n.toNat) d a)
def execSlliw (d a : Reg) (n : BitVec 5) (s : State) : Host.Outcome State Fault Refusal :=
  .next (s.alu1 (fun x => wide (low32 x <<< n.toNat)) d a)
def execSrliw (d a : Reg) (n : BitVec 5) (s : State) : Host.Outcome State Fault Refusal :=
  .next (s.alu1 (fun x => wide (low32 x >>> n.toNat)) d a)
def execSraiw (d a : Reg) (n : BitVec 5) (s : State) : Host.Outcome State Fault Refusal :=
  .next (s.alu1 (fun x => wide ((low32 x).sshiftRight n.toNat)) d a)
def execLui (d : Reg) (k : BitVec 16) (s : State) : Host.Outcome State Fault Refusal :=
  .next (s.put d (sext16 k <<< 16))
def execAuipc (d : Reg) (k : BitVec 16) (s : State) : Host.Outcome State Fault Refusal :=
  .next (s.put d (s.me.pc + (sext16 k <<< 16)))

end Sys2Proof.Machine
end

