-- ==== Sys2Proof/Machine/Branch.lean ====
section
/-! DEFINITION. Branches and jumps (R96, R338, R339, R367 to R369). -/

namespace Sys2Proof.Machine

/-- A word offset in bytes. -/
def wordOffset {n : Nat} (o : BitVec n) : Word := 4 * o.signExtend 64

/-- A conditional branch (R338). -/
def State.branch (s : State) (taken : Bool) (o : BitVec 13) : State :=
  if taken then s.setPc (s.me.pc + wordOffset o) else s.next

def execBeq (a b : Reg) (o : BitVec 13) (s : State) : Host.Outcome State Fault Refusal :=
  .next (s.branch (s.x a == s.x b) o)
def execBne (a b : Reg) (o : BitVec 13) (s : State) : Host.Outcome State Fault Refusal :=
  .next (s.branch (s.x a != s.x b) o)
def execBlt (a b : Reg) (o : BitVec 13) (s : State) : Host.Outcome State Fault Refusal :=
  .next (s.branch ((s.x a).slt (s.x b)) o)
def execBge (a b : Reg) (o : BitVec 13) (s : State) : Host.Outcome State Fault Refusal :=
  .next (s.branch (!(s.x a).slt (s.x b)) o)
def execBltu (a b : Reg) (o : BitVec 13) (s : State) : Host.Outcome State Fault Refusal :=
  .next (s.branch ((s.x a).ult (s.x b)) o)
def execBgeu (a b : Reg) (o : BitVec 13) (s : State) : Host.Outcome State Fault Refusal :=
  .next (s.branch (!(s.x a).ult (s.x b)) o)
def execJ (o : BitVec 26) (s : State) : Host.Outcome State Fault Refusal := .next (s.setPc (s.me.pc + wordOffset o))
def execJal (o : BitVec 26) (s : State) : Host.Outcome State Fault Refusal :=
  .next ((s.setX 31 (s.me.pc + 4)).setPc (s.me.pc + wordOffset o))

/-- JALR: a misaligned target traps, and the link register is written after the base is read (R368). -/
def execJalr (d a : Reg) (k : BitVec 16) (s : State) : Host.Outcome State Fault Refusal :=
  let t := s.x a + sext16 k
  .next (if bits t 0 2 = 0 then (s.setX d (s.me.pc + 4)).setPc t else s.takeTrap (.of cMISALIGN t) s.me.pc true)

/-- The top of the mask stack; an absent entry reads all ones (R198). Entry e is slice e. -/
def Hart.stackAt (h : Hart) (e : Nat) : BitVec 12288 := h.stk[e % 8]'(Nat.mod_lt _ (by decide))
def Hart.top (h : Hart) : BitVec 12288 := if h.depth = 0 then BitVec.allOnes _ else h.stackAt (h.depth - 1)
def Hart.belowTop (h : Hart) : BitVec 12288 := if h.depth ≤ 1 then BitVec.allOnes _ else h.stackAt (h.depth - 2)

/-- The mask stack is not empty and its top has no active element among the first n (R96). -/
def Hart.noneActive (h : Hart) (n : Nat) : Bool := h.depth != 0 && h.top.toNat % 2 ^ n == 0

/-- BMZ waits for the block in flight, then tests the top (R339). -/
def execBmz (o : BitVec 26) (s : State) : Host.Outcome State Fault Refusal :=
  .next (if s.me.inFlight then s.setWait (some .block)
    else if s.me.noneActive s.me.vl then s.settle.setPc (s.me.pc + wordOffset o)
    else s.settle.next)

end Sys2Proof.Machine
end

