-- ==== Sys2Proof/Machine/Csr.lean ====
section
/-! DEFINITION. Control and status registers, and the system words (R98, R135, R190, R191, R197, R200, R206, R209, R294,
R300, R302, R350 to R353, R359, R412). -/

namespace Sys2Proof.Machine

/-! ### Vector type and length (R26, R190, R191) -/

def vtFmt (v : Word) : Nat := (bits v 3 5).toNat
def vtP (v : Word) : Nat := (bits v 8 3).toNat
def vtInf (v : Word) : Bool := v.getLsbD 11
def vtSat (v : Word) : Bool := v.getLsbD 12
def vtGrp (v : Word) : Nat := (bits v 13 3).toNat
def vtSb (v : Word) : Nat := (bits v 16 3).toNat
def vtRm (v : Word) : Nat := (bits v 19 3).toNat

/-- Whether VTYPE may hold a value (R26, R190). -/
def vtypeLegal (v : Word) : Bool :=
  bits v 22 42 == 0 && decide (vtRm v ≤ 5) && decide (vtSb v ≤ 4) && decide (vtGrp v ≤ 3) &&
    typeOk (vtFmt v) (vtW v) (vtP v)

/-- Bytes of a vector register of a team of this size code (R51). -/
def vlenOf (size : Nat) : Nat := 6144 / hartsOf size

/-- Registers of a group (R190, R192). -/
def groupOf (v : Word) : Nat := 2 ^ (vtGrp v)

/-- VLMAX (R191). -/
def vlmaxOf (size : Nat) (v : Word) : Nat := min (8 * vlenOf size * groupOf v / 2 ^ vtW v) (2 * vlenOf size)

def State.vlen (s : State) : Nat := vlenOf s.team.size
def State.vlmax (s : State) : Nat := vlmaxOf s.team.size s.me.vtype

/-- VTYPE := v, with VL cut to the new VLMAX (R191). -/
def State.setVtype (s : State) (v : Word) : State :=
  { s with me := { s.me with vtype := v, vl := min s.me.vl (vlmaxOf s.team.size v) } }

/-! ### Selectors (R352) -/

inductive CsrKind where
  | undefined | management | readOnly | task
  deriving DecidableEq, Repr

def csrKind (c : Nat) : CsrKind :=
  if c = 2 ∨ c = 3 ∨ (0x10 ≤ c ∧ c ≤ 0x15) then .readOnly
  else if c ≤ 8 ∨ (0x40 ≤ c ∧ c ≤ 0x45) ∨ (0x80 ≤ c ∧ c ≤ 0xA7) then .task
  else if c = 0x100 ∨ c = 0x101 ∨ (0x120 ≤ c ∧ c ≤ 0x128) then .management
  else .undefined

/-- Two slot groups of TSHAPE (R209). -/
def tshapeWord (t : Vector (BitVec 16) 8) (lo : Nat) : Word :=
  BitVec.ofNat 64 (((List.range 4).map fun k => (t[(lo + k) % 8]'(Nat.mod_lt _ (by decide))).toNat * 2 ^ (16 * k)).sum)

/-- TSTAT with the count of pending faults (R294). -/
def Hart.tstatRead (h : Hart) : Word := h.tstat ||| BitVec.ofNat 64 (h.pending.length % 256 * 256)

def State.worldidRead (s : State) : Word := BitVec.ofNat 64 (s.team.depth % 8 * 4096 + s.team.world % 4096)
def State.hartidRead (s : State) : Word :=
  BitVec.ofNat 64 (s.team.size % 4 * 2 ^ 16 + s.team.core % 256 * 256 + s.me.idx % 8)

/-- The value of a CSR that a task may read (R352, R353). CYCLE and TIME are read after their clocks have moved. -/
def State.csrValue (s : State) (c : Nat) : Word :=
  let h := s.me
  if c = 0x000 then h.vtype
  else if c = 0x001 then BitVec.ofNat 64 h.vl
  else if c = 0x002 then tshapeWord s.team.tshape 0
  else if c = 0x003 then tshapeWord s.team.tshape 4
  else if c = 0x004 then h.fcsr
  else if c = 0x005 then h.sperr
  else if c = 0x006 then
    BitVec.ofNat 64 ((if h.lqOvf then 512 else 0) + (if h.lqUnd then 256 else 0) + h.lq.length % 32)
  else if c = 0x007 then BitVec.ofNat 64 h.depth
  else if c = 0x008 then h.lskew.zeroExtend 64
  else if c = 0x010 then s.hartidRead
  else if c = 0x011 then BitVec.ofNat 64 s.team.no
  else if c = 0x012 then BitVec.ofNat 64 s.team.task
  else if c = 0x013 then s.worldidRead
  else if c = 0x014 then BitVec.ofNat 64 s.cyclesNow
  else if c = 0x015 then BitVec.ofNat 64 s.time
  else if c = 0x040 then s.team.tvec
  else if c = 0x041 then h.tepc
  else if c = 0x042 then h.tcause
  else if c = 0x043 then h.tval
  else if c = 0x044 then s.team.trec
  else if c = 0x045 then h.tstatRead
  else if 0x80 ≤ c ∧ c ≤ 0x9F then
    if h.inHandler then (h.pixV[(c - 0x80) % 32]'(Nat.mod_lt _ (by decide))).zeroExtend 64 else 0
  else if 0xA0 ≤ c ∧ c ≤ 0xA7 then
    if h.inHandler then (h.pixT[(c - 0xA0) % 8]'(Nat.mod_lt _ (by decide))).zeroExtend 64 else 0
  else 0

/-- FCSR keeps its reserved fields, and RM 6 and 7 store 0 (R38). -/
def fcsrWrite (v : Word) : Word :=
  let w := v &&& 0x3F3F07#64
  if (bits w 0 3).toNat ≥ 6 then w &&& ~~~7#64 else w

/-- POWERMODE.MODE (R308). -/
def State.mode (s : State) : Nat := (bits s.powermode 0 2).toNat

/-- Entries of the mask stack at or above a depth hold undefined values (R197). -/
def Hart.setDepth (h : Hart) (d seed : Nat) : Hart :=
  { h with depth := d,
           stk := Vector.ofFn fun e : Fin 8 => if e.val < d then h.stk[e.val]'e.isLt else Config.undefMask seed (8 + e.val) }

/-- Store into a CSR that a task may write (R351). src is X[xa] for the W1C field of TSTAT; clr says CSRC. The value is
one that VTYPE may hold when c is VTYPE. -/
def State.csrStore (s : State) (c : Nat) (v src : Word) (clr : Bool) : State :=
  let h := s.me
  if c = 0x000 then s.setVtype v
  else if c = 0x001 then { s with me := { h with vl := min (v.toNat % 2 ^ 32) s.vlmax } }
  else if c = 0x004 then { s with me := { h with fcsr := fcsrWrite v } }
  else if c = 0x005 then { s with me := { h with sperr := v &&& 0xC0003FFFFFFFFFFF#64 } }
  else if c = 0x006 then { s with me := { h with lqOvf := v.getLsbD 9, lqUnd := v.getLsbD 8 } }
  else if c = 0x007 then { s with me := h.setDepth (min (v.toNat % 16) 8) s.fresh, fresh := s.fresh + 1 }
  else if c = 0x008 then
    let p := bits v 0 2
    { s with me := { h with lskew := if p = 0 ∧ s.mode ≥ 2 then 1 else p } }
  else if c = 0x040 then { s with team := { s.team with tvec := v &&& ~~~3#64 } }
  else if c = 0x041 then { s with me := { h with tepc := v } }
  else if c = 0x042 then { s with me := { h with tcause := v &&& 0xFFFF#64 } }
  else if c = 0x043 then { s with me := { h with tval := v } }
  else if c = 0x044 then { s with team := { s.team with trec := v &&& ~~~0xFFF#64 } }
  else if c = 0x045 then
    if !clr && src.getLsbD tOVR then { s with me := { h with tstat := putBit h.tstat tOVR false } } else s
  else if 0x80 ≤ c ∧ c ≤ 0xA7 then
    if h.inHandler then { s with me := { h with pixW := h.pixW ++ [(c - 0x80, bits v 0 16)] } } else s
  else s

/-! ### CSR instructions (R351) -/

/-- The trap ILLEGAL of a word (R90). -/
def illegalWord (w : BitVec 32) : Trap := .of cILLEGAL (w.zeroExtend 64)

/-- The word of a scalar instruction. -/
def wordOf (j : Instr) : BitVec 32 := (encodeScalar j).getD 0

/-- The checks and the wait of a CSR instruction. -/
def csrAccess (c : Nat) (write : Bool) (w : BitVec 32) : M Unit := do
  need (csrKind c != .undefined) (.trap (illegalWord w))
  need (csrKind c != .management) (.trap (.of cPROTECT (BitVec.ofNat 64 c)))
  need (!(write && csrKind c == .readOnly)) (.trap (illegalWord w))
  if c == 4 || c == 6 || c == 7 then drained

/-- CYCLE and TIME move before they are read (R353). -/
def State.csrClock (s : State) (c : Nat) : State :=
  if c = 0x014 then s.passCycles else if c = 0x015 then s.passTime else s

/-- A CSR instruction that may write: f gives the new value from the old one, none when nothing is written. -/
def csrWord (d : Reg) (c : Nat) (w : BitVec 32) (src : Word) (clr : Bool) (f : Word → Option Word) (s : State) : State :=
  s.word do
    csrAccess c true w
    let s ← now
    let old := s.csrValue c
    match f old with
    | some v =>
      need (c != 0 || vtypeLegal v) (.trap (.of cVTYPE v))
      change fun s => s.csrStore c v src clr
    | none => pure ()
    change fun s => s.setX d old

def execCsrr (d : Reg) (c : BitVec 11) (s : State) : Host.Outcome State Fault Refusal :=
  .next (s.word do
    csrAccess c.toNat false (wordOf (.csrr d c))
    change fun s => s.csrClock c.toNat
    change fun s => s.setX d (s.csrValue c.toNat))
def execCsrw (d a : Reg) (c : BitVec 11) (s : State) : Host.Outcome State Fault Refusal :=
  .next (csrWord d c.toNat (wordOf (.csrw d a c)) (s.x a) false (fun _ => some (s.x a)) s)
def execCsrs (d a : Reg) (c : BitVec 11) (s : State) : Host.Outcome State Fault Refusal :=
  .next (csrWord d c.toNat (wordOf (.csrs d a c)) (s.x a) false
    (fun old => if a = 0 then none else some (old ||| s.x a)) s)
def execCsrc (d a : Reg) (c : BitVec 11) (s : State) : Host.Outcome State Fault Refusal :=
  .next (csrWord d c.toNat (wordOf (.csrc d a c)) (s.x a) true
    (fun old => if a = 0 then none else some (old &&& ~~~(s.x a))) s)

/-! ### Traps and return -/

/-- A block in flight is suspended where it stands, between two words or progress groups (R207, R412). -/
def Hart.suspendBlock (h : Hart) : Hart := { h with blk := h.blk.map fun b => { b with suspended := true } }

/-- TRAP completes and then traps with its code; a block in flight is suspended (R302, R412). -/
def execTrap (c : BitVec 11) (s : State) : Host.Outcome State Fault Refusal :=
  .next ({ s with me := s.me.suspendBlock }.takeTrap (.of cTRAP (c.zeroExtend 64)) (s.me.pc + 4) true)

/-- ERET outside a handler is ILLEGAL (R300). -/
def execEret (s : State) : Host.Outcome State Fault Refusal :=
  .next (if s.me.inHandler then s.returnFromTrap else s.takeTrap (illegalWord 0xFC002800#32) s.me.pc true)

/-- A scalar word that is not an instruction (R90). -/
def execIllegal (w : BitVec 32) (s : State) : Host.Outcome State Fault Refusal :=
  .next (s.takeTrap (illegalWord w) s.me.pc true)

end Sys2Proof.Machine
end

