-- ==== Sys2Proof/Machine/Context.lean ====
section
/-! DEFINITION. The context block of a team: what a save writes, and what a restore leaves undefined (R83, R84, R206,
R207, R217). -/

namespace Sys2Proof.Machine

/-- The n low bytes of a wide register, from byte lo up. -/
def wideBytes {w : Nat} (x : BitVec w) (n : Nat) : List Byte := leBytes n x.toNat

/-- Index of the suspended word of a block, 0 when there is none (R207). -/
def Hart.wordIndex (h : Hart) : Nat := (h.blk.map (·.idx)).getD 0

/-- The six loop indices of a block, outermost first. -/
def Hart.loopIndex (h : Hart) (k : Nat) : Nat := ((h.blk.map (·.index)).getD []).getD k 0

def lqstatBits (h : Hart) : Nat := (if h.lqOvf then 512 else 0) + (if h.lqUnd then 256 else 0) + h.lq.length % 32

/-- Pieces of a context block that one hart writes, by offset (R83). -/
def hartPieces (h : Hart) : List (Nat × List Byte) :=
  let n := h.idx
  [(0x40 + n * 0x18, leBytes 8 h.pc.toNat ++ leBytes 8 (h.vtype.toNat % 2 ^ 32 + h.vl % 2 ^ 32 * 2 ^ 32)
      ++ leBytes 8 (h.fcsr.toNat % 2 ^ 32 + lqstatBits h * 2 ^ 32 + h.wordIndex % 512 * 2 ^ 48
        + h.lskew.toNat * 2 ^ 57)),
   (0x100 + n * 0x100, h.x.toList.zipIdx.flatMap fun (x, k) => leBytes 8 (if k = 0 then 0 else x.toNat)),
   (0x900 + n * 0x20, leBytes 8 h.depth ++ (h.mmark.toList.flatMap fun k => leBytes 2 k)
      ++ leBytes 8 (h.lq.length % 32 + (h.unf.map fun u => u.addr.toNat / 64 * 64).getD 0)),
   (0x2A00 + 32 * n * 4, (List.range 32).flatMap fun k =>
      leBytes 2 (h.vmark[k % 32]'(Nat.mod_lt _ (by decide))) ++ wideBytes (h.pixV[k % 32]'(Nat.mod_lt _ (by decide))) 2),
   (0x2E00 + n * 0x40, leBytes 8 ((h.blk.map (·.addr.toNat)).getD 0)
      ++ ((List.range 6).flatMap fun k => leBytes 4 (h.loopIndex k)) ++ leBytes 8 h.tepc.toNat
      ++ leBytes 8 (h.tcause.toNat % 2 ^ 32 + h.tstatRead.toNat % 2 ^ 16 * 2 ^ 32) ++ leBytes 8 h.tval.toNat
      ++ leBytes 8 h.sperr.toNat)]

/-- Pad to a multiple of 64 bytes. -/
def pad64 (bs : List Byte) : List Byte := bs ++ List.replicate ((64 - bs.length % 64) % 64) 0#8

/-- Slice e of the four of m0 or m1, as many of its bytes as lie below the mark of the register (R84, R196). -/
def sliceBytes (vlen mark e : Nat) : Nat := min (vlen / 4) (mark - e % 4 * (vlen / 4))

/-- The packed vector data of a hart: registers and masks up to their marks, and the length queue (R83). -/
def hartPacked (vlen : Nat) (h : Hart) : List Byte :=
  ((List.range 32).flatMap fun k => pad64 (wideBytes (h.v[k % 32]'(Nat.mod_lt _ (by decide)))
      (h.vmark[k % 32]'(Nat.mod_lt _ (by decide)))))
    ++ ((List.range 8).flatMap fun k =>
      let mark := h.mmark[k % 8]'(Nat.mod_lt _ (by decide))
      pad64 (if k < 2 then (List.range 4).flatMap (fun e => wideBytes (h.stk[(4 * k + e) % 8]'(Nat.mod_lt _ (by decide)))
        (sliceBytes vlen mark e)) else wideBytes (h.m[k % 8]'(Nat.mod_lt _ (by decide))) mark))
    ++ pad64 (h.lq.flatMap fun x => leBytes 4 x.toNat)

/-- Progress of the physical tiles of a team, one byte each (R83). -/
def tileProgress (c : TeamCtx) : List Byte :=
  let per := 8 / hartsOf c.team.size
  (List.range 8).map fun t =>
    match c.harts.find? (·.idx == t / per) with
    | some h => (h.pixT[(t % per) % 8]'(Nat.mod_lt _ (by decide))).setWidth 8
    | none => 0

/-- The team header (R83). -/
def headerBytes (c : TeamCtx) : List Byte :=
  let live := ((c.harts.filter (·.alive)).map fun h => 2 ^ h.idx).sum
  leBytes 8 (c.team.size % 4 + live % 256 * 256) ++ leBytes 8 c.team.tvec.toNat ++ leBytes 8 c.team.trec.toNat
    ++ leBytes 8 (tshapeWord c.team.tshape 0).toNat ++ leBytes 8 (tshapeWord c.team.tshape 4).toNat ++ leBytes 8 0
    ++ leBytes 8 (c.team.task % 2 ^ 32 + c.team.world % 4096 * 2 ^ 32) ++ tileProgress c

/-- The harts of a team in the order of their numbers. -/
def TeamCtx.inOrder (c : TeamCtx) : List Hart := (List.range 8).filterMap fun n => c.harts.find? (·.idx == n)

/-- Every piece that a save writes, by offset in the block. -/
def contextPieces (c : TeamCtx) : List (Nat × List Byte) :=
  (0, headerBytes c) :: c.harts.flatMap hartPieces ++
    [(0x3000, c.inOrder.flatMap (hartPacked (vlenOf c.team.size)))]

/-- Save a team's state to its context block (R83); log entry 13 says where the block lies. A row command holds the writes of its
rows (R183). -/
def State.saveContext (s : State) (c : TeamCtx) : State :=
  (contextPieces c).foldl (fun s (o, bs) => s.ownWrite (c.team.ctxBlk + o) bs) s

/-- The low n bytes of a register kept, the rest from a free value. -/
def keepLow {w : Nat} (x fresh : BitVec w) (n : Nat) : BitVec w :=
  let m := BitVec.ofNat w (2 ^ (8 * n) - 1)
  (x &&& m) ||| (fresh &&& ~~~m)

/-- A hart as a restore leaves it: bytes above the marks hold undefined values (R84; log entry 10). -/
def Hart.restored (h : Hart) (vlen seed : Nat) : Hart :=
  { h with v := Vector.ofFn fun k : Fin 32 => keepLow (h.v[k.val]'k.isLt) (Config.undefVec seed k.val) (h.vmark[k.val]'k.isLt),
           m := Vector.ofFn fun k : Fin 8 => keepLow (h.m[k.val]'k.isLt) (Config.undefMask seed k.val) (h.mmark[k.val]'k.isLt),
           stk := Vector.ofFn fun e : Fin 8 => keepLow (h.stk[e.val]'e.isLt) (Config.undefMask seed (8 + e.val))
             (sliceBytes vlen (h.mmark[e.val / 4]'(by omega)) e.val),
           seed := seed }

/-- Restore every hart of a team, each with a seed of its own. -/
def restoreHarts (hs : List Hart) (vlen seed : Nat) : List Hart :=
  hs.zipIdx.map fun (h, k) => h.restored vlen (seed + k)

end Sys2Proof.Machine
end

