-- ==== Sys2Proof/Machine/LoadStore.lean ====
section
/-! DEFINITION. Loads, stores and atomics (R95, R97, R333 to R336, R371 to R374, R398 to R401). -/

namespace Sys2Proof.Machine

/-- Bytes of an access size (R95). -/
def Size.bytes : Size → Nat
  | .byte => 1
  | .half => 2
  | .word => 4
  | .dword => 8

/-- The address of LD and ST (R95). -/
def memAddr (base : Word) (z : Size) (o : BitVec 8) : Word := base + o.signExtend 64 * BitVec.ofNat 64 (Size.bytes z)

/-- Whether an address is aligned to n bytes. -/
def aligned (va : Word) (n : Nat) : Bool := va.toNat % n == 0

/-- Trap MISALIGN unless the address is aligned. -/
def needAligned (va : Word) (n : Nat) : M Unit := need (aligned va n) (.trap (.sized cMISALIGN va n))

/-- A loaded value in a register: zero- or sign-extended from its size. -/
def extendLoad (z : Size) (unsigned : Bool) (bs : List Byte) : Word :=
  let v := leVal bs
  if unsigned then BitVec.ofNat 64 v
  else match z with
    | .byte => (BitVec.ofNat 8 v).signExtend 64
    | .half => (BitVec.ofNat 16 v).signExtend 64
    | .word => (BitVec.ofNat 32 v).signExtend 64
    | .dword => BitVec.ofNat 64 v

/-- LD (R372). -/
def execLd (d a : Reg) (t : BitVec 3) (h : Hint) (z : Size) (n : Bool) (o : BitVec 8) (s : State) :
    Host.Outcome State Fault Refusal :=
  .next (s.word do
    let va := memAddr (s.x a) z o
    needAligned va (Size.bytes z)
    afterBlock
    let bs ← loadCore h t.toNat va (Size.bytes z)
    if h == .sync then acquire (s.hintScope va)
    change fun s => s.setX d (extendLoad z n bs))

/-- The checks of a store that come before the release of ST.rel (R399). -/
def storeCheck (va : Word) (n : Nat) : M Unit := do
  if isWindow va then trapIf (windowFault va n false)
  else
    trapIf (straddle va n)
    let s ← now
    trapIf (s.storeTrap va n)

/-- ST (R399). -/
def execSt (d a : Reg) (t : BitVec 3) (h : Hint) (z : Size) (o : BitVec 8) (s : State) :
    Host.Outcome State Fault Refusal :=
  .next (s.word do
    let va := memAddr (s.x a) z o
    needAligned va (Size.bytes z)
    afterBlock
    if h == .sync then
      storeCheck va (Size.bytes z)
      release (s.hintScope va)
    storeBytes t.toNat va (leBytes (Size.bytes z) (s.x d).toNat) (h == .sync))

/-! ### Atomics -/

/-- The signed value of the n low bits of x. -/
def signedLow (n x : Nat) : Int := if x % 2 ^ n < 2 ^ (n - 1) then (x % 2 ^ n : Nat) else ((x % 2 ^ n : Nat) : Int) - 2 ^ n

/-- The new value of an atomic on n bits, none for a failing CAS (R334). op is fn[4:0] of R97; e is the expected
value. -/
def amoNew (op : BitVec 5) (n old v e : Nat) : Option Nat :=
  match op with
  | 0x00#5 => some (v % 2 ^ n)
  | 0x01#5 => some ((old + v) % 2 ^ n)
  | 0x02#5 => some (old &&& v % 2 ^ n)
  | 0x03#5 => some (old ||| v % 2 ^ n)
  | 0x04#5 => some (old ^^^ v % 2 ^ n)
  | 0x05#5 => some (if signedLow n v < signedLow n old then v % 2 ^ n else old)
  | 0x06#5 => some (if signedLow n old < signedLow n v then v % 2 ^ n else old)
  | 0x07#5 => some (min old (v % 2 ^ n))
  | 0x08#5 => some (max old (v % 2 ^ n))
  | _ => if old = e % 2 ^ n then some (v % 2 ^ n) else none

/-- In a speculative world an atomic at fabric scope, or to another device or the pool, escapes before its address is
translated (R259, R334). -/
def worldAtomic (va : Word) (z : Nat) (fabric : Bool) : M Unit := fun s =>
  if s.team.world != 0 && (fabric || s.hintScope va == .fabric) && !(isWindow va && decide (towerOf va ≥ 3)) then
    .error (.trap (.sized cWORLD_ESCAPE va z)) s
  else .ok () s

/-- The trap that an atomic outside the windows takes whether or not it can be made at once: a page of the pool and a
message-only device take none, and every device is routed (R129, R130, R336). -/
def State.atomicTrap (s : State) (va : Word) (z : Nat) : Option Trap :=
  match s.xlate s.team.asid .atomic va with
  | .at_ _ 2 _ => some (.sized cPROTECT va z)
  | .message _ | .unrouted => some (.sized cPROTECT va z)
  | _ => none

/-- Read, change and write z bytes at one atomic point in storage (R335); the old value. -/
def atomicAt (va : Word) (k z : Nat) (f : Nat → Option Nat) : M Nat := do
  let s ← now
  let old := leVal (s.bytesIn s.team.world k z)
  match f old with
  | some v =>
    checkRoom va k z
    change fun s => s.storeOwn va k (leBytes z v)
  | none => pure ()
  return old

/-- An atomic at the keys behind a scratchpad window: dropped beyond the extent, and then 0 (R134, R135). -/
def atomicKeys (va : Word) (z : Nat) (chk : Bool) (f : Nat → Option Nat) (keys : List (Option Nat)) : M Nat := do
  if keys.all (·.isSome) then
    if chk then checkWindowPoison va z keys
    let s ← now
    let old := leVal (s.windowBytes (.bytes keys))
    match f old with
    | some v => change fun s => s.windowWrite keys (leBytes z v)
    | none => pure ()
    return old
  else
    change fun s => s.noteBeyond va keys true
    return 0

/-- The side-log entry of a reduction: its operation, size, operand and expected value. -/
def State.amoEntry (s : State) (stream : Nat) (va : Word) (z : Nat) (keys : Option (List (Option Nat)))
    (entry : BitVec 5 × Nat × Word × Word) : SideEntry :=
  { s.partEntry stream { va := va, bytes := (List.range z).map fun k => (k, 0), masks := [] } keys s.nextSide with amo := some entry }

/-- An atomic of z bytes: fabric says that its scope is fabric, dest that it holds its hart on a missing page, chk that
it checks what it reads for uncorrectable data (R297, R334 to R336). A reduction on a page with no translation, or behind
an entry of the side log, retires into the log (R150, R164). -/
def atomic (va : Word) (z : Nat) (fabric dest chk : Bool) (entry : BitVec 5 × Nat × Word × Word) (f : Nat → Option Nat)
    (stream : Nat := 0) : M Nat := do
  worldAtomic va z fabric
  if isWindow va then
    trapIf (windowFault va z false)
    if dest then loadHold stream va z
    let s ← now
    match s.windowTarget s.team va z with
    | .bytes keys =>
      if !dest && s.storeHeld stream va z then
        sidePut (s.amoEntry stream va z (some keys) entry)
        return 0
      else atomicKeys va z chk f keys
    | .counter _ _ _ => return 0
  else
    let s ← now
    trapIf (s.atomicTrap va z)
    if dest then loadHold stream va z
    if !dest && s.storeHeld stream va z then
      sidePut (s.amoEntry stream va z none entry)
      return 0
    else if !dest && s.xlate s.team.asid .atomic va == .missing then
      sidePut (s.amoEntry stream va z none entry)
      joinPage .atomic va s.nextSide
      return 0
    else
      let k ← findBytes .atomic va z
      if chk then checkPoison va k z
      atomicAt va k z f

/-- What an atomic meets before its release (R334): its traps, and the hold of one with a destination on a missing page. -/
def atomicCheck (va : Word) (z : Nat) (fabric dest : Bool) : M Unit := do
  worldAtomic va z fabric
  if isWindow va then trapIf (windowFault va z false)
  else
    let s ← now
    trapIf (s.atomicTrap va z)
    match s.xlate s.team.asid .atomic va with
    | .denied _ => stop (.trap (.sized cPROTECT va z))
    | .missing => if dest then holdPage .atomic va z
    | _ => pure ()

/-- Sign-extension of an n-byte old value (R334). -/
def amoResult (z old : Nat) : Word := if z = 8 then BitVec.ofNat 64 old else (BitVec.ofNat 32 old).signExtend 64

/-- An AMO word with operation code op (R334); dw is the D bit. -/
def amoWord (op : BitVec 5) (d a b : Reg) (sc : Scope) (o : AmoOrder) (dw : Bool) (s : State) : State :=
  s.word do
    let va := s.x a
    let z := if dw then 8 else 4
    needAligned va z
    afterBlock
    if o == .rel || o == .acqrel then
      atomicCheck va z (sc == .fabric) (d != 0)
      release sc
    let old ← atomic va z (sc == .fabric) (d != 0) (d != 0) (op, z, s.x b, s.x d)
      fun old => amoNew op (8 * z) old (s.x b).toNat (s.x d).toNat
    if o == .acq || o == .acqrel then acquire sc
    change fun s => s.setX d (amoResult z old)

def execAmoswap (d a b : Reg) (sc : Scope) (o : AmoOrder) (w : Bool) (s : State) : Host.Outcome State Fault Refusal :=
  .next (amoWord 0x00#5 d a b sc o w s)
def execAmoadd (d a b : Reg) (sc : Scope) (o : AmoOrder) (w : Bool) (s : State) : Host.Outcome State Fault Refusal :=
  .next (amoWord 0x01#5 d a b sc o w s)
def execAmoand (d a b : Reg) (sc : Scope) (o : AmoOrder) (w : Bool) (s : State) : Host.Outcome State Fault Refusal :=
  .next (amoWord 0x02#5 d a b sc o w s)
def execAmoor (d a b : Reg) (sc : Scope) (o : AmoOrder) (w : Bool) (s : State) : Host.Outcome State Fault Refusal :=
  .next (amoWord 0x03#5 d a b sc o w s)
def execAmoxor (d a b : Reg) (sc : Scope) (o : AmoOrder) (w : Bool) (s : State) : Host.Outcome State Fault Refusal :=
  .next (amoWord 0x04#5 d a b sc o w s)
def execAmomin (d a b : Reg) (sc : Scope) (o : AmoOrder) (w : Bool) (s : State) : Host.Outcome State Fault Refusal :=
  .next (amoWord 0x05#5 d a b sc o w s)
def execAmomax (d a b : Reg) (sc : Scope) (o : AmoOrder) (w : Bool) (s : State) : Host.Outcome State Fault Refusal :=
  .next (amoWord 0x06#5 d a b sc o w s)
def execAmominu (d a b : Reg) (sc : Scope) (o : AmoOrder) (w : Bool) (s : State) : Host.Outcome State Fault Refusal :=
  .next (amoWord 0x07#5 d a b sc o w s)
def execAmomaxu (d a b : Reg) (sc : Scope) (o : AmoOrder) (w : Bool) (s : State) : Host.Outcome State Fault Refusal :=
  .next (amoWord 0x08#5 d a b sc o w s)
def execAmocas (d a b : Reg) (sc : Scope) (o : AmoOrder) (w : Bool) (s : State) : Host.Outcome State Fault Refusal :=
  .next (amoWord 0x10#5 d a b sc o w s)

end Sys2Proof.Machine
end

