-- ==== Sys2Proof/Machine/Sync.lean ====
section
/-! DEFINITION. Synchronisation words: FENCE, SBAR, IFENCE, TBAR, and the timeline-counter words (R55, R165, R172,
R178, R187, R360, R361, R365, R366, R393, R403, R409, R410). -/

namespace Sys2Proof.Machine

/-- Whether a SAADD of the focused hart has been issued and not applied, in a stream of the mask (R287). -/
def State.addsPending (s : State) (mask : BitVec 8) : Bool :=
  s.adds.any fun a => a.team == s.team.no && a.hart == s.me.idx && mask.getLsbD a.stream

/-- Whether an engine command of the focused hart has not completed (R175). -/
def State.cmdsPending (s : State) : Bool := s.cmds.any fun c => c.team == s.team.no && c.hart == s.me.idx && c.queue.isNone

/-- The pool writes that the hart's completed engine commands made are performed at fabric scope (R172, R189). -/
def State.landEngines (s : State) : State :=
  { s with poolOut := s.poolOut.filter fun p => !(p.team == s.team.no && p.hart == s.me.idx && p.by_ != .hart && p.by_ != .replay) }

/-- The action of FENCE: its waits, and the release at its end, where a refused pool write traps (R361). -/
def fenceWord (eng sa : Bool) (k : FenceKind) (sc : Scope) : M Unit := do
  afterBlock
  let s ← now
  need (!(k != .acq && s.anyHeld)) (.wait .hold)
  need (!(k != .acq && sa && s.addsPending (BitVec.allOnes 8))) (.wait .adds)
  need (!(eng && s.cmdsPending)) (.wait .commands)
  if k != .acq then release sc
  if k != .acq && eng && sc == .fabric then change State.landEngines
  if k != .rel then acquire sc

/-- FENCE (R172, R361). -/
def execFence (eng sa : Bool) (k : FenceKind) (sc : Scope) (s : State) : Host.Outcome State Fault Refusal :=
  .next (s.word (fenceWord eng sa k sc))

/-- SBAR: the named streams' accesses, adds and side-log entries come first (R165, R393). -/
def execSbar (m : BitVec 8) (s : State) : Host.Outcome State Fault Refusal :=
  .next (s.word do
    drained
    let s ← now
    need (!((List.range 8).any fun k => m.getLsbD k && s.streamHeld k)) (.wait .hold)
    need (!s.addsPending m) (.wait .adds))

/-- IFENCE: the copies of code in the range that the cluster holds, and every CP's copies of row programs, are invalid (R187,
R365). -/
def execIfence (d a : Reg) (s : State) : Host.Outcome State Fault Refusal :=
  let lo := (s.x a).toNat
  let own := clusterOf s.team.core
  .next (s.dropCode (fun c => c == own || decide (64 ≤ c)) s.team.asid lo (min (lo + (s.x d).toNat) (2 ^ 64))).next

/-- Whether a hart counts as arrived at the team's barrier (R55). -/
def Hart.arrived (h : Hart) : Bool := !h.alive || h.wait == some .barrier

/-- A hart leaves the barrier. -/
def Hart.passBarrier (h : Hart) : Hart :=
  if h.wait == some .barrier then { h with wait := none, answers := [], pc := h.pc + 4 } else h

/-- TBAR: the hart's own accesses come first, those of its block too; the last live hart to arrive lets every hart of the team go on
(R55, R403). -/
def execTbar (s : State) : Host.Outcome State Fault Refusal :=
  .next (s.word do
    need (!s.me.inFlight && !s.anyHeld && !s.addsPending (BitVec.allOnes 8)) (.wait .arriving)
    let s ← now
    need (s.peers.all Hart.arrived) (.wait .barrier)
    change fun s => { s with peers := s.peers.map Hart.passBarrier })

/-! ### Timeline-counter words -/

/-- The doubleword that TLWAIT and TLPOLL read: no stream of the hart holds it, but a byte in the side log does (R150,
R410). -/
def counterRead (va : Word) (sc : Scope) : M Nat := do
  needAligned va 8
  afterBlock
  let s ← now
  need (!(sc == .fabric && s.team.world != 0)) (.trap (.sized cWORLD_ESCAPE va 8))
  let bs ← loadBytes 8 va 8
  return leVal bs

/-- The action of TLWAIT. -/
def tlwaitWord (a b : Reg) (sc : Scope) : M Unit := do
  let va ← reg a
  let want ← reg b
  let v ← counterRead va sc
  need (decide (want.toNat ≤ v)) (.wait (.counter va want))
  acquire sc

/-- TLWAIT (R178). -/
def execTlwait (a b : Reg) (sc : Scope) (s : State) : Host.Outcome State Fault Refusal := .next (s.word (tlwaitWord a b sc))

/-- TLPOLL (R178). -/
def execTlpoll (d a : Reg) (sc : Scope) (s : State) : Host.Outcome State Fault Refusal :=
  .next (s.word do
    let v ← counterRead (s.x a) sc
    acquire sc
    change fun s => s.setX d (BitVec.ofNat 64 v))

/-- The unsigned maximum that TLSIG writes, when it exceeds the present count (R178, R410). -/
def signalNew (v old : Nat) : Option Nat := if old < v then some v else none

/-- TLSIG (R178); at fabric scope it is the one access that a message-only device takes (R130). -/
def execTlsig (a b : Reg) (sc : Scope) (s : State) : Host.Outcome State Fault Refusal :=
  .next (s.word do
    let va := s.x a
    needAligned va 8
    afterBlock
    worldAtomic va 8 (sc == .fabric)
    if isWindow va then trapIf (windowFault va 8 false)
    release sc
    let f := signalNew (s.x b).toNat
    if isWindow va then discard (atomic va 8 false true false (0, 0, 0, 0) f)
    else
      match s.xlate s.team.asid .atomic va with
      | .message k =>
        need (sc == .fabric) (.trap (.sized cPROTECT va 8))
        change fun s =>
          match f (leVal (s.bytesIn 0 k 8)) with
          | some v => s.storeAt 0 k (leBytes 8 v)
          | none => s
      | _ => discard (atomic va 8 (sc == .fabric) true false (0, 0, 0, 0) f))

end Sys2Proof.Machine
end

