-- ==== Sys2Proof/Machine/Acorns.lean ====
section
/-! DEFINITION. SPAWN, JOIN and TEND, and the replay of effect logs (R62 to R65, R270, R273, R274, R370, R397, R408). -/

namespace Sys2Proof.Machine

/-! ### Acorn records of the focused hart -/

/-- The trap of a readiness address of the record at va, if it is not one that SPAWN takes: 0, ordinary memory of this
device, or the counter window (R397, R440). A message-only device and a NODE of no device are PROTECT (R129, R130), an offset outside
the layout of the counter window RANGE (R137). -/
def State.readyTrap (s : State) (va a : Word) : Option Trap :=
  if a = 0 then none
  else if isWindow a then
    if towerOf a != counterCode then some (.of cENGINE va)
    else if bits a 32 11 != 0 || bits a 0 3 != 0 then some (.window 5 a 8)
    else none
  else if isOwn a then
    if (s.lookup s.team.asid (towerOf a) (offsetOf a)).any (pteClass ·.pte == 2) then some (.of cENGINE va) else none
  else if (s.routes.find? (·.1 == nodeOf a)).any (·.2) then some (.of cENGINE va)
  else some (.sized cPROTECT a 8)

/-- The trap of a join record's address that names a message-only device, or no device (R129, R130). -/
def State.joinTrap (s : State) (j : Word) : Option Trap :=
  if isOwn j || isWindow j || (s.routes.find? (·.1 == nodeOf j)).any (·.2) then none else some (.sized cPROTECT j 16)

/-- The trap of a record at va that fails a check of SPAWN (R63, R397). -/
def State.recordTrap (s : State) (bs : List Byte) (va : Word) : Option Trap :=
  if acornOk bs then
    (s.joinTrap (dwordOf bs 16)).or ((s.readyTrap va (dwordOf bs 32)).or (s.readyTrap va (dwordOf bs 48)))
  else some (.of cENGINE va)

/-- The acorn that the focused hart pushes from a record: its world, its launch, its core (R57, R63). -/
def State.acornHere (s : State) (bs : List Byte) (va : Word) : Acorn :=
  { (acornOf bs va s.team.launch s.team.core).resolve s.team.no with world := s.team.world }

/-- The entries of the core's deque. -/
def State.dequeCount (s : State) : Nat := (s.coreAt s.team.core).deque.length

/-- A versioned acorn cannot be pushed from depth 4 (R274). -/
def depthCheck (a : Acorn) : M Unit := fun s =>
  if a.versioned && s.team.depth == 4 then .error (.trap (.of cWORLD_DEPTH 4)) s else .ok () s

/-- SPAWN (R63). -/
def execSpawn (d a : Reg) (s : State) : Host.Outcome State Fault Refusal :=
  .next (s.word do
    let va := s.x a
    needAligned va 64
    afterBlock
    let bs ← loadBytes 0 va 64
    let s ← now
    trapIf (s.recordTrap bs va)
    let acorn := s.acornHere bs va
    depthCheck acorn
    release .package
    let s ← now
    if s.readyAcorn acorn then
      need (decide (s.dequeCount < dequeRoom)) (.trap (.of cDEQUE_FULL va))
      change fun s => s.pushBottom acorn
      change fun s => s.setX d (BitVec.ofNat 64 s.dequeCount)
    else
      need (decide (s.watchCount s.team.core < watcherRoom)) (.wait .watcher)
      change fun s => s.watchAcorn acorn
      change fun s => s.setX d 0)

/-- Push the continuation of a JOIN, never waiting (R61, R64). -/
def State.pushJoined (s : State) (a : Acorn) : State :=
  if s.readyAcorn a then s.pushBottom a else s.watchAcorn a

/-- JOIN (R64, R370). Everything that can hold or trap precisely comes before the count changes. -/
def execJoin (d a : Reg) (s : State) : Host.Outcome State Fault Refusal :=
  .next (s.word do
    let j := s.x a
    needAligned j 16
    afterBlock
    let s ← now
    need (decide (s.dequeCount < dequeRoom)) (.trap (.of cDEQUE_FULL j))
    release .package
    let n ← atomic j 8 false true true (0, 0, 0, 0) fun _ => none
    need (n != 0) (.trap (.of cENGINE j))
    let dec := discard (atomic j 8 false true false (0, 0, 0, 0) fun n => some (n - 1))
    let next ← if n = 1 then loadBytes 0 (j + 8) 8 else pure []
    let va := BitVec.ofNat 64 (leVal next)
    if n = 1 && va != 0 then
      let bs ← if aligned va 64 then loadBytes 0 va 64 else pure []
      let s ← now
      let acorn := s.acornHere bs va
      match if aligned va 64 then s.recordTrap bs va else some (.of cENGINE va) with
      | none =>
        depthCheck acorn
        dec
        change fun s => s.pushJoined acorn
      | some t =>
        dec
        change fun s => s.setX d 0
        stop (.trap t)
    else dec
    acquire .package
    change fun s => s.setX d (BitVec.ofNat 64 (n - 1)))

/-! ### Replay of an effect log (R270, R273) -/

/-- The parts of a row by page. -/
def LogRow.pieces (r : LogRow) : List LogRow :=
  (pagesOf r.dest r.bytes).map fun p =>
    let o := (p.1 - r.dest).toNat
    { dest := p.1, bytes := p.2, bad := (r.bad.filter fun i => decide (o ≤ i ∧ i < o + p.2.length)).map (· - o) }

/-- One page piece of a replayed row: done, or the trap that a copy would take. -/
def replayPiece (asid : BitVec 16) (va : Word) (bs : List Byte) (bad : List Nat) : M (Option Trap) := fun s =>
  let write (s : State) (k : Nat) : State :=
    ((s.notePool s.team.no s.me.idx va k bs.length .replay).storeAt 0 k bs).poisonSegs 0
      ((bad.map fun i => (k + i) / 16).eraseDups)
  match s.xlate asid .store va with
  | .at_ k _ e =>
    if s.accessHeld k bs.length e none true then .error (.wait .busy) s else .ok none (write (s.markPage e none true) k)
  | .record k => .ok none (write s k)
  | .remote k => .ok none (write s k)
  | .message k => .ok none (write s k)
  | .missing =>
    match s.me.answerFor va with
    | some cause => .ok (some (.sized cause va bs.length)) s
    | none => holdPageIn asid .store va bs.length s
  | .busy => .error (.wait .busy) s
  | .denied _ => .ok (some (.sized cPROTECT va bs.length)) s
  | .unrouted => .ok (some (.sized cPROTECT va bs.length)) s

/-- The pieces of a copy, one after another, until one fails; those not yet written are what is left of the log (R349). -/
def replayRows (c : LogCopy) (rest : List LogCopy) (bad : Option Trap) : List LogRow → M (Option Trap)
  | [] => pure none
  | r :: rs => do
    change fun s => { s with me := { s.me with replay := some ({ c with rows := r :: rs } :: rest, bad) } }
    match ← replayPiece c.asid r.dest r.bytes r.bad with
    | some t => return some t
    | none => replayRows c rest bad rs

/-- Replay what is left of a log, copy by copy; a hold keeps the rest for the re-execution, each byte is written once, and the first
failing copy is remembered (R270, R349). -/
def replayLog : List LogCopy → Option Trap → M (Option Trap)
  | [], bad => do
    change fun s => { s with me := { s.me with replay := none },
                             poolOut := s.poolOut.filter fun p =>
                               !(p.team == s.team.no && p.hart == s.me.idx && p.by_ == .replay) }
    return bad
  | c :: rest, bad => do
    let t ← replayRows c rest bad (c.rows.flatMap LogRow.pieces)
    let t' := match t, c.src with
      | some t, _ => some t
      | none, some va => some (Trap.sized cPOISON va c.size)
      | none, none => none
    replayLog rest (bad.or t')

/-- The effect log of a world. -/
def State.logOf (s : State) (w : Nat) : List LogCopy :=
  match s.worldAt w with
  | some x => x.log
  | none => []

/-- Merge a world and hand its log on: to the parent's log, or to be replayed when the parent is world 0 (R270). The
copies to replay. -/
def State.commitWorld (s : State) (w : Nat) : List LogCopy × State :=
  let log := s.logOf w
  let p := s.parentOf w
  let s1 := s.mergeWorld w
  if p = 0 then (log, s1)
  else
    match s1.worldAt p with
    | some x => ([], s1.setWorld { x with log := x.log ++ log })
    | none => ([], s1)

/-! ### The end of a hart and of its task (R65) -/

/-- n bytes of a page for the CP's arrival: it holds on a missing page and on a row that a row command holds (R149, R183); no
key where the bytes cannot be had. -/
def cpFind (a : Acc) (va : Word) (n : Nat) : M (Option Nat) := fun s =>
  match s.xlate s.team.asid a va with
  | .at_ k _ e => if s.accessHeld k n e none a.wr then .error (.wait .busy) s else .ok (some k) (s.markPage e none a.wr)
  | .record k => .ok (some k) s
  | .remote k => .ok (some k) s
  | .busy => .error (.wait .busy) s
  | .missing => if (s.me.answerFor va).isSome then .ok none s else holdPage a va n s
  | _ => .ok none s

/-- The continuation of the join record at key k, whose count is about to reach 0: none where a JOIN would trap (log entry
24). -/
def cpNext (k : Nat) : M (Option Acorn) := do
  let s ← now
  let w := s.team.world
  let va := BitVec.ofNat 64 (leVal (s.bytesIn w (k + 8) 8))
  if va = 0 ∨ !aligned va 64 ∨ isWindow va then return none
  match ← cpFind .load va 64 with
  | none => return none
  | some c =>
    let s ← now
    let bs := s.bytesIn w c 64
    let a := s.acornHere bs va
    return if (s.recordTrap bs va).isSome || (a.versioned && s.team.depth == 4) then none else some a

/-- Room for the count that the CP writes in a world: a world that traps on exhaustion waits, another one ends (R272; log
entry 18). -/
def cpRoom (k : Nat) : M Unit := fun s =>
  if (s.unplaced s.team.world k 8).isNone then .ok () s
  else if s.trapsOnFull s.team.world then .error (.wait .hold) s
  else .error .done (s.endOwnWorld .exhausted)

/-- Give the last arrival's continuation to its deque or the watcher. While a ready one waits behind a full deque, so does the
completion (R61, R65). -/
def cpGive (a : Acorn) : M Unit := fun s =>
  let s1 := s.cpContinue a
  if s.readyAcorn a && !s.dequeFree a.core then .error (.wait .hold) { s1 with team := { s1.team with owed := some a } }
  else .ok () s1

/-- One JOIN arrival that the CP makes for the task of the focused team (R64, R65); it is dropped where a JOIN would trap (log
entry 24). -/
def cpArrive : M Unit := do
  let s ← now
  match s.team.owed with
  | some a =>
    need (!s.watch.contains a) (.wait .hold)
    change fun s => { s with team := { s.team with owed := none } }
  | none =>
    let j := s.team.joinrec
    if j = 0 ∨ isWindow j then return
    match ← cpFind .atomic j 16 with
    | none => pure ()
    | some k =>
      let s ← now
      let n := leVal (s.bytesIn s.team.world k 8)
      if n = 0 then return
      let next ← if n = 1 then cpNext k else pure none
      cpRoom k
      change fun s => s.storeAt s.team.world k (leBytes 8 (n - 1))
      match next with
      | some a => cpGive a
      | none => pure ()

/-- The waits of a hart that ends: its block and its engine commands (R408, R437). A fault held by a handler that ends
its hart is delivered first, at the boundary of the ending word (R300, R301; log entry 34). -/
def beforeEnd : M Unit := do
  blockOver .hold
  let s ← now
  need (!s.cmdsPending) (.wait .commands)
  if s.me.inHandler && !s.me.pending.isEmpty then
    change fun s => ({ s with me := { s.me with tstat := putBit s.me.tstat tIN false } }).deliver
    stop .done

/-- A hart that has ended: its registers are undefined values (R65; log entry 10). -/
def Hart.ended (h : Hart) (seed : Nat) : Hart :=
  let w (k : Nat) : Word := Config.undefWord (seed * 64 + k)
  { h with alive := false, wait := none, blk := none, replay := none, saving := none, answers := [],
           x := Vector.ofFn fun k : Fin 32 => w k.val,
           v := Vector.ofFn fun n : Fin 32 => Config.undefVec seed n.val,
           m := Vector.ofFn fun n : Fin 8 => Config.undefMask seed n.val,
           stk := Vector.ofFn fun n : Fin 8 => Config.undefMask seed (8 + n.val),
           vtype := w 32, vl := (w 33).toNat, fcsr := w 34, sperr := w 35, lqOvf := (w 36).getLsbD 0,
           lqUnd := (w 36).getLsbD 1, depth := (w 37).toNat, lskew := (w 38).setWidth 2, tepc := w 39, tcause := w 40,
           tval := w 41, tstat := w 42, lq := [], unf := none,
           pixV := Vector.ofFn fun n : Fin 32 => bits (w (43 + n.val / 4)) (16 * (n.val % 4)) 16,
           pixT := Vector.ofFn fun n : Fin 8 => bits (w (51 + n.val / 4)) (16 * (n.val % 4)) 16 }

/-- End the focused hart while others of its team live. -/
def State.endHart (s : State) : State := { s with me := s.me.ended s.fresh, fresh := s.fresh + 1 }

/-- Whether the focused hart is the last live one of its team. -/
def State.lastHart (s : State) : Bool := s.peers.all (!·.alive)

/-- Commit the focused team's world n times outward; the copies to replay (R274; log entry 23). -/
def State.commitOut (s : State) : Nat → List LogCopy × State
  | 0 => ([], s)
  | n + 1 =>
    let (a, s1) := s.commitWorld s.team.world
    let (b, s2) := s1.commitOut n
    (a ++ b, s2)

/-- Step 1 of R65 for the last hart: a versioned task commits its version, and a failed copy of the replay is reported, with the
offset of the launch's packet, and sets the status of the launch (R274, R306). -/
def commitTask : M Unit := fun s =>
  let go (log : List LogCopy) (bad : Option Trap) (s : State) : EStateM.Result Stop State Unit :=
    match replayLog log bad s with
    | .ok none s1 => .ok () s1
    | .ok (some t) s1 =>
      .ok () (s1.failLaunch s1.team.launch t.code t.sub s1.team.task (((s1.launchAt s1.team.launch).map (·.offset)).getD 0))
    | .error e s1 => .error e s1
  match s.me.replay with
  | some (log, bad) => go log bad s
  | none =>
    let (log, s1) := s.commitOut (s.team.carried + if s.team.versioned then 1 else 0)
    go log none { s1 with team := { s1.team with versioned := false, carried := 0, restartable := false } }

/-- The end of a hart with or without step 1 of R65; mark is what the word records as it completes. -/
def endWord (commit : Bool) (mark : State → State) : M Unit := do
  let s ← now
  if s.lastHart then
    if commit then
      release .package
      commitTask
    cpArrive
    change fun s => (mark s).leave
  else
    if commit then release .package
    change fun s => (mark s).endHart
  stop .done

/-- TEND (R65, R408). -/
def execTend (s : State) : Host.Outcome State Fault Refusal :=
  .next (s.word do
    beforeEnd
    endWord true id)

end Sys2Proof.Machine
end

