-- ==== Sys2Proof/Machine/Operands.lean ====
section
/-! DEFINITION. Operands of vector words: what the block captured (R204), the element type (R26, R101), elements of a
register group (R27, R192), masks and the mask stack (R196 to R198), scales (R194, R195), and the checks that a word makes
of them (R101, R192, R414). -/

namespace Sys2Proof.Machine

/-! ### What a word of the block finds (R204) -/

/-- VTYPE, VL and FCSR.RM as the block captured them. -/
def Hart.vt (h : Hart) : Word := (h.blk.map (·.vtype)).getD h.vtype
def Hart.vlNow (h : Hart) : Nat := (h.blk.map (·.vl)).getD h.vl
def Hart.frm (h : Hart) : BitVec 3 := (h.blk.map (·.frm)).getD (bits h.fcsr 0 3)

/-- The index of the innermost level of the nest, and its count (R104, R212). -/
def Hart.inner (h : Hart) : Nat := ((h.blk.map (·.index)).getD []).getLastD 0
def Hart.innerCount (h : Hart) : Nat := (((h.blk.map (·.levels)).getD []).getLast?.map (·.count)).getD 1

/-- Whether a word with this FL runs in this iteration (R104). -/
def Hart.runs (h : Hart) (fl : Fl) : Bool :=
  match fl with
  | .always => true
  | .first => h.inner == 0
  | .last => h.inner + 1 == h.innerCount

/-- Address base aN of the present iteration (R205). -/
def Hart.base (h : Hart) (n : BitVec 2) : Word :=
  match h.blk with
  | some b =>
    (b.levels.zip b.index).foldl (fun acc x => acc + BitVec.ofNat 64 x.2 * x.1.strides.getD n.toNat 0)
      (b.bases.getD n.toNat 0)
  | none => 0

/-! ### Element types (R26, R101) -/

/-- VTYPE with a width override. -/
def vtWith (vt : Word) (width : BitVec 3) : Word :=
  if width = 0 then vt else (vt &&& ~~~7#64) ||| (width - 1#3).zeroExtend 64

/-- The element type that VTYPE selects. -/
def etyOf (vt : Word) : ETy :=
  { fmt := vtFmt vt, w := 2 ^ vtW vt, p := vtP vt, infOn := vtInf vt, sat := vtSat vt }

/-- The rounding mode of a code; code 0 of the last resort is RNE (R37). -/
def rmOf (c : BitVec 3) : RM :=
  match c with
  | 2#3 => .rtz
  | 3#3 => .rdn
  | 4#3 => .rup
  | 5#3 => .srne
  | _ => .rne

/-- The rounding mode of a word: its rm, else VTYPE.RM, else FCSR.RM (R37). -/
def Hart.mode (h : Hart) (rm : BitVec 3) : RM :=
  rmOf (if rm ≠ 0 then rm else if vtRm h.vt ≠ 0 then BitVec.ofNat 3 (vtRm h.vt) else h.frm)

/-! ### Elements (R27, R84, R192) -/

/-- Element i, w bits wide, of the group that begins at register n. -/
def Hart.elem (h : Hart) (vlen n w i : Nat) : Nat :=
  let b := i * w
  (((h.v[(n + b / (8 * vlen)) % 32]'(Nat.mod_lt _ (by decide))) >>> (b % (8 * vlen))).toNat) % 2 ^ w

/-- A field of w bits of a wide register replaced from bit b up. -/
def putField {n : Nat} (x : BitVec n) (b w v : Nat) : BitVec n :=
  let m : BitVec n := BitVec.ofNat n (2 ^ w - 1)
  (x &&& ~~~(m <<< b)) ||| (BitVec.ofNat n (v % 2 ^ w) <<< b)

/-- Round up to a multiple of 64. -/
def up64 (n : Nat) : Nat := (n + 63) / 64 * 64

/-- Write element i of a group; the register's mark covers it. -/
def Hart.setElem (h : Hart) (vlen n w i v : Nat) : Hart :=
  let b := i * w
  let r := (n + b / (8 * vlen)) % 32
  let o := b % (8 * vlen)
  { h with v := h.v.set r (putField (h.v[r]'(Nat.mod_lt _ (by decide))) o w v) (Nat.mod_lt _ (by decide)),
           vmark := h.vmark.set r (max (h.vmark[r]'(Nat.mod_lt _ (by decide))) (min vlen (up64 ((o + w + 7) / 8))))
             (Nat.mod_lt _ (by decide)) }

/-- Write elements of a group. -/
def Hart.setElems (h : Hart) (vlen n w : Nat) (xs : List (Nat × Nat)) : Hart :=
  xs.foldl (fun h x => h.setElem vlen n w x.1 x.2) h

/-- PIX.v of a register (R206). -/
def Hart.pix (h : Hart) (r : Reg) : Nat := (h.pixV[r.val]'r.isLt).toNat
def Hart.setPix (h : Hart) (r : Reg) (n : Nat) : Hart := { h with pixV := h.pixV.set r.val (BitVec.ofNat 16 n) r.isLt }

/-! ### Masks (R101, R196, R198) -/

/-- The mask that msel names; 0 is unmasked. -/
def Hart.mask (h : Hart) (m : BitVec 3) : BitVec 12288 :=
  if m = 0 then BitVec.allOnes _ else if m = 1 then h.top else h.m[m.toNat]'m.isLt

/-- The elements below n, from k up, that are active. -/
def Hart.active (h : Hart) (m : BitVec 3) (k n : Nat) : List Nat :=
  let x := h.mask m
  ((List.range n).drop k).filter fun i => x.getLsbD i

/-- The first n bits of a mask, with zeros above (R196). -/
def lowMask (n : Nat) (x : BitVec 12288) : BitVec 12288 := BitVec.ofNat _ (x.toNat % 2 ^ n)

/-- Write a mask register whole. -/
def Hart.setMask (h : Hart) (vlen : Nat) (m : BitVec 3) (x : BitVec 12288) : Hart :=
  { h with m := h.m.set m.toNat x m.isLt,
           mmark := h.mmark.set m.toNat (max (h.mmark[m.toNat]'m.isLt) (vlen / 4)) m.isLt }

/-- Write entry e of the mask stack, a slice of m0 or m1 (R196). -/
def Hart.setEntry (h : Hart) (vlen e : Nat) (x : BitVec 12288) : Hart :=
  { h with stk := h.stk.set (e % 8) x (Nat.mod_lt _ (by decide)),
           mmark := h.mmark.set (e % 8 / 4) (max (h.mmark[e % 8 / 4]'(by omega)) ((e % 4 + 1) * (vlen / 4)))
             (by omega) }

/-- A mask with the bits of active elements replaced, and zeros from n up (R196, R417). -/
def mergeMask (n : Nat) (old act new : BitVec 12288) : BitVec 12288 := lowMask n ((old &&& ~~~act) ||| (new &&& act))

/-! ### Scales (R36, R194, R195) -/

/-- Scales that a register holds. -/
def scaleCount (vlen : Nat) : Nat := min 512 (vlen / 4)
/-- Elements of a scale block, 0 for none (R190). -/
def blockOf (vt : Word) : Nat := if vtSb vt = 0 then 0 else 8 * 2 ^ vtSb vt

/-- Scale k of scale register kN. -/
def Hart.scale (h : Hart) (vlen n k : Nat) : Num := fmtF32.value (h.elem vlen (24 + n % 8) 32 k)

/-! ### Checks (R101, R192, R195, R414) -/

def vtypeTrap (v : Word) : Stop := .trap (.of cVTYPE v)

/-- The element type of a word, if R26 allows it (R101). -/
def wordType (width : BitVec 3) : M ETy := fun s =>
  let vt := vtWith s.me.vt width
  let t := etyOf vt
  if typeOk t.fmt (vtW vt) t.p then .ok t s else .error (vtypeTrap vt) s

/-- Trap VTYPE with VTYPE and the override when a word does not take the type. -/
def needType (width : BitVec 3) (c : Bool) : M Unit := fun s =>
  if c then .ok () s else .error (vtypeTrap (vtWith s.me.vt width)) s

/-- Each register field must be a multiple of the group (R192). -/
def needGroups (rs : List Reg) : M Unit := fun s =>
  match rs.find? fun r => r.val % groupOf s.me.vt != 0 with
  | some r => .error (vtypeTrap (BitVec.ofNat 64 r.val)) s
  | none => .ok () s

/-- VL elements of w bits must fit a group (R101). -/
def needFit (w : Nat) : M Unit := fun s =>
  if s.me.vlNow * w ≤ 8 * groupOf s.me.vt * s.vlen then .ok () s
  else .error (vtypeTrap (BitVec.ofNat 64 s.me.vlNow)) s

/-- The least of some numbers. -/
def least : List Nat → Option Nat
  | [] => none
  | x :: xs => match least xs with
    | some y => some (min x y)
    | none => some x

/-- The scale field of an operand with the elements of it that the word reads. -/
abbrev ScaleUse := BitVec 4 × List Nat

/-- The check of the scale fields of a word: bit 3 of each enables (R195). imm is the word's imm16; TVAL is the lowest scale
index beyond the count among those that the word reads. -/
def needScales (imm : BitVec 16) (us : List ScaleUse) : M Unit := fun s =>
  let on := us.filter (·.1.getLsbD 3)
  let b := blockOf s.me.vt
  if on.isEmpty then .ok () s
  else if b = 0 then .error (vtypeTrap (imm.zeroExtend 64)) s
  else
    match least ((on.flatMap (·.2)).map (· / b) |>.filter fun k => decide (scaleCount s.vlen ≤ k)) with
    | some k => .error (vtypeTrap (BitVec.ofNat 64 k)) s
    | none => .ok () s

/-- The scale of element i under a field: bits 2 to 0 name the register (R36, R195). -/
def Hart.scaleFor (h : Hart) (vlen : Nat) (field : BitVec 4) : Option (Nat → Num) :=
  if field.getLsbD 3 then some fun i => h.scale vlen (bits field 0 3).toNat (i / blockOf h.vt) else none

end Sys2Proof.Machine
end

