-- ==== Sys2Proof/Machine/Flags.lean ====
section
/-! DEFINITION. Flags of the vector and tile words: the sticky bits of FCSR and the trap of an enabled flag (R38 to
R40). -/

namespace Sys2Proof.Machine

/-- Set sticky flags, FCSR bits 13 to 8 (R38, R39). -/
def Hart.raise (h : Hart) (f : Flags) : Hart := { h with fcsr := h.fcsr ||| (f.zeroExtend 64 <<< 8) }

/-- The raised flags whose enable bit is 1, FCSR bits 21 to 16 (R38, R40). -/
def Hart.enabled (h : Hart) (f : Flags) : Flags := f &&& bits h.fcsr 16 6

def raiseFlags (f : Flags) : M Unit := change fun s => { s with me := s.me.raise f }

/-- A word that raised an enabled flag is complete and traps FP (R40). -/
def fpTrap (f : Flags) : M Unit := fun s =>
  let e := s.me.enabled f
  if e = 0 then .ok () s else .error (.after (.of cFP (e.zeroExtend 64))) s

end Sys2Proof.Machine
end

