-- ==== Sys2Proof/Machine/Vword.lean ====
section
/-! DEFINITION. How the sequencer runs one word of a block: FL, progress, traps and waits of the word (R104, R205 to
R207), and the element-wise mould (R415). -/

namespace Sys2Proof.Machine

/-! ### One word -/

/-- The focused hart as a word of its block finds it: with the block's own wait and the pager's answers to the block. -/
def Hart.enterBlock (h : Hart) : Hart :=
  match h.blk with
  | some b => { h with wait := b.wait, answers := b.answers }
  | none => h

/-- The hart's own wait and answers put back; the block keeps a wait and the answers while its word waits. -/
def Hart.leaveBlock (h old : Hart) (w : Option Wait) : Hart :=
  match h.blk with
  | some b =>
    { h with wait := old.wait, answers := old.answers,
             blk := some { b with wait := w, answers := if w.isSome then h.answers else [] } }
  | none => { h with wait := if w.isSome then w else old.wait }

/-- The block past its word and n further ones. -/
def Hart.past (h : Hart) (n : Nat) : Hart := { h with blk := h.blk.map fun b => { b with idx := b.idx + 1 + n } }

/-- Address of the word at which the block stands. -/
def Hart.wordAddr (h : Hart) : Word :=
  match h.blk with
  | some b => b.addr + BitVec.ofNat 64 (8 * b.idx)
  | none => 0

/-- A fault of a word: held until the hart's next boundary; the block is suspended (R207, R301). -/
def Hart.blockTrap (h : Hart) (t : Trap) (addr : Word) : Hart :=
  { h with blkFault := some { t with src := .block addr }, pending := h.pending ++ [8],
           blk := h.blk.map fun b => { b with suspended := true } }

/-- Run the action of a vector word under its FL (R104, R206, R207). -/
def State.vword (s : State) (fl : Fl) (act : M Unit) : State :=
  let old := s.me
  let back (s1 : State) (w : Option Wait) : State := { s1 with me := s1.me.leaveBlock old w }
  let done (s1 : State) : State := { s1 with me := s1.me.past 0 }
  let trap (s1 : State) (t : Trap) : State := { s1 with me := s1.me.blockTrap t old.wordAddr }
  if !old.runs fl then done s
  else
    match act { s with me := old.enterBlock } with
    | .ok _ s1 => done (back s1 none)
    | .error (.trap t) s1 => trap (back s1 none) t
    | .error (.after t) s1 => trap (done (back s1 none)) t
    | .error (.wait w) s1 => back s1 (some w)
    | .error .done s1 => s1

/-! ### The element-wise mould (R415) -/

/-- Elements from PIX.v up: f gives the code and the flags of element i from the hart as the word finds it. -/
def ewise (vd : Reg) (w : Nat) (m : BitVec 3) (f : Hart → Nat → Nat × Flags) : M Unit := do
  let s ← now
  let h := s.me
  let rs := (h.active m (h.pix vd) h.vlNow).map fun i => (i, f h i)
  let fl := rs.foldl (fun acc r => acc ||| r.2.2) (0 : Flags)
  change fun s =>
    { s with me := ((s.me.setElems s.vlen vd.val w (rs.map fun r => (r.1, r.2.1))).raise fl).setPix vd 0 }
  fpTrap fl

/-- A comparison into a mask: active bits are replaced, bits from VL up are 0 (R196, R415). -/
def maskWord (md : Reg) (m : BitVec 3) (f : Hart → Nat → Bool) : M Unit :=
  change fun s =>
    let h := s.me
    let n := h.vlNow
    let act := h.mask m
    let k := BitVec.ofNat 3 md.val
    let new := BitVec.ofNat 12288 (((h.active m 0 n).filter (f h)).foldl (fun acc i => acc + 2 ^ i) 0)
    { s with me := h.setMask s.vlen k (mergeMask n (h.mask k) act new) }

end Sys2Proof.Machine
end

