-- ==== Sys2Proof/Machine/VInt.lean ====
section
/-! DEFINITION. Vector integer words (R414 to R418), and the words that close and steer a block, VSTOP and VSKZ (R102,
R105, R205, R435). -/

namespace Sys2Proof.Machine

/-! ### VSTOP and VSKZ -/

/-- The next point of a loop nest in row-major order, innermost fastest (R205). -/
def nextPoint : List Level → List Nat → Option (List Nat)
  | l :: ls, i :: is =>
    match nextPoint ls is with
    | some js => some (i :: js)
    | none => if i + 1 < l.count then some ((i + 1) :: is.map fun _ => 0) else none
  | _, _ => none

/-- The end of an iteration: the next point from the first word, or no block. -/
def Block.nextIteration (b : Block) : Option Block :=
  (nextPoint b.levels b.index).map fun ix => { b with index := ix, idx := 0, wait := none, answers := [] }

/-- VSTOP (R102, R205). -/
def execVstop (s : State) : Host.Outcome State Fault Refusal :=
  .next { s with me := { s.me with blk := s.me.blk.bind Block.nextIteration } }

/-- VSKZ skips words while the top of a stack that is not empty has no active element (R105, R435). -/
def execVskz (n : BitVec 16) (fl : Fl) (s : State) : Host.Outcome State Fault Refusal :=
  .next { s with me := s.me.past (if s.me.runs fl && s.me.noneActive s.me.vlNow then n.toNat else 0) }

/-! ### Integer operations (R417)

An operation takes the width, whether the format is signed, and the codes of a and b. -/

abbrev IntOp := Nat → Bool → Nat → Nat → Nat × Flags

/-- A code read by the format. -/
def readInt (w : Nat) (signed : Bool) (c : Nat) : Int := if signed then (BitVec.ofNat w c).toInt else (c % 2 ^ w : Nat)

/-- An exact result reduced modulo 2^w. -/
def wrapOp (f : Int → Int → Int) : IntOp := fun w sg a b => (intCode w (f (readInt w sg a) (readInt w sg b)), 0)

/-- An exact result clamped to the range of the format, with OF. -/
def clampOp (f : Int → Int → Int) : IntOp := fun w sg a b =>
  let (x, fl) := clampInt sg w (f (readInt w sg a) (readInt w sg b))
  (intCode w x, fl)

/-- An operation on codes. -/
def codeOp (f : Nat → Nat → Nat) : IntOp := fun w _ a b => (f a b % 2 ^ w, 0)

def opMulh : IntOp := fun w sg a b => (intCode w ((readInt w sg a * readInt w sg b) / ((2 ^ w : Nat) : Int)), 0)
def opSll : IntOp := fun w _ a b => ((a <<< (b % w)) % 2 ^ w, 0)
def opSrl : IntOp := fun w _ a b => ((a % 2 ^ w) >>> (b % w), 0)
def opSra : IntOp := fun w _ a b => (((BitVec.ofNat w a).sshiftRight (b % w)).toNat, 0)

/-- The second operand of element i: a group, or the immediate cut to w bits (R416, R418). -/
def Hart.second (h : Hart) (vlen : Nat) (b : VSrc) (w i : Nat) : Nat :=
  match b with
  | .reg v => h.elem vlen v.val w i
  | .imm k => intCode w k.toInt

/-- The register fields of a second operand. -/
def srcRegs : VSrc → List Reg
  | .reg v => [v]
  | .imm _ => []

/-- An integer word: arith says that only formats 0 and 1 are taken (R417). The groups are judged before the fit (log entry 68). -/
def intWord (arith : Bool) (op : IntOp) (vd va : Reg) (b : VSrc) (q : VMod) (s : State) : State :=
  s.vword q.fl do
    let t ← wordType q.width
    needType q.width (!arith || decide (t.fmt ≤ 1))
    needGroups ([vd, va] ++ srcRegs b)
    needFit t.w
    let vlen := s.vlen
    ewise vd t.w q.msel fun h i => op t.w (t.fmt == 0) (h.elem vlen va.val t.w i) (h.second vlen b t.w i)

def execVadd (vd va : Reg) (b : VSrc) (q : VMod) (s : State) : Host.Outcome State Fault Refusal :=
  .next (intWord true (wrapOp (· + ·)) vd va b q s)
def execVsub (vd va : Reg) (b : VSrc) (q : VMod) (s : State) : Host.Outcome State Fault Refusal :=
  .next (intWord true (wrapOp (· - ·)) vd va b q s)
def execVadds (vd va : Reg) (b : VSrc) (q : VMod) (s : State) : Host.Outcome State Fault Refusal :=
  .next (intWord true (clampOp (· + ·)) vd va b q s)
def execVsubs (vd va : Reg) (b : VSrc) (q : VMod) (s : State) : Host.Outcome State Fault Refusal :=
  .next (intWord true (clampOp (· - ·)) vd va b q s)
def execVmul (vd va : Reg) (b : VSrc) (q : VMod) (s : State) : Host.Outcome State Fault Refusal :=
  .next (intWord true (wrapOp (· * ·)) vd va b q s)
def execVmulh (vd va : Reg) (b : VSrc) (q : VMod) (s : State) : Host.Outcome State Fault Refusal :=
  .next (intWord true opMulh vd va b q s)
def execVmin (vd va : Reg) (b : VSrc) (q : VMod) (s : State) : Host.Outcome State Fault Refusal :=
  .next (intWord true (wrapOp min) vd va b q s)
def execVmax (vd va : Reg) (b : VSrc) (q : VMod) (s : State) : Host.Outcome State Fault Refusal :=
  .next (intWord true (wrapOp max) vd va b q s)
def execVand (vd va : Reg) (b : VSrc) (q : VMod) (s : State) : Host.Outcome State Fault Refusal :=
  .next (intWord false (codeOp (· &&& ·)) vd va b q s)
def execVor (vd va : Reg) (b : VSrc) (q : VMod) (s : State) : Host.Outcome State Fault Refusal :=
  .next (intWord false (codeOp (· ||| ·)) vd va b q s)
def execVxor (vd va : Reg) (b : VSrc) (q : VMod) (s : State) : Host.Outcome State Fault Refusal :=
  .next (intWord false (codeOp (· ^^^ ·)) vd va b q s)
def execVsll (vd va : Reg) (b : VSrc) (q : VMod) (s : State) : Host.Outcome State Fault Refusal :=
  .next (intWord true opSll vd va b q s)
def execVsrl (vd va : Reg) (b : VSrc) (q : VMod) (s : State) : Host.Outcome State Fault Refusal :=
  .next (intWord true opSrl vd va b q s)
def execVsra (vd va : Reg) (b : VSrc) (q : VMod) (s : State) : Host.Outcome State Fault Refusal :=
  .next (intWord true opSra vd va b q s)

/-- Whether a condition of VCMP holds (R416). -/
def icondHolds (c : ICond) (a b : Int) : Bool :=
  match c with
  | .eq => a == b
  | .ne => a != b
  | .lt => decide (a < b)
  | .ge => decide (b ≤ a)
  | .le => decide (a ≤ b)
  | .gt => decide (b < a)

/-- VCMP (R417). -/
def execVcmp (c : ICond) (md va : Reg) (b : VSrc) (q : VMod) (s : State) : Host.Outcome State Fault Refusal :=
  .next (s.vword q.fl do
    let t ← wordType q.width
    needType q.width (decide (t.fmt ≤ 1))
    needGroups (va :: srcRegs b)
    needFit t.w
    let vlen := s.vlen
    let sg := t.fmt == 0
    maskWord md q.msel fun h i =>
      icondHolds c (readInt t.w sg (h.elem vlen va.val t.w i)) (readInt t.w sg (h.second vlen b t.w i)))

/-- VSEL: the selecting mask is read like msel (R417). -/
def execVsel (vd va : Reg) (b : VSrc) (ms : BitVec 3) (q : VMod) (s : State) : Host.Outcome State Fault Refusal :=
  .next (s.vword q.fl do
    let t ← wordType q.width
    needGroups ([vd, va] ++ srcRegs b)
    needFit t.w
    let vlen := s.vlen
    ewise vd t.w q.msel fun h i =>
      (if (h.mask ms).getLsbD i then h.elem vlen va.val t.w i else h.second vlen b t.w i, 0))

end Sys2Proof.Machine
end

