-- ==== Sys2Proof/Machine/VFp.lean ====
section
/-! DEFINITION. Vector floating-point words and VFCVT (R420 to R423, R42 to R47). -/

namespace Sys2Proof.Machine

/-! ### Operations: a result with its flags, rounded once into the format -/

abbrev FpOp := Fmt → Bool → RM → List Num → Nat × Flags

/-- Round an exact result with its flags into a format. -/
def roundWith (f : Fmt) (sat : Bool) (mode : RM) (x : Num × Flags) : Nat × Flags :=
  let (c, fl) := f.round sat mode x.1
  (c, x.2 ||| fl)

/-- Operands of an operation; a missing one reads as NaN, which no word uses. -/
def arg (xs : List Num) (k : Nat) : Num := xs.getD k .nan

def fpAdd : FpOp := fun f sat mode xs => roundWith f sat mode (Num.add mode (arg xs 0) (arg xs 1))
def fpSub : FpOp := fun f sat mode xs => roundWith f sat mode (Num.add mode (arg xs 0) (arg xs 1).neg)
def fpMul : FpOp := fun f sat mode xs => roundWith f sat mode ((arg xs 0).mul (arg xs 1))
def fpFma : FpOp := fun f sat mode xs => roundWith f sat mode (sumProducts mode [[arg xs 0, arg xs 1], [arg xs 2]])
def fpMin : FpOp := fun f sat mode xs => f.round sat mode (Num.minmax false (arg xs 0) (arg xs 1))
def fpMax : FpOp := fun f sat mode xs => f.round sat mode (Num.minmax true (arg xs 0) (arg xs 1))
def fpDiv : FpOp := fun f sat mode xs => divRound f sat mode (arg xs 0) (arg xs 1)
def fpSqrt : FpOp := fun f sat mode xs => sqrtRound f sat mode (arg xs 0)
def fpRsq : FpOp := fun f sat mode xs => rsqrtRound f sat mode (arg xs 0)
def fpExp2 : FpOp := fun f sat mode xs => exp2Round f sat mode (arg xs 0)

/-- The value of element i of a group. -/
def Hart.num (h : Hart) (vlen : Nat) (t : ETy) (n i : Nat) : Num := t.value (h.elem vlen n t.w i)

/-- The format of a floating type; f32 stands for the others, which no word of this group takes. -/
def ETy.fmtOf (t : ETy) : Fmt := t.float.getD fmtF32

/-- A floating-point word (R420). -/
def fpWord (op : FpOp) (vd : Reg) (srcs : List Reg) (rm : BitVec 3) (q : VMod) (s : State) : State :=
  s.vword q.fl do
    let t ← wordType q.width
    needType q.width (decide (4 ≤ t.fmt))
    needGroups (vd :: srcs)
    needFit t.w
    let vlen := s.vlen
    ewise vd t.w q.msel fun h i => op t.fmtOf t.sat (h.mode rm) (srcs.map fun r => h.num vlen t r.val i)

def execVfadd (vd va vb : Reg) (rm : BitVec 3) (q : VMod) (s : State) : Host.Outcome State Fault Refusal :=
  .next (fpWord fpAdd vd [va, vb] rm q s)
def execVfsub (vd va vb : Reg) (rm : BitVec 3) (q : VMod) (s : State) : Host.Outcome State Fault Refusal :=
  .next (fpWord fpSub vd [va, vb] rm q s)
def execVfmul (vd va vb : Reg) (rm : BitVec 3) (q : VMod) (s : State) : Host.Outcome State Fault Refusal :=
  .next (fpWord fpMul vd [va, vb] rm q s)
def execVfma (vd va vb vc : Reg) (rm : BitVec 3) (q : VMod) (s : State) : Host.Outcome State Fault Refusal :=
  .next (fpWord fpFma vd [va, vb, vc] rm q s)
def execVfmin (vd va vb : Reg) (rm : BitVec 3) (q : VMod) (s : State) : Host.Outcome State Fault Refusal :=
  .next (fpWord fpMin vd [va, vb] rm q s)
def execVfmax (vd va vb : Reg) (rm : BitVec 3) (q : VMod) (s : State) : Host.Outcome State Fault Refusal :=
  .next (fpWord fpMax vd [va, vb] rm q s)
def execVfdiv (vd va vb : Reg) (rm : BitVec 3) (q : VMod) (s : State) : Host.Outcome State Fault Refusal :=
  .next (fpWord fpDiv vd [va, vb] rm q s)
def execVfsqrt (vd va : Reg) (rm : BitVec 3) (q : VMod) (s : State) : Host.Outcome State Fault Refusal :=
  .next (fpWord fpSqrt vd [va] rm q s)
def execVfrsq (vd va : Reg) (rm : BitVec 3) (q : VMod) (s : State) : Host.Outcome State Fault Refusal :=
  .next (fpWord fpRsq vd [va] rm q s)
def execVfexp2 (vd va : Reg) (rm : BitVec 3) (q : VMod) (s : State) : Host.Outcome State Fault Refusal :=
  .next (fpWord fpExp2 vd [va] rm q s)

/-! ### VFCMP (R420) -/

/-- Whether a condition holds; only UN holds of a NaN. -/
def fcondHolds (c : FCond) (a b : Num) : Bool :=
  if a.isNan || b.isNan then c == .un
  else
    let o := a.cmp b
    match c with
    | .eq => o == .eq
    | .ne => o != .eq
    | .lt => o == .lt
    | .le => o != .gt
    | .gt => o == .gt
    | .ge => o != .lt
    | .un => false

/-- VFCMP; it raises no flag. -/
def execVfcmp (c : FCond) (md va vb : Reg) (_rm : BitVec 3) (q : VMod) (s : State) : Host.Outcome State Fault Refusal :=
  .next (s.vword q.fl do
    let t ← wordType q.width
    needType q.width (decide (4 ≤ t.fmt))
    needGroups [va, vb]
    needFit t.w
    let vlen := s.vlen
    maskWord md q.msel fun h i => fcondHolds c (h.num vlen t va.val i) (h.num vlen t vb.val i))

/-! ### VFCVT (R422, R423) -/

/-- The immediate of VFCVT as R422 lays it out. -/
def cvtImm (w : BitVec 3) (f : BitVec 5) (k : BitVec 4) : BitVec 16 := w ++ f ++ 0#4 ++ k

/-- The destination type: INF and SAT come from VTYPE (R423). -/
def cvtType (vt : Word) (p w : BitVec 3) (f : BitVec 5) : ETy :=
  { fmt := f.toNat, w := 2 ^ w.toNat, p := p.toNat, infOn := vtInf vt, sat := vtSat vt }

/-- Convert a code of type a to type d, with the scale of its element if it has one (R423); the product of a scaled integer is
rounded as a float (log entry 62). -/
def convert (a d : ETy) (mode : RM) (c : Nat) (scale : Option Num) : Nat × Flags :=
  match scale with
  | some k =>
    let (x, fl) := (a.value c).mul k
    let (r, fl') := d.round mode x
    (r, fl ||| fl')
  | none => if a.isInt then d.ofIntSource mode (a.int c) else d.round mode (a.value c)

/-- VFCVT. -/
def execVfcvt (vd va : Reg) (rm : BitVec 3) (p w : BitVec 3) (f : BitVec 5) (k : BitVec 4) (q : VMod) (s : State) :
    Host.Outcome State Fault Refusal :=
  .next (s.vword q.fl do
    let a ← wordType q.width
    let d := cvtType s.me.vt p w f
    let imm := cvtImm w f k
    let n := s.me.vlNow
    let g := groupOf s.me.vt
    need (typeOk d.fmt w.toNat d.p) (vtypeTrap (imm.zeroExtend 64))
    need (decide (n * d.w ≤ 8 * g * s.vlen)) (vtypeTrap (BitVec.ofNat 64 n))
    need (a.w == d.w || decide (vd.val + g ≤ va.val) || decide (va.val + g ≤ vd.val))
      (vtypeTrap (BitVec.ofNat 64 vd.val))
    needGroups [va, vd]
    needFit a.w
    let vlen := s.vlen
    let scale := s.me.scaleFor vlen k
    needScales imm [(k, s.me.active q.msel (s.me.pix vd) n)]
    ewise vd d.w q.msel fun h i => convert a d (h.mode rm) (h.elem vlen va.val a.w i) (scale.map fun f => f i))

end Sys2Proof.Machine
end

