-- ==== Sys2Proof/Machine/VMem.lean ====
section
/-! DEFINITION. Vector memory words: VLD, VST, VLDX and VSTX (R151, R425 to R429). -/

namespace Sys2Proof.Machine

/-! ### Checks of addresses (R427, R428) -/

/-- The window trap of a span of n bytes in words of w bits; wr says that it stores (R133, R136, R137). -/
def spanFault (va : Word) (n w : Nat) (wr : Bool) : Option Trap :=
  if !isWindow va then straddle va n
  else
    let last := va + BitVec.ofNat 64 (n - 1)
    let code := towerOf va
    if code ≥ 5 then some (.window 2 va n)
    else if !isWindow last || towerOf last != code then some (.window 1 va n)
    else if code = 3 || (code = 4 && (wr || w != 64)) then some (.window 4 va n)
    else if code = 4 && (bits va 32 11 != 0 || bits va 0 3 != 0 || bits last 32 11 != 0) then some (.window 5 va n)
    else none

/-- The first address of a list that lies in another device or on a pool page. -/
def State.farOf (s : State) (vas : List Word) : Option Word := vas.find? fun va => s.hintScope va == .fabric

/-- The scope of the acquire or release of a word with these addresses (R429). -/
def State.spanScope (s : State) (vas : List Word) : Scope := if (s.farOf vas).isSome then .fabric else .package

/-- In a world a store to another device or the pool escapes before anything is stored (R259, R427). -/
def needHome (vas : List Word) (n : Nat) : M Unit := fun s =>
  match if s.team.world = 0 then none else s.farOf vas with
  | some va => .error (.trap (.sized cWORLD_ESCAPE va n)) s
  | none => .ok () s

/-- Pages that a span touches. -/
def spanPages (va : Word) (n : Nat) : List Word := (piecesOf va (n / 65536 + 2) n).map (·.1)

/-- The n indices from k up, cut into the groups that end at a multiple of 64 (R426). -/
def groupsFrom (k n : Nat) : List (Nat × Nat) :=
  (List.range (n / 64 + 1)).filterMap fun g =>
    let lo := max k (64 * g)
    let hi := min n (64 * g + 64)
    if lo < hi then some (lo, hi) else none

/-- Progress to element n of the word that writes or stores vd. -/
def progress (vd : Reg) (n : Nat) : M Unit := change fun s => { s with me := s.me.setPix vd n }

/-- The acquire of a word with an acquire hint, after its last element (R429). -/
def acquireSpan (h : Hint) (vas : List Word) : M Unit := do
  if h == .sync then
    let s ← now
    invalidate (s.spanScope vas)

/-- The release of a word with a release hint, before its first element (R429): not again where it goes on. -/
def releaseSpan (h : Hint) (vd : Reg) (vas : List Word) : M Unit := do
  let s ← now
  if h == .sync && s.me.pix vd == 0 && s.me.partsMade == 0 then releaseHeld (s.spanScope vas)

/-- The number of the word whose parts the block stores: a new one where the word starts, its own where it goes on (R150). -/
def storeWord (vd : Reg) : M Nat := fun s =>
  match s.me.wait, s.me.blk with
  | some (.parts _ no _), _ => .ok no s
  | _, some b =>
    if s.me.pix vd = 0 then .ok s.nextSide { s with me := { s.me with blk := some { b with word := s.nextSide } } }
    else .ok b.word s
  | _, none => .ok s.nextSide s

/-! ### Loads of elements -/

/-- Element of w bits at bit b above va: the byte or bytes that hold it, each as LD. -/
def loadElem (h : Hint) (stream : Nat) (va : Word) (w i : Nat) : M Nat := do
  let a := va + BitVec.ofNat 64 (i * w / 8)
  let bs ← loadCore h stream a (max 1 (w / 8))
  return leVal bs >>> (i * w % 8) % 2 ^ w

/-- VLD (R426, R427). -/
def execVld (vd : Reg) (a : BitVec 2) (o : BitVec 16) (t : BitVec 3) (h : Hint) (q : VMod) (s : State) :
    Host.Outcome State Fault Refusal :=
  .next (s.vword q.fl do
    let ty ← wordType q.width
    needGroups [vd]
    needFit ty.w
    let w := ty.w
    let va := s.me.base a + sext16 o
    need (aligned va (min (max 1 (w / 8)) 8)) (.trap (.sized cMISALIGN va (max 1 (w / 8))))
    let n := s.me.vlNow
    let span := (n * w + 7) / 8
    if n ≠ 0 then trapIf (spanFault va span w false)
    let act := s.me.active q.msel (s.me.pix vd) n
    (groupsFrom (s.me.pix vd) n).forM fun (lo, hi) => do
      let es := act.filter fun i => decide (lo ≤ i ∧ i < hi)
      let xs ← es.mapM fun i => do
        let x ← loadElem h t.toNat va w i
        return (i, x)
      change fun s => { s with me := s.me.setElems s.vlen vd.val w xs }
      progress vd hi
    acquireSpan h (spanPages va span)
    progress vd 0)

/-! ### Stores of elements -/

/-- One byte of a store: its address, its value, and the mask of its bits that change when not all do. -/
structure StByte where
  va : Word
  byte : Byte
  mask : Option Byte
  deriving DecidableEq, Repr

/-- The parts of some bytes by 64-byte line, the lines in the order in which the bytes touch them (R150). -/
def storeLines (bs : List StByte) : List Part :=
  ((bs.map fun b => b.va &&& ~~~63#64).eraseDups).map fun l =>
    let mine := (bs.filter fun b => b.va &&& ~~~63#64 == l).map fun b => ((b.va - l).toNat, b)
    { va := l, bytes := mine.map fun x => (x.1, x.2.byte), masks := mine.filterMap fun x => x.2.mask.map fun m => (x.1, m) }

/-- The bytes of an element of at least 8 bits. -/
def elemBytes (va : Word) (w v : Nat) : List StByte :=
  (leBytes (w / 8) v).zipIdx.map fun (b, i) => { va := va + BitVec.ofNat 64 i, byte := b, mask := none }

/-- The bytes of active elements of a VST: whole elements, or bytes with the bits of active elements below 8 bits. -/
def vstBytes (va : Word) (w : Nat) (xs : List (Nat × Nat)) : List StByte :=
  if 8 ≤ w then xs.flatMap fun (i, v) => elemBytes (va + BitVec.ofNat 64 (i * w / 8)) w v
  else
    ((xs.map fun x => x.1 * w / 8).eraseDups).map fun b =>
      let mine := xs.filter fun x => x.1 * w / 8 == b
      let m := mine.foldl (fun acc x => acc + (2 ^ w - 1) * 2 ^ (x.1 * w % 8)) 0
      let v := mine.foldl (fun acc x => acc + x.2 * 2 ^ (x.1 * w % 8)) 0
      { va := va + BitVec.ofNat 64 b, byte := BitVec.ofNat 8 v, mask := if m = 255 then none else some (BitVec.ofNat 8 m) }

/-- The 128-bit segments that a whole VST has covered hold no error, though groups of its elements share them (R297). -/
def State.clearCovered (s : State) (stream : Nat) (w : Nat) (va : Word) (act : List Nat) : State :=
  if s.ue.isEmpty && s.verUe.isEmpty then s
  else
    let bytes := (act.map fun i => (va.toNat * 8 + i * w)).flatMap fun b => (List.range (max 1 (w / 8))).map fun j => (b / 8 + j, b % 8)
    let full (b : Nat) : Bool := if 8 ≤ w then bytes.contains (b, 0) else (List.range (8 / w)).all fun j => bytes.contains (b, j * w)
    let segs := ((bytes.map fun b => b.1 / 16).eraseDups).filter fun g => (List.range 16).all fun i => full (g * 16 + i)
    segs.foldl (fun s g =>
      let a := BitVec.ofNat 64 (g * 16)
      if s.streamHeld stream || s.byteHeld a 16 then s
      else if isWindow a then s.clearKeys (((List.range 16).map fun i => s.scratchKey s.team (a + BitVec.ofNat 64 i)).filterMap id)
      else
        match s.xlate s.team.asid .store a with
        | .at_ k _ _ | .record k | .remote k => s.clearSegs s.team.world k 16
        | _ => s) s

/-- VST (R426, R427). -/
def execVst (vd : Reg) (a : BitVec 2) (o : BitVec 16) (t : BitVec 3) (h : Hint) (q : VMod) (s : State) :
    Host.Outcome State Fault Refusal :=
  .next (s.vword q.fl do
    let ty ← wordType q.width
    needGroups [vd]
    needFit ty.w
    let w := ty.w
    let va := s.me.base a + sext16 o
    need (aligned va (min (max 1 (w / 8)) 8)) (.trap (.sized cMISALIGN va (max 1 (w / 8))))
    let n := s.me.vlNow
    let span := (n * w + 7) / 8
    if n ≠ 0 then
      trapIf (spanFault va span w true)
      needHome (spanPages va span) span
    releaseSpan h vd (spanPages va span)
    let no ← storeWord vd
    let act := s.me.active q.msel (s.me.pix vd) n
    (groupsFrom (s.me.pix vd) n).forM fun (lo, hi) => do
      let es := act.filter fun i => decide (lo ≤ i ∧ i < hi)
      storeParts { stream := t.toNat, size := max 1 (w / 8), scatter := false, rel := h == .sync } no
        (storeLines (vstBytes va w (es.map fun i => (i, s.me.elem s.vlen vd.val w i))))
      progress vd hi
    change fun s => s.clearCovered t.toNat w va (s.me.active q.msel 0 n)
    progress vd 0)

/-! ### Indexed words (R428) -/

/-- The addresses of active elements: index i is n32 or n64, in units of the element. -/
def Hart.addrs (h : Hart) (vlen : Nat) (a : BitVec 2) (vb : Reg) (x64 : Bool) (w : Nat) (es : List Nat) :
    List (Nat × Word) :=
  es.map fun i =>
    (i, h.base a + BitVec.ofNat 64 (h.elem vlen vb.val (if x64 then 64 else 32) i * (w / 8)))

/-- The trap of one element's address, if it has one: alignment, window, an unrouted node (R428). -/
def State.addrFault (s : State) (w : Nat) (wr : Bool) (va : Word) : Option Trap :=
  let n := w / 8
  if !aligned va (min n 8) then some (.sized cMISALIGN va n)
  else
    match spanFault va n w wr with
    | some t => some t
    | none =>
      if !isWindow va && !isOwn va && (s.routes.find? (·.1 == nodeOf va)).isNone then some (.sized cPROTECT va n)
      else if wr && s.team.world != 0 && s.hintScope va == .fabric then some (.sized cWORLD_ESCAPE va n)
      else none

/-- The checks that VLDX and VSTX make of every active element before any access. -/
def needAddrs (w : Nat) (wr : Bool) (xs : List (Nat × Word)) : M Unit := fun s =>
  match xs.findSome? fun x => s.addrFault w wr x.2 with
  | some t => .error (.trap t) s
  | none => .ok () s

/-- The checks of an indexed word before its addresses. -/
def indexedType (vd vb : Reg) (x64 : Bool) (q : VMod) : M ETy := do
  let ty ← wordType q.width
  needType q.width (decide (8 ≤ ty.w))
  let s ← now
  need (decide (s.me.vlNow * (if x64 then 8 else 4) ≤ groupOf s.me.vt * s.vlen))
    (vtypeTrap (BitVec.ofNat 64 s.me.vlNow))
  needGroups [vd, vb]
  needFit ty.w
  return ty

/-- Whether an element's page has no translation (R151). -/
def State.pageMissing (s : State) (va : Word) : Bool :=
  !isWindow va && isOwn va && s.xlate s.team.asid .load va == .missing

/-- Post a request for each distinct missing page at once, and wait for them (R151, R152). -/
def gatherHold (pages : List Word) : M Unit := fun s =>
  match pages with
  | [] => .ok () s
  | page :: _ =>
    let (tags, s1) := pages.foldl (fun (acc : List (Nat × Word) × State) va =>
      let (tags, s) := acc
      let t := towerOf va
      match (s.pctlAt t).reqs.find? fun r => r.page == va && r.asid == s.team.asid with
      | some r =>
        if ((s.me.wait.map Wait.tags).getD []).contains (t, r.tag) then (tags ++ [(t, r.tag)], s)
        else (tags ++ [(t, r.tag)], (s.postPage s.team.asid .load va).2)
      | none =>
        let p := s.postPage s.team.asid .load va
        (tags ++ (p.1.map fun g => (t, g)).toList, p.2)) ([], s)
    .error (.wait (if tags.isEmpty then .full (towerOf page) else .pages tags)) s1

/-- The 2,048-byte fault record of a gather of n elements whose elements es were refused, with their pages (R151). -/
def gatherRecord (n : Nat) (es : List Nat) (pages : List Word) : List Byte :=
  let first := es.headD 0 / 8 * 8
  let large := decide (pages.length > 156)
  let more := es.any fun i => decide (first + 6144 ≤ i)
  let mask := (es.filter fun i => decide (i < first + 6144)).foldl (fun acc i => acc + 2 ^ (i - first)) 0
  let sorted := pages.mergeSort fun a b => decide (a.toNat ≤ b.toNat)
  leBytes 4 pages.length ++ leBytes 4 ((if large then 1 else 0) + (if more then 2 else 0)) ++ leBytes 4 n
    ++ leBytes 4 first ++ leBytes 16 0 ++ leBytes 768 mask
    ++ ((List.range 156).flatMap fun k => leBytes 8 ((sorted[k]?).map (·.toNat) |>.getD 0))

/-- VLDX. -/
def execVldx (vd : Reg) (a : BitVec 2) (vb : Reg) (t : BitVec 3) (h : Hint) (x64 : Bool) (q : VMod) (s : State) :
    Host.Outcome State Fault Refusal :=
  .next (s.vword q.fl do
    let ty ← indexedType vd vb x64 q
    let w := ty.w
    let n := s.me.vlNow
    let xs := s.me.addrs s.vlen a vb x64 w (s.me.active q.msel (s.me.pix vd) n)
    needAddrs w false xs
    let s0 ← now
    let missing := xs.filter fun x => s0.pageMissing x.2
    let open_ := (missing.filter fun x => (s0.me.answerFor x.2).isNone).map fun x => pageOf x.2
    gatherHold open_.eraseDups
    let load (ys : List (Nat × Word)) : M Unit := do
      let vs ← ys.mapM fun (i, va) => do
        let bs ← loadCore h t.toNat va (w / 8)
        return (i, leVal bs)
      change fun s => { s with me := s.me.setElems s.vlen vd.val w vs }
    match missing with
    | (_, va) :: _ =>
      load (xs.filter fun x => !s0.pageMissing x.2)
      progress vd 0
      stop (.trap { Trap.sized cPAGE_GATHER va (w / 8) with
        more := gatherRecord n (missing.map (·.1)) (missing.map fun x => pageOf x.2).eraseDups })
    | [] =>
      (groupsFrom (s.me.pix vd) n).forM fun (lo, hi) => do
        load (xs.filter fun x => decide (lo ≤ x.1 ∧ x.1 < hi))
        progress vd hi
      acquireSpan h (xs.map (·.2))
      progress vd 0)

/-- VSTX. -/
def execVstx (vd : Reg) (a : BitVec 2) (vb : Reg) (t : BitVec 3) (h : Hint) (x64 : Bool) (q : VMod) (s : State) :
    Host.Outcome State Fault Refusal :=
  .next (s.vword q.fl do
    let ty ← indexedType vd vb x64 q
    let w := ty.w
    let n := s.me.vlNow
    let xs := s.me.addrs s.vlen a vb x64 w (s.me.active q.msel (s.me.pix vd) n)
    needAddrs w true xs
    releaseSpan h vd (xs.map (·.2))
    let no ← storeWord vd
    (groupsFrom (s.me.pix vd) n).forM fun (lo, hi) => do
      let ys := xs.filter fun x => decide (lo ≤ x.1 ∧ x.1 < hi)
      storeParts { stream := t.toNat, size := w / 8, scatter := true, rel := h == .sync } no
        (storeLines (ys.flatMap fun (i, va) => elemBytes va w (s.me.elem s.vlen vd.val w i)))
      progress vd hi
    progress vd 0)

end Sys2Proof.Machine
end

