-- ==== Sys2Proof/Machine/Tile.lean ====
section
/-! DEFINITION. Tiles: touches (R85, R211), the slice moves (R212, R406, R407), outer products (R213 to R216, R381 to R383)
and the rows of the unfolding unit (R217, R218). -/

namespace Sys2Proof.Machine

/-! ### Tiles of a hart (R51, R208, R209) -/

/-- Tiles that a hart of a team names. -/
def tilesOf (size : Nat) : Nat := 8 / hartsOf size

/-- The physical tile of a name of the focused hart. -/
def State.physTile (s : State) (t : BitVec 3) : Nat := (s.me.idx * tilesOf s.team.size + t.toNat) % 8

/-- The TSHAPE slot of a physical tile. -/
def State.slotOf (s : State) (p : Nat) : BitVec 16 := s.team.tshape[p % 8]'(Nat.mod_lt _ (by decide))
def shapeSet (x : BitVec 16) : Bool := x.getLsbD 9
def shapeInt (x : BitVec 16) : Bool := x.getLsbD 8
def shapeRows (x : BitVec 16) : Nat := (bits x 0 4).toNat + 1
def shapeCols (x : BitVec 16) : Nat := (bits x 4 4).toNat + 1

def State.tileAt (s : State) (p : Nat) : Tile := (s.coreAt s.team.core).tiles[p % 8]'(Nat.mod_lt _ (by decide))
def State.setTile (s : State) (p : Nat) (t : Tile) : State :=
  let c := s.coreAt s.team.core
  s.setCore s.team.core { c with tiles := c.tiles.set (p % 8) t (Nat.mod_lt _ (by decide)) }

/-- A touch: another team's contents are saved, and the team's own come back from its slot (R85, R211). -/
def State.touch (s : State) (p : Nat) : State :=
  let mine := (s.tileAt p).owner == some s.team.no
  let s1 := if mine then s else s.vacateTile s.team.core p
  let s2 := if mine then s1 else s1.setTile p { s1.tileAt p with owner := some s.team.no, dirty := false }
  if s2.team.inSlot[p % 8]'(Nat.mod_lt _ (by decide)) then
    let s3 := s2.setTile p { data := s2.team.slots[p % 8]'(Nat.mod_lt _ (by decide)), owner := some s.team.no, dirty := false }
    { s3 with team := { s3.team with inSlot := s3.team.inSlot.set (p % 8) false (Nat.mod_lt _ (by decide)) } }
  else s2

/-- Element (r, c) of a tile. -/
def tileElem (d : BitVec 8192) (r c : Nat) : Nat := ((d >>> ((16 * r + c) * 32)).toNat) % 2 ^ 32
def tilePut (d : BitVec 8192) (r c v : Nat) : BitVec 8192 := putField d ((16 * r + c) * 32) 32 v

/-- Write elements of a tile, which is then dirty. -/
def State.writeTile (s : State) (p : Nat) (xs : List (Nat × Nat × Nat)) : State :=
  let t := s.tileAt p
  s.setTile p { t with data := xs.foldl (fun d x => tilePut d x.1 x.2.1 x.2.2) t.data, dirty := true }

/-- PIX.t of a tile name (R206). -/
def Hart.pixOf (h : Hart) (t : BitVec 3) : Nat := (h.pixT[t.toNat]'t.isLt).toNat
def Hart.setPixT (h : Hart) (t : BitVec 3) (n : Nat) : Hart := { h with pixT := h.pixT.set t.toNat (BitVec.ofNat 16 n) t.isLt }
def tileProgressTo (t : BitVec 3) (n : Nat) : M Unit := change fun s => { s with me := s.me.setPixT t n }

/-- The shape of a tile that a word names, or TILE_UNCONFIG. -/
def needTile (t : BitVec 3) : M (Nat × BitVec 16) := fun s =>
  let p := s.physTile t
  if shapeSet (s.slotOf p) then .ok (p, s.slotOf p) s
  else .error (.trap (.of cTILE_UNCONFIG (t.zeroExtend 64))) s

/-! ### Slice moves (R212) -/

/-- TZERO. -/
def execTzero (t : BitVec 3) (fl : Fl) (s : State) : Host.Outcome State Fault Refusal :=
  .next (s.vword fl do
    let (p, shape) ← needTile t
    change fun s => s.touch p
    let rows := (List.range (shapeRows shape)).drop (s.me.pixOf t)
    change fun s => s.writeTile p (rows.flatMap fun r => (List.range (shapeCols shape)).map fun c => (r, c, 0))
    tileProgressTo t 0)

/-- The index of a slice move (R212, R407). -/
def Hart.sliceIndex (h : Hart) (i : BitVec 4) (ix : Bool) : Nat := i.toNat + if ix then h.inner else 0

/-- The checks of a slice move and its touch: the physical tile, the index and the length of the slice. -/
def sliceOf (t : BitVec 3) (i : BitVec 4) (ix row : Bool) : M (Nat × Nat × Nat) := do
  let (p, shape) ← needTile t
  let s ← now
  let k := s.me.sliceIndex i ix
  need (decide (k < if row then shapeRows shape else shapeCols shape)) (vtypeTrap (BitVec.ofNat 64 k))
  change fun s => s.touch p
  return (p, k, if row then shapeCols shape else shapeRows shape)

/-- A register into a row or a column. -/
def sliceIn (t : BitVec 3) (v : Reg) (i : BitVec 4) (ix row : Bool) (m : BitVec 3) : M Unit := do
  let (p, k, n) ← sliceOf t i ix row
  change fun s => s.writeTile p ((s.me.active m 0 n).map fun j =>
    (if row then k else j, if row then j else k, s.me.elem s.vlen v.val 32 j))

/-- A row or a column into a register. -/
def sliceOut (v : Reg) (t : BitVec 3) (i : BitVec 4) (ix row : Bool) (m : BitVec 3) : M Unit := do
  let (p, k, n) ← sliceOf t i ix row
  change fun s =>
    let d := (s.tileAt p).data
    { s with me := s.me.setElems s.vlen v.val 32 ((s.me.active m 0 n).map fun j =>
        (j, if row then tileElem d k j else tileElem d j k)) }

def execTroww (t : BitVec 3) (v : Reg) (i : BitVec 4) (ix : Bool) (m : BitVec 3) (fl : Fl) (s : State) :
    Host.Outcome State Fault Refusal :=
  .next (s.vword fl (sliceIn t v i ix true m))
def execTrowr (v : Reg) (t : BitVec 3) (i : BitVec 4) (ix : Bool) (m : BitVec 3) (fl : Fl) (s : State) :
    Host.Outcome State Fault Refusal :=
  .next (s.vword fl (sliceOut v t i ix true m))
def execTcolw (t : BitVec 3) (v : Reg) (i : BitVec 4) (ix : Bool) (m : BitVec 3) (fl : Fl) (s : State) :
    Host.Outcome State Fault Refusal :=
  .next (s.vword fl (sliceIn t v i ix false m))
def execTcolr (v : Reg) (t : BitVec 3) (i : BitVec 4) (ix : Bool) (m : BitVec 3) (fl : Fl) (s : State) :
    Host.Outcome State Fault Refusal :=
  .next (s.vword fl (sliceOut v t i ix false m))

/-! ### The unfolding unit (R217, R218) -/

/-- Where element n of the patch of position p lies, in bits above BASE, and none where the element is zero. -/
def Unfold.place (u : Unfold) (w p n : Nat) : Option Nat :=
  let c := n % u.c
  let kw := n / u.c % u.kw
  let kh := n / u.c / u.kw
  let y : Int := ((p / u.ow * u.sh + kh * u.dh : Nat) : Int) - u.pt
  let x : Int := ((p % u.ow * u.sw + kw * u.dw : Nat) : Int) - u.pl
  if u.oh * u.ow ≤ p ∨ u.kh * u.kw * u.c ≤ n ∨ y < 0 ∨ (u.h : Int) ≤ y ∨ x < 0 ∨ (u.w : Int) ≤ x then none
  else some (((y.toNat * u.w + x.toNat) * u.c + c) * w)

/-- UnfoldRow(i): the codes of the e elements of a row; a2 gives the position and the chunk. An element that is zero
without a read is the code 0 (log entry 25); the reads are of stream s0 (log entry 80). -/
def unfoldRow (u : Unfold) (a2 : Word) (w e i : Nat) : M (List Nat) :=
  let p := (bits a2 16 32).toNat + i
  let k := (bits a2 0 16).toNat
  (List.range e).mapM fun j =>
    match u.place w p (k * e + j) with
    | none => pure 0
    | some b => do
      let bs ← loadBytes 0 (u.base + BitVec.ofNat 64 (b / 8)) (max 1 (w / 8))
      return leVal bs >>> (b % 8) % 2 ^ w

/-! ### Outer products (R213 to R216) -/

/-- The matrix words of a window in a mode (R310). -/
def modeQuota (mode : Nat) : Nat :=
  match mode with
  | 0 => 179
  | 1 => 102
  | _ => 256

/-- The matrix words that a core may issue in its window of 1,024 cycles: the quota of the mode, or of an earlier one whose fall
this window does not feel yet, halved by heat (R309, R310, R314). -/
def State.matrixQuota (s : State) (core : Nat) : Nat :=
  let q := max (modeQuota s.mode) (s.coreAt core).cap
  if (s.towerAt (towerOfCore core)).step = 0 then q else q / 2

/-- Take one matrix word of the core's quota, or wait for the next window. A word that has waited for something else, or goes on at a
later row or pair, has its place already. -/
def takeQuota (t : BitVec 3) : M Unit := fun s =>
  let core := s.team.core
  let c := s.coreAt core
  if s.me.pixOf t ≠ 0 then .ok () s
  else match s.me.wait with
  | none | some .quota =>
    if c.matrix < s.matrixQuota core then .ok () (s.setCore core { c with matrix := c.matrix + 1 })
    else .error (.wait .quota) s
  | some _ => .ok () s

/-- One operand of a product: codes of a row with the factors that each contributes. -/
def rowFactors (t : ETy) (scale : Option (Nat → Num)) (e row : Nat) (cs : List Nat) : List (List Num) :=
  cs.zipIdx.map fun (c, k) =>
    t.value c :: (match scale with
      | some f => [f (row * e + k)]
      | none => [])

/-- One output element: the accumulator and the flags (R48, R49). -/
def outer (t : ETy) (int : Bool) (mode : RM) (old : Nat) (a b : List (List Num)) (ai bi : List Nat) : Nat × Flags :=
  if int then dotI32 old ((ai.map t.int).zip (bi.map t.int))
  else dotF32 mode (256 / t.w) old ((a.zip b).map fun (x, y) => x ++ y)

/-- The elements of some rows of e elements that begin a scale block, and the first of each row: those whose scale indices
the rows read. -/
def scaleReads (e b : Nat) (rows : List Nat) : List Nat :=
  rows.flatMap fun r => (r * e) :: ((List.range e).map (r * e + ·)).filter fun i => i % b == 0

/-- The checks of a3 (R216), made before the first row (log entry 69). -/
def needSignal (a3 : Word) : M Unit := do
  needAligned a3 8
  trapIf (if isWindow a3 then windowFault a3 8 false else none)

/-- Post the operands-consumed signal at a3 (R216): one added at tower scope. -/
def consumed (a3 : Word) : M Unit :=
  discard (atomic a3 8 false false false (0x01#5, 8, 1, 0) fun old => some ((old + 1) % 2 ^ 64))

/-- One row of products: the tile's contents and the flags after row tr has taken the products of a row of A. -/
def outerRow (ty : ETy) (int : Bool) (mode : RM) (bs : List (List (List Num) × List Nat)) (tr : Nat) (a : List (List Num))
    (ai : List Nat) (acc : BitVec 8192 × Flags) : BitVec 8192 × Flags :=
  bs.zipIdx.foldl (fun acc ((b, bi), j) =>
    let (v, f) := outer ty int mode (tileElem acc.1 tr j) a b ai bi
    (tilePut acc.1 tr j v, acc.2 ||| f)) acc

/-- The contents of a tile after n rows or pairs of a word, with their flags and PIX.t (R213, R214). -/
def State.outerDone (s : State) (t : BitVec 3) (p n : Nat) (acc : BitVec 8192 × Flags) : State :=
  let s1 := s.setTile p { s.tileAt p with data := acc.1, dirty := true }
  { s1 with me := (s1.me.setPixT t n).raise acc.2 }

/-- The rows of a word from the list on, n of them done before: each is read, by the unfolding unit or from the register,
and written whole. A trap of a read leaves the rows before it written and counted; a wait leaves the word where it was. -/
def outerRows (t : BitVec 3) (p : Nat) (read : Nat → M (List Nat)) (signal : M Unit)
    (row : Nat → Nat → List Nat → BitVec 8192 × Flags → BitVec 8192 × Flags) :
    Nat → List (Nat × Nat) → BitVec 8192 × Flags → M (BitVec 8192 × Flags)
  | _, [], acc => pure acc
  | n, (r, tr) :: rest, acc => fun s =>
    let step : M (List Nat) := do
      let cs ← read r
      if rest.isEmpty then signal
      return cs
    match step s with
    | .ok cs s1 => outerRows t p read signal row (n + 1) rest (row r tr cs acc) s1
    | .error (.trap x) s1 => .error (.trap x) (s1.outerDone t p n acc)
    | .error e s1 => .error e s1

/-- OPA and OPAG after the list of pairs is known: pairs of an A row and a tile row, from PIX.t on (R213 to R216). -/
def outerWord (t : BitVec 3) (va vb : Reg) (rm : BitVec 3) (unf : Option Unfold) (cs : Bool) (imm : BitVec 16) (p : Nat)
    (shape : BitVec 16) (ty : ETy) (pairs : List (Nat × Nat)) : M Unit := do
  let e := 3072 / ty.w
  let cols := shapeCols shape
  let s ← now
  let h := s.me
  let fa := bits imm 0 4
  let fb := bits imm 4 4
  needScales imm [(fa, scaleReads e (blockOf h.vt) (pairs.map (·.1))), (fb, scaleReads e (blockOf h.vt) (List.range cols))]
  if cs then needSignal (h.base 3)
  takeQuota t
  let rowOf (r : Reg) (i : Nat) : List Nat := (List.range e).map fun k => h.elem s.vlen r.val ty.w (i * e + k)
  let bs := (List.range cols).map fun j =>
    let cs := rowOf vb j
    (rowFactors ty (h.scaleFor s.vlen fb) e j cs, cs)
  let read (r : Nat) : M (List Nat) :=
    match unf with
    | some u => unfoldRow u (h.base 2) ty.w e r
    | none => pure (rowOf va r)
  let row (r tr : Nat) (cs : List Nat) (acc : BitVec 8192 × Flags) : BitVec 8192 × Flags :=
    outerRow ty (shapeInt shape) (h.mode rm) bs tr (rowFactors ty (h.scaleFor s.vlen fa) e r cs) cs acc
  change fun s => s.touch p
  let s ← now
  let n := h.pixOf t
  let acc ← outerRows t p read (if cs then consumed (h.base 3) else pure ()) row n (pairs.drop n) ((s.tileAt p).data, 0)
  change fun s => s.outerDone t p 0 acc
  fpTrap acc.2

/-- The checks that OPA and OPAG share (R215). -/
def outerChecks (t : BitVec 3) (va vb : Reg) (groups : List Reg) (u : Bool) :
    M (Nat × BitVec 16 × ETy × Option Unfold) := do
  let (p, shape) ← needTile t
  let s ← now
  need (!u || s.me.unf.isSome) (.trap (.of cENGINE 0))
  let ty ← wordType 0
  needGroups groups
  let vt := s.me.vt
  let g := groupOf vt * s.vlen
  need (decide (ty.w < 32)) (vtypeTrap vt)
  need (!shapeInt shape || (decide (ty.fmt ≤ 3) && vtSb vt == 0)) (vtypeTrap vt)
  need (u || decide (shapeRows shape * 384 ≤ g)) (vtypeTrap (BitVec.ofNat 64 va.val))
  need (decide (shapeCols shape * 384 ≤ g)) (vtypeTrap (BitVec.ofNat 64 vb.val))
  return (p, shape, ty, if u then s.me.unf else none)

/-- OPA. -/
def execOpa (t : BitVec 3) (va vb : Reg) (rm : BitVec 3) (u cs : Bool) (k : BitVec 8) (fl : Fl) (s : State) :
    Host.Outcome State Fault Refusal :=
  .next (s.vword fl do
    let (p, shape, ty, unf) ← outerChecks t va vb [va, vb] u
    outerWord t va vb rm unf cs (k.zeroExtend 16) p shape ty ((List.range (shapeRows shape)).map fun i => (i, i)))

/-- OPAG: every pair is checked before any accumulation (R214; log entry 37). -/
def execOpag (t : BitVec 3) (va vb vc : Reg) (rm : BitVec 3) (u cs : Bool) (pairs k : BitVec 8) (fl : Fl) (s : State) :
    Host.Outcome State Fault Refusal :=
  .next (s.vword fl do
    let (p, shape, ty, unf) ← outerChecks t va vb [va, vb, vc] u
    let n := pairs.toNat + 1
    let s ← now
    let g := groupOf s.me.vt * s.vlen
    need (decide (4 * n ≤ g)) (vtypeTrap (BitVec.ofNat 64 (g / 4)))
    let list := (List.range n).map fun q =>
      (s.me.elem s.vlen vc.val 16 (2 * q), s.me.elem s.vlen vc.val 16 (2 * q + 1))
    match list.findIdx? fun x => decide (g ≤ 384 * x.1 + 383) || decide (shapeRows shape ≤ x.2) with
    | some q => stop (vtypeTrap (BitVec.ofNat 64 q))
    | none => outerWord t va vb rm unf cs (pairs ++ k) p shape ty list)

end Sys2Proof.Machine
end

