-- ==== Sys2Proof/Machine/Vctl.lean ====
section
/-! DEFINITION. Vector control: VFETCH, VSETT, VSETL, TCFG, VDRAIN and UNFS (R67, R103, R104, R193, R201, R204, R210, R217,
R404, R405, R413, R419, R424, R434). -/

namespace Sys2Proof.Machine

/-! ### VFETCH -/

/-- The word that closes a block (R102). -/
def vstopWord : BitVec 64 := 0x0100000000000000#64

/-- Read a block up to its first VSTOP, or 512 words. -/
def readBlock : Nat → Word → M (List (BitVec 64))
  | 0, _ => pure []
  | n + 1, va => do
    let bs ← fetchCode va 8
    let w := BitVec.ofNat 64 (leVal bs)
    if w = vstopWord then return [w]
    let rest ← readBlock n (va + 8)
    return w :: rest

/-- The tile name of a tile word, by its vop (R212, R213). -/
def tileName (w : BitVec 64) : Option Nat :=
  let v := (bits w 56 8).toNat
  if v = 0x50 ∨ v = 0x51 ∨ v = 0x53 ∨ v = 0x55 ∨ v = 0x56 then some (bits w 51 5).toNat
  else if v = 0x52 ∨ v = 0x54 then some (bits w 46 5).toNat
  else none

/-- Whether word k of a block of n words passes validation (R103): it is an instruction, its tile exists (R208), and a
VSKZ stays clear of the closing word. stop is the index of the closing VSTOP, or 512. -/
def wordValid (tiles stop k : Nat) (w : BitVec 64) : Bool :=
  (match decodeVector w with
   | .ok (.vskz n _) => decide (k + n.toNat < stop)
   | .ok _ => true
   | .error _ => false) &&
    (match tileName w with
     | some t => decide (t < tiles)
     | none => true)

/-- The index of the first word that fails, if one does. -/
def blockFails (tiles : Nat) (ws : List (BitVec 64)) : Option Nat :=
  let stop := if ws.getLast? = some vstopWord then ws.length - 1 else 512
  ws.zipIdx.findIdx? fun (w, k) => !wordValid tiles stop k w

/-- One level of a loop table in 32 bytes, when it is valid (R104). -/
def levelOf (bs : List Byte) : Option Level :=
  let d := dwordOf bs 0
  let stride (k : Nat) : Word := (bits (dwordOf bs (8 + 4 * k)) 0 32).signExtend 64
  if bits d 0 32 = 0 ∨ bits d 32 32 ≠ 0 ∨ dwordOf bs 24 ≠ 0 then none
  else some { count := (bits d 0 32).toNat, strides := [stride 0, stride 1, stride 2, stride 3] }

/-- Read a loop table at an address that is not 0 (R103, R104). -/
def readTable (lt : Word) : M (List Level) := do
  needAligned lt 16
  let head ← fetchLong lt 16
  let n := (bits (dwordOf head 0) 0 3).toNat
  need (bits (dwordOf head 0) 3 61 == 0 && dwordOf head 8 == 0 && decide (1 ≤ n ∧ n ≤ 6)) (vtypeTrap lt)
  let body ← fetchLong (lt + 16) (32 * n)
  let levels := (List.range n).map fun l => levelOf (body.drop (32 * l))
  need (levels.all Option.isSome) (vtypeTrap lt)
  return levels.filterMap id

/-- The temporal levels of the launch of the focused team (R67). -/
def State.temporal (s : State) : List Level := ((s.launchAt s.team.launch).map (·.temporal)).getD []

/-- In a handler with BLK set, VFETCH discards the suspended block (R300, R424). -/
def Hart.dropSuspended (h : Hart) : Hart :=
  if h.inHandler && h.tstat.getLsbD tBLK then { h with blk := none, tstat := putBit h.tstat tBLK false } else h

/-- VFETCH (R103, R204, R424). Every word of the block is judged before the loop table is read (log entry 65). -/
def execVfetch (d a b : Reg) (s : State) : Host.Outcome State Fault Refusal :=
  .next (s.word do
    change fun s => { s with me := s.me.dropSuspended }
    let s ← now
    need s.me.blk.isNone (.wait .block)
    let va := s.x a
    needAligned va 8
    let ws ← readBlock 512 va
    match blockFails (tilesOf s.team.size) ws with
    | some k => stop (.trap (.of cILLEGAL (va + BitVec.ofNat 64 (8 * k))))
    | none => pure ()
    need (ws.getLast? == some vstopWord) (.trap (.of cILLEGAL (va + 4096)))
    let lt := s.x b
    let table ← if lt = 0 then pure [] else readTable lt
    let levels := s.temporal ++ table
    need (decide (levels.length ≤ 6)) (vtypeTrap lt)
    let base (k : Nat) : Word := if d = 0 then 0 else s.x ⟨(d.val + k) % 32, Nat.mod_lt _ (by decide)⟩
    let blk : Block :=
      { addr := va, words := ws, idx := 0, levels := levels, index := levels.map fun _ => 0,
        bases := (List.range 4).map base, vtype := s.me.vtype, vl := s.me.vl, frm := bits s.me.fcsr 0 3,
        suspended := false, wait := none, answers := [], word := 0 }
    change fun s =>
      { s with me := { s.me with blk := some blk, pixV := Vector.replicate 32 0, pixT := Vector.replicate 8 0 } })

/-! ### VSETT, VSETL, VDRAIN -/

/-- VSETT (R193, R434). -/
def execVsett (d a : Reg) (s : State) : Host.Outcome State Fault Refusal :=
  let v := s.x a
  .next (if vtypeLegal v then
      let s1 := s.setVtype v
      s1.put d (BitVec.ofNat 64 s1.vlmax)
    else s.takeTrap (.of cVTYPE v) s.me.pc true)

/-- VSETL (R193). -/
def execVsetl (d a : Reg) (s : State) : Host.Outcome State Fault Refusal :=
  let n := min (s.x a).toNat s.vlmax
  .next (({ s with me := { s.me with vl := n } }).put d (BitVec.ofNat 64 n))

/-- VSETL.lq (R201, R434). -/
def execVsetlLq (d : Reg) (s : State) : Host.Outcome State Fault Refusal :=
  .next (s.word do
    match s.me.lq with
    | x :: rest =>
      let n := min x.toNat s.vlmax
      change fun s => { s with me := { s.me with lq := rest, vl := n } }
      change fun s => s.setX d (BitVec.ofNat 64 n)
    | [] =>
      drained
      change fun s => { s with me := { s.me with vl := 0, lqUnd := true } }
      change fun s => s.setX d 0)

/-- VDRAIN (R204, R419). -/
def execVdrain (s : State) : Host.Outcome State Fault Refusal := .next (s.word drained)

/-! ### TCFG (R210, R404, R405) -/

/-- The words of a block that are still to run: in the last iteration those from where it stands. -/
def Block.wordsLeft (b : Block) : List (BitVec 64) :=
  if (nextPoint b.levels b.index).isNone then b.words.drop b.idx else b.words

/-- Whether a word still to run of a block names a tile. -/
def Block.namesTile (b : Block) (t : Nat) : Bool := b.wordsLeft.any fun w => tileName w == some t

/-- Whether a word still to run of a block reads its operand by the unfolding unit (R213, R214). -/
def Block.readsUnfold (b : Block) : Bool :=
  b.wordsLeft.any fun w => match decodeVector w with
    | .ok (.opa _ _ _ _ u _ _ _) => u
    | .ok (.opag _ _ _ _ _ u _ _ _ _) => u
    | _ => false

/-- Whether TCFG takes an operand (R210). -/
def tcfgOk (size : Nat) (v : Word) : Bool :=
  let image := bits v 0 16
  bits v 19 45 == 0 && bits v 10 6 == 0 && decide ((bits v 16 3).toNat < tilesOf size) &&
    (if shapeSet image then decide (shapeRows image ≤ min 16 (32 / hartsOf size)) else image == 0)

/-- TCFG: the tile's contents become undefined values (log entry 10). -/
def execTcfg (a : Reg) (s : State) : Host.Outcome State Fault Refusal :=
  .next (s.word do
    let v := s.x a
    let t := bits v 16 3
    need (!s.me.blk.any fun b => !b.suspended && b.namesTile t.toNat) (.wait .hold)
    need (tcfgOk s.team.size v) (vtypeTrap v)
    let p := s.physTile t
    let image := bits v 0 16
    change fun s => s.touch p
    change fun s =>
      let x := Config.undefTile s.fresh
      let s1 := if shapeSet image then { s.setTile p { s.tileAt p with data := x } with fresh := s.fresh + 1 } else s
      { s1 with team := { s1.team with
          tshape := s1.team.tshape.set (p % 8) image (Nat.mod_lt _ (by decide)),
          slots := if shapeSet image then s1.team.slots.set (p % 8) x (Nat.mod_lt _ (by decide)) else s1.team.slots } })

/-! ### UNFS (R217, R413) -/

/-- UNFS. -/
def execUnfs (a : Reg) (s : State) : Host.Outcome State Fault Refusal :=
  .next (s.word do
    drained
    let va := s.x a
    needAligned va 64
    need (!(isWindow va && (towerOf va == 3 || towerOf va == 4))) (.trap (.window 4 va 8))
    let parts ← (List.range 8).mapM fun k => loadBytes 0 (va + BitVec.ofNat 64 (8 * k)) 8
    match unfoldOf va (2 ^ vtW s.me.vtype) parts.flatten with
    | some u => change fun s => { s with me := { s.me with unf := some u } }
    | none => stop (.trap (.of cENGINE va)))

end Sys2Proof.Machine
end

