-- ==== Sys2Proof/Machine/Engine.lean ====
section
/-! DEFINITION. Engine commands: issue (R100, R175, R227, R242, R251, R344), accesses of engines to memory (R131 to R149,
R247, R254, R348), copies (R344 to R349, R273), gathers and scatters (R250 to R255, R363, R394, R395), completion (R175,
R301), and row synchronisation (R185, R386, R387). -/

namespace Sys2Proof.Machine

/-! ### Commands -/

def State.cmdAt (s : State) (cid : Nat) : Option Cmd := s.cmds.find? (·.cid == cid)
def State.onCmd (s : State) (cid : Nat) (f : Cmd → Cmd) : State :=
  { s with cmds := s.cmds.map fun c => if c.cid == cid then f c else c }

/-- The issuer as a team for window addresses: a scratchpad window names its launch's allocation near its core. -/
def Cmd.asTeam (c : Cmd) : Team :=
  { Team.reset with no := c.team, core := c.core, launch := c.launch, asid := c.asid, world := c.world }

/-- The trap of a command as an engine fault (R295, R301). -/
def Cmd.asFault (c : Cmd) (t : Trap) : Trap := { t with src := .engine c.ctx c.kind c.seq }

/-- A command has been performed; its completion is still to come. -/
def State.finishCmd (s : State) (cid : Nat) (t : Option Trap) : State :=
  s.onCmd cid fun c => { c with accepted := true, started := true, finished := true, hold := [], answers := [], work := .none,
                                fault := c.fault.or (t.map c.asFault) }

/-! ### Why a command stops -/

inductive EStop where
  /-- the command waits; it begins again later -/
  | hold
  /-- an engine fault: nothing further runs (R227) -/
  | fault (t : Trap)
  /-- the command's world has ended -/
  | gone
  deriving DecidableEq, Repr

/-- An action of an engine. -/
abbrev EM := EStateM EStop State

def estop {α : Type} (x : EStop) : EM α := fun s => .error x s
def efault {α : Type} (t : Trap) : EM α := fun s => .error (.fault t) s
def eneed (c : Bool) (t : Trap) : EM Unit := fun s => if c then .ok () s else .error (.fault t) s
def enow : EM State := fun s => .ok s s
def echange (f : State → State) : EM Unit := fun s => .ok () (f s)

/-- Keep what a command has done, for the time after a hold. -/
def saveWork (c : Cmd) (w : Work) : EM Unit := echange fun s => s.onCmd c.cid fun c => { c with work := w }

/-! ### Translation by an engine -/

/-- The cause that the pager answered for a page, if it refused or denied it to the command. -/
def Cmd.answerFor (c : Cmd) (va : Word) : Option Nat := (c.answers.find? (·.1 == pageOf va)).map (·.2)

/-- Whether the page of an address is missing and its request is not yet answered. -/
def State.engMissing (s : State) (c : Cmd) (a : Acc) (va : Word) : Bool :=
  isOwn va && s.xlate c.asid a va == .missing && (c.answerFor va).isNone

/-- Post one request for each missing page among some addresses, save those that the command waits for already, and hold
the command if there is any, or if a row command holds a walk (R149, R183, R252). -/
def engPages (c : Cmd) (a : Acc) (vas : List Word) : EM Unit := fun s =>
  let miss := ((vas.filter fun va => s.engMissing c a va).map pageOf).eraseDups
  if miss.isEmpty then
    if vas.any fun va => !isWindow va && s.xlate c.asid a va == .busy then .error .hold s else .ok () s
  else
    let (tags, s1) := miss.foldl (fun (x : List (Nat × Word) × State) va =>
      let t := towerOf va
      match (x.2.pctlAt t).reqs.find? fun r => r.page == pageOf va && r.asid == c.asid with
      | some r =>
        if c.hold.contains (t, r.tag) then (x.1 ++ [(t, r.tag)], x.2)
        else
          let p := x.2.postPage c.asid a va
          (x.1 ++ (p.1.map fun g => (t, g)).toList, p.2)
      | none =>
        let p := x.2.postPage c.asid a va
        (x.1 ++ (p.1.map fun g => (t, g)).toList, p.2)) ([], s)
    .error .hold (s1.onCmd c.cid fun c => { c with hold := tags })

/-- One address in each page of n bytes. -/
def pageHeads (va : Word) (n : Nat) : List Word := (piecesOf va (n / 65536 + 2) n).map (·.1)

/-- Where the bytes of an engine's access lie: consecutive keys, or keys behind a scratchpad window. -/
inductive Spot where
  | mem (key : Nat)
  | win (keys : List (Option Nat))
  deriving DecidableEq, Repr

/-- The place of n bytes in one page (R131 to R149, R183). msg admits a message-only device (R346). -/
def engPlace (c : Cmd) (a : Acc) (msg : Bool) (va : Word) (n : Nat) : EM Spot := fun s =>
  if isWindow va then
    match windowFault va n false, s.windowTarget c.asTeam va n with
    | some t, _ => .error (.fault t) s
    | none, .bytes keys => .ok (.win keys) s
    | none, .counter _ _ _ => .error (.fault (.window 4 va n)) s
  else
    match straddle va n with
    | some t => .error (.fault t) s
    | none =>
      match s.xlate c.asid a va with
      | .at_ k _ e => if s.accessHeld k n e none a.wr then .error .hold s else .ok (.mem k) (s.markPage e none a.wr)
      | .record k => .ok (.mem k) s
      | .remote k => .ok (.mem k) s
      | .busy => .error .hold s
      | .message k => if msg then .ok (.mem k) s else .error (.fault (.sized cPROTECT va n)) s
      | .missing =>
        match c.answerFor va with
        | some cause => .error (.fault (.sized cause va n)) s
        | none => engPages c a [va] s |> fun
          | .ok _ s1 => .error .hold s1
          | .error e s1 => .error e s1
      | .denied _ => .error (.fault (.sized cPROTECT va n)) s
      | .unrouted => .error (.fault (.sized cPROTECT va n)) s

/-! ### Reading -/

/-- The bytes of a place as the command's world sees them, and the offsets of uncorrectable ones (R297, R348). -/
def State.placeBytes (s : State) (w : Nat) : Spot → Nat → List Byte × List Nat
  | .mem k, n => (s.bytesIn w k n, (List.range n).filter fun i => s.byteBad w (k + i))
  | .win keys, _ =>
    (keys.map fun k => match k with
      | some k => Memory.read s.mem k
      | none => 0,
     (List.range keys.length).filter fun i => ((keys.getD i none).map fun k => s.byteBad 0 k).getD false)

/-- A scratchpad access beyond the extent is noted for the issuing hart (R135). -/
def State.engBeyond (s : State) (c : Cmd) (va : Word) (p : Spot) (wr : Bool) : State :=
  match p with
  | .win keys =>
    match keys.findIdx? (·.isNone) with
    | some i => s.onHart c.team c.hart fun h => h.beyond (va + BitVec.ofNat 64 i) wr
    | none => s
  | .mem _ => s

/-- Log each uncorrectable burst among some offsets of a place (R248). -/
def State.logBursts (s : State) (p : Spot) (offs : List Nat) (src team : Nat) : State :=
  match p with
  | .mem k => (((offs.map fun i => (k + i) / 32).eraseDups).foldl (fun s b =>
      match offs.find? fun i => (k + i) / 32 == b with
      | some i => s.logBerr (k + i) src team
      | none => s) s)
  | .win _ => s

/-- A command has read a place: what it observes of the pool stands (R161). -/
def State.engSeen (s : State) (c : Cmd) (p : Spot) (n : Nat) : State :=
  match p with
  | .mem k => s.poolSeen k n fun q => q.by_ == .command c.cid c.ctx c.seq
  | .win _ => s

/-- Read n bytes page by page, with the offsets of the uncorrectable ones. -/
def engRead (c : Cmd) (va : Word) (n : Nat) : EM (List Byte × List Nat) := do
  let parts ← (piecesOf va (n / 65536 + 2) n).mapM fun (v, m) => do
    let p ← engPlace c .load false v m
    let s ← enow
    let (bs, bad) := s.placeBytes c.world p m
    echange fun s => ((s.engBeyond c v p false).logBursts p bad 3 c.team).engSeen c p m
    let o := (v - va).toNat
    return (bs, bad.map (· + o))
  return ((parts.map (·.1)).flatten, (parts.map (·.2)).flatten)

/-- Read n bytes that must be correct: an uncorrectable one is the fault POISON (R297). -/
def engReadOk (c : Cmd) (va : Word) (n : Nat) : EM (List Byte) := do
  let (bs, bad) ← engRead c va n
  match bad with
  | i :: _ => efault (.sized cPOISON (va + BitVec.ofNat 64 i) n)
  | [] => return bs

/-! ### Writing -/

/-- A version of an engine's write cannot be placed: an engine fault with the line, or the end of the world (R272). -/
def engExhausted {α : Type} (c : Cmd) (va : Word) : EM α := fun s =>
  if s.trapsOnFull c.world then .error (.fault (.of cVIEW_EXHAUSTED va)) s
  else
    let busy := s.busyCores
    .error .gone ((s.abortWorld c.world .exhausted none).reseek busy)

/-- Write bytes at consecutive keys, each with its virtual address, in the command's world; the first byte whose line
has no room stops the command with the bytes before it written. bad says which bytes carry poison. -/
def engBytes (c : Cmd) : Nat → Word → List (Byte × Bool) → EM Unit
  | _, _, [] => pure ()
  | k, va, (b, bad) :: rest => do
    let s ← enow
    if !s.placeable c.world k then engExhausted c (va &&& ~~~63#64)
    echange fun s =>
      let s1 := s.setByte c.world k b
      if bad then s1.poisonSegs c.world [k / 16] else s1
    engBytes c (k + 1) (va + 1) rest

/-- Write bytes into a place. -/
def engPut (c : Cmd) (va : Word) (p : Spot) (bs : List (Byte × Bool)) : EM Unit := do
  echange fun s => s.engBeyond c va p true
  match p with
  | .mem k =>
    let n := bs.length
    echange fun s =>
      (((((s.notePool c.team c.hart va k n (.command c.cid c.ctx c.seq)).keepBad c.world k n).keepUnder c.world k n).clearSegs
        c.world k n).dropRaws k n).dropCe c.world k n
    engBytes c k va bs
  | .win keys =>
    echange fun s => (keys.zip bs).foldl (fun s x => match x.1 with
      | some k => if x.2.2 then s.poisonSegs 0 [k / 16] else s
      | none => s) (s.windowWrite keys (bs.map (·.1)))

/-- Write bytes page by page. -/
def engWrite (c : Cmd) (msg : Bool) (va : Word) (bs : List (Byte × Bool)) : EM Unit :=
  (piecesOf va (bs.length / 65536 + 2) bs.length).forM fun (v, m) => do
    let p ← engPlace c .store msg v m
    engPut c v p ((bs.drop (v - va).toNat).take m)

def clean (bs : List Byte) : List (Byte × Bool) := bs.map fun b => (b, false)

/-- Whether the n bytes at an address lie where a row command holds ordinary requests (R183, R234). -/
def State.engBusy (s : State) (c : Cmd) (a : Acc) (va : Word) (n : Nat) : Bool :=
  !isWindow va && (piecesOf va (n / 65536 + 2) n).any fun p =>
    match s.xlate c.asid a p.1 with
    | .at_ k _ e => s.accessHeld k p.2 e none a.wr
    | .busy => true
    | _ => false

/-- Hold the command until n bytes at an address can be accessed, so that what follows is done once. -/
def engReady (c : Cmd) (a : Acc) (va : Word) (n : Nat) : EM Unit := do
  if !isWindow va then engPages c a (pageHeads va n)
  let s ← enow
  if s.engBusy c a va n then estop .hold

/-! ### Ordinary memory of this device (R440) -/

/-- The trap of an access of n bytes at an address outside the windows that is no ordinary memory of this device: PROTECT where
the routing table names no device or a message-only one (R129, R130), else ENGINE. -/
def State.farTrap (s : State) (va : Word) (n : Nat) : Option Trap :=
  if isOwn va then none
  else match s.routes.find? (·.1 == nodeOf va) with
    | some (_, true) => some (.of cENGINE va)
    | _ => some (.sized cPROTECT va n)

/-- The first address of the device of an address. -/
def nodeBase (va : Word) : Word := va &&& ~~~(BitVec.ofNat 64 (2 ^ 46 - 1))

/-- The trap of a range that ends in another device than the one in which it begins: PROTECT at the first of its addresses there
where the routing table names no device or a message-only one (R129, R130). -/
def State.endTrap (s : State) (va : Word) (n : Nat) : Option Trap :=
  let last := va + BitVec.ofNat 64 (n - 1)
  if nodeOf last = nodeOf va ∨ isWindow last then none else (s.farTrap (nodeBase last) n).filter (·.code == cPROTECT)

/-- An operand range that must be ordinary memory of this device, or a scratchpad window of the hart where win is set:
any other address is ENGINE or PROTECT, a missing page holds the command, a refused one is the pager's cause (log entry 45). -/
def engOrdinary (c : Cmd) (a : Acc) (win : Bool) (va : Word) (n : Nat) : EM Unit := do
  if isWindow va then
    match windowFault va n false with
    | some t => efault t
    | none => eneed win (.of cENGINE va)
  else
    let last := va + BitVec.ofNat 64 (n - 1)
    let s ← enow
    match (s.farTrap va n).or (s.endTrap va n) with
    | some t => efault t
    | none => pure ()
    eneed (isOwn last && decide (va.toNat + n ≤ 2 ^ 64)) (.of cENGINE va)
    engPages c a (pageHeads va n)
    (pageHeads va n).forM fun v => fun s =>
      match s.xlate c.asid a v with
      | .at_ _ cls _ => if cls = 2 then .error (.fault (.of cENGINE v)) s else .ok () s
      | .missing => .error (.fault (.sized ((c.answerFor v).getD cPAGE_LOAD) v n)) s
      | .denied _ => .error (.fault (.sized cPROTECT v n)) s
      | _ => .ok () s

/-! ### Issue (R100, R175) -/

def kCPY := 0
def kGTHR := 1
def kSCTR := 2
def kRPL := 3
def kBXL := 4

/-- Commands of some kinds that are outstanding among those that a test picks. -/
def State.outstanding (s : State) (p : Cmd → Bool) : Nat := (s.cmds.filter p).length

/-- Wait for a slot: 128 copies of a core, 256 gathers and scatters or 256 row programs and expressions of a tower. -/
def needSlot (kind : Nat) : M Unit := fun s =>
  let core := s.team.core
  let near (c : Cmd) : Bool := c.queue.isNone && towerOfCore c.core == towerOfCore core
  let full :=
    if kind = kCPY then decide (128 ≤ s.outstanding fun c => c.queue.isNone && c.kind == kCPY && c.core == core)
    else if kind = kGTHR ∨ kind = kSCTR then
      decide (256 ≤ s.outstanding fun c => near c && (c.kind == kGTHR || c.kind == kSCTR))
    else decide (256 ≤ s.outstanding fun c => near c && (c.kind == kRPL || c.kind == kBXL))
  if full then .error (.wait .slot) s else .ok () s

/-- A command takes the next number of its context. -/
def State.issue (s : State) (d : Reg) (kind : Nat) (ctx : BitVec 3) (args : List Word) : State :=
  let x := s.me.ctxs[ctx.toNat]'ctx.isLt
  let c : Cmd :=
    { cid := s.nextCmd, kind := kind, args := args, team := s.team.no, hart := s.me.idx, ctx := ctx.toNat,
      seq := x.seq + 1, core := s.team.core, world := s.team.world, asid := s.team.asid, launch := s.team.launch,
      queue := none, hold := [], answers := [], accepted := false, started := false, finished := false,
      dropped := false, work := .none, fault := none }
  ({ s with cmds := s.cmds ++ [c], nextCmd := s.nextCmd + 1,
            me := { s.me with ctxs := s.me.ctxs.set ctx.toNat { x with seq := x.seq + 1 } ctx.isLt } }).setX d
    (BitVec.ofNat 64 (x.seq + 1))

/-- The n argument registers from xa up. -/
def State.argRegs (s : State) (a : Reg) (n : Nat) : List Word :=
  (List.range n).map fun i => s.x ⟨(a.val + i) % 32, Nat.mod_lt _ (by decide)⟩

/-- An ENG word once its checks pass. -/
def issueWord (d a : Reg) (kind n : Nat) (ctx : BitVec 3) : M Unit := do
  needSlot kind
  change fun s => s.issue d kind ctx (s.argRegs a n)

/-- CPY (R344). -/
def execCpy (d a : Reg) (c : BitVec 3) (s : State) : Host.Outcome State Fault Refusal :=
  .next (s.word do
    needAligned (s.x a) 32
    issueWord d a kCPY 1 c)

/-! ### The arguments of GTHR and SCTR (R250, R251) -/

structure IxArgs where
  idx : Word
  table : Word
  pack : Word
  limit : Nat
  count : Nat
  stride : Nat
  sop : Nat
  atype : Nat
  ix64 : Bool
  esize : Nat
  deriving DecidableEq, Repr

def ixArgs (args : List Word) : IxArgs :=
  let p := args.getD 3 0
  let q := args.getD 4 0
  { idx := args.getD 0 0, table := args.getD 1 0, pack := args.getD 2 0, limit := (bits p 32 32).toNat,
    count := (bits p 0 25).toNat, stride := (bits q 32 32).toNat, sop := (bits q 12 2).toNat,
    atype := (bits q 8 3).toNat, ix64 := q.getLsbD 4, esize := (bits q 0 4).toNat }

/-- Bytes of an add lane (R250). -/
def laneSize (atype : Nat) : Nat :=
  match atype with
  | 1 | 2 => 2
  | 4 => 8
  | _ => 4

def IxArgs.add (x : IxArgs) (kind : Nat) : Bool := kind == kSCTR && x.sop == 1

/-- Step 1 of R251. -/
def ixOk (kind : Nat) (args : List Word) : Bool :=
  let x := ixArgs args
  let p := args.getD 3 0
  let q := args.getD 4 0
  bits p 25 7 == 0 && bits q 14 18 == 0 && !q.getLsbD 11 && bits q 5 3 == 0 && decide (1 ≤ x.count ∧ x.count ≤ 2 ^ 24) &&
    decide (x.esize ≤ 8) && decide (x.sop ≤ 1) && (kind == kSCTR || x.sop == 0) && decide (x.atype ≤ 4) &&
    (x.add kind || x.atype == 0) && (!(x.add kind) || decide (laneSize x.atype ≤ 2 ^ x.esize)) &&
    x.stride % 2 ^ x.esize == 0

def IxArgs.indexSize (x : IxArgs) : Nat := if x.ix64 then 8 else 4

/-- GTHR and SCTR at issue (R251). -/
def issueIndexed (kind : Nat) (d a : Reg) (c : BitVec 3) (s : State) : State :=
  s.word do
    let args := s.argRegs a 5
    let x := ixArgs args
    need (ixOk kind args) (.trap (.of cENGINE (args.getD 4 0)))
    needAligned x.idx x.indexSize
    needAligned x.table (2 ^ x.esize)
    needAligned x.pack 32
    issueWord d a kind 5 c

def execGthr (d a : Reg) (c : BitVec 3) (s : State) : Host.Outcome State Fault Refusal :=
  .next (issueIndexed kGTHR d a c s)
def execSctr (d a : Reg) (c : BitVec 3) (s : State) : Host.Outcome State Fault Refusal :=
  .next (issueIndexed kSCTR d a c s)

/-- RPL at issue (R226, R227, R389). -/
def execRpl (d a : Reg) (c : BitVec 3) (s : State) : Host.Outcome State Fault Refusal :=
  .next (s.word do
    let args := s.argRegs a 4
    let prog := args.getD 0 0
    let desc := args.getD 1 0
    let q := args.getD 3 0
    need (s.team.world == 0) (.trap (.of cWORLD_ESCAPE desc))
    needAligned prog 4
    needAligned desc 256
    need (bits (args.getD 2 0) 60 4 == 0 && bits q 34 30 == 0 && bits q 21 11 == 0 && bits q 10 6 == 0 &&
      decide ((bits q 16 5).toNat ≤ 16)) (.trap (.of cENGINE q))
    trapIf (if isWindow prog then some (.window 3 prog 4) else none)
    trapIf (if isWindow desc then some (.window 4 desc 16) else none)
    issueWord d a kRPL 4 c)

/-- Whether a kind code of R110 names a type with this P. -/
def kindOk (kind p : Nat) : Bool :=
  decide (kind ≤ 8) && (if kind = 7 ∨ kind = 8 then decide (1 ≤ p) else p == 0)

/-- Whether X[xa+3] and X[xa+5] of BXL keep R241. -/
def bxlOk (count q : Word) : Bool :=
  let red := bits q 35 5 != 0 || q.getLsbD 34
  bits q 48 16 == 0 && bits q 16 16 == 0 && !q.getLsbD 11 && !q.getLsbD 3 && (bits q 4 4).toNat != 6 &&
    kindOk (bits q 4 4).toNat (bits q 0 3).toNat && kindOk (bits q 12 4).toNat (bits q 8 3).toNat &&
    !(red && (bits q 12 4 != 0 || bits q 8 3 != 0)) && decide ((bits q 35 5).toNat ≤ 26) &&
    decide (1 ≤ count.toNat ∧ count.toNat ≤ 2 ^ 26)

/-- BXL at issue (R133, R241, R242; log entry 42). -/
def execBxl (d a : Reg) (c : BitVec 3) (s : State) : Host.Outcome State Fault Refusal :=
  .next (s.word do
    let args := s.argRegs a 6
    let record := args.getD 0 0
    need (s.team.world == 0) (.trap (.of cWORLD_ESCAPE record))
    needAligned record 8
    needAligned (args.getD 1 0) 32
    needAligned (args.getD 2 0) 32
    needAligned (args.getD 4 0) 32
    need (bxlOk (args.getD 3 0) (args.getD 5 0)) (.trap (.of cENGINE (args.getD 5 0)))
    trapIf (if isWindow record then some (.window 3 record 4) else none)
    issueWord d a kBXL 6 c)

/-! ### The start of a command -/

/-- Earlier stores, atomics and block words of the issuing hart come before the command's reads (R179). -/
def State.settled (s : State) (c : Cmd) : Bool :=
  c.queue.isSome ||
    (!(s.side.any fun e => e.team == c.team && e.hart == c.hart && e.core != cpCore) &&
      !((s.hartAt c.team c.hart).any fun h => h.blk.any fun b => !b.suspended && b.hasMem))

/-- Perform a command of some kinds once it may start: the body gives the fault that is delivered after completion. A
command of a discarded world completes without a write (R267). -/
def State.runCmd (s : State) (cid : Nat) (kinds : List Nat) (body : Cmd → EM (Option Trap)) : State :=
  match s.cmdAt cid with
  | some c =>
    if !kinds.contains c.kind || c.finished || !s.settled c then s
    else if c.dropped then s.finishCmd cid none
    else
      match body c s with
      | .ok t s1 => s1.finishCmd cid t
      | .error .hold s1 => s1
      | .error (.fault t) s1 => s1.finishCmd cid (some t)
      | .error .gone s1 => s1.finishCmd cid none
  | none => s

/-! ### Copies (R345 to R349, R273) -/

structure CopyDesc where
  source : Word
  dest : Word
  length : Nat
  form : Nat
  rows : Nat
  sstride : Word
  dstride : Word
  deriving DecidableEq, Repr

/-- The lowest and the highest byte of all rows, as virtual addresses. -/
def spanOf (va stride : Word) (rows n : Nat) : Int × Int :=
  let d := stride.toInt * ((rows : Int) - 1)
  ((va.toNat : Int) + min 0 d, (va.toNat : Int) + max 0 d + n - 1)

/-- The descriptor of a copy, when it is good (R345). -/
def copyDesc (a b : List Byte) : Option CopyDesc :=
  let f := dwordOf a 24
  let form := (bits f 0 3).toNat
  let two := form == 1
  let d : CopyDesc :=
    { source := dwordOf a 0, dest := dwordOf a 8, length := (dwordOf a 16).toNat, form := form,
      rows := if two then (bits (dwordOf b 0) 0 32).toNat else 1, sstride := if two then dwordOf b 8 else 0,
      dstride := if two then dwordOf b 16 else 0 }
  let s := spanOf d.source d.sstride d.rows d.length
  let t := spanOf d.dest d.dstride d.rows d.length
  if bits f 3 61 = 0 ∧ form ≤ 2 ∧ 1 ≤ d.length ∧ d.length ≤ 2 ^ 32 ∧
      (two → bits (dwordOf b 0) 32 32 = 0 ∧ dwordOf b 24 = 0 ∧ 1 ≤ d.rows ∧ d.rows ≤ 2 ^ 24 ∧
        (d.rows ≤ 1 ∨ d.length ≤ d.dstride.toInt.natAbs)) ∧
      (form = 2 ∨ s.2 < t.1 ∨ t.2 < s.1) then some d
  else none

def CopyDesc.src (d : CopyDesc) (r : Nat) : Word := d.source + BitVec.ofNat 64 r * d.sstride
def CopyDesc.dst (d : CopyDesc) (r : Nat) : Word := d.dest + BitVec.ofNat 64 r * d.dstride

/-- The check of one endpoint (R346); from a packet a scratchpad window is KIND. -/
def State.endpoint (s : State) (packet : Bool) (d : CopyDesc) (dest : Bool) (va : Word) : Option Trap :=
  let n := d.length
  let last := va + BitVec.ofNat 64 (n - 1)
  if isWindow va then
    if towerOf va ≥ 5 then some (.window 2 va n)
    else if !isWindow last || towerOf last != towerOf va || decide (2 ^ 64 < va.toNat + n) then some (.window 1 va n)
    else if towerOf va ≥ 3 || packet then some (.window 4 va n)
    else none
  else if isWindow last || decide (2 ^ 64 < va.toNat + n) then some (.window 1 va n)
  else if dest && d.form != 2 then none
  else
    let msg (a : Word) : Bool := (s.routes.find? (·.1 == nodeOf a)).any fun r => !r.2
    if msg va then some (.sized cPROTECT va n)
    else if msg last then some (.sized cPROTECT (nodeBase last) n)
    else none

/-- The first endpoint that fails, row by row, a row's source before its destination. -/
def State.badEndpoint (s : State) (packet : Bool) (d : CopyDesc) : Nat → Nat → Option Trap
  | 0, _ => none
  | n + 1, r =>
    match (if d.form = 2 then none else s.endpoint packet d false (d.src r)) with
    | some t => some t
    | none =>
      match s.endpoint packet d true (d.dst r) with
      | some t => some t
      | none => s.badEndpoint packet d n (r + 1)

/-- The bytes of one row with their poison, and the first uncorrectable source byte. -/
def copyRow (c : Cmd) (d : CopyDesc) (r : Nat) : EM (List (Byte × Bool) × Option Word) := do
  if d.form = 2 then
    return ((List.range d.length).map fun k => (bits d.source (8 * (k % 8)) 8, false), none)
  else
    let (bs, bad) ← engRead c (d.src r) d.length
    return (bs.zipIdx.map fun (b, i) => (b, bad.contains i), bad.head?.map fun i => d.src r + BitVec.ofNat 64 i)

/-- The cause with which an address is refused to a command, if it is. -/
def State.engRefused (s : State) (c : Cmd) (a : Acc) (va : Word) : Option Nat :=
  if isWindow va then none
  else
    match s.xlate c.asid a va with
    | .missing => c.answerFor va
    | .denied _ | .unrouted => some cPROTECT
    | _ => none

/-- Refused addresses of a row with their offsets, lowest first. -/
def State.rowRefused (s : State) (c : Cmd) (a : Acc) (va : Word) (n : Nat) : List (Nat × Trap) :=
  (pageHeads va n).filterMap fun v => (s.engRefused c a v).map fun cause => ((v - va).toNat, Trap.sized cause v n)

/-- The first refused address in row-major byte order, a source byte before the destination byte of its place (R348). -/
def State.copyRefused (s : State) (c : Cmd) (d : CopyDesc) (dests : Bool) : Option Trap :=
  (List.range d.rows).findSome? fun r =>
    let src := if d.form = 2 then none else (s.rowRefused c .load (d.src r) d.length).head?
    let dst := if dests then (s.rowRefused c .store (d.dst r) d.length).head? else none
    match src, dst with
    | some x, some y => some (if x.1 ≤ y.1 then x.2 else y.2)
    | some x, none => some x.2
    | none, some y => some y.2
    | none, none => none

/-- Every page of the rows is asked for before the first byte moves; a refused one ends the copy (R348). dests says that
the destination is written now. -/
def copyPages (c : Cmd) (d : CopyDesc) (dests : Bool) : EM Unit := do
  if d.form ≠ 2 then engPages c .load ((List.range d.rows).flatMap fun r => pageHeads (d.src r) d.length)
  if dests then engPages c .store ((List.range d.rows).flatMap fun r => pageHeads (d.dst r) d.length)
  let s ← enow
  match s.copyRefused c d dests with
  | some t => efault t
  | none => pure ()

/-- The lowest offset of the aligned unit of 384 bytes of a scratchpad window that holds an address (R349). -/
def unitBase (va : Word) : Nat := offsetOf va / 384 * 384

/-- Whether row r of a copy writes into the unit of an address in the same window. -/
def CopyDesc.inUnit (d : CopyDesc) (va : Word) (r : Nat) : Bool :=
  let o := offsetOf (d.dst r)
  decide (r < d.rows) && isWindow (d.dst r) && towerOf (d.dst r) == towerOf va &&
    decide (o < unitBase va + 384 ∧ unitBase va < o + d.length)

/-- The pieces of a row at its destination: those of the units of a scratchpad window, or of pages. -/
def rowPieces (va : Word) (n : Nat) : List (Word × Nat) :=
  if isWindow va then unitPieces va (n / 384 + 2) n else piecesOf va (n / 65536 + 2) n
where
  unitPieces (va : Word) : Nat → Nat → List (Word × Nat)
    | 0, _ => []
    | fuel + 1, n =>
      if n = 0 then []
      else
        let m := min n (384 - offsetOf va % 384)
        (va, m) :: unitPieces (va + BitVec.ofNat 64 m) fuel (n - m)

/-- Before row r writes its part of a unit of a scratchpad window as the first: the rows behind it that write there too can be
read, so that the whole unit is written in one step (R349). -/
def unitReady (c : Cmd) (d : CopyDesc) (r : Nat) (va : Word) : EM Unit := do
  if isWindow va && d.form != 2 && !(decide (0 < r) && d.inUnit va (r - 1)) then
    (((List.range 384).map (r + 1 + ·)).takeWhile (d.inUnit va)).forM fun q => engReady c .load (d.src q) d.length

/-- Write the bytes of row r from offset o on, piece by piece; what is written stays written over a hold. -/
def copyOut (c : Cmd) (d : CopyDesc) (a b : List Byte) (r o : Nat) (bs : List (Byte × Bool)) (bad : Option Word) : EM Unit :=
  (rowPieces (d.dst r + BitVec.ofNat 64 o) (d.length - o)).forM fun (v, m) => do
    unitReady c d r v
    let i := (v - d.dst r).toNat
    let p ← engPlace c .store true v m
    engPut c v p ((bs.drop i).take m)
    saveWork c (.copy a b r (i + m) bs bad)

/-- The rows of a copy in the order of their destinations, so that rows of one unit follow one another (R349). -/
def CopyDesc.upward (d : CopyDesc) : CopyDesc :=
  if d.dstride.slt 0 then
    { d with source := d.src (d.rows - 1), dest := d.dst (d.rows - 1), sstride := -d.sstride, dstride := -d.dstride }
  else d

/-- The first uncorrectable source byte in row order, of those of earlier rows and that of a row after them in the upward order. -/
def CopyDesc.firstBad (d : CopyDesc) (bad x : Option Word) : Option Word := if d.dstride.slt 0 then x.or bad else bad.or x

/-- Rows r up to the last, of the copy d in its upward order (R347, R348). -/
def copyRows (c : Cmd) (d : CopyDesc) (a b : List Byte) : Nat → Nat → Option Word → EM (Option Word)
  | 0, _, bad => pure bad
  | n + 1, r, bad => do
    let (bs, x) ← copyRow c d.upward r
    saveWork c (.copy a b r 0 bs (d.firstBad bad x))
    copyOut c d.upward a b r 0 bs (d.firstBad bad x)
    saveWork c (.copy a b (r + 1) 0 [] (d.firstBad bad x))
    copyRows c d a b n (r + 1) (d.firstBad bad x)

/-- Whether some byte of the destination lies in another device or the pool, once its pages are known. -/
def copyFar (c : Cmd) (d : CopyDesc) : EM Bool := do
  let vas := ((List.range d.rows).flatMap fun r => pageHeads (d.dst r) d.length).filter (!isWindow ·)
  if vas.any (!isOwn ·) then return true
  engPages c .store vas
  let s ← enow
  return vas.any fun va => match s.xlate c.asid .store va with
    | .at_ _ cls _ | .denied cls => cls == 2
    | _ => false

/-- Whether a range declared with a handle that holds a destination byte still has a queued operation of its launch to read it:
a word with U in a block, suspended or in flight, its operand the array of the unfolding unit (R186). -/
def State.refillHeld (s : State) (c : Cmd) (d : CopyDesc) : Bool :=
  let (lo, hi) := spanOf d.dest d.dstride d.rows d.length
  (s.launchAt c.launch).any fun l => l.ranges.any fun r =>
    r.handle != 0 && decide (lo < (r.base.toNat : Int) + r.len.toNat) && decide ((r.base.toNat : Int) ≤ hi) &&
      s.teams.any fun t => t.team.launch == c.launch && t.harts.any fun h =>
        h.alive && h.blk.any (·.readsUnfold) && h.unf.any fun u =>
          let n := u.c * u.h * u.w * 2 ^ vtW ((h.blk.map (·.vtype)).getD 0) / 8
          decide (u.base.toNat < r.base.toNat + r.len.toNat) && decide (r.base.toNat < u.base.toNat + n)

/-- Put a copy into a log: before the copies at its end that were issued later (R273). -/
def logInsert (x : LogCopy) (log : List LogCopy) : List LogCopy :=
  let later := (log.reverse.takeWhile fun e => decide (x.cid < e.cid)).reverse
  log.take (log.length - later.length) ++ x :: later

/-- A deferred copy enters its world's effect log (R273), or exhausts the world (R272). -/
def deferCopy (c : Cmd) (d : CopyDesc) : EM (Option Word) := do
  copyPages c d false
  let s ← enow
  let log := ((s.worldAt c.world).map (·.log)).getD []
  let held := (log.map fun x => (x.rows.map fun r => r.bytes.length).sum).sum
  let size := d.length * d.rows
  let t := ((s.worldAt c.world).map (·.home)).getD 0
  let logs := s.escrowLogs t + (size + 127) / 128
  if 65536 < size ∨ 256 ≤ log.length ∨ 2 ^ 20 < held + size ∨ s.escrow < logs ∨
      llcLines + s.escrow < (s.verLines t).length + logs then engExhausted c (c.args.getD 0 0)
  let rows ← (List.range d.rows).mapM fun r => do
    let (bs, b) ← copyRow c d r
    let row : LogRow := { dest := d.dst r, bytes := bs.map (·.1),
                          bad := ((bs.zipIdx.filter fun x => x.1.2).map (·.2)) }
    return (row, b)
  let bad := (rows.map (·.2)).findSome? id
  let copy : LogCopy := { cid := c.cid, rows := rows.map (·.1), asid := c.asid, src := bad, size := d.length }
  echange fun s =>
    match s.worldAt c.world with
    | some x => s.setWorld { x with log := logInsert copy x.log }
    | none => s
  return bad

/-- The descriptor, each half of it read once (R347). -/
def copyRead (c : Cmd) : EM (List Byte × List Byte) := do
  let at_ := c.args.getD 0 0
  let a ← match c.work with
    | .descriptor a => pure a
    | _ => engReadOk c at_ 32
  saveWork c (.descriptor a)
  let b ← if bits (dwordOf a 24) 0 3 = 1 then engReadOk c (at_ + 32) 32 else pure []
  saveWork c (.copy a b 0 0 [] none)
  return (a, b)

/-- A copy from its first byte, its descriptor known. -/
def copyStart (c : Cmd) (a b : List Byte) (d : CopyDesc) : EM (Option Word) := do
  let s ← enow
  match s.badEndpoint c.queue.isSome d d.rows 0 with
  | some t => efault t
  | none =>
    let far ← if c.world = 0 then pure false else copyFar c d
    if far then deferCopy c d
    else
      let s ← enow
      if s.refillHeld c d then estop .hold
      copyPages c d true
      copyRows c d a b d.rows 0 none

/-- CPY at its engine (R347): after a hold it goes on where it stood. -/
def copyBody (c : Cmd) : EM (Option Trap) := do
  let (a, b) ← match c.work with
    | .copy a b _ _ _ _ => pure (a, b)
    | _ => copyRead c
  match copyDesc a b with
  | none => efault (.of cENGINE (c.args.getD 0 0))
  | some d =>
    let bad ← match c.work with
      | .copy _ _ r o bs bad =>
        if !bs.isEmpty then do
          copyOut c d.upward a b r o bs bad
          copyRows c d a b (d.rows - (r + 1)) (r + 1) bad
        else if r ≠ 0 then copyRows c d a b (d.rows - r) r bad
        else copyStart c a b d
      | _ => copyStart c a b d
    return bad.map fun va => Trap.sized cPOISON va d.length

/-- Copies of one context start in issue order (R349). -/
def State.copyTurn (s : State) (c : Cmd) : Bool :=
  c.queue.isSome || !(s.cmds.any fun e => e.queue.isNone && e.kind == kCPY && e.team == c.team && e.hart == c.hart &&
    e.ctx == c.ctx && decide (e.seq < c.seq) && !e.finished)

/-- COPY_START (R347 to R349). -/
def execCopyStart (cid : Nat) (s : State) : Host.Outcome State Fault Refusal :=
  .next (if (s.cmdAt cid).any s.copyTurn then s.runCmd cid [kCPY] copyBody else s)

/-! ### Gathers and scatters (R252 to R254, R247) -/

/-- An element lost to uncorrectable data. -/
def Tally.lost (t : Tally) (va : Word) : Tally := { t with ue := t.ue + 1, first := if t.ue = 0 then va else t.first }

/-- The 32 bytes of a completion record (log entry 46). -/
def recordOf (status : Nat) (t : Tally) : List Byte :=
  leBytes 8 (t.ue % 2 ^ 32 * 2 ^ 32 + t.flags.toNat * 256 + status) ++ leBytes 8 (t.oob % 2 ^ 32 * 2 ^ 32 + t.ce % 2 ^ 32)
    ++ leBytes 8 t.first.toNat ++ leBytes 8 t.done

/-- Bursts of n bytes from a DRAM key that carry a correctable error are corrected in the cells and counted (R247,
R248): their number. -/
def State.correct (s : State) (w k n : Nat) : Nat × State :=
  if !isDram k || s.ce.isEmpty || s.holder k 5 w != 0 then (0, s)
  else
    let bs := (List.range ((k + n - 1) / 32 - k / 32 + 1)).map (k / 32 + ·)
    let hit := bs.filter fun b => s.ce.contains (2 * b) || s.ce.contains (2 * b + 1)
    let s1 := { s with ce := s.ce.filter fun g => !hit.contains (g / 2), raws := s.raws.filter fun r => !hit.contains (r.1 / 2) }
    (hit.length, hit.foldl (fun s b =>
      let key := b * 32
      let bank := key / 2 ^ 36 * 384 + s.bankOf key
      let old := tableGet s.berr bank 0
      let cnt := min 255 ((bits old 51 8).toNat + 1)
      { s with berr := tableSet s.berr bank ((old &&& ~~~(0xFF#64 <<< 51)) ||| (BitVec.ofNat 64 cnt <<< 51)) }) s1)

/-- The bytes of an element at a DRAM key, and whether one of its bursts is uncorrectable (R247). -/
def unitRead (c : Cmd) (k n : Nat) (t : Tally) : EM (List Byte × Bool × Tally) := do
  let s ← enow
  let lo := k / 32 * 32
  let bad := (List.range ((k + n + 31) / 32 * 32 - lo)).filter fun i => s.byteBad c.world (lo + i)
  let (ce, s1) := s.correct c.world k n
  echange fun _ => s1.logBursts (.mem lo) bad 2 c.team
  return (s.bytesIn c.world k n, !bad.isEmpty, { t with ce := t.ce + ce })

/-- The f32 poison code repeated and cut to n bytes (R247). -/
def poisonFill (n : Nat) : List Byte := (List.range n).map fun i => bits 0x7FE00001#32 (8 * (i % 4)) 8

/-- An element with its index: its address, or none where it is out of bounds. -/
abbrev Elems := List (Nat × Option Word)

/-- The addresses of the elements, all indices read first (R250, R252). -/
def ixElems (c : Cmd) (x : IxArgs) : EM Elems := do
  let z := x.indexSize
  let bs ← engReadOk c x.idx (x.count * z)
  let es := (List.range x.count).map fun i =>
    let ix := leVal ((bs.drop (i * z)).take z)
    (i, if x.limit = 0 ∨ ix < x.limit then some (x.table + BitVec.ofNat 64 ix * BitVec.ofNat 64 x.stride) else none)
  let s ← enow
  match es.findSome? fun e => e.2.bind fun va =>
    if isWindow va then some (Trap.of cENGINE va) else s.farTrap va (2 ^ x.esize) with
  | some t => efault t
  | none => return es

/-- Elements whose pages were refused, once every page has been asked for; a page of CLASS 2 is ENGINE, a page that
denies the access PROTECT (R252, R440). -/
def ixRefused (c : Cmd) (a : Acc) (n : Nat) (es : Elems) : EM (List (Nat × Word)) := do
  let vas := es.filterMap fun e => e.2.map fun va => (e.1, va)
  engPages c a (vas.map (·.2))
  let s ← enow
  let bad := vas.findSome? fun (_, va) =>
    match s.xlate c.asid a va with
    | .at_ _ 2 _ => some (Trap.of cENGINE va)
    | .denied _ => some (Trap.sized cPROTECT va n)
    | _ => none
  match bad with
  | some t => efault t
  | none => return vas.filter fun x => s.xlate c.asid a x.2 == .missing

/-- PAGE_GATHER with its fault record (R151). -/
def gatherFault (x : IxArgs) (ref : List (Nat × Word)) : Trap :=
  { Trap.of cPAGE_GATHER ((ref.head?.map (·.2)).getD 0) with
    more := gatherRecord x.count (ref.map (·.1)) (ref.map fun r => pageOf r.2).eraseDups }

/-- The key of an element that is mapped. -/
def elemKey (c : Cmd) (a : Acc) (va : Word) (n : Nat) : EM Nat := do
  match ← engPlace c a false va n with
  | .mem k => return k
  | .win _ => efault (.of cENGINE va)

/-- The elements of a gather from the list, each performed once; all is the whole list (R252). One that is out of bounds does not count
in DONE (log entry 46). -/
def gatherFrom (c : Cmd) (x : IxArgs) (all : Elems) (ref : List (Nat × Word)) : Elems → Tally → EM Tally
  | [], t => pure t
  | (i, va?) :: rest, t => do
    let n := 2 ^ x.esize
    let slot := x.pack + 32 + BitVec.ofNat 64 (i * n)
    engReady c .store slot n
    let t1 ← match va? with
      | none =>
        engWrite c false slot (clean (List.replicate n 0))
        pure { t with oob := t.oob + 1 }
      | some va =>
        if ref.any (·.1 == i) then pure t
        else
          engReady c .load va n
          let k ← elemKey c .load va n
          let (bs, bad, t1) ← unitRead c k n t
          let t2 := if bad then t1.lost va else t1
          saveWork c (.index all ref i t2)
          engWrite c false slot (clean (if bad then poisonFill n else bs))
          pure { t2 with done := t2.done + 1 }
    saveWork c (.index all ref (i + 1) t1)
    gatherFrom c x all ref rest t1

/-- One lane of an add (R253). -/
def laneAdd (atype : Nat) (old x : Nat) : Nat × Flags :=
  let fl (f : Fmt) : Nat × Flags := roundWith f false .rne (Num.add .rne (f.value old) (f.value x))
  match atype with
  | 0 => fl fmtF32
  | 1 => fl fmtF16
  | 2 => fl fmtBf16
  | 3 => ((old + x) % 2 ^ 32, 0)
  | _ => ((old + x) % 2 ^ 64, 0)

/-- The lanes of an add. -/
def lanesAdd (atype : Nat) (old new : List Byte) : List Byte × Flags :=
  let z := laneSize atype
  let rs := (List.range (new.length / z)).map fun j =>
    laneAdd atype (leVal ((old.drop (j * z)).take z)) (leVal ((new.drop (j * z)).take z))
  ((rs.flatMap fun r => leBytes z r.1), rs.foldl (fun acc r => acc ||| r.2) 0)

/-- The elements of a scatter from the list, in order, each performed once (R253, R395). -/
def scatterFrom (c : Cmd) (x : IxArgs) (all : Elems) : Elems → Tally → EM Tally
  | [], t => pure t
  | (i, va?) :: rest, t => do
    let n := 2 ^ x.esize
    let slot := x.pack + 32 + BitVec.ofNat 64 (i * n)
    let t1 ← match va? with
      | none => pure { t with oob := t.oob + 1 }
      | some va =>
        let a : Acc := if x.sop = 0 then .store else .atomic
        engReady c .load slot n
        engReady c a va n
        let (bs, bad) ← engRead c slot n
        if !bad.isEmpty then pure (t.lost slot)
        else if x.sop = 0 then
          engWrite c false va (clean bs)
          pure { t with done := t.done + 1 }
        else
          let k ← elemKey c .atomic va n
          let (old, bad, t1) ← unitRead c k n t
          saveWork c (.index all [] i t1)
          if bad then pure (t1.lost va)
          else
            let (new, fl) := lanesAdd x.atype old bs
            engWrite c false va (clean new)
            pure { t1 with done := t1.done + 1, flags := t1.flags ||| fl }
    saveWork c (.index all [] (i + 1) t1)
    scatterFrom c x all rest t1

/-- The fault that is delivered once a gather or scatter has completed: uncorrectable data (R249). -/
def Tally.trap (t : Tally) : Option Trap :=
  if t.ue = 0 then none else some { Trap.of cBANK_UE t.first with aux := t.ue }

/-- Write a completion record once it can be written; a fault of the result area leaves none (R245). -/
def putRecord (c : Cmd) (va : Word) (status : Nat) (t : Tally) : EM Unit := fun s =>
  match (do engReady c .store va 32; engWrite c false va (clean (recordOf status t)) : EM Unit) s with
  | .error (.fault _) s1 => .ok () s1
  | r => r

/-- What a gather or scatter has counted. -/
def State.workTally (s : State) (cid : Nat) : Tally :=
  match s.cmdAt cid with
  | some c =>
    match c.work with
    | .index _ _ _ t => t
    | _ => .zero
  | none => .zero

/-- The part of a command behind its result area: an engine fault in it still writes a record, with what has been counted
(R245, R249). -/
def withRecord (c : Cmd) (va : Word) (body : EM (Tally × Option Trap)) : EM (Option Trap) := fun s =>
  match body s with
  | .ok (t, f) s1 =>
    (do
      putRecord c va (if f.isSome then 2 else if t.ue = 0 then 0 else 1) t
      return f.or t.trap : EM (Option Trap)) s1
  | .error (.fault f) s1 =>
    (do
      putRecord c va 2 (s1.workTally c.cid)
      return some f : EM (Option Trap)) s1
  | .error e s1 => .error e s1

/-- The elements of a command and those refused, with where it stands: read at its start, or as they were at a hold. -/
def ixStart (c : Cmd) (x : IxArgs) (a : Acc) : EM (Elems × List (Nat × Word) × Nat × Tally) :=
  match c.work with
  | .index all ref next t => pure (all, ref, next, t)
  | _ => do
    if !isWindow x.idx then engOrdinary c .load true x.idx (x.count * x.indexSize)
    let es ← ixElems c x
    let ref ← ixRefused c a (2 ^ x.esize) es
    saveWork c (.index es ref 0 .zero)
    return (es, ref, 0, .zero)

/-- GTHR (R252). -/
def gatherBody (c : Cmd) : EM (Option Trap) := do
  let x := ixArgs c.args
  engOrdinary c .store true x.pack (32 + x.count * 2 ^ x.esize)
  withRecord c x.pack do
    let (es, ref, next, t) ← ixStart c x .load
    let t ← gatherFrom c x es ref (es.drop next) t
    return (t, if ref.isEmpty then none else some (gatherFault x ref))

/-- SCTR (R253): its packed elements are ordinary memory of this device or a window before any element is performed (R250,
R440). -/
def scatterBody (c : Cmd) : EM (Option Trap) := do
  let x := ixArgs c.args
  engOrdinary c .store true x.pack 32
  withRecord c x.pack do
    engOrdinary c .load true (x.pack + 32) (x.count * 2 ^ x.esize)
    let (es, ref, next, t) ← ixStart c x (if x.sop = 1 then .atomic else .store)
    if !ref.isEmpty then efault (gatherFault x ref)
    let t ← scatterFrom c x es (es.drop next) t
    return (t, none)

/-- GATHER_START. -/
def execGatherStart (cid : Nat) (s : State) : Host.Outcome State Fault Refusal :=
  .next (s.runCmd cid [kGTHR] gatherBody)

/-- SCATTER_START. -/
def execScatterStart (cid : Nat) (s : State) : Host.Outcome State Fault Refusal :=
  .next (s.runCmd cid [kSCTR] scatterBody)

/-! ### Completion (R175, R301) -/

/-- The number up to which every command of a context has completed. -/
def State.passedTo (s : State) (t h k issued : Nat) : Nat :=
  let out := (s.cmds.filter fun c => c.queue.isNone && c.team == t && c.hart == h && c.ctx == k).map (·.seq)
  out.foldl (fun acc n => min acc (n - 1)) issued

/-- A context takes a fault of its undelivered slot: a second one is lost and sets TSTAT.OVR. -/
def Hart.takeFault (h : Hart) (k : Nat) (t : Trap) : Hart :=
  let c := h.ctxs[k % 8]'(Nat.mod_lt _ (by decide))
  if c.fault.isSome then { h with tstat := putBit h.tstat tOVR true }
  else
    { h with ctxs := h.ctxs.set (k % 8) { c with fault := some t } (Nat.mod_lt _ (by decide)),
             pending := h.pending ++ [k % 8] }

/-- The counter of a context advances to n; the faults of the commands that it passes are pending in their order. -/
def Hart.advance (h : Hart) (k n : Nat) : Hart :=
  let c := h.ctxs[k % 8]'(Nat.mod_lt _ (by decide))
  let due := c.late.filter fun x => decide (x.1 ≤ n)
  let h1 := { h with ctxs := h.ctxs.set (k % 8) { c with tc := max c.tc n, late := c.late.filter fun x => decide (n < x.1) }
                       (Nat.mod_lt _ (by decide)) }
  due.foldl (fun h x => h.takeFault k x.2) h1

/-- Faults in the order of their commands. -/
def lateInsert (x : Nat × Trap) : List (Nat × Trap) → List (Nat × Trap)
  | [] => [x]
  | y :: rest => if x.1 < y.1 then x :: y :: rest else y :: lateInsert x rest

/-- The status of a copy packet that fails goes to the management core with the packet's offset (R344, R306). -/
def State.packetDone (s : State) (q : Nat) (c : Cmd) : State :=
  let s1 := s.setQueue q { s.queueAt q with copies := (s.queueAt q).copies.filter (· != c.cid) }
  match c.fault with
  | some t =>
    (s1.event eFAULT_RECORD q 0 (BitVec.ofNat 64 (t.sub % 256 * 256 + t.code % 256)) (BitVec.ofNat 64 c.seq)).kickQueue q
  | none => s1.kickQueue q

/-- Whether a pool write is one of a command numbered n or below of a context of a hart. -/
def PoolWrite.upTo (p : PoolWrite) (team hart ctx n : Nat) : Bool :=
  p.team == team && p.hart == hart && match p.by_ with
    | .command _ k seq => k == ctx && decide (seq ≤ n)
    | _ => false

/-- The counter of a context passes n: under a CTXSCOPE of fabric the pool writes of the commands up to n have completed (R175). -/
def State.landContext (s : State) (team hart ctx n : Nat) : State :=
  if s.ctxscope = 4 then { s with poolOut := s.poolOut.filter (!PoolWrite.upTo · team hart ctx n) } else s

/-- ENGINE_COMPLETE: the counter of the command's context advances over it, a release at CTXSCOPE that every performed
write of the model meets (log entry 4), under fabric scope with the completions from the pool of all commands that it passes; its
fault is pending for its hart (R175, R301). -/
def execEngineComplete (cid : Nat) (s : State) : Host.Outcome State Fault Refusal :=
  .next (match s.cmdAt cid with
    | some c =>
      if !c.finished then s
      else
        let s1 := { s with cmds := s.cmds.filter (·.cid != cid) }
        match c.queue with
        | some q => { s1 with poolOut := s1.poolOut.filter fun p => p.by_ != PoolBy.command cid c.ctx c.seq }.packetDone q c
        | none =>
          match s1.hartAt c.team c.hart with
          | some h =>
            let x := h.ctxs[c.ctx % 8]'(Nat.mod_lt _ (by decide))
            let n := s1.passedTo c.team c.hart c.ctx x.seq
            (s1.landContext c.team c.hart c.ctx n).onHart c.team c.hart fun h =>
              let x := h.ctxs[c.ctx % 8]'(Nat.mod_lt _ (by decide))
              let late := match c.fault with
                | some t => lateInsert (c.seq, t) x.late
                | none => x.late
              ({ h with ctxs := h.ctxs.set (c.ctx % 8) { x with late := late } (Nat.mod_lt _ (by decide)) }).advance c.ctx n
          | none =>
            let issued := ((s1.past.find? fun p => p.team == c.team && p.hart == c.hart).map fun p => p.seq.getD (c.ctx % 8) 0).getD 0
            let n := s1.passedTo c.team c.hart c.ctx issued
            { s1.landContext c.team c.hart c.ctx n with past := s1.past.map fun p =>
                if p.team = c.team ∧ p.hart = c.hart then
                  { p with tc := p.tc.set (c.ctx % 8) (max (p.tc.getD (c.ctx % 8) 0) n) }
                else p }
    | none => s)

/-! ### Row synchronisation (R185, R386, R387) -/

/-- The place of one page's part of a range, with no permission asked. -/
def rangePage (va : Word) (n : Nat) : M (List Nat) := fun s =>
  match s.xlate s.team.asid { rd := false, wr := false, fx := false } va with
  | .at_ k cls e =>
    if cls = 0 then .ok (rowsOf k n) s
    else
      .error (.trap (.of cENGINE (BitVec.ofNat 64 (towerOf va * 2 ^ 43 + e.base)))) s
  | .missing => holdPage .load va n s
  | .busy => .error (.wait .busy) s
  | .record _ => .ok [] s
  | _ => .error (.trap (.of cENGINE va)) s

/-- The DRAM rows of a range that is not empty (R386): every page is translated before a class is judged. -/
def rangeRows (b : Word) (n : Nat) : M (List Nat) := do
  let last := b + BitVec.ofNat 64 (n - 1)
  need (decide (b.toNat + n ≤ 2 ^ 64) && isOwn b && isOwn last && towerOf b == towerOf last) (.trap (.of cENGINE b))
  let ps := piecesOf b (n / 65536 + 2) n
  ps.forM fun p => fun s =>
    if s.xlate s.team.asid { rd := false, wr := false, fx := false } p.1 = .missing then holdPage .load p.1 p.2 s
    else .ok () s
  let rows ← ps.mapM fun p => rangePage p.1 p.2
  return rows.flatten.eraseDups

def meets (a b : List Nat) : Bool := a.any b.contains

/-- The commands of row programs and expressions with their rows. -/
def State.rowCmds (s : State) : List (Nat × Bool × List Nat) :=
  (s.runs.map fun r => (r.cid, r.live, r.reads ++ r.writes)) ++ s.exprs.map fun r => (r.cid, r.live, r.reads ++ r.writes)

def State.teamOfCmd (s : State) (cid : Nat) : Nat := ((s.cmdAt cid).map (·.team)).getD ownTeam

/-- RLOCK. -/
def execRlock (a b : Reg) (s : State) : Host.Outcome State Fault Refusal :=
  .next (s.word do
    let at_ := s.x a
    let n := (s.x b).toNat
    if n ≠ 0 then
      need (s.team.world == 0) (.trap (.of cWORLD_ESCAPE at_))
      let rows ← rangeRows at_ n
      let s ← now
      need (!(s.rowCmds.any fun r => r.2.1 && s.teamOfCmd r.1 != s.team.no && meets r.2.2 rows)) (.wait .rows)
      let t := towerOf at_
      need (decide ((s.locks.filter (·.tower == t)).length < 64)) (.wait .rows)
      change fun s => { s with locks := s.locks ++ [{ tower := t, team := s.team.no, rows := rows }] })

/-- RUNLOCK. -/
def execRunlock (a b : Reg) (s : State) : Host.Outcome State Fault Refusal :=
  .next (s.word do
    let at_ := s.x a
    let n := (s.x b).toNat
    if n ≠ 0 then
      need (s.team.world == 0) (.trap (.of cWORLD_ESCAPE at_))
      let rows ← rangeRows at_ n
      release .package
      change fun s =>
        { s with locks := s.locks.filter fun l => !(l.team == s.team.no && l.rows.all rows.contains) })

/-- Older copies of some rows that a hart's core or a shared cache keeps give way to what row commands have written (R185). -/
def State.freshRows (s : State) (rows : List Nat) : State :=
  let in_ (k : Nat) : Bool := isDram k && rows.contains (k / 1024)
  let s1 := { s with l1 := s.l1.filter fun l => !(l.core == s.team.core && in_ l.key) }
  s1.evict fun k => in_ k && !s.under.any fun e => e.1 == k && e.2.2

/-- The action of RFENCE. -/
def rfenceWord (a b : Reg) : M Unit := do
  let at_ ← reg a
  let n := (← reg b).toNat
  if n ≠ 0 then
    let rows ← rangeRows at_ n
    let s ← now
    if s.team.world = 0 then
      need (!(s.cmds.any fun c => c.queue.isNone && c.team == s.team.no && (c.kind == kRPL || c.kind == kBXL) &&
        !c.accepted)) (.wait .rows)
      need (!(s.rowCmds.any fun r => (r.2.1 || s.teamOfCmd r.1 == s.team.no) && meets r.2.2 rows)) (.wait .rows)
    change fun s => s.freshRows rows
  acquire .package

/-- RFENCE. -/
def execRfence (a b : Reg) (s : State) : Host.Outcome State Fault Refusal := .next (s.word (rfenceWord a b))

end Sys2Proof.Machine
end

