-- ==== Sys2Proof/Machine/RowProg.lean ====
section
/-! DEFINITION. Row programs: acceptance and validation (R106 to R108, R225, R227, R235, R376, R389), the row words over a
wave of members (R220 to R224, R329, R354, R375, R377, R390, R402, R411), waves (R229), refresh (R230), ECC (R231 to R233)
and the end of a program (R233, R235, R364). -/

namespace Sys2Proof.Machine

/-! ### Members (R125, R225, R237) -/

/-- A member as its coordinate word gives it. -/
def coordTower (c : BitVec 32) : Nat := (bits c 16 3).toNat
def coordDie (c : BitVec 32) : Nat := (bits c 12 4).toNat
def coordBank (c : BitVec 32) : Nat := (bits c 7 5).toNat
def coordSub (c : BitVec 32) : Nat := (bits c 0 7).toNat
def coordOk (c : BitVec 32) : Bool := bits c 19 13 == 0 && decide (coordDie c ≤ 11)

/-- The present-bank index of a bank of a tower (R221). -/
def Tower.bankIx (t : Tower) (die bank : Nat) : Option Nat :=
  t.present.findIdx? (· == die * 32 + bank)

/-- The mask of retired and narrowed channels of a tower (R237). -/
def Tower.missing (t : Tower) : BitVec 48 := t.retired ||| t.narrowed

/-- TVAL of BIND_SHORT (R227). -/
def missingMask (tower : Nat) (t : Tower) : Word := BitVec.ofNat 64 (tower * 2 ^ 48 + t.missing.toNat)

/-- The number of the subarray of a coordinate word: its DRAM rows are 1,024 times that number and up. -/
def State.subOf (s : State) (c : BitVec 32) : Option Nat :=
  ((s.towerAt (coordTower c)).bankIx (coordDie c) (coordBank c)).map fun ix =>
    coordTower c * 2 ^ 16 + ix * 2 ^ 7 + coordSub c

/-! ### Validation (R108, R235, R376) -/

/-- What the check of a program has met: the bases, the open loops (word, passes left, mask), row words since the last
STEP, the data rows read and written, and the indices of offending words. -/
structure RowCheck where
  bases : List Nat
  loops : List (Nat × Nat × BitVec 7)
  run : Nat
  reads : List Nat
  writes : List Nat
  bad : List Nat
  deriving DecidableEq, Repr

/-- A base list with 1 added at each place of a mask (R224). -/
def advance (mask : BitVec 7) (bases : List Nat) : List Nat :=
  bases.zipIdx.map fun (b, j) => if mask.getLsbD j then b + 1 else b

/-- The data row of an operand, or none for a compute row. -/
def dataRow (bases : List Nat) : RowRef → Option Nat
  | .comp _ => none
  | .data j off => some (bases.getD j.val 0 + off.toNat)

/-- A row word with its operands is checked. -/
def RowCheck.op (c : RowCheck) (tx : Bool) (pc : Nat) (src dst : Option RowRef) : RowCheck :=
  let run := c.run + 1
  let rs := (src.bind (dataRow c.bases)).toList
  let ws := (dst.bind (dataRow c.bases)).toList
  let writes := if ws.all c.writes.contains then c.writes else c.writes ++ ws
  let bad := (decide (run = 65)) || (rs ++ ws).any (fun r => decide (1023 < r)) ||
    (tx && decide (writes.length = 33 ∧ c.writes.length = 32))
  { c with run := run, reads := if rs.all c.reads.contains then c.reads else c.reads ++ rs, writes := writes,
           bad := if bad then c.bad ++ [pc] else c.bad }

/-- The check from word pc on, each loop unrolled. A loop that is no legal loop is passed through once. -/
def checkFrom (words : List (BitVec 32)) (w : Nat) (tx : Bool) : Nat → Nat → RowCheck → RowCheck
  | 0, _, c => c
  | n + 1, pc, c =>
    match words[pc]? with
    | none => c
    | some x =>
      let go := checkFrom words w tx n
      match decodeRow x with
      | .ok .halt =>
        match c.loops with
        | (at_, _, _) :: _ => { c with bad := c.bad ++ [at_ - 1] }
        | [] => c
      | .ok (.aap s d) | .ok (.dnot s d) | .ok (.lshf s d) | .ok (.rshf s d) =>
        go (pc + 1) (c.op tx pc (some s) (some d))
      | .ok (.tra _) => go (pc + 1) (c.op tx pc none none)
      | .ok (.loopw k m) =>
        let count := if k = 0 then w else k.toNat
        if count = 0 ∨ 2 ≤ c.loops.length then
          go (pc + 1) { c with loops := (pc + 1, 1, 0) :: c.loops, bad := c.bad ++ [pc] }
        else go (pc + 1) { c with loops := (pc + 1, count, m) :: c.loops }
      | .ok .endw =>
        match c.loops with
        | [] => go (pc + 1) { c with bad := c.bad ++ [pc] }
        | (at_, left, m) :: rest =>
          let c1 := { c with bases := advance m c.bases }
          if 1 < left then go at_ { c1 with loops := (at_, left - 1, m) :: rest }
          else go (pc + 1) { c1 with loops := rest }
      | .ok .step => go (pc + 1) { c with run := 0 }
      | _ => go (pc + 1) { c with bad := c.bad ++ [pc] }

/-- More words than any program of 1,024 words runs. -/
def checkFuel : Nat := 1024 * 32 * 32

def checkProgram (words : List (BitVec 32)) (bases : List Nat) (w : Nat) (tx : Bool) : RowCheck :=
  checkFrom words w tx checkFuel 0 { bases := bases, loops := [], run := 0, reads := [], writes := [], bad := [] }

/-! ### Acceptance at the CP (R227, R389) -/

/-- One word of a program, by the copies that the CP of a tower keeps. -/
def readRowWord (c : Cmd) (tower : Nat) (va : Word) : EM (BitVec 32) := do
  engOrdinary c .load false va 4
  let bs ← engReadOk c va 4
  let k ← elemKey c .load va 4
  let s ← enow
  let (bs, s1) := if bs.isEmpty then (bs, s) else s.takeCode (64 + tower) c.world c.asid va k 4
  echange fun _ => s1
  return BitVec.ofNat 32 (leVal bs)

/-- Read the words up to the first HALT, at most n. -/
def readProgram (c : Cmd) (tower : Nat) : Nat → Word → EM (List (BitVec 32))
  | 0, _ => pure []
  | n + 1, va => do
    let w ← readRowWord c tower va
    if w = 0 then return [w]
    let rest ← readProgram c tower n (va + 4)
    return w :: rest

/-- The bases of the argument registers (R226). -/
def rplBases (args : List Word) : List Nat :=
  ((List.range 6).map fun j => (bits (args.getD 2 0) (10 * j) 10).toNat) ++ [(bits (args.getD 3 0) 0 10).toNat]

/-- Read and check an RPL: its program as accepted, or its engine fault. Every word is read before any is judged (log entry 65). -/
def acceptRpl (c : Cmd) : EM Run := do
  let prog := c.args.getD 0 0
  let desc := c.args.getD 1 0
  let q := c.args.getD 3 0
  engOrdinary c .load false desc 16
  let hd ← engReadOk c desc 16
  let h := dwordOf hd 0
  let n := (bits h 0 16).toNat
  eneed (bits h 32 32 == 0 && dwordOf hd 8 == 0 && decide (1 ≤ n ∧ n ≤ 4096)) (.of cENGINE desc)
  engOrdinary c .load false (desc + 16) (4 * n)
  let body ← engReadOk c (desc + 16) (4 * n)
  let coords := (List.range n).map fun m => BitVec.ofNat 32 (leVal ((body.drop (4 * m)).take 4))
  let tower := ((coords.head?).map coordTower).getD 0
  eneed (coords.all coordOk && coords.eraseDups.length == n && coords.all (fun x => coordTower x == tower))
    (.of cENGINE desc)
  let s ← enow
  let subs := coords.filterMap s.subOf
  eneed (subs.length == n) (.of cBIND_SHORT (missingMask tower (s.towerAt tower)))
  let words ← readProgram c tower 1024 prog
  let bases := rplBases c.args
  let tx := q.getLsbD 33
  let chk := checkProgram words bases (bits q 16 5).toNat tx
  match least chk.bad with
  | some k => efault (.of cROWPROG (prog + BitVec.ofNat 64 (4 * k)))
  | none => pure ()
  eneed (words.getLast? == some 0) (.of cROWPROG (prog + 4096))
  let rowsIn (rs : List Nat) : List Nat := subs.flatMap fun m => rs.map (m * 1024 + ·)
  let s ← enow
  return { cid := c.cid, order := s.nextOrder, tower := tower, coords := coords, subs := subs, words := words, args := bases,
           wcount := (bits q 16 5).toNat, tx := tx, chk := q.getLsbD 32, flushed := [], reads := rowsIn chk.reads,
           writes := rowsIn chk.writes, live := false, lo := 0, hi := 0, pc := 0, bases := bases, loops := [],
           stale := [], shadow := [], checked := [], bad := [], atStep := false, halted := false }

/-! ### The order of row commands (R185, R228, R387) -/

/-- A row command with what R228 looks at. -/
structure RowUse where
  cid : Nat
  order : Nat
  tower : Nat
  subs : List Nat
  reads : List Nat
  writes : List Nat
  live : Bool
  deriving DecidableEq, Repr

def Run.use (r : Run) : RowUse :=
  { cid := r.cid, order := r.order, tower := r.tower, subs := r.subs, reads := r.reads, writes := r.writes, live := r.live }
def ExprRun.use (r : ExprRun) : RowUse :=
  { cid := r.cid, order := r.order, tower := r.tower, subs := [], reads := r.reads, writes := r.writes,
    live := r.live || r.ended }

def State.rowUses (s : State) : List RowUse := s.runs.map Run.use ++ s.exprs.map ExprRun.use

/-- Whether an earlier command e holds a later command c (R228). -/
def RowUse.holds (e c : RowUse) : Bool :=
  meets e.subs c.subs || meets e.writes (c.reads ++ c.writes) || meets e.reads c.writes

/-- Whether the commands of one hart stand between: one of its row commands, issued earlier, is not yet accepted. -/
def State.issueOrder (s : State) (c : Cmd) : Bool :=
  !(s.cmds.any fun e => e.queue.isNone && (e.kind == kRPL || e.kind == kBXL) && e.team == c.team && e.hart == c.hart &&
    decide (e.cid < c.cid) && !e.accepted && !e.finished)

/-- Whether an accepted command may start: no lock of another team meets its rows, the commands that its CP has accepted
before it have started, and none of them that conflicts still runs. -/
def State.mayStart (s : State) (team : Nat) (u : RowUse) : Bool :=
  !(s.locks.any fun l => l.team != team && meets l.rows (u.reads ++ u.writes)) &&
    !(s.rowUses.any fun e => e.cid != u.cid && e.tower == u.tower && decide (e.order < u.order) && (!e.live || e.holds u))

/-! ### ROW_PROGRAM_START -/

/-- Whether two runs are the same wave, or the same members still to be admitted. -/
def Run.same (a b : Run) : Bool := a.cid == b.cid && a.lo == b.lo

def State.setRun (s : State) (r : Run) : State := { s with runs := s.runs.map fun x => if x.same r then r else x }

/-- An RPL that its CP takes: accepted, or ended by its engine fault (R227). -/
def State.acceptRow (s : State) (c : Cmd) : State :=
  if c.dropped then s.finishCmd c.cid none
  else
    match acceptRpl c s with
    | .ok r s1 =>
      { s1.onCmd c.cid fun c => { c with accepted := true, hold := [], answers := [] } with
        runs := s1.runs ++ [r], nextOrder := s1.nextOrder + 1 }
    | .error (.fault t) s1 => s1.finishCmd c.cid (some t)
    | .error .hold s1 => s1
    | .error .gone s1 => s1.finishCmd c.cid none

/-- ROW_PROGRAM_START: once R179 allows its reads, acceptance; then the range flush and the start, once the row locks and the
earlier commands allow it. -/
def execRowProgramStart (cid : Nat) (s : State) : Host.Outcome State Fault Refusal :=
  .next (match s.cmdAt cid with
    | some c =>
      if c.kind != kRPL || c.finished || c.started || !s.issueOrder c || !s.settled c then s
      else
        let s1 := if c.accepted then s else s.acceptRow c
        match s1.runs.find? (·.cid == cid) with
        | some r =>
          if s1.mayStart c.team r.use && !s1.flushHeld c.launch then
            let (spans, s2) := s1.rangeFlush c.launch
            (s2.setRun { r with live := true, flushed := spans }).onCmd cid fun c => { c with started := true }
          else s1
        | none => s1
    | none => s)

/-! ### Waves (R222, R229) -/

/-- Subarrays of a die that may run programs at once (R22). -/
def arrayShare (mode : Nat) : Nat :=
  match mode with
  | 0 => 256
  | 1 => 512
  | 2 => 128
  | _ => 4096

def Run.waveCoords (r : Run) : List (BitVec 32) := (r.coords.drop r.lo).take (r.hi - r.lo)

/-- Members under way on a die of a tower. -/
def State.dieLoad (s : State) (tower die : Nat) : Nat :=
  (s.runs.map fun r => if r.live && r.tower == tower then (r.waveCoords.filter fun c => coordDie c == die).length else 0).sum

/-- How many further members are admitted, in strict descriptor order. -/
def State.admits (s : State) (tower cap : Nat) : List (BitVec 32) → List Nat → Nat
  | [], _ => 0
  | c :: rest, taken =>
    if s.dieLoad tower (coordDie c) + (taken.filter (· == coordDie c)).length < cap then
      s.admits tower cap rest (coordDie c :: taken) + 1
    else 0

/-- Compute rows that are not constant are cleared (R222). -/
def State.clearRows (s : State) (subs : List Nat) : State :=
  { s with crows := s.crows.filter fun e => !subs.contains e.1.1 }

/-- Whether a run is the members of a live program that are still to be admitted. -/
def Run.rest (r : Run) : Bool := r.live && r.lo == r.hi && decide (r.lo < r.subs.length)

/-- WAVE_ADMIT: the next members of a program for which their die has room begin at its first word as a wave of their own, beside
the earlier waves (log entry 47). -/
def execWaveAdmit (cid : Nat) (s : State) : Host.Outcome State Fault Refusal :=
  .next (match s.runs.find? fun r => r.cid == cid && r.rest with
    | some r =>
      let n := s.admits r.tower (arrayShare s.mode) (r.coords.drop r.lo) []
      if n = 0 then s
      else
        let wave := { r with hi := r.lo + n, pc := 0, bases := r.args, loops := [], atStep := false, halted := false }
        let left := { r with lo := r.lo + n, hi := r.lo + n, bad := [], shadow := [] }
        let others := s.runs.filter (!Run.same r ·)
        { s with runs := others ++ wave :: (if left.rest then [left] else []) }.clearRows wave.wave
    | none => s)

/-! ### Rows -/

/-- The key of a data row of a subarray, and the row's number. -/
def rowKey (sub row : Nat) : Nat := (sub * 1024 + row) * 1024

/-- A compute row (R222). -/
def State.compRow (s : State) (sub : Nat) (n : Fin 16) : Row :=
  if n = 0 then 0
  else if n = 1 then BitVec.allOnes _
  else
    let get (k : Nat) : Row := ((s.crows.find? (·.1 == (sub, k))).map (·.2)).getD 0
    if n = 3 then ~~~get 2 else get n.val

/-- Write a compute row; c0, c1 and c3 are no destinations (R108). -/
def State.setComp (s : State) (sub n : Nat) (v : Row) : State :=
  { s with crows := (s.crows.filter fun e => e.1 != (sub, n)) ++ (if v = 0 then [] else [((sub, n), v)]) }

/-- The 128 bits of a segment as they stand in the array (R232): those of an uncorrectable one are undefined, those of a
correctable one differ in at most one; both stay as they are until the segment is written (log entry 10). -/
def State.rawSeg (s : State) (g : Nat) (data : BitVec 128) : BitVec 128 × State :=
  match s.raws.find? (·.1 == g) with
  | some r => (r.2, s)
  | none =>
    let x := Config.rawCells s.fresh
    let v := if s.ue.contains g then x else data ^^^ (1#128 <<< (x.toNat % 137))
    (v, { s with fresh := s.fresh + 1, raws := s.raws ++ [(g, v)] })

/-- The cells of a data row as row words read them (R182, R232). -/
def State.cells (s : State) (sub row : Nat) : Row × State :=
  let k := rowKey sub row
  let v : Row := BitVec.ofNat _ (leVal (s.dramBytes k 1024))
  let gs := (List.range 64).filter fun g => s.ue.contains (k / 16 + g) || s.ce.contains (k / 16 + g)
  gs.foldl (fun (x : Row × State) g =>
    let (seg, s1) := x.2.rawSeg (k / 16 + g) (v.extractLsb' (128 * g) 128)
    ((x.1 &&& ~~~((BitVec.ofNat 8192 (2 ^ 128 - 1)) <<< (128 * g))) ||| (seg.zeroExtend 8192 <<< (128 * g)), s1)) (v, s)

/-- Whether a data row is an uncorrectable source: marked poisoned, or under CHK a segment that fails (R232, R233). -/
def State.rowFails (s : State) (chk : Bool) (sub row : Nat) : Bool :=
  s.rowPoison.contains (sub * 1024 + row) ||
    (chk && (List.range 64).any fun g => s.ue.contains (rowKey sub row / 16 + g))

/-- Read a source row of a member: its own writes unchecked, else the cells with the checks of the first use. BERR logs one burst of a
failing row, the first uncorrectable one, or burst 0 of a row with the poison mark alone (R233; log entry 79). -/
def State.rowRead (s : State) (r : Run) (sub : Nat) (src : RowRef) : Row × State × Run :=
  match src with
  | .comp n => (s.compRow sub n, s, r)
  | .data j off =>
    let row := r.bases.getD j.val 0 + off.toNat
    match r.shadow.find? fun x => x.1 == sub && x.2.1 == row with
    | some x => (x.2.2, s, r)
    | none =>
      if r.stale.contains (sub, row) then (BitVec.ofNat _ (leVal (s.dramBytes (rowKey sub row) 1024)), s, r)
      else if r.checked.contains (sub, row) then
        let (v, s1) := s.cells sub row
        (v, s1, r)
      else
        let fails := s.rowFails r.chk sub row
        let k := rowKey sub row
        let at_ := ((List.range 64).find? fun g => s.ue.contains (k / 16 + g)).getD 0
        let s1 := if fails then s.logBerr (k + 16 * at_) 1 (s.teamOfCmd r.cid) else s
        let s2 := if r.chk then (s1.correct 0 k 1024).2 else s1
        let (v, s3) := s2.cells sub row
        (v, s3, { r with checked := r.checked ++ [(sub, row)],
                         bad := if fails && !r.bad.contains sub then r.bad ++ [sub] else r.bad })

/-- Write a data row in the array; a line outside the flushed ranges may stay in a cache with its older bytes (R228), in the same lines
for every write of one command, since no line enters a cache while it runs (R183; log entry 72). -/
def State.arrayWrite (s : State) (r : Run) (sub row : Nat) (v : Row) : State :=
  let k := rowKey sub row
  let cached (k : Nat) : Bool :=
    !(r.flushed.any fun x => decide (x.1 ≤ k ∧ k < x.2)) && Config.cached r.cid (k / 64)
  (s.dramWrite cached k (leBytes 1024 v.toNat)).dropRaws k 1024

/-- Write a destination row of a member: a compute row, a stale data row, or a shadow row (R231, R235). -/
def State.rowWrite (s : State) (r : Run) (sub : Nat) (dst : RowRef) (v : Row) : State × Run :=
  match dst with
  | .comp n => (s.setComp sub n.val v, r)
  | .data j off =>
    let row := r.bases.getD j.val 0 + off.toNat
    if r.tx then
      (s, { r with shadow := (r.shadow.filter fun x => !(x.1 == sub && x.2.1 == row)) ++ [(sub, row, v)] })
    else
      (s.arrayWrite r sub row v,
       { r with stale := if r.stale.contains (sub, row) then r.stale else r.stale ++ [(sub, row)] })

/-! ### Row words -/

/-- Whether a postponed refresh of a bank of a wave is still to be performed, for which a wave at a STEP or at HALT waits (R230). -/
def State.refreshWaits (s : State) (r : Run) : Bool := s.refreshes.any fun b => r.wave.any fun m => bankOfSub m == b

/-- Run a word for the wave at the head of the CP's list. -/
def State.onRow (s : State) (f : Run → State → Run × State) : State :=
  match s.runs with
  | r :: _ =>
    if r.live && r.lo < r.hi && !r.halted && !(r.atStep && s.refreshWaits r) then
      let (r1, s1) := f r s
      s1.setRun r1
    else s
  | [] => s

/-- A word over the members of the wave, in lock step, and past it. -/
def State.eachMember (s : State) (f : Nat → Run → State → Run × State) : State :=
  s.onRow fun r s =>
    let (r1, s1) := r.wave.foldl (fun (x : Run × State) m => f m x.1 x.2) (r, s)
    ({ r1 with pc := r1.pc + 1, atStep := false }, s1)

/-- A word that writes f of its source (R223); pair puts the source into c2 first (R354). -/
def rowMove (src dst : RowRef) (pair : Bool) (f : Row → Row) (s : State) : State :=
  s.eachMember fun m r s =>
    let (v, s1, r1) := s.rowRead r m src
    let s2 := if pair then s1.setComp m 2 v else s1
    let (s3, r2) := s2.rowWrite r1 m dst (f v)
    (r2, s3)

/-- AAP (R329). -/
def execAap (sv d : RowRef) (s : State) : Host.Outcome State Fault Refusal := .next (rowMove sv d false id s)
/-- DNOT (R354). -/
def execDnot (sv d : RowRef) (s : State) : Host.Outcome State Fault Refusal := .next (rowMove sv d true (fun v => ~~~v) s)
/-- LSHF: toward lane 0 (R377). -/
def execLshf (sv d : RowRef) (s : State) : Host.Outcome State Fault Refusal :=
  .next (rowMove sv d false (fun v => v >>> 1) s)
/-- RSHF: toward the higher lanes (R390). -/
def execRshf (sv d : RowRef) (s : State) : Host.Outcome State Fault Refusal :=
  .next (rowMove sv d false (fun v => v <<< 1) s)

/-- The majority of three rows. -/
def maj (p q u : Row) : Row := (p &&& q) ||| (p &&& u) ||| (q &&& u)

/-- TRA: the three temporaries other than the omitted one take their majority (R411). -/
def execTra (k : BitVec 2) (s : State) : Host.Outcome State Fault Refusal :=
  .next (s.eachMember fun m r s =>
    let ns := [4, 5, 6, 7].filter (· != 4 + k.toNat)
    let get (n : Nat) : Row := s.compRow m ⟨n % 16, Nat.mod_lt _ (by decide)⟩
    match ns with
    | [a, b, c] =>
      let v := maj (get a) (get b) (get c)
      (r, ((s.setComp m a v).setComp m b v).setComp m c v)
    | _ => (r, s))

/-- LOOPW (R375). -/
def execLoopw (c : BitVec 5) (m : BitVec 7) (s : State) : Host.Outcome State Fault Refusal :=
  .next (s.onRow fun r s =>
    let n := if c = 0 then r.wcount else c.toNat
    ({ r with pc := r.pc + 1, loops := (r.pc + 1, n, m) :: r.loops, atStep := false }, s))

/-- ENDW (R358, R375). -/
def execEndw (s : State) : Host.Outcome State Fault Refusal :=
  .next (s.onRow fun r s =>
    match r.loops with
    | (at_, left, m) :: rest =>
      let r1 := { r with bases := advance m r.bases, atStep := false }
      if 1 < left then ({ r1 with pc := at_, loops := (at_, left - 1, m) :: rest }, s)
      else ({ r1 with pc := r.pc + 1, loops := rest }, s)
    | [] => ({ r with pc := r.pc + 1 }, s))

/-! ### Refresh (R230) -/

/-- Whether a program runs in a bank and stands neither at a STEP nor at HALT. -/
def State.bankClosed (s : State) (b : Nat) : Bool :=
  s.runs.any fun r => r.live && !r.atStep && !r.halted && r.wave.any fun m => bankOfSub m == b

/-- Postponed refreshes that can be performed are; a refresh changes no value. -/
def State.refreshNow (s : State) : State := { s with refreshes := s.refreshes.filter s.bankClosed }

/-- REFRESH_DUE: performed at once, or postponed while a program of the bank is under way. -/
def execRefreshDue (bank : Nat) (s : State) : Host.Outcome State Fault Refusal :=
  .next (if s.bankClosed bank then { s with refreshes := s.refreshes ++ [bank] } else s)

/-- STEP (R402): the postponed refreshes of the wave's banks are performed. -/
def execStep (s : State) : Host.Outcome State Fault Refusal :=
  .next (s.onRow fun r s => ({ r with pc := r.pc + 1, atStep := true }, s)).refreshNow

/-! ### HALT (R231, R233, R235, R364) -/

/-- Re-encode rows, as numbers: their segments are correct and no poison mark is left. -/
def State.reencode (s : State) (rows : List Nat) : State :=
  { s with ue := s.ue.filter fun g => !rows.contains (g / 64), ce := s.ce.filter fun g => !rows.contains (g / 64),
           rowPoison := s.rowPoison.filter fun r => !rows.contains r }

/-- Put the poison mark on rows instead. -/
def State.markRows (s : State) (rows : List Nat) : State :=
  { s with rowPoison := rows.foldl (fun l r => if l.contains r then l else l ++ [r]) s.rowPoison }

/-- The shadow rows of a program go to their places at one commit point (R235), after which every read observes all of them (R184). -/
def State.commitShadow (s : State) (r : Run) : State :=
  (r.shadow.foldl (fun s x => (s.dramCommit (rowKey x.1 x.2.1) (leBytes 1024 x.2.2.toNat)).dropRaws (rowKey x.1 x.2.1) 1024) s).reencode (r.shadow.map fun x => x.1 * 1024 + x.2.1)

/-- BANK_UE of a program: the first member with an uncorrectable source, and how many there are (R233, R295). -/
def Run.trap (r : Run) : Option Trap :=
  if r.bad.isEmpty then none
  else
    let c := ((r.coords.zip r.subs).find? fun x => r.bad.contains x.2).map (·.1)
    some { Trap.of cBANK_UE ((c.getD 0).zeroExtend 64) with aux := r.bad.length }

/-- The members of a wave that has halted are re-encoded or marked, once no refresh of their banks is postponed (R230, R231, R233).
What its program still needs of it goes to another wave; after the last one the program ends. -/
def State.closeWave (s : State) (r : Run) : State :=
  if s.refreshWaits r then s
  else
    let num (x : Nat × Nat) : Nat := x.1 * 1024 + x.2
    let s1 := (s.reencode ((r.stale.filter fun x => !r.bad.contains x.1).map num)).markRows
      ((r.stale.filter fun x => r.bad.contains x.1).map num)
    let rest := s1.runs.filter (!r.same ·)
    match rest.find? (·.cid == r.cid) with
    | some o =>
      { s1 with runs := rest.map fun (x : Run) => if x.same o then { o with bad := o.bad ++ r.bad, shadow := o.shadow ++ r.shadow } else x }.rowsFree
    | none =>
      let s2 := if r.tx && r.bad.isEmpty then s1.commitShadow r else s1
      { s2 with runs := rest }.rowsFree.finishCmd r.cid r.trap

/-- HALT: the wave has halted (R364). -/
def execHalt (s : State) : Host.Outcome State Fault Refusal :=
  .next (match s.runs with
    | r :: _ =>
      if r.live && r.lo < r.hi && !r.halted && !(r.atStep && s.refreshWaits r) then
        let r1 := { r with halted := true }
        (s.setRun r1).refreshNow.closeWave r1
      else s
    | [] => s)

end Sys2Proof.Machine
end

