-- ==== Sys2Proof/Machine/Bau.lean ====
section
/-! DEFINITION. Bank expressions: acceptance and validation (R109 to R111, R240 to R245), the operators over a stack of f32
values (R238 to R240, R355, R356), reductions and results (R244), and ECC ahead of the unit (R247, R248). -/

namespace Sys2Proof.Machine

/-! ### Types (R110, R240) -/

/-- The element type of a kind code. -/
def kindType (kind p : Nat) (inf sat : Bool) : ETy :=
  let t (fmt w : Nat) : ETy := { fmt := fmt, w := w, p := if kind = 7 ∨ kind = 8 then p else 0, infOn := inf, sat := sat }
  match kind with
  | 0 => t 4 32
  | 1 => t 4 16
  | 2 => t 5 16
  | 3 => t 0 8
  | 4 => t 1 8
  | 5 => t 0 16
  | 6 => t 0 32
  | 7 => t 6 8
  | _ => t 7 8

/-- The arguments of a BXL (R241). -/
structure BxlArgs where
  record : Word
  a : Word
  b : Word
  count : Nat
  result : Word
  role : Nat
  rseg : Nat
  acc : Bool
  otype : ETy
  rtype : ETy
  rtypeSet : Bool
  q : Word
  deriving DecidableEq, Repr

def bxlArgs (args : List Word) : BxlArgs :=
  let q := args.getD 5 0
  let ty (k p : Nat) : ETy := kindType k p (q.getLsbD 32) (q.getLsbD 33)
  { record := args.getD 0 0, a := args.getD 1 0, b := args.getD 2 0, count := (args.getD 3 0).toNat,
    result := args.getD 4 0, role := (bits q 40 8).toNat, rseg := (bits q 35 5).toNat, acc := q.getLsbD 34,
    otype := ty (bits q 4 4).toNat (bits q 0 3).toNat, rtype := ty (bits q 12 4).toNat (bits q 8 3).toNat,
    rtypeSet := bits q 12 4 != 0 || bits q 8 3 != 0, q := q }

/-- Bytes of an operand element. -/
def BxlArgs.osize (x : BxlArgs) : Nat := x.otype.w / 8
/-- Elements of a segment (R244). -/
def BxlArgs.segment (x : BxlArgs) : Nat := if x.rseg = 0 then x.count else 2 ^ x.rseg
/-- Bytes of an operand range, its last burst in full (R242). -/
def BxlArgs.span (x : BxlArgs) : Nat := (x.count * x.osize + 31) / 32 * 32

/-! ### Validation of the record (R110, R111) -/

/-- Entries that an operator pops and pushes. -/
def exprEffect : Instr → Nat × Nat
  | .eLda | .eLdb | .eLdk _ => (0, 1)
  | .eAdd | .eSub | .eMul | .eMin | .eMax | .eCmplt => (2, 1)
  | .eFma | .eSel => (3, 1)
  | .eAbs | .eNeg | .eCvt _ _ => (1, 1)
  | .eDup => (1, 2)
  | .eSwap => (2, 2)
  | .eDrop | .eSumr | .eMaxr | .eSto => (1, 0)
  | _ => (0, 0)

/-- E.SUMR, E.MAXR and E.STO end an expression. -/
def exprEnds : Instr → Bool
  | .eSumr | .eMaxr | .eSto => true
  | _ => false

/-- The offset of the first byte that fails, from offset o with n operators and depth entries so far (log entry 41). -/
def exprFails (nk : Nat) : Nat → List Byte → Nat → Nat → Nat → Option Nat
  | 0, _, _, o, _ => some o
  | _ + 1, [], _, _, _ => none
  | fuel + 1, b :: bs, n, o, depth =>
    match decodeExpr (b :: bs) with
    | .error _ =>
      if (b = 0x03#8 ∨ b = 0x0E#8) ∧ !bs.isEmpty then some (if n < 24 then o + 1 else o) else some o
    | .ok (i, rest) =>
      let (pops, pushes) := exprEffect i
      let wide := (b :: bs).length - rest.length
      if 24 ≤ n then some o
      else if (match i with
          | .eLdk k => decide (nk ≤ k.toNat)
          | _ => false) then some (o + 1)
      else if depth < pops ∨ 4 < depth - pops + pushes ∨ exprEnds i != rest.isEmpty then some o
      else if rest.isEmpty ∧ depth - pops + pushes ≠ 0 then some o
      else exprFails nk fuel rest (n + 1) (o + wide) (depth - pops + pushes)

/-- Whether an operator byte stands in a list of operators. -/
def exprHas (i : Instr) : Nat → List Byte → Bool
  | 0, _ => false
  | n + 1, bs =>
    match decodeExpr bs with
    | .ok (j, rest) => j == i || exprHas i n rest
    | .error _ => false

/-- The last operator's byte. -/
def lastOp (ops : List Byte) : Byte := ops.getLastD 0

/-! ### Acceptance (R242 to R245) -/

/-- Pages of a range with their keys. -/
def keyMap (c : Cmd) (va : Word) (n : Nat) : EM (List (Word × Nat)) := do
  let s ← enow
  return (pageHeads va n).filterMap fun v =>
    match s.xlate c.asid .load v with
    | .at_ k _ _ => some (v, k)
    | .record k => some (v, k)
    | _ => none

/-- Whether the mark of a page of an operand waits for a row command (R183). -/
def State.operandHeld (s : State) (c : Cmd) (va : Word) (n : Nat) : Bool :=
  (pageHeads va n).any fun v => match s.xlate c.asid .load v with
    | .at_ _ _ e => s.markHeld e none false
    | _ => false

/-- The pages of an operand count an access by a unit (R141, R145). -/
def touchOperand (c : Cmd) (va : Word) (n : Nat) : EM Unit := do
  let s ← enow
  if s.operandHeld c va n then estop .hold
  (pageHeads va n).forM fun v => echange fun s =>
    match s.xlate c.asid .load v with
    | .at_ _ _ e => s.markPage e none false
    | _ => s

/-- The translation of an operand range: pages of this device as for any operand (R149, R440), an address of no device or of
a message-only one PROTECT (R129, R130), one in a window that takes no engine operand WINDOW (R133, R136, R137). Where the range lies
elsewhere the check of pairing fails (R243). -/
def operandPages (c : Cmd) (va : Word) (n : Nat) : EM Unit := do
  match if isWindow va && decide (3 ≤ towerOf va) then windowFault va n false else none with
  | some t => efault t
  | none => pure ()
  let vs := (pageHeads va n).filter (!isWindow ·)
  engPages c .load (vs.filter isOwn)
  let s ← enow
  let bad := vs.findSome? fun v =>
    if !isOwn v then (s.farTrap v n).filter (·.code == cPROTECT)
    else match s.xlate c.asid .load v with
      | .at_ _ 2 _ => some (.of cENGINE v)
      | .missing => some (.sized ((c.answerFor v).getD cPAGE_LOAD) v n)
      | .denied _ => some (.sized cPROTECT v n)
      | _ => none
  match bad with
  | some t => efault t
  | none => pure ()

/-- The key of an address in such a map. -/
def keyFind (m : List (Word × Nat)) (va : Word) : Option Nat :=
  (m.find? fun e => pageOf e.1 == pageOf va).map fun e => e.2 + (va - e.1).toNat

def keyIn (m : List (Word × Nat)) (va : Word) : Nat := (keyFind m va).getD 0

/-- The unit of a role: tower, die and pair of a bank-unit pair (R70). -/
def State.unitOf (s : State) (launch role : Nat) : Option (Nat × Nat × Nat) :=
  match (((s.launchAt launch).map (·.roles)).getD [])[role]? with
  | some e => if bits e 0 4 = 3 then some ((bits e 20 4).toNat, (bits e 16 4).toNat, (bits e 8 4).toNat) else none
  | none => none

def rangesMeet (a : Word) (n : Nat) (b : Word) (m : Nat) : Bool :=
  decide (a.toNat < b.toNat + m) && decide (b.toNat < a.toNat + n)

/-- Read and check a BXL: its expression as accepted, or a fault that leaves no record (R245). -/
def acceptBxl (c : Cmd) : EM (Trap ⊕ ExprRun) := do
  let x := bxlArgs c.args
  engOrdinary c .load false x.record 4
  let hd ← engReadOk c x.record 4
  let l := leVal (hd.take 1)
  let nk := leVal ((hd.drop 1).take 1)
  eneed (decide (1 ≤ l ∧ l ≤ 48) && decide (nk ≤ 4) && leVal (hd.drop 2) == 0) (.of cENGINE x.record)
  let body := 4 + 4 * nk
  let size := (body + l + 7) / 8 * 8
  engOrdinary c .load false x.record size
  let bs ← engReadOk c x.record size
  let ops := (bs.drop body).take l
  match exprFails nk 49 ops 0 0 0 with
  | some o => efault (.of cENGINE (x.record + BitVec.ofNat 64 (body + o)))
  | none => pure ()
  match (bs.drop (body + l)).findIdx? (· != 0) with
  | some o => efault (.of cENGINE (x.record + BitVec.ofNat 64 (body + l + o)))
  | none => pure ()
  let sto := lastOp ops == 0x14#8
  eneed (!(sto && (x.rseg != 0 || x.acc)) && !(!sto && x.rtypeSet) &&
    (x.rseg == 0 || ((2 ^ x.rseg * x.osize) % 32 == 0 && x.count % 2 ^ x.rseg == 0))) (.of cENGINE x.q)
  let usesB := exprHas .eLdb 49 ops
  eneed (usesB || x.b == 0) (.of cENGINE x.b)
  let s ← enow
  match s.unitOf c.launch x.role with
  | none => efault (.of cENGINE x.q)
  | some (tower, die, pair) =>
    eneed (decide (tower ≤ 7) && decide (die ≤ 11)) (.of cENGINE x.q)
    match (s.towerAt tower).bankIx die (2 * pair), (s.towerAt tower).bankIx die (2 * pair + 1) with
    | some even, some odd =>
      operandPages c x.a x.span
      if usesB then operandPages c x.b x.span
      let slots := if sto then x.count else x.count / x.segment
      let rsize := 32 + slots * (if sto then x.rtype.w / 8 else 4)
      fun s => match engOrdinary c .store true x.result rsize s with
        | .error (.fault t) s1 => .ok (.inl t) s1
        | .error e s1 => .error e s1
        | .ok _ s1 =>
          (do
            let am ← keyMap c x.a x.span
            let bm ← if usesB then keyMap c x.b x.span else pure []
            let rm ← if isWindow x.result then pure [] else keyMap c x.result rsize
            let good (i : Nat) : Bool :=
              (keyFind am (x.a + BitVec.ofNat 64 (i * x.osize))).any fun ka =>
                let bank := ka % 2 ^ 36 / 2 ^ 27
                isDram ka && ka / 2 ^ 36 == tower && (bank == even || bank == odd) &&
                  (!usesB || keyFind bm (x.b + BitVec.ofNat 64 (i * x.osize)) == some (ka ^^^ 2 ^ 27))
            match (List.range x.count).find? fun i => !good i with
            | some i => efault (.of cLAYOUT (x.a + BitVec.ofNat 64 (i * x.osize)))
            | none => pure ()
            if rangesMeet x.result rsize x.a x.span || (usesB && rangesMeet x.result rsize x.b x.span) then
              return .inl (.of cENGINE x.result)
            let rows (m : List (Word × Nat)) (va : Word) (n : Nat) : List Nat :=
              ((piecesOf va (n / 65536 + 2) n).flatMap fun p =>
                let k := keyIn m p.1
                if isDram k then rowsOf k p.2 else []).eraseDups
            touchOperand c x.a x.span
            if usesB then touchOperand c x.b x.span
            let s ← enow
            return .inr
              { cid := c.cid, order := s.nextOrder, tower := tower, ops := ops,
                consts := (List.range nk).map fun j => BitVec.ofNat 32 (leVal ((bs.drop (4 + 4 * j)).take 4)),
                aMap := am, bMap := bm, reads := rows am x.a x.span ++ (if usesB then rows bm x.b x.span else []),
                writes := if isWindow x.result then [] else rows rm x.result rsize, live := false, rest := ops,
                elem := 0, stack := [], terms := [], acc := none, accs := [], flags := 0, ue := 0, ce := 0,
                firstUe := 0, out := [], ended := false } : EM (Trap ⊕ ExprRun)) s1
    | _, _ => efault (.of cBIND_SHORT (missingMask tower (s.towerAt tower)))

/-! ### BXL_START -/

def State.setExpr (s : State) (r : ExprRun) : State :=
  { s with exprs := s.exprs.map fun x => if x.cid == r.cid then r else x }

/-- A BXL that ends with an engine fault and its record. -/
def State.failBxl (s : State) (c : Cmd) (t : Trap) (record : Bool) : State :=
  let go (s : State) : State := { s with exprs := s.exprs.filter (·.cid != c.cid) }.finishCmd c.cid (some t)
  if record then
    match putRecord c (bxlArgs c.args).result 2 .zero s with
    | .error .hold s1 => s1
    | .error _ s1 => go s1
    | .ok _ s1 => go s1
  else go s

/-- A BXL that its CP takes (R242). -/
def State.acceptExpr (s : State) (c : Cmd) : State :=
  if c.dropped then s.finishCmd c.cid none
  else
    match acceptBxl c s with
    | .ok (.inr r) s1 =>
      { s1.onCmd c.cid fun c => { c with accepted := true, hold := [], answers := [] } with
        exprs := s1.exprs ++ [r], nextOrder := s1.nextOrder + 1 }
    | .ok (.inl t) s1 => s1.failBxl c t false
    | .error (.fault t) s1 => s1.failBxl c t true
    | .error .hold s1 => s1
    | .error .gone s1 => s1.finishCmd c.cid none

/-- The bank pair of an expression by its rows: present-bank indices 2j and 2j + 1 of a tower. -/
def ExprRun.pair (r : ExprRun) : Nat := r.tower * 256 + r.reads.headD 0 / 2 ^ 18 % 256

/-- One BAU runs one expression at a time (R246). -/
def State.unitFree (s : State) (r : ExprRun) : Bool := !(s.exprs.any fun e => e.cid != r.cid && e.live && e.pair == r.pair)

/-- The values in the result slots from which reductions start (R244). -/
def readAccs (c : Cmd) : EM (List (BitVec 32)) := do
  let x := bxlArgs c.args
  if !x.acc then return []
  let n := x.count / x.segment
  let bs ← engReadOk c (x.result + 32) (4 * n)
  return (List.range n).map fun i => BitVec.ofNat 32 (leVal ((bs.drop (4 * i)).take 4))

/-- BXL_START: once R179 allows its reads, acceptance; then the range flush and the start, once the row locks, the earlier
commands and the unit allow it. -/
def execBxlStart (cid : Nat) (s : State) : Host.Outcome State Fault Refusal :=
  .next (match s.cmdAt cid with
    | some c =>
      if c.kind != kBXL || c.finished || c.started || !s.issueOrder c || !s.settled c then s
      else
        let s1 := if c.accepted then s else s.acceptExpr c
        match s1.exprs.find? (·.cid == cid) with
        | some r =>
          if s1.mayStart c.team r.use && s1.unitFree r && !s1.flushHeld c.launch then
            match readAccs c (s1.rangeFlush c.launch).2 with
            | .ok accs s2 =>
              (s2.setExpr { r with live := true, accs := accs }).onCmd cid fun c => { c with started := true }
            | .error (.fault t) s2 => s2.failBxl c t true
            | .error _ s2 => s2
          else s1
        | none => s1
    | none => s)

/-! ### The end of an expression (R244, R245, R249) -/

/-- Write the result slots and the record, and end the command; a missing page or a held row keeps it for later. -/
def State.closeExpr (s : State) (r : ExprRun) : State :=
  match s.cmdAt r.cid with
  | none => { s with exprs := s.exprs.filter (·.cid != r.cid) }
  | some c =>
    let x := bxlArgs c.args
    let t : Tally := { ue := r.ue, flags := r.flags, oob := 0, ce := r.ce, first := r.firstUe, done := x.count }
    let go (s : State) (t : Option Trap) : State :=
      { s with exprs := s.exprs.filter (·.cid != r.cid) }.rowsFree.finishCmd r.cid t
    if c.dropped then go s none
    else
      let s0 := s.setExpr { r with live := false, ended := true }
      match (do
          engReady c .store x.result (32 + r.out.flatten.length)
          engWrite c false (x.result + 32) (clean r.out.flatten) : EM Unit) s0 with
      | .error (.fault t) s1 => go s1 (some t)
      | .error .hold s1 => s1.setExpr { r with ended := true }
      | .error .gone s1 => go s1 none
      | .ok _ s1 =>
        match putRecord c x.result (if r.ue = 0 then 0 else 1) t s1 with
        | .error .hold s2 => s2.setExpr { r with ended := true }
        | .error _ s2 => go s2 t.trap
        | .ok _ s2 => go s2 t.trap

/-! ### Operators -/

/-- One burst of an operand, as the unit reads it: a correctable error is corrected and counted, an uncorrectable one
logged (R247, R248). -/
def State.touchBurst (s : State) (r : ExprRun) (va : Word) (m : List (Word × Nat)) (team : Nat) : State × ExprRun :=
  let k := keyIn m va
  let (ce, s1) := s.correct 0 k 32
  let bad := (List.range 32).filter fun i => s1.byteBad 0 (k + i)
  if bad.isEmpty then (s1, { r with ce := r.ce + ce })
  else
    (s1.logBursts (.mem k) bad 0 team,
     { r with ce := r.ce + ce, ue := r.ue + 1, firstUe := if r.ue = 0 then va else r.firstUe })

/-- The bursts that an element begins. -/
def State.touchElem (s : State) (r : ExprRun) (x : BxlArgs) (team : Nat) : State × ExprRun :=
  if (r.elem * x.osize) % 32 ≠ 0 then (s, r)
  else
    let off := BitVec.ofNat 64 (r.elem * x.osize)
    let (s1, r1) := s.touchBurst r (x.a + off) r.aMap team
    if r.bMap.isEmpty then (s1, r1) else s1.touchBurst r1 (x.b + off) r.bMap team

/-- Run operator i for the expression at the head of the list: f changes the run behind the operator. -/
def State.onExpr (s : State) (i : Instr) (f : BxlArgs → State → ExprRun → ExprRun) : State :=
  match s.exprs with
  | r :: _ =>
    if !r.live || r.ended then s
    else
      match s.cmdAt r.cid with
      | none => s
      | some c =>
        let x := bxlArgs c.args
        let (s1, r1) := if r.rest.length = r.ops.length then s.touchElem r x c.team else (s, r)
        let r2 := f x s1 { r1 with rest := r1.rest.drop ((encodeExpr i).getD []).length }
        let s2 := s1.setExpr r2
        if r2.ended then s2.closeExpr r2 else s2
  | [] => s

/-- Push a value. -/
def ExprRun.push (r : ExprRun) (v : BitVec 32) : ExprRun := { r with stack := v :: r.stack }
/-- Entry k below the top. -/
def ExprRun.top (r : ExprRun) (k : Nat) : BitVec 32 := r.stack.getD k 0
def ExprRun.num (r : ExprRun) (k : Nat) : Num := fmtF32.value (r.top k).toNat

/-- Replace n entries by a code, with its flags. -/
def ExprRun.give (r : ExprRun) (n : Nat) (x : Nat × Flags) : ExprRun :=
  { r with stack := BitVec.ofNat 32 x.1 :: r.stack.drop n, flags := r.flags ||| x.2 }

def f32Poison : BitVec 32 := 0x7FE00001#32

/-- Element elem of an operand, exactly in f32; one of an uncorrectable burst is poison (R240, R247). -/
def State.operand (s : State) (x : BxlArgs) (r : ExprRun) (va : Word) (m : List (Word × Nat)) : BitVec 32 :=
  let o := r.elem * x.osize
  let k := keyIn m (va + BitVec.ofNat 64 o)
  let b := k / 32 * 32
  if (List.range 32).any fun i => s.byteBad 0 (b + i) then f32Poison
  else BitVec.ofNat 32 (roundF32 .rne (x.otype.value (leVal (s.dramBytes k x.osize)))).1

def execELda (s : State) : Host.Outcome State Fault Refusal :=
  .next (s.onExpr .eLda fun x s r => r.push (s.operand x r x.a r.aMap))
def execELdb (s : State) : Host.Outcome State Fault Refusal :=
  .next (s.onExpr .eLdb fun x s r => r.push (s.operand x r x.b r.bMap))
def execELdk (k : BitVec 2) (s : State) : Host.Outcome State Fault Refusal :=
  .next (s.onExpr (.eLdk k) fun _ _ r => r.push (r.consts.getD k.toNat 0))

/-- An operator that rounds once to f32 by RNE (R238). -/
def exprRound (x : Num × Flags) : Nat × Flags := roundWith fmtF32 false .rne x

def execEAdd (s : State) : Host.Outcome State Fault Refusal :=
  .next (s.onExpr .eAdd fun _ _ r => r.give 2 (exprRound (Num.add .rne (r.num 1) (r.num 0))))
def execESub (s : State) : Host.Outcome State Fault Refusal :=
  .next (s.onExpr .eSub fun _ _ r => r.give 2 (exprRound (Num.add .rne (r.num 1) (r.num 0).neg)))
def execEMul (s : State) : Host.Outcome State Fault Refusal :=
  .next (s.onExpr .eMul fun _ _ r => r.give 2 (exprRound ((r.num 1).mul (r.num 0))))
def execEFma (s : State) : Host.Outcome State Fault Refusal :=
  .next (s.onExpr .eFma fun _ _ r => r.give 3 (exprRound (sumProducts .rne [[r.num 2, r.num 1], [r.num 0]])))
def execEMin (s : State) : Host.Outcome State Fault Refusal :=
  .next (s.onExpr .eMin fun _ _ r => r.give 2 (exprRound (Num.minmax false (r.num 1) (r.num 0), 0)))
def execEMax (s : State) : Host.Outcome State Fault Refusal :=
  .next (s.onExpr .eMax fun _ _ r => r.give 2 (exprRound (Num.minmax true (r.num 1) (r.num 0), 0)))
def execEAbs (s : State) : Host.Outcome State Fault Refusal :=
  .next (s.onExpr .eAbs fun _ _ r => r.give 1 (exprRound ((r.num 0).abs, 0)))
def execENeg (s : State) : Host.Outcome State Fault Refusal :=
  .next (s.onExpr .eNeg fun _ _ r => r.give 1 (exprRound ((r.num 0).neg, 0)))

/-- y < z as 1.0 or +0; poison of a poison input, +0 of a NaN (R239). -/
def exprLess (y z : Num) : BitVec 32 :=
  if y == .poison || z == .poison then f32Poison
  else if y.isNan || z.isNan then 0
  else if y.cmp z == .lt then 0x3F800000#32
  else 0

def execECmplt (s : State) : Host.Outcome State Fault Refusal :=
  .next (s.onExpr .eCmplt fun _ _ r => r.give 2 ((exprLess (r.num 1) (r.num 0)).toNat, 0))

/-- x where z is not zero and no NaN, else y; poison of a poison z (R239, R356). -/
def exprSelect (x y : BitVec 32) (z : Num) : BitVec 32 :=
  match z with
  | .poison => f32Poison
  | .nan | .zero _ => y
  | _ => x

def execESel (s : State) : Host.Outcome State Fault Refusal :=
  .next (s.onExpr .eSel fun _ _ r => r.give 3 ((exprSelect (r.top 2) (r.top 1) (r.num 0)).toNat, 0))

/-- E.CVT: into the format by RNE and back (R240). -/
def execECvt (k : BitVec 4) (p : BitVec 3) (s : State) : Host.Outcome State Fault Refusal :=
  .next (s.onExpr (.eCvt k p) fun x _ r =>
    let t := kindType k.toNat p.toNat (x.q.getLsbD 32) (x.q.getLsbD 33)
    let (c, fl) := t.round .rne (r.num 0)
    let (v, fl') := roundF32 .rne (t.value c)
    r.give 1 (v, fl ||| fl'))

def execEDup (s : State) : Host.Outcome State Fault Refusal :=
  .next (s.onExpr .eDup fun _ _ r => r.push (r.top 0))
def execESwap (s : State) : Host.Outcome State Fault Refusal :=
  .next (s.onExpr .eSwap fun _ _ r => { r with stack := r.top 1 :: r.top 0 :: r.stack.drop 2 })
def execEDrop (s : State) : Host.Outcome State Fault Refusal :=
  .next (s.onExpr .eDrop fun _ _ r => { r with stack := r.stack.drop 1 })

/-! ### The last operator (R244) -/

/-- On to the next element, or over. -/
def ExprRun.nextElem (r : ExprRun) (x : BxlArgs) : ExprRun :=
  if r.elem + 1 < x.count then { r with elem := r.elem + 1, rest := r.ops, stack := [] }
  else { r with elem := r.elem + 1, stack := [], ended := true }

/-- Whether the element is the last of its segment. -/
def ExprRun.segEnd (r : ExprRun) (x : BxlArgs) : Bool := (r.elem + 1) % x.segment == 0 || r.elem + 1 == x.count

/-- The value from which a reduction starts: the slot's under ACC. -/
def ExprRun.start (r : ExprRun) (x : BxlArgs) : Option (BitVec 32) :=
  if x.acc then r.accs[r.elem / x.segment]? else none

/-- A segment closes with a value. -/
def ExprRun.close (r : ExprRun) (x : BxlArgs) (v : BitVec 32) : ExprRun :=
  if r.segEnd x then { r with acc := none, out := r.out ++ [leBytes 4 v.toNat] } else { r with acc := some v }

/-- E.SUMR: the terms of a burst are one group (R48). -/
def execESumr (s : State) : Host.Outcome State Fault Refusal :=
  .next (s.onExpr .eSumr fun x _ r =>
    let terms := r.terms ++ [r.top 0]
    if ((r.elem + 1) * x.osize) % 32 = 0 ∨ r.segEnd x then
      let acc := (r.acc.or (r.start x)).getD 0
      let (v, fl) := groupStep .rne (acc.toNat, 0) (terms.map fun t => [fmtF32.value t.toNat])
      (({ r with terms := [], flags := r.flags ||| fl }).close x (BitVec.ofNat 32 v)).nextElem x
    else ({ r with terms := terms }).nextElem x)

/-- E.MAXR: the greatest term by the rules of E.MAX. -/
def execEMaxr (s : State) : Host.Outcome State Fault Refusal :=
  .next (s.onExpr .eMaxr fun x _ r =>
    let v := match r.acc.or (r.start x) with
      | some a => Num.minmax true (fmtF32.value a.toNat) (r.num 0)
      | none => r.num 0
    (r.close x (BitVec.ofNat 32 (roundF32 .rne v).1)).nextElem x)

/-- E.STO: into RTYPE by RNE, to the element's slot. -/
def execESto (s : State) : Host.Outcome State Fault Refusal :=
  .next (s.onExpr .eSto fun x _ r =>
    let (c, fl) := x.rtype.round .rne (r.num 0)
    ({ r with flags := r.flags ||| fl, out := r.out ++ [leBytes (x.rtype.w / 8) c] }).nextElem x)

end Sys2Proof.Machine
end

