-- ==== Sys2Proof/Machine/Mask.lean ====
section
/-! DEFINITION. The mask words (R196 to R198, R379, R380). -/

namespace Sys2Proof.Machine

/-- MPUSH: the top AND a mask becomes the new top. -/
def execMpush (ms : BitVec 3) (fl : Fl) (s : State) : Host.Outcome State Fault Refusal :=
  .next (s.vword fl do
    need (s.me.depth != 8) (.trap (.of cMASK_STACK 8))
    change fun s =>
      let h := s.me
      { s with me := { h.setEntry s.vlen h.depth (lowMask h.vlNow (h.top &&& h.mask ms)) with depth := h.depth + 1 } })

/-- MINV: the top becomes the entry below without the top. -/
def execMinv (fl : Fl) (s : State) : Host.Outcome State Fault Refusal :=
  .next (s.vword fl do
    need (s.me.depth != 0) (.trap (.of cMASK_STACK 0))
    change fun s =>
      let h := s.me
      { s with me := h.setEntry s.vlen (h.depth - 1) (lowMask h.vlNow (h.belowTop &&& ~~~h.top)) })

/-- MPOP. -/
def execMpop (fl : Fl) (s : State) : Host.Outcome State Fault Refusal :=
  .next (s.vword fl do
    need (s.me.depth != 0) (.trap (.of cMASK_STACK 0))
    change fun s => { s with me := { s.me with depth := s.me.depth - 1 } })

/-- MMOV. -/
def execMmov (md ms : BitVec 3) (fl : Fl) (s : State) : Host.Outcome State Fault Refusal :=
  .next (s.vword fl
    (change fun s => { s with me := s.me.setMask s.vlen md (lowMask s.me.vlNow (s.me.mask ms)) }))

end Sys2Proof.Machine
end

