-- ==== Sys2Proof/Machine/Rail.lean ====
section
/-! DEFINITION. Rails and capacity: RAILSEL, CLIPQ, the end of a rail switch, learned rows and rail commands (R153 to
R159, R312, R343, R384, R385). -/

namespace Sys2Proof.Machine

/-! ### Capacity (R156, R157) -/

/-- Rows of a vault and of a cluster's accumulator arrays (R14, R155). -/
def vaultRows : Nat := 16384
def saRows : Nat := 32768

/-- Rows of vault n that are good at LV, and of the accumulator arrays. -/
def Cluster.vaultGood (c : Cluster) (n : Nat) : Nat := vaultRows - c.vaultClip[n % 4]'(Nat.mod_lt _ (by decide))
def Cluster.saGood (c : Cluster) : Nat := saRows - c.saClip

/-- The smallest vault capacity of a cluster in bytes at a rail. -/
def Cluster.spCapacity (c : Cluster) (lv : Bool) : Nat :=
  128 * (if lv then min (min (c.vaultGood 0) (c.vaultGood 1)) (min (c.vaultGood 2) (c.vaultGood 3)) else vaultRows)
def Cluster.saCapacity (c : Cluster) (lv : Bool) : Nat := 128 * (if lv then c.saGood else saRows)

/-- Launches that hold their allocations. -/
def State.holding (s : State) : List Launch := s.launches.filter fun l => l.placed && !l.complete

/-- The top of the highest live allocation of a core's vault, in rows (R157). -/
def State.vaultHigh (s : State) (core : Nat) : Nat :=
  (s.holding.flatMap fun l => (l.alloc.filter (·.1 == core)).map fun a => (a.2.1 + a.2.2 + 127) / 128).foldl max 0

/-- The same for a cluster's accumulator arrays. -/
def State.saHigh (s : State) (cluster : Nat) : Nat :=
  (s.holding.flatMap fun l => (l.sares.filter (·.1 == cluster)).map fun a => (a.2.1 + a.2.2 + 127) / 128).foldl max 0

/-- A size rounded up to 128 bytes (R134, R276). -/
def rows128 (n : Nat) : Nat := (n + 127) / 128 * 128

/-- The lowest start of a free run of some size among occupied runs (R157). -/
def firstFit (runs : List (Nat × Nat)) (size : Nat) : Nat :=
  let starts := 0 :: runs.map fun r => r.1 + r.2
  let free := starts.filter fun b => runs.all fun r => decide (b + size ≤ r.1 ∨ r.1 + r.2 ≤ b)
  free.foldl min (runs.foldl (fun m r => max m (r.1 + r.2)) 0)

/-- Where a launch's scratchpad lies in the vault of a core. -/
def State.vaultRun (s : State) (l : Launch) (core : Nat) : Nat :=
  firstFit (s.holding.flatMap fun x => (x.alloc.filter (·.1 == core)).map (·.2)) (rows128 l.spneed)

/-- Where a launch's reservation lies in the arrays of a cluster, beside the reservations of the launches that stay. -/
def State.saRun (s : State) (stays : Launch → Bool) (l : Launch) (k : Nat) : Nat :=
  firstFit ((s.holding.filter stays).flatMap fun x => (x.sares.filter (·.1 == k)).map (·.2)) (rows128 l.saneed)

/-- Whether it finds room there at the cluster's rail. -/
def State.saFits (s : State) (stays : Launch → Bool) (l : Launch) (k : Nat) : Bool :=
  decide (s.saRun stays l k + rows128 l.saneed ≤ (s.clusterAt k).saCapacity (s.clusterAt k).lv)

/-- Whether every high-water of a cluster fits its LV capacity. -/
def State.fitsLv (s : State) (k : Nat) : Bool :=
  let c := s.clusterAt k
  (List.range 4).all (fun n => decide (s.vaultHigh (4 * k + n) ≤ c.vaultGood n)) && decide (s.saHigh k ≤ c.saGood)

/-! ### Moves (R157, R158) -/

/-- The status that a move to a rail begins with: 0 when it runs (R157, R384). A management command is refused neither
by LOCK nor by heat (R312). -/
def State.railStatus (s : State) (k : Nat) (lv task : Bool) : Nat :=
  let c := s.clusterAt k
  let t := s.towerAt (k / 8)
  if lv = c.lv then 1
  else if task && c.lock then 3
  else if task && (t.step == 2 || t.offline) then 6
  else if lv && c.lvbar then 4
  else if lv && !s.fitsLv k then 2
  else 0

/-- RAILCMD at the end of its command: BUSY clear and ST set. -/
def railcmdEnd (w : Word) (st : Nat) : Word := (w &&& ~~~0xF000#64) ||| BitVec.ofNat 64 (st % 8 * 2 ^ 12)

/-- A move of cluster k ends with a status: a RAILSEL's hart takes it, RAILCMD shows it, and the device looks at none. -/
def State.endMove (s : State) (k : Nat) (m : Mover) (st : Nat) : State :=
  match m with
  | .hart t h d =>
    (s.setCluster k { s.clusterAt k with last := BitVec.ofNat 3 st }).onHart t h fun x =>
      { x.setReg d (BitVec.ofNat 64 st) with pc := x.pc + 4, wait := none, answers := [] }
  | .command => { s with railcmd := railcmdEnd s.railcmd st }
  | .device => s

def Mover.isHart : Mover → Bool
  | .hart _ _ _ => true
  | _ => false

/-- Begin a move of a cluster that has none under way, or end it at once with its status. -/
def State.tryMove (s : State) (k : Nat) (m : Mover) (lv : Bool) : State :=
  let st := s.railStatus k lv m.isHart
  if st = 0 then s.setCluster k { s.clusterAt k with target := some lv, mover := m } else s.endMove k m st

/-- The moves that waited behind one that has ended: up to one that begins. -/
def State.runQueued (s : State) (k : Nat) : List (Mover × Bool) → State
  | [] => s.setCluster k { s.clusterAt k with queued := [] }
  | (m, lv) :: rest =>
    let s1 := s.tryMove k m lv
    if (s1.clusterAt k).target.isSome then s1.setCluster k { s1.clusterAt k with queued := rest } else s1.runQueued k rest

/-- A move that no hart makes: it begins, or it waits behind the one under way (R158). -/
def State.queueMove (s : State) (k : Nat) (m : Mover) (lv : Bool) : State :=
  let c := s.clusterAt k
  if c.target.isSome then s.setCluster k { c with queued := c.queued ++ [(m, lv)] } else s.tryMove k m lv

/-- RAILSEL (R157, R384): a refused move ends at once with its status; a move that runs holds the hart until
RAIL_SWITCH_DONE; a move of the same cluster that is running comes first (R158; log entry 58). -/
def execRailsel (d a : Reg) (s : State) : Host.Outcome State Fault Refusal :=
  let k := clusterOf s.team.core
  let c := s.clusterAt k
  let t := s.x a
  .next (
    if c.target.isSome then s.setWait (some .hold)
    else
      let st := if t.toNat > 1 then 5 else s.railStatus k (t == 1) true
      if st = 0 then
        (s.setCluster k { c with last := 0, target := some (t == 1), mover := .hart s.team.no s.me.idx d }).setWait
          (some .hold)
      else (s.setCluster k { c with last := BitVec.ofNat 3 st }).settle.put d (BitVec.ofNat 64 st))

/-- CLIPQ (R156). -/
def execClipq (d a : Reg) (s : State) : Host.Outcome State Fault Refusal :=
  let x := s.x a
  let n := (bits x 8 8).toNat
  let k := if n = 0xFF then clusterOf s.team.core else n
  let bad := bits x 16 48 != 0 || bits x 1 7 != 0 || (decide (n > 63) && n != 0xFF)
  let c := s.clusterAt k
  let lv := x.getLsbD 0
  .next (s.put d (if bad then BitVec.allOnes 64
    else BitVec.ofNat 64 (c.saCapacity lv % 2 ^ 32 * 2 ^ 32 + c.spCapacity lv % 2 ^ 32)))

/-! ### RAILCMD (R312) -/

def State.railcmdBusy (s : State) : Bool := s.railcmd.getLsbD 15

/-- RAILCMD with new CLUSTER and RAIL fields. -/
def railcmdFields (w : Word) (k : Nat) (lv : Bool) : Word :=
  (w &&& ~~~0xFD#64) ||| BitVec.ofNat 64 (k % 64 * 4 + (if lv then 1 else 0))

/-- A command to move cluster k: ignored while a command runs; behind another move of the same cluster it waits (R158,
R312). -/
def State.railCommand (s : State) (k : Nat) (rail : Bool) : State :=
  if s.railcmdBusy then s
  else { s with railcmd := railcmdFields s.railcmd k rail ||| 0x8000#64 }.queueMove k .command rail

/-- RAILCMD_GO. -/
def execRailcmdGo (cluster : Nat) (rail : Bool) (s : State) : Host.Outcome State Fault Refusal :=
  .next (s.railCommand (cluster % 64) rail)

/-- A write of RAILCMD: with GO a command, without it the fields CLUSTER and RAIL. -/
def State.writeRailcmd (s : State) (v : Word) : State :=
  let k := (bits v 2 6).toNat
  if v.getLsbD 1 then s.railCommand k (v.getLsbD 0) else { s with railcmd := railcmdFields s.railcmd k (v.getLsbD 0) }

/-- RAIL_SWITCH_DONE: the cluster is on its new rail and the move ends with status 0; what waited for the rail goes on: the
moves behind it, placements and LAUNCH packets (R157, R158, R353). -/
def State.railDone (s : State) (k : Nat) : State :=
  let c := s.clusterAt k
  match c.target with
  | none => s
  | some lv =>
    let cyc := if c.lv = lv then 0 else if c.lv then 18 else 25
    let s1 := s.setCluster k { c with lv := lv, target := none, mover := .device, cycles := c.cycles + cyc }
    ((s1.endMove k c.mover 0).runQueued k c.queued).kickAll

def execRailSwitchDone (cluster : Nat) (s : State) : Host.Outcome State Fault Refusal := .next (s.railDone (cluster % 64))

/-- Every move of a cluster that is under way or waits ends now (R315). -/
def State.drainRail (s : State) (k : Nat) : State :=
  (List.range ((s.clusterAt k).queued.length + 1)).foldl (fun s _ => s.railDone k) s

/-- LEARNED_ROW (R155): a row corrected three times at LV joins the clip map; below the guaranteed figures LVBAR is set
and the cluster returns to HV. -/
def execLearnedRow (cluster : Nat) (store : RowStore) (_row : Nat) (s : State) : Host.Outcome State Fault Refusal :=
  let k := cluster % 64
  let c := s.clusterAt k
  .next (
    if !c.lv then s
    else
      let c1 : Cluster := match store with
        | .vault n => { c with vaultClip := c.vaultClip.set n.val (c.vaultClip[n.val]'n.isLt + 1) n.isLt, grown := true }
        | .sa => { c with saClip := c.saClip + 1, grown := true }
        | .cache => { c with cacheClip := c.cacheClip + 1, grown := true }
      let short := (List.range 4).any (fun n => decide (c1.vaultGood n < 14336)) || decide (c1.saGood < 28672)
      if short then (s.setCluster k { c1 with lvbar := true }).queueMove k .device false else s.setCluster k c1)

end Sys2Proof.Machine
end

