-- ==== Sys2Proof/Machine/SAcc.lean ====
section
/-! DEFINITION. Stream accumulators: configuration, adds, the normalising port, and row images (R276 to R293, R391,
R392). -/

namespace Sys2Proof.Machine

/-! ### Accumulators of a launch on a cluster (R276, R277) -/

/-- Round up to whole 128-byte array rows. -/
def up128 (n : Nat) : Nat := (n + 127) / 128 * 128

/-- The footprint of an accumulator (R277). -/
def saFoot (len rows : Nat) (ln : Bool) : Nat :=
  rows * up128 (32 + 6 * len) + up128 (4 * len) * (if ln then 2 else 1)

def Sa.foot (a : Sa) : Nat := saFoot a.len a.rows.length a.ln

def Sa.is (a : Sa) (l c n : Nat) : Bool := a.launch == l && a.cluster == c && a.n == n

def State.saAt (s : State) (l c n : Nat) : Option Sa := s.sas.find? (·.is l c n)

/-- Put a configured accumulator in its place. -/
def State.setSa (s : State) (a : Sa) : State :=
  if s.sas.any (·.is a.launch a.cluster a.n) then
    { s with sas := s.sas.map fun x => if x.is a.launch a.cluster a.n then a else x }
  else { s with sas := s.sas ++ [a] }

def State.dropSa (s : State) (l c n : Nat) : State := { s with sas := s.sas.filter fun x => !x.is l c n }

/-- The bytes that a launch has reserved on a cluster, 0 for none. -/
def State.saReserved (s : State) (l c : Nat) : Nat :=
  match s.launchAt l with
  | some x => ((x.sares.find? (·.1 == c)).map (·.2.2)).getD 0
  | none => 0

/-- Whether an add to an accumulator is under way. -/
def State.saBusy (s : State) (l c n : Nat) : Bool := s.adds.any fun a => a.launch == l && a.cluster == c && a.n == n

/-! ### Rows (R278, R283) -/

def saHigh : Int := 2 ^ 47 - 1
def saLow : Int := -(2 ^ 47)

def saClamp (x : Int) : Int := if x < saLow then saLow else if saHigh < x then saHigh else x

def SaRow.zero (len : Nat) : SaRow := { x := List.replicate len 0, s := 0, t := 0, ovf := false }

/-- Add d to element e; bad marks a saturated or invalid conversion. S and T follow by the delta stored. -/
def SaRow.addAt (r : SaRow) (e : Nat) (d : Int) (bad : Bool) : SaRow :=
  let old := r.x.getD e 0
  let new := saClamp (old + d)
  let dd := new - old
  { x := r.x.set e new, s := ((r.s : Int) + 2 * old * dd + dd * dd).toNat, t := r.t + dd,
    ovf := r.ovf || bad || new != old + d }

def SaRow.addAll (r : SaRow) (es : List (Nat × Int × Bool)) : SaRow :=
  es.foldl (fun r x => r.addAt x.1 x.2.1 x.2.2) r

/-- Make an add in the arrays, as one step (R284). -/
def State.applyAdd (s : State) (a : SaAddP) : State :=
  match s.saAt a.launch a.cluster a.n with
  | some sa =>
    s.setSa { sa with rows := sa.rows.zipIdx.map fun (r, k) => if k = a.row then r.addAll a.elems else r }
  | none => s

/-- Whether two adds of one hart go to one row. -/
def SaAddP.sameRow (a b : SaAddP) : Bool :=
  a.launch == b.launch && a.cluster == b.cluster && a.n == b.n && a.row == b.row && a.team == b.team && a.hart == b.hart

/-- Make an add at once, behind the pending adds of its hart to the row (R289). -/
def State.applyBehind (s : State) (a : SaAddP) : State :=
  let first := s.adds.filter a.sameRow
  (first.foldl State.applyAdd { s with adds := s.adds.filter fun x => !a.sameRow x }).applyAdd a

/-- A value in units of 2^(-F), rounded once, with its mark and flags (R283). -/
def saFix (frac : Nat) : Num → Int × Bool × Flags
  | .poison => (0, true, fPZ)
  | .nan => (0, true, fNV)
  | .inf neg => (if neg then saLow else saHigh, true, fOF)
  | .zero _ => (0, false, 0)
  | .fin neg m e =>
    let (t, inexact) := roundInt .rne neg m (e + frac)
    let c := saClamp t
    (c, c != t, (if inexact then fNX else 0) ||| (if c != t then fOF else 0))

/-! ### Addresses (R136, R281) -/

/-- Where a word of vector accumulators points. -/
structure SaRef where
  cluster : Nat
  n : Nat
  row : Nat
  first : Nat
  deriving DecidableEq, Repr

def saRef (va : Word) : SaRef :=
  { cluster := (bits va 33 6).toNat, n := (bits va 29 4).toNat, row := (bits va 14 15).toNat,
    first := (bits va 0 14).toNat }

/-- The window trap of the address itself, for an access of n bytes (R136; log entry 73). -/
def saWindow (va : Word) (n : Nat) : Option Trap :=
  let t (sub : Nat) : Trap := .window sub va n
  if isWindow va && decide (5 ≤ towerOf va) then some (t 2)
  else if !isWindow va || towerOf va != 3 || bits va 39 4 != 0 then some (t 4)
  else none

/-- The accumulator that a vector word reaches, once its address, its row and its elements are checked; a request on an
evicted one is held (R281, R293). w is the width of the word's elements. -/
def saReach (va : Word) (w : Nat) : M Sa := fun s =>
  let n := (s.me.vlNow * w + 7) / 8
  match saWindow va n with
  | some t => .error (.trap t) s
  | none =>
    let r := saRef va
    match s.saAt s.team.launch r.cluster r.n with
    | some a =>
      if r.row < a.rows.length ∧ r.first + s.me.vlNow ≤ a.len then
        if a.evicted then .error (.wait (.accumulator r.cluster r.n)) s else .ok a s
      else .error (.trap (.window 6 va n)) s
    | none => .error (.trap (.window 6 va n)) s

/-! ### SAADD -/

/-- The scale of element i of an SAADD: from k0 whenever VTYPE.SB is not 0 (R392). -/
def saScale : M (Nat → Option Num) := fun s =>
  let b := blockOf s.me.vt
  if b = 0 then .ok (fun _ => none) s
  else if scaleCount s.vlen ≤ (s.me.vlNow - 1) / b then
    .error (vtypeTrap (BitVec.ofNat 64 (scaleCount s.vlen))) s
  else .ok (fun i => some (s.me.scale s.vlen 0 (i / b))) s

/-- SAADD (R281 to R284, R287, R392). The add is made later, or at once where the word traps FP after it (R283). -/
def execSaadd (vs : Reg) (a : BitVec 2) (o : BitVec 16) (st : BitVec 3) (q : VMod) (s : State) :
    Host.Outcome State Fault Refusal :=
  .next (s.vword q.fl do
    let s ← now
    if s.me.vlNow ≠ 0 then
      let va := s.me.base a + o.signExtend 64
      need (s.team.world == 0) (.trap (.of cWORLD_ESCAPE va))
      let t ← wordType q.width
      needGroups [vs]
      needFit t.w
      let scale ← saScale
      let sa ← saReach va t.w
      let s ← now
      let h := s.me
      let r := saRef va
      let es := (h.active q.msel 0 h.vlNow).map fun i =>
        let v := h.num s.vlen t vs.val i
        let (x, fl) := match scale i with
          | some k => v.mul k
          | none => (v, 0)
        let (d, bad, fl') := saFix sa.frac x
        ((r.first + i, d, bad), fl ||| fl')
      let fl := es.foldl (fun acc x => acc ||| x.2) (0 : Flags)
      let add : SaAddP := { launch := s.team.launch, cluster := r.cluster, n := r.n, row := r.row, team := s.team.no,
                            hart := s.me.idx, stream := st.toNat, elems := es.map (·.1) }
      raiseFlags fl
      if h.enabled fl = 0 then change fun s => { s with adds := s.adds ++ [add] }
      else change fun s => s.applyBehind add
      fpTrap fl)

/-! ### SANRM (R285, R286) -/

/-- 1/√(num/den·2^e) in f32 by RNE; it raises no flag, and the reciprocal root of 0 is +Inf. -/
def saRecip (num den : Nat) (e : Int) : Num :=
  if num = 0 then .inf false
  else
    let (m, e', sticky) := rsqrtMag num den e
    fmtF32.value (fmtF32.roundFin false .rne false m e' sticky).1

/-- The factor r of a row: RMS over S, or the variance in LN, plus ε. -/
def Sa.factor (a : Sa) (r : SaRow) : Num :=
  let n := a.len
  let (num, den) : Nat × Nat := if a.ln then (((r.s : Int) * n - r.t * r.t).toNat, n * n) else (r.s, n)
  let q : Int := -(2 * a.frac : Nat)
  match fmtF32.value a.eps.toNat with
  | .fin _ m e =>
    let lo := min q e
    saRecip ((num <<< (q - lo).toNat) + ((m * den) <<< (e - lo).toNat)) den lo
  | _ => saRecip num den q

/-- d/den·2^e·r·g + b, rounded once (R285, R42). -/
def portRound (f : Fmt) (sat : Bool) (mode : RM) (d : Int) (den : Nat) (e : Int) (r g : Num) (b : Option Num) :
    Nat × Flags :=
  let special : Nat × Flags := roundWith f sat mode (sumProducts mode ([.ofInt d, r, g] :: (b.map fun b => [b]).toList))
  match Num.ofInt d, r, g, b.getD (.zero false) with
  | .fin n1 m1 _, .fin n2 m2 e2, .fin n3 m3 e3, .zero _ =>
    let (m, e', sticky) := quotMag (m1 * m2 * m3) den (e + e2 + e3)
    f.roundFin sat mode ((n1 != n2) != n3) m e' sticky
  | .fin n1 m1 _, .fin n2 m2 e2, .fin n3 m3 e3, .fin n4 m4 e4 =>
    let ep := e + e2 + e3
    let lo := min ep e4
    let p : Int := Num.atQuantum lo (.fin ((n1 != n2) != n3) (m1 * m2 * m3) ep)
    let c : Int := Num.atQuantum lo (.fin n4 m4 e4) * den
    let v := p + c
    if v = 0 then f.round sat mode (.zero (mode == .rdn))
    else
      let (m, e', sticky) := quotMag v.natAbs den lo
      f.roundFin sat mode (decide (v < 0)) m e' sticky
  | _, _, _, _ => special

/-- Output element e of a row: poison where OVF is set. -/
def Sa.out (a : Sa) (r : SaRow) (f : Fmt) (sat : Bool) (mode : RM) (e : Nat) : Nat × Flags :=
  if r.ovf then f.round sat mode .poison
  else
    let x := r.x.getD e 0
    let g := fmtF32.value (a.gain.getD e 0).toNat
    if a.ln then
      portRound f sat mode (x * a.len - r.t) a.len (-(a.frac : Nat)) (a.factor r) g
        (some (fmtF32.value (a.bias.getD e 0).toNat))
    else portRound f sat mode x 1 (-(a.frac : Nat)) (a.factor r) g none

/-- SANRM (R281, R285 to R288). -/
def execSanrm (vd : Reg) (a : BitVec 2) (o : BitVec 16) (st rm : BitVec 3) (q : VMod) (s : State) :
    Host.Outcome State Fault Refusal :=
  .next (s.vword q.fl do
    let s ← now
    if s.me.vlNow ≠ 0 then
      let va := s.me.base a + o.signExtend 64
      let t ← wordType q.width
      needType q.width (decide (4 ≤ t.fmt))
      needGroups [vd]
      needFit t.w
      let sa ← saReach va t.w
      let s ← now
      need (!s.addsPending (1#8 <<< st.toNat)) (.wait .adds)
      let h := s.me
      let r := saRef va
      let row := sa.rows.getD r.row (.zero sa.len)
      let es := (h.active q.msel 0 h.vlNow).map fun i => (i, sa.out row t.fmtOf t.sat (h.mode rm) (r.first + i))
      let fl := es.foldl (fun acc x => acc ||| x.2.2) (0 : Flags)
      change fun s =>
        { s with me := (s.me.setElems s.vlen vd.val t.w (es.map fun x => (x.1, x.2.1))).raise fl }
      let ovf : Trap := .of cSA_OVERFLOW va
      if row.ovf && sa.ovfe then
        if h.enabled fl = 0 then stop (.after ovf)
        else
          change fun s => { s with me := { s.me with blkNext := some { ovf with src := .block s.me.wordAddr } } }
          fpTrap fl
      else fpTrap fl)

/-! ### SACFG (R279, R280) -/

/-- The fields of a configuration descriptor. -/
structure SaDesc where
  gain : Word
  bias : Word
  len : Nat
  rows : Nat
  eps : BitVec 32
  gtype : Nat
  ovfe : Bool
  ln : Bool
  frac : Nat
  rest : Nat
  deriving DecidableEq, Repr

def saDesc (bs : List Byte) : SaDesc :=
  let c := dwordOf bs 16
  let d := dwordOf bs 24
  { gain := dwordOf bs 0, bias := dwordOf bs 8, len := (bits c 48 16).toNat, rows := (bits c 32 16).toNat,
    eps := bits c 0 32, gtype := (bits d 8 2).toNat, ovfe := d.getLsbD 7, ln := d.getLsbD 6, frac := (bits d 0 6).toNat,
    rest := (bits d 10 54).toNat }

/-- Whether a descriptor keeps R279. -/
def SaDesc.ok (d : SaDesc) : Bool :=
  if d.rows = 0 then
    d.gain == 0 && d.bias == 0 && d.len == 0 && d.eps == 0 && d.gtype == 0 && !d.ovfe && !d.ln && d.frac == 0 &&
      d.rest == 0
  else
    d.rest == 0 && decide (d.gtype < 3) && decide (d.frac ≤ 40) && decide (16 ≤ d.len ∧ d.len ≤ 16384) &&
      d.len % 16 == 0 && decide (d.rows ≤ 32767) && (d.ln || d.bias == 0) && !d.eps.getLsbD 31 &&
      decide (d.eps < 0x7F800000#32)

/-- A gain or bias code widened to f32, which holds every value of the three types. -/
def widen (gtype c : Nat) : BitVec 32 :=
  BitVec.ofNat 32 (match gtype with
    | 0 => c
    | 1 => (roundF32 .rne (fmtBf16.value c)).1
    | _ => (roundF32 .rne (fmtF16.value c)).1)

/-- Read n gain or bias values; address 0 gives the default. -/
def readGain (va : Word) (n gtype : Nat) (dflt : BitVec 32) : M (List (BitVec 32)) := do
  if va = 0 then return List.replicate n dflt
  else
    let z := if gtype = 0 then 4 else 2
    let bs ← loadLong 0 va (n * z)
    return (List.range n).map fun i => widen gtype (leVal ((bs.drop (i * z)).take z))

/-- The footprints of the launch's other accumulators on a cluster. -/
def State.saOthers (s : State) (l c n : Nat) : Nat :=
  ((s.sas.filter fun a => a.launch == l && a.cluster == c && a.n != n).map Sa.foot).sum

/-- Whether a hart has stored a part of the images of an accumulator and goes on with them (R280, R291). -/
def State.saSaving (s : State) (l c n : Nat) : Bool :=
  s.teams.any fun t => t.team.launch == l && t.harts.any fun h => h.partsMade != 0 &&
    h.saving.any fun x => x.1 == c && x.2.1 == n

/-- SACFG (R280); one that reaches an evicted accumulator is held before its reservation is judged (R293). -/
def execSacfg (n : Fin 16) (a : Reg) (s : State) : Host.Outcome State Fault Refusal :=
  .next (s.word do
    let va := s.x a
    need (s.team.world == 0) (.trap (.of cWORLD_ESCAPE va))
    need (aligned va 32) (.trap (.sized cMISALIGN va 32))
    afterBlock
    let bs ← loadBytes 0 va 32
    let d := saDesc bs
    need d.ok (.trap (.of cENGINE va))
    let s ← now
    let l := s.team.launch
    let c := clusterOf s.team.core
    need (!((s.launchAt l).any (·.saOut.contains c))) (.wait (.accumulator c n.val))
    need (decide (0 < s.saReserved l c)) (.trap (.of cCAPACITY 0))
    let foot := if d.rows = 0 then 0 else saFoot d.len d.rows d.ln
    need (decide (foot + s.saOthers l c n.val ≤ s.saReserved l c)) (.trap (.of cCAPACITY (BitVec.ofNat 64 foot)))
    need (!(s.saBusy l c n.val) && !(s.saSaving l c n.val) && !((s.saAt l c n.val).any (·.evicted)))
      (.wait (.accumulator c n.val))
    if d.rows = 0 then change fun s => s.dropSa l c n.val
    else
      let gain ← readGain d.gain d.len d.gtype 0x3F800000#32
      let bias ← readGain d.bias d.len d.gtype 0
      change fun s => s.setSa
        { launch := l, cluster := c, n := n.val, len := d.len, frac := d.frac, ln := d.ln, ovfe := d.ovfe, eps := d.eps,
          gain := gain, bias := bias, rows := List.replicate d.rows (.zero d.len), evicted := false })

/-! ### Row images (R290 to R292) -/

/-- The bytes of a row image. -/
def Sa.image (a : Sa) (r : SaRow) : List Byte :=
  leBytes 8 ((if r.ovf then 2 ^ 25 else 0) + (if a.ln then 2 ^ 24 else 0) + a.frac * 2 ^ 16 + a.len)
    ++ leBytes 8 (intCode 64 r.t) ++ leBytes 8 (r.s % 2 ^ 64) ++ leBytes 8 (r.s / 2 ^ 64 % 2 ^ 48)
    ++ r.x.flatMap fun x => leBytes 6 (intCode 48 x)

def imageSize (len : Nat) : Nat := 32 + 6 * len

/-- The row of an image, if it passes the checks of R292. -/
def Sa.rowOf (a : Sa) (bs : List Byte) : Option SaRow :=
  let w0 := dwordOf bs 0
  let w3 := dwordOf bs 24
  let x := (List.range a.len).map fun i => (BitVec.ofNat 48 (leVal ((bs.drop (32 + 6 * i)).take 6))).toInt
  let t := (dwordOf bs 8).toInt
  let s : Nat := (dwordOf bs 16).toNat + (bits w3 0 48).toNat * 2 ^ 64
  if bits w0 26 38 = 0 ∧ bits w3 48 16 = 0 ∧ (bits w0 0 16).toNat = a.len ∧ (bits w0 16 8).toNat = a.frac ∧
      w0.getLsbD 24 = a.ln ∧ t = x.sum ∧ s = (x.map fun v => v.natAbs ^ 2).sum then
    some { x := x, s := s, t := t, ovf := w0.getLsbD 25 }
  else none

/-- The checks of SASAVE and SALOAD, and the accumulator of the hart's cluster (R291, R292). -/
def saOwn (n : Nat) (va : Word) : M Sa := fun s =>
  if !aligned va 32 then .error (.trap (.sized cMISALIGN va 32)) s
  else
    match s.saAt s.team.launch (clusterOf s.team.core) n with
    | none => .error (.trap (.of cENGINE 0)) s
    | some a =>
      if s.team.world ≠ 0 then .error (.trap (.of cWORLD_ESCAPE va)) s
      else if s.me.inFlight then .error (.wait .block) s
      else if a.evicted then .error (.wait (.accumulator a.cluster n)) s
      else if s.addsPending (BitVec.allOnes 8) then .error (.wait .adds) s
      else .ok a s

/-- The images that an SASAVE stores: those of the rows as it found them, also over a hold of its stores (R288, R291). -/
def saImages (sa : Sa) : M (List (List Byte)) := fun s =>
  match s.me.partsMade, s.me.saving with
  | _ + 1, some (_, _, ims) => .ok ims s
  | _, _ =>
    let ims := sa.rows.map sa.image
    .ok ims { s with me := { s.me with saving := some (sa.cluster, sa.n, ims) } }

/-- SASAVE (R291). -/
def execSasave (n : Fin 16) (a : Reg) (s : State) : Host.Outcome State Fault Refusal :=
  .next (s.word do
    let va := s.x a
    let sa ← saOwn n.val va
    let n := imageSize sa.len
    let at_ (k : Nat) : Word := va + BitVec.ofNat 64 (k * n)
    (List.range sa.rows.length).forM fun k =>
      trapIf (if isWindow (at_ k) then windowFault (at_ k) n false else straddle (at_ k) n)
    let ims ← saImages sa
    storeParts { stream := 0, size := 64, scatter := false, rel := false } s.wordNo
      (ims.zipIdx.flatMap fun (im, k) => partsOf (at_ k) im)
    change fun s => { s with me := { s.me with saving := none } })

/-- Read and check images k up to the last; the first that fails traps (R292). -/
def readImages (sa : Sa) (va : Word) : Nat → Nat → M (List SaRow)
  | 0, _ => pure []
  | m + 1, k => do
    let at_ := va + BitVec.ofNat 64 (k * imageSize sa.len)
    let bs ← loadLong 0 at_ (imageSize sa.len)
    match sa.rowOf bs with
    | some r =>
      let rest ← readImages sa va m (k + 1)
      return r :: rest
    | none => stop (.trap (.of cSA_INTEGRITY at_))

/-- SALOAD (R292; log entry 40). -/
def execSaload (n : Fin 16) (a : Reg) (s : State) : Host.Outcome State Fault Refusal :=
  .next (s.word do
    let va := s.x a
    let sa ← saOwn n.val va
    let rows ← readImages sa va sa.rows.length 0
    change fun s => s.setSa { sa with rows := rows })

/-! ### Steps of the arrays and of the CP (R287, R293) -/

/-- SAADD_APPLY: the k-th pending add reaches its row, behind an earlier add of its hart to the same row (R289). An add
that meets an evicted accumulator is held. -/
def execSaaddApply (k : Nat) (s : State) : Host.Outcome State Fault Refusal :=
  .next (match s.adds[k]? with
    | some a0 =>
      match s.adds.findIdx? a0.sameRow with
      | some j =>
        if (s.saAt a0.launch a0.cluster a0.n).any (·.evicted) then s
        else
          match s.adds[j]? with
          | some a => ({ s with adds := s.adds.eraseIdx j }).applyAdd a
          | none => s
      | none => s
    | none => s)

/-- Whether a team of a launch runs on a cluster. -/
def State.runsOn (s : State) (l c : Nat) : Bool :=
  s.teams.any fun t => t.place == .running && t.team.launch == l && clusterOf t.team.core == c

/-- The key of the area of an evicted accumulator in its tower's DRAM (R293; log entry 26). -/
def Sa.areaKey (a : Sa) : Nat := dramKey (a.cluster / 8 % 8) ((Config.saArea a.launch a.cluster a.n).toNat * 4096)

/-- The configuration of an accumulator as its area holds it: the fields of R279 with the gain and the bias behind them, in f32. -/
def Sa.config (a : Sa) : List Byte :=
  leBytes 8 0 ++ leBytes 8 0 ++ leBytes 8 (a.len * 2 ^ 48 + a.rows.length * 2 ^ 32 + a.eps.toNat)
    ++ leBytes 8 ((if a.ovfe then 2 ^ 7 else 0) + (if a.ln then 2 ^ 6 else 0) + a.frac)
    ++ (a.gain ++ a.bias).flatMap fun x => leBytes 4 x.toNat

/-- Where the image of row k lies, behind the configuration. -/
def Sa.imageKey (a : Sa) (k : Nat) : Nat := a.areaKey + 32 + 8 * a.len + k * imageSize a.len

/-- Write the configuration and the images of an accumulator to its area and mark it evicted. -/
def State.evictSa (s : State) (a : Sa) : State :=
  let s1 := s.storeAt 0 a.areaKey a.config
  let s2 := a.rows.zipIdx.foldl (fun s (r, k) => s.storeAt 0 (a.imageKey k) (a.image r)) s1
  s2.setSa { a with evicted := true }

/-- The reservation of a launch leaves the arrays of a cluster with the accumulators that it holds. -/
def State.evictOn (s : State) (c : Nat) (l : Launch) : State :=
  if l.sares.any (·.1 == c) then
    ((s.sas.filter fun a => a.launch == l.id && a.cluster == c && !a.evicted).foldl State.evictSa s).setLaunch
      { l with sares := l.sares.filter (·.1 != c), saOut := l.saOut ++ [c] }
  else s

/-- Whether the area of an accumulator must wait for a row command (R183). -/
def State.areaHeld (s : State) (a : Sa) (wr : Bool) : Bool :=
  s.rowHeld a.areaKey (32 + 8 * a.len + a.rows.length * imageSize a.len) wr

/-- Launches whose reservations stay on a cluster: one with a team there, or whose areas a row command holds. -/
def State.saStays (s : State) (c : Nat) (l : Launch) : Bool :=
  s.runsOn l.id c || s.sas.any fun a => a.launch == l.id && a.cluster == c && !a.evicted && s.areaHeld a true

/-- The reservations on a cluster of launches without a team there leave it when another needs their room (R293). -/
def State.evictIdle (s : State) (c : Nat) (l : Launch) : State :=
  if s.saFits (fun _ => true) l c then s
  else (s.holding.filter fun x => !s.saStays c x && x.id != l.id).foldl (State.evictOn · c) s

/-- SA_EVICT: the accumulators of a launch on a cluster leave the arrays, when no team of the launch runs there (R293). -/
def execSaEvict (l c : Nat) (s : State) : Host.Outcome State Fault Refusal :=
  .next (match s.launchAt l with
    | some x => if s.saStays c x then s else s.evictOn c x
    | none => s)

/-- The row that an image restores, or the row of a failure. -/
def State.restoredRow (s : State) (a : Sa) (k : Nat) : SaRow × Bool :=
  let key := a.imageKey k
  let n := imageSize a.len
  let bad := (List.range n).any fun i => s.byteBad 0 (key + i)
  match if bad then none else a.rowOf (s.bytesIn 0 key n) with
  | some r => (r, true)
  | none => ({ SaRow.zero a.len with ovf := true }, false)

/-- An accumulator comes back from its images; each failing row is reported with its launch and row. -/
def State.restoreSa (s : State) (a : Sa) : State :=
  let rs := (List.range a.rows.length).map (s.restoredRow a)
  let s1 := s.setSa { a with rows := rs.map (·.1), evicted := false }
  let q := ((s.launchAt a.launch).map (·.queue)).getD 0
  (rs.zipIdx.filter fun r => !r.1.2).foldl (fun s r =>
    s.event eFAULT_RECORD q (a.cluster / 8 % 8) (BitVec.ofNat 64 (a.launch % 2 ^ 32 * 2 ^ 32 + cSA_INTEGRITY))
      (BitVec.ofNat 64 r.2)) s1

/-- Whether work of a launch, or a request on its accumulators, waits for them. -/
def State.saWanted (s : State) (l c : Nat) : Bool :=
  s.acorns.any (·.launch == l) || s.adds.any (fun a => a.launch == l && a.cluster == c) ||
    s.teams.any fun t => t.team.launch == l && t.place != .rival &&
      (t.place != .running || t.harts.any fun h => h.wait.isSome)

/-- Whether the reservation of a launch finds room on a cluster, where its work waits by eviction of others (R293), once the tower
serves (R315) and no row command holds the areas to be read (R183). -/
def State.canRestore (s : State) (x : Launch) (c : Nat) : Bool :=
  x.saOut.contains c && !(s.towerAt (c / 8)).offline &&
    !(s.sas.any fun a => a.launch == x.id && a.cluster == c && a.evicted && s.areaHeld a false) &&
    (s.saFits (fun _ => true) x c || (s.saWanted x.id c && s.saFits (s.saStays c) x c))

/-- SA_RESTORE: the reservation of a launch comes back to a cluster with its evicted accumulators, each image checked as SALOAD
checks it (R293), and its work there goes on. -/
def execSaRestore (l c : Nat) (s : State) : Host.Outcome State Fault Refusal :=
  .next (match s.launchAt l with
    | some x =>
      if s.canRestore x c then
        let s1 := s.evictIdle c x
        let s2 := s1.setLaunch { x with sares := x.sares ++ [(c, s1.saRun (fun _ => true) x c, rows128 x.saneed)],
                                        saOut := x.saOut.filter (· != c) }
        ((s2.sas.filter fun a => a.launch == l && a.cluster == c && a.evicted).foldl State.restoreSa s2).seekAll x.cores
      else s
    | none => s)

end Sys2Proof.Machine
end

