-- ==== Sys2Proof/Machine/Queue.lean ====
section
/-! DEFINITION. The packets of host queues (R72 to R75, R80, R344) and launches: kernel records, range and binding tables
(R66, R70, R71, R180, R236), handles (R181), placement and expansion (R67, R68, R157 to R159, R276). -/

namespace Sys2Proof.Machine

/-! ### The ring moves on -/

/-- The front end is past a packet of len units. -/
def State.tookPacket (s : State) (q len : Nat) : State :=
  let c := s.queueAt q
  (s.setQueue q { c with head := BitVec.ofNat 64 ((c.offset + 16 * len) % c.bytes), seen := none, hold := [], answers := [] }).kickQueue q

/-- The first doubleword of the packet at the head, 0 while it cannot be read. -/
def State.headWord (s : State) (q : Nat) : Word :=
  match ringRead q (s.queueAt q).offset 8 s with
  | .ok bs _ => packetWord bs 0
  | .error _ _ => 0

/-- The length of the NOP at the head. -/
def State.headLen (s : State) (q : Nat) : Nat :=
  let n := (bits (s.headWord q) 8 8).toNat
  if n = 0 ∨ 16 < n then 1 else n

/-- A write of QTAIL, the doorbell (R72). -/
def State.doorbell (s : State) (q : Nat) (tail : Word) : State := (s.onQueue q fun c => { c with tail := tail }).frontEnd q

/-- QTAIL_DOORBELL. -/
def execQtailDoorbell (q : Nat) (tail : Word) (s : State) : Host.Outcome State Fault Refusal := .next (s.doorbell q tail)

/-- A write of 1 to QSTAT.HALT (R75). -/
def State.restartQueue (s : State) (q : Nat) : State := (s.onQueue q fun c => { c with halted := false }).frontEnd q

/-- QUEUE_RESTART. -/
def execQueueRestart (q : Nat) (s : State) : Host.Outcome State Fault Refusal := .next (s.restartQueue q)

/-- NOP (R74). -/
def execNop (q : Nat) (s : State) : Host.Outcome State Fault Refusal := .next (s.tookPacket q (s.headLen q))

/-! ### WAIT and SIGNAL (R74) -/

/-- The value of a counter that a WAIT packet names. A counter-window address is read by its fields, without a check of those that R133
has be zero, and the own-team code names no team (log entry 78). -/
def waitValue (q : Nat) (asid : BitVec 16) (a : Word) : QM Nat := fun s =>
  if isWindow a && towerOf a == counterCode then
    .ok (s.counterOf (bits a 9 23).toNat (bits a 6 3).toNat (bits a 3 3).toNat) s
  else
    match qRead q asid a 8 s with
    | .ok bs s1 => .ok (leVal bs) s1
    | .error e s1 => .error e s1

/-- Whether a WAIT packet's condition holds in its address space. -/
def State.waitHolds (s : State) (q : Nat) (asid : BitVec 16) (a v : Word) : Bool × State :=
  match waitValue q asid a s with
  | .ok n s1 => (decide (v.toNat ≤ n), s1)
  | .error _ s1 => (false, s1)

/-- WAIT: later packets wait until the counter has reached the value. -/
def execWait (q : Nat) (a v : Word) (s : State) : Host.Outcome State Fault Refusal :=
  let asid := (s.queueAt q).packetAsid
  let (ok, s1) := s.waitHolds q asid a v
  .next ((if ok then s1 else s1.setQueue q { s1.queueAt q with blockedOn := some (a, v, asid) }).tookPacket q 2)

/-- PACKET_WAIT_DONE: the counter has reached its value and the queue proceeds. -/
def execPacketWaitDone (q : Nat) (s : State) : Host.Outcome State Fault Refusal :=
  .next (match (s.queueAt q).blockedOn with
    | some (a, v, asid) =>
      let (ok, s1) := s.waitHolds q asid a v
      if ok then (s1.setQueue q { s1.queueAt q with blockedOn := none, hold := [], answers := [] }).kickQueue q else s1
    | none => s)

/-- SIGNAL: the value is written after every earlier packet has completed. -/
def execSignal (q : Nat) (a v : Word) (s : State) : Host.Outcome State Fault Refusal :=
  let c := s.queueAt q
  let g : PendSignal := { counter := a, value := v, asid := c.packetAsid, launches := s.openLaunches q, copies := c.copies }
  .next ((s.setQueue q { c with signals := c.signals ++ [g] }).tookPacket q 2)

/-! ### COPY, BIND and CONFIG (R74, R80, R344) -/

/-- COPY: a copy command of the queue; a descriptor that is not aligned to 32 fails as CPY would (R344). -/
def execCopy (q : Nat) (desc : Word) (s : State) : Host.Outcome State Fault Refusal :=
  let c := s.queueAt q
  let cmd : Cmd :=
    { cid := s.nextCmd, kind := kCPY, args := [desc], team := 0, hart := 0, ctx := 0, seq := c.offset, core := 0,
      world := 0, asid := c.packetAsid, launch := 0, queue := some q, hold := [], answers := [], accepted := false,
      started := false, finished := false, dropped := false, work := .none, fault := none }
  let s1 := { s with cmds := s.cmds ++ [cmd], nextCmd := s.nextCmd + 1 }.setQueue q { c with copies := c.copies ++ [cmd.cid] }
  let s2 := if aligned desc 32 then s1 else s1.finishCmd cmd.cid (some (.of cMISALIGN desc))
  .next (s2.tookPacket q 2)

/-- BIND. -/
def execBind (q : Nat) (table : Word) (s : State) : Host.Outcome State Fault Refusal :=
  .next ((s.setQueue q { s.queueAt q with bound := some table }).tookPacket q 2)

/-- CONFIG of item 0. -/
def execConfigDeadline (q : Nat) (v : Word) (s : State) : Host.Outcome State Fault Refusal :=
  .next ((s.setQueue q { s.queueAt q with deadline := v.toNat }).tookPacket q 2)

/-- The entries of a gang table, as queue and routing ID, if it has none of the faults of R80. -/
def gangEntries (q : Nat) (asid : BitVec 16) (table : Word) : QM (List (Nat × Nat)) := do
  let n := leVal (← qRead q asid table 8)
  qneed (decide (2 ≤ n ∧ n ≤ 64))
  let bs ← qRead q asid (table + 8) (8 * n)
  let es := (List.range n).map fun m => dwordOf bs (8 * m)
  qneed (es.all fun e => bits e 22 42 == 0)
  let ts := es.map fun e => ((bits e 16 6).toNat, (bits e 0 16).toNat)
  qneed (ts.any (·.2 == Config.pbrId.toNat))
  return ts

/-- CONFIG of item 1: a bad table halts the queue at this packet. -/
def execConfigGangTable (q : Nat) (table : Word) (s : State) : Host.Outcome State Fault Refusal :=
  .next (match gangEntries q (s.queueAt q).packetAsid table s with
    | .ok ts s1 => (s1.setQueue q { s1.queueAt q with gangTable := ts }).tookPacket q 2
    | .error .wait s1 => s1
    | .error .bad s1 => s1.haltQueue q eQUEUE_MALFORMED (s1.headWord q >>> 32))

/-! ### The kernel record (R66) and the range table (R180) -/

/-- A level of a kernel record: count, kind, and the bytes of its strides. -/
structure KLevel where
  count : Nat
  kind : Nat
  strides : List Byte
  deriving DecidableEq, Repr

def kLevel (bs : List Byte) (l : Nat) : KLevel :=
  let e := (bs.drop (64 + 32 * l)).take 32
  { count := leVal (e.take 4), kind := leVal ((e.drop 4).take 4), strides := e.drop 8 }

/-- A level in use: a count and a kind, and zeros where the manual names no field. -/
def KLevel.ok (k : KLevel) : Bool :=
  k.count != 0 && (k.kind == 1 || k.kind == 2 || k.kind == 3) && (k.strides.drop 16).all (· == 0) &&
    (k.kind == 1 || (k.strides.drop 8).all (· == 0))

/-- Whether a kernel record keeps its reserved fields zero and its fields in range; of a level that is not in use only the
reserved field is looked at (log entry 48). -/
def kernelOk (bs : List Byte) : Bool :=
  let ctl := dwordOf bs 8
  let n := (bits ctl 11 3).toNat
  bits ctl 14 50 == 0 && !ctl.getLsbD 10 && bits ctl 4 4 == 0 && decide (n ≤ 6) && (!ctl.getLsbD 3 || ctl.getLsbD 2) &&
    decide ((dwordOf bs 32).toNat ≤ 256) && dwordOf bs 48 == 0 && dwordOf bs 56 == 0 &&
    (List.range 6).all fun l => if l < n then (kLevel bs l).ok else ((kLevel bs l).strides.drop 16).all (· == 0)

/-- The temporal levels, outermost first (R67). -/
def temporalOf (bs : List Byte) : List Level :=
  let n := (bits (dwordOf bs 8) 11 3).toNat
  (((List.range n).map (kLevel bs)).filter (·.kind == 1)).map fun k =>
    { count := k.count,
      strides := (List.range 4).map fun j => (BitVec.ofNat 32 (leVal ((k.strides.drop (4 * j)).take 4))).signExtend 64 }

/-- The spatial levels, outermost first: count, kind and frame stride. -/
def spatialOf (bs : List Byte) : List (Nat × Nat × Word) :=
  let n := (bits (dwordOf bs 8) 11 3).toNat
  (((List.range n).map (kLevel bs)).filter (·.kind != 1)).map fun k => (k.count, k.kind, dwordOf k.strides 0)

/-- An entry of the range table, if it is not bad (R180). -/
def rangeOf (bs : List Byte) : Option Range :=
  let b := dwordOf bs 0
  let n := dwordOf bs 8
  let f := dwordOf bs 16
  if aligned b 64 && n != 0 && aligned n 64 && bits f 35 29 == 0 && bits f 32 2 != 0 && dwordOf bs 24 == 0 then
    some { base := b, len := n, flush := f.getLsbD 34, access := (bits f 32 2).toNat, handle := (bits f 0 32).toNat }
  else none

/-- The range table of a kernel record. -/
def rangesOf (q : Nat) (asid : BitVec 16) (va : Word) (n : Nat) : QM (List Range) := do
  if n = 0 then return []
  qneed (aligned va 32)
  let bs ← qRead q asid va (32 * n)
  let rs := (List.range n).filterMap fun k => rangeOf ((bs.drop (32 * k)).take 32)
  qneed (rs.length == n)
  return rs

/-! ### Roles (R70, R71, R236) -/

/-- The bits of [47:8] that a kind names. -/
def memberMask : Nat → Word
  | 1 => 0xFF00
  | 2 => 0x700
  | 3 => 0xFF0F00
  | 4 => 0xFFFFFFFFFF00
  | _ => 0xF0FF00

def roleKind (e : Word) : Nat := (bits e 0 4).toNat
def roleTower (e : Word) : Nat := (bits e 20 4).toNat

/-- Whether an entry of a binding table is well formed and its member in range. -/
def roleOk (e : Word) : Bool :=
  let k := roleKind e
  decide (1 ≤ k ∧ k ≤ 5) && bits e 48 16 == 0 && bits e 4 4 == 0 &&
    e &&& 0xFFFFFFFFFF00#64 &&& ~~~(memberMask k) == 0 &&
    (k != 3 || (decide (roleTower e ≤ 7) && decide ((bits e 16 4).toNat ≤ 11))) &&
    (k != 5 || (decide (roleTower e ≤ 7) && decide ((bits e 8 8).toNat ≤ 47)))

/-- The entries of a binding table up to its end; the entry that ends it keeps its reserved fields zero (R7, R71). -/
def rolesOf (q : Nat) (asid : BitVec 16) : Nat → Word → QM (List Word)
  | 0, _ => pure []
  | n + 1, va => do
    let e := dwordOf (← qRead q asid va 8) 0
    if roleKind e = 0 then
      qneed (e == 0)
      return []
    qneed (roleOk e)
    return e :: (← rolesOf q asid n (va + 8))

/-- The co-location group and the members of a descriptor (R225); its validity is judged by RPL. -/
def setMembers (q : Nat) (asid : BitVec 16) (va : Word) : QM (Nat × List (BitVec 32)) := do
  let h := dwordOf (← qRead q asid va 16) 0
  let n := (bits h 0 16).toNat
  if n = 0 ∨ 4096 < n then return ((bits h 16 16).toNat, [])
  let bs ← qRead q asid (va + 16) (4 * n)
  return ((bits h 16 16).toNat, (List.range n).map fun m => BitVec.ofNat 32 (leVal ((bs.drop (4 * m)).take 4)))

/-- What a role is bound to: the towers of its member, the tower in which the device no longer has it, and a subarray set with
its group. -/
structure RoleUse where
  towers : List Nat
  gone : Option Nat
  group : Nat
  coords : List (BitVec 32)
  deriving DecidableEq, Repr

def roleUse (q : Nat) (asid : BitVec 16) (e : Word) : QM RoleUse := do
  let t := roleTower e
  if roleKind e = 4 then
    let (g, cs) ← setMembers q asid (e &&& 0xFFFFFFFFFF00#64)
    let s ← get
    return { towers := (cs.filter coordOk).map coordTower, gone := (cs.find? fun c => coordOk c && (s.subOf c).isNone).map coordTower,
             group := g, coords := cs }
  else
    let s ← get
    let gone :=
      if roleKind e = 3 then
        let d := (bits e 16 4).toNat
        let p := (bits e 8 4).toNat
        ((s.towerAt t).bankIx d (2 * p)).isNone || ((s.towerAt t).bankIx d (2 * p + 1)).isNone
      else roleKind e == 5 && (s.towerAt t).retired.getLsbD (bits e 8 8).toNat
    return { towers := if roleKind e = 3 ∨ roleKind e = 5 then [t] else [], gone := if gone then some t else none,
             group := 0, coords := [] }

/-- The binding set of a launch, in ascending number (R70). -/
def bindingSet (roles : List Word) (uses : List RoleUse) : List Nat :=
  let cores := (roles.filter (roleKind · == 1)).map fun e => (bits e 8 8).toNat
  let towers := (roles.filter (roleKind · == 2)).map fun e => (bits e 8 3).toNat
  let others := uses.flatMap (·.towers)
  (List.range 256).filter fun k =>
    if cores.isEmpty ∧ towers.isEmpty then others.isEmpty || others.contains (towerOfCore k)
    else cores.contains k || towers.contains (towerOfCore k)

/-- Whether two subarray sets of one group differ in their members (R236). -/
def groupsClash (uses : List RoleUse) : Bool :=
  uses.any fun a => a.group != 0 && uses.any fun b => b.group == a.group && b.coords != a.coords

/-! ### Capacity (R71, R159, R276) -/

/-- Whether a cluster's capacity at its rail covers a launch (R159). -/
def State.covers (s : State) (l : Launch) (k : Nat) : Bool :=
  let c := s.clusterAt k
  decide (rows128 l.spneed ≤ c.spCapacity c.lv ∧ rows128 l.saneed ≤ c.saCapacity c.lv)

/-- Whether a cluster has room for the allocations of a launch, once the reservations of launches without a team there have
been evicted (R157, R293). -/
def State.hasRoom (s : State) (l : Launch) (k : Nat) : Bool :=
  let c := s.clusterAt k
  (l.bound.filter fun x => clusterOf x == k).all (fun x =>
    decide (s.vaultRun l x + rows128 l.spneed ≤ 128 * (if c.lv then c.vaultGood x else vaultRows))) &&
    (l.saneed == 0 || s.saFits (s.saStays k) l k)

/-! ### Acceptance (R66, R71, R180, R236) -/

/-- Why a launch is refused: a status of R69, or a binding that is short by the channels of a mask (R71, R227). -/
inductive Refused where
  | status (n : Nat)
  | short (mask : Word)
  deriving DecidableEq, Repr

/-- The launch of a LAUNCH packet, or why it is refused: ENGINE, then BIND_SHORT, LAYOUT and CAPACITY (log entry 48). While a
bound cluster moves its rail, CAPACITY is judged at the new one (R158). -/
def acceptLaunch (l : Launch) (kernel : Word) : QM (Refused ⊕ Launch) := do
  qneed (aligned kernel 64)
  let k ← qRead l.queue l.asid kernel 256
  qneed (kernelOk k)
  let ctl := dwordOf k 8
  let ranges ← rangesOf l.queue l.asid (dwordOf k 24) (dwordOf k 32).toNat
  let s ← get
  let table := if dwordOf k 16 ≠ 0 then some (dwordOf k 16) else (s.queueAt l.queue).bound
  qneed table.isSome
  let roles ← rolesOf l.queue l.asid 256 (table.getD 0)
  let uses ← roles.mapM (roleUse l.queue l.asid)
  let l' := { l with
    code := dwordOf k 0, pri := (bits ctl 8 2).toNat, restartable := ctl.getLsbD 3, versioned := ctl.getLsbD 2,
    size := (bits ctl 0 2).toNat, spneed := (bits (dwordOf k 40) 0 32).toNat,
    saneed := (bits (dwordOf k 40) 32 32).toNat, temporal := temporalOf k, spatial := spatialOf k, ranges := ranges,
    roles := roles, bound := bindingSet roles uses, cores := bindingSet roles uses }
  let s ← get
  match uses.findSome? (·.gone) with
  | some t => return .inl (.short (missingMask t (s.towerAt t)))
  | none =>
    if groupsClash uses then return .inl (.status cLAYOUT)
    else if l'.bound.any fun k => s.covers l' (clusterOf k) then return .inr l'
    else if l'.bound.any fun k => (s.clusterAt (clusterOf k)).target.isSome then fun s => .error .wait s
    else return .inl (.status cCAPACITY)

/-! ### Handles (R181) -/

/-- The handles of a launch with the union of their accesses. -/
def Launch.uses (l : Launch) : List (Nat × Nat) :=
  (((l.ranges.map (·.handle)).eraseDups).filter (· != 0)).map fun h =>
    (h, (l.ranges.filter (·.handle == h)).foldl (fun a r => a ||| r.access) 0)

/-- Whether a launch has not completed. -/
def State.launchOpen (s : State) (d : Nat) : Bool := (s.launchAt d).any (!·.complete)

/-- Entries that no incomplete launch names are free. -/
def State.freeHandles (s : State) : List HandleRec :=
  s.handles.filter fun h => h.writer.any s.launchOpen || h.readers.any s.launchOpen

/-- Enter a launch for one handle: what it depends on, and the table. -/
def enterHandle (id : Nat) (deps : List Nat) (t : List HandleRec) (h a : Nat) : List Nat × List HandleRec :=
  let r := (t.find? (·.handle == h)).getD { handle := h, writer := none, readers := [] }
  let wr := a / 2 % 2 == 1
  let r' := if wr then { r with writer := some id, readers := [] } else { r with readers := r.readers ++ [id] }
  (deps ++ r.writer.toList ++ (if wr then r.readers else []), t.filter (·.handle != h) ++ [r'])

def handleRoom : Nat := 8192

/-! ### Placement and expansion (R67, R68) -/

/-- The digits of n in mixed radix, outermost first. -/
def radix : List Nat → Nat → List Nat
  | [], _ => []
  | c :: rest, n => n / (rest.foldl (· * ·) 1) % (max c 1) :: radix rest n

/-- The mixed-radix number of the indices of one kind of level. -/
def kindIndex (kind : Nat) (levels : List (Nat × Nat × Word)) (ix : List Nat) : Nat :=
  (levels.zip ix).foldl (fun n (l, i) => if l.2.1 = kind then n * l.1 + i else n) 0

/-- Whether a core is idle (R59). -/
def State.idleCore (s : State) (k : Nat) : Bool :=
  (s.runningOn k).isNone && (s.coreAt k).deque.isEmpty && (s.requeued k).isEmpty && s.coreServes k

/-- The core to which acorn n of a launch goes, counted over its binding set (R67). Where no tower role is bound, the towers
are those of the binding set (log entry 28). -/
def State.homeOf (s : State) (l : Launch) (n : Nat) : Nat :=
  let ix := radix (l.spatial.map (·.1)) n
  let hasT := l.spatial.any (·.2.1 == 3)
  let hasC := l.spatial.any (·.2.1 == 2)
  let t := kindIndex 3 l.spatial ix
  let c := kindIndex 2 l.spatial ix
  let first := l.bound.headD 0
  let pick (ks : List Nat) (i : Nat) : Nat := ks.getD (i % max ks.length 1) first
  if hasT then
    let bound := (l.roles.filter (roleKind · == 2)).map fun e => (bits e 8 3).toNat
    let towers := if bound.isEmpty then (l.bound.map towerOfCore).eraseDups else bound
    let tower := towers.getD (t % max towers.length 1) 0
    let mine := l.bound.filter fun k => towerOfCore k == tower
    let ks := if mine.isEmpty then l.bound else mine
    if hasC then pick ks c
    else
      let before := (List.range n).filter fun m =>
        towers.getD (kindIndex 3 l.spatial (radix (l.spatial.map (·.1)) m) % max towers.length 1) 0 == tower
      pick ks before.length
  else if hasC then
    let roles := ((l.roles.filter (roleKind · == 1)).map fun e => (bits e 8 8).toNat)
    pick (if roles.isEmpty then l.bound else roles) c
  else (l.bound.find? s.idleCore).getD first

/-- The frame of an acorn: the frame base moved by every spatial level. -/
def frameOf (l : Launch) (n : Nat) : Word :=
  (l.spatial.zip (radix (l.spatial.map (·.1)) n)).foldl (fun f (x, i) => f + BitVec.ofNat 64 i * x.2.2) l.frame

/-- Acorn n of a launch. -/
def launchAcorn (l : Launch) (core n : Nat) : Acorn :=
  { code := l.code, frame := frameOf l n, joinrec := l.joinrec, world := 0, pri := l.pri, restartable := l.restartable,
    versioned := l.versioned, size := l.size, a1 := 0, v1 := 0, a2 := 0, v2 := 0, launch := l.id, core := core, x3 := 0,
    x4 := BitVec.ofNat 64 n, rival := none, forks := [], carries := 0, moved := [], attempts := 0, avoid := none }

/-- An acorn goes to a core's deque, or, while its tower is offline, to a core of its binding set in another tower; where
none is left its launch completes with THERMAL_OFFLINE (R315). -/
def State.placeAcorn (s : State) (a : Acorn) : State :=
  if (s.towerAt (towerOfCore a.core)).offline then
    let cores := ((s.launchAt a.launch).map (·.cores)).getD []
    match cores.find? fun k => !(s.towerAt (towerOfCore k)).offline with
    | some k => s.cpPush { a with core := k }
    | none => s.endLaunch a.launch eTHERMAL_OFFLINE 0
  else s.cpPush a

/-- The clusters of the binding set of a launch. -/
def Launch.clusters (l : Launch) : List Nat := (l.bound.map clusterOf).eraseDups

/-- A launch with its allocations on some clusters, each on the lowest run that holds it (R157, R276). -/
def State.allotted (s : State) (l : Launch) (fit : List Nat) : Launch :=
  let cores := l.bound.filter fun k => fit.contains (clusterOf k)
  { l with
    cores := cores, placed := true, started := true,
    alloc := if l.spneed = 0 then [] else cores.map fun k => (k, s.vaultRun l k, rows128 l.spneed),
    sares := if l.saneed = 0 then [] else fit.map fun k => (k, s.saRun (fun _ => true) l k, rows128 l.saneed) }

/-- Place a launch: its allocations on every bound cluster that covers them, its completion record, and its acorns. A move of a
bound cluster's rail comes first (R158), idle reservations are evicted where their room is needed (R293), and a launch waits
while a covering cluster has no room (log entry 28). -/
def State.placeLaunch (s : State) (l : Launch) : State :=
  let fit := l.clusters.filter (s.covers l)
  if l.clusters.any fun k => (s.clusterAt k).target.isSome then s
  else if fit.isEmpty then s.failLaunch l.id cCAPACITY 0 0 l.offset
  else if !fit.all (s.hasRoom l) then s
  else
    let n := (l.spatial.map (·.1)).foldl (· * ·) 1
    let s0 := if l.saneed = 0 then s else fit.foldl (fun s k => s.evictIdle k l) s
    let l' := s0.allotted l fit
    let s1 := (s0.setLaunch l').storeAt 0 (joinKey l.id 0) (leBytes 8 n ++ leBytes 8 0)
    let s2 := (List.range n).foldl (fun s i => s.placeAcorn (launchAcorn l' (s.homeOf l' i) i)) s1
    s2.seekAll l'.cores

/-- LAUNCH_READY (R181): a held launch whose dependences have completed is placed. -/
def execLaunchReady (l : Nat) (s : State) : Host.Outcome State Fault Refusal :=
  .next (match s.launchAt l with
    | some x => if !x.placed && !x.complete && s.depsDone x then s.placeLaunch x else s
    | none => s)

/-! ### Periods (R72, R76) -/

/-- The start of the period in which the packet at the head was read first. -/
def Queue.headPeriod (c : Queue) : Option Nat := ((c.seen.map (·.2)).getD none).or c.begun

/-- The deadline of the launch at the head of a queue, in ns of fabric time (R76). -/
def Queue.deadlineNow (c : Queue) : Nat :=
  if c.periodUs = 0 then 0
  else (match c.headPeriod with
    | some t => t
    | none => c.epoch * 1000) + (if c.deadline = 0 then c.periodUs else c.deadline) * 1000

/-! ### LAUNCH -/

/-- A launch as its packet gives it. -/
def newLaunch (s : State) (q : Nat) (frame counter value : Word) : Launch :=
  let c := s.queueAt q
  { id := s.nextLaunch, queue := q, offset := BitVec.ofNat 64 c.offset, asid := c.packetAsid, code := 0, pri := 0, restartable := false,
    versioned := false, size := 0, spneed := 0, saneed := 0, temporal := [], spatial := [], ranges := [], roles := [], bound := [], cores := [],
    alloc := [], sares := [], saOut := [], frame := frame, counter := counter, value := value,
    joinrec := BitVec.ofNat 64 (16 * ((Config.joinArea s.nextLaunch).toNat + 1)), deadline := c.deadlineNow, deps := [],
    placed := false, started := false, complete := false, status := 0, statusTask := 0 }

/-- Add a launch to the device. -/
def State.addLaunch (s : State) (l : Launch) : State :=
  { s with launches := s.launches ++ [l], nextLaunch := s.nextLaunch + 1 }

/-- A launch with a binding that is short completes with BIND_SHORT; the copy of a record that FAULT_RECORD names holds the
mask as its TVAL and the offset of the packet as its TEPC (R71, R227, R306; log entry 50). -/
def State.failShort (s : State) (l : Launch) (mask : Word) : State :=
  let at_ := (Config.recordCopy s.fresh).toNat * 64
  let bs := leBytes 8 cBIND_SHORT ++ leBytes 8 l.offset.toNat ++ leBytes 8 mask.toNat ++ List.replicate 40 0#8
  ({ s.ownWrite (dramKey 0 at_) bs with fresh := s.fresh + 1 }).failLaunch l.id cBIND_SHORT 0 0
    (BitVec.ofNat 64 at_)

/-- LAUNCH (R66 to R71, R76, R180, R181, R236): the first one of a queue starts its periods; a launch that is refused
completes with its status; one that finds no room for a handle waits at the front end; one that depends on others is
entered and placed later. -/
def execLaunch (q : Nat) (kernel frame counter value : Word) (s : State) : Host.Outcome State Fault Refusal :=
  let c := s.queueAt q
  let s0 := if c.startsPeriods (.launch q kernel frame counter value) then s.passTime.beginPeriod q s.passTime.time else s
  let l := newLaunch s0 q frame counter value
  .next (match acceptLaunch l kernel s0 with
    | .error .wait s1 => s1
    | .error .bad s1 => ((s1.addLaunch l).failLaunch l.id cENGINE 0 0 l.offset).tookPacket q 3
    | .ok (.inl (.status n)) s1 => ((s1.addLaunch l).failLaunch l.id n 0 0 l.offset).tookPacket q 3
    | .ok (.inl (.short mask)) s1 => ((s1.addLaunch l).failShort l mask).tookPacket q 3
    | .ok (.inr l1) s1 =>
      let t := s1.freeHandles
      let fresh := l1.uses.filter fun u => !(t.any (·.handle == u.1))
      if handleRoom < t.length + fresh.length then s1
      else
        let (deps, t') := l1.uses.foldl (fun x u => enterHandle l1.id x.1 x.2 u.1 u.2) ([], t)
        let l2 := { l1 with deps := deps.filter s1.launchOpen }
        let s2 := { s1.addLaunch l2 with handles := t' }
        (if l2.deps.isEmpty then s2.placeLaunch l2 else s2).tookPacket q 3)

end Sys2Proof.Machine
end

