-- ==== Sys2Proof/Machine/Worlds.lean ====
section
/-! DEFINITION. The WORLD words and the continuation of a fork (R261 to R270, R341, R342, R362, R436 to R438). -/

namespace Sys2Proof.Machine

/-! ### FORKW (R262, R263, R362) -/

/-- A hart that stands at a FORKW. -/
def Hart.atFork (h : Hart) : Bool := h.wait == some .team && h.forkArgs.isSome

/-- A trap of FORKW is taken by every hart of the team: the other ones take it when they move. own says that each takes
its own X[xa] as TVAL. -/
def State.trapPeers (s : State) (t : Trap) (own : Bool) : State :=
  { s with peers := s.peers.map fun h =>
      if h.atFork then
        { h with entry := some ({ t with tval := if own then (h.forkArgs.map (·.1)).getD 0 else t.tval }, h.pc),
                 wait := some .hold, forkArgs := none }
      else h }

/-- Whether every hart at the fork holds the same operands. -/
def State.forkAgrees (s : State) (a b : Word) : Bool :=
  s.peers.all fun h => !h.alive || (h.forkArgs.map fun x => (x.1, x.2.1)) == some (a, b)

/-- The count and flags of FORKW. -/
def forkCount (a : Word) : Nat := (bits a 0 4).toNat
def forkArgsOk (a : Word) : Bool := a &&& ~~~0x10F#64 == 0 && decide (2 ≤ forkCount a) && decide (forkCount a ≤ 8)

/-- A hart of rival k, as the restore of its copy leaves it (R263). -/
def Hart.rival (h : Hart) (vlen k seed : Nat) : Hart :=
  let d := ((h.forkArgs.map (·.2.2)).getD 0)
  let h1 := { h.setReg d (BitVec.ofNat 64 k) with
    pc := h.pc + 4, tepc := 0, tcause := 0, tval := 0, tstat := 0, pixV := Vector.replicate 32 0,
    pixT := Vector.replicate 8 0, pixW := [], ctxs := Vector.replicate 8 .init, blk := none, unf := none, wait := none,
    blkFault := none, blkNext := none, sideFault := none, pending := [], entry := none, answers := [], poolRefused := none,
    replay := none, forkArgs := none }
  h1.restored vlen seed

/-- The acorn of a rival's team (R262, R263). -/
def rivalAcorn (t : Team) : Acorn :=
  { code := 0, frame := 0, joinrec := 0, world := t.world, pri := (t.acorn.map (·.pri)).getD 0, restartable := false,
    versioned := false, size := t.size, a1 := 0, v1 := 0, a2 := 0, v2 := 0, launch := t.launch, core := t.core, x3 := 0,
    x4 := 0, rival := some t.no, forks := [], carries := 0, moved := [], attempts := 0, avoid := none }

/-- Make rival k of the focused team in world w, copied from the harts at the fork. -/
def State.makeRival (s : State) (harts : List Hart) (w d k : Nat) : State :=
  let team := { s.team with
    no := s.teamNo, task := s.nextTask % 2 ^ 32, world := w, depth := d, joinrec := 0, versioned := false,
    carried := 0, restartable := false, moved := [], contOf := [], ctxBlk := blockKey (Config.teamArea s.nextTeam),
    tshape := Vector.replicate 8 0, inSlot := Vector.replicate 8 false }
  let copies := harts.zipIdx.map fun (h, j) => h.rival s.vlen k (s.fresh + j)
  let c : TeamCtx := { team := team, harts := copies, place := .rival }
  let s1 := { s with nextTeam := s.nextTeam + 1, nextTask := s.nextTask + 1, fresh := s.fresh + harts.length,
                     parked := s.parked ++ [c], past := s.past.filter (·.team != team.no) }
  (s1.saveContext c).pushBottom (rivalAcorn team)

/-- The fork itself, after every check: a is X[xa], b is X[xb], bs the continuation's record, ids the worlds. -/
def State.fork (s : State) (a b : Word) (bs : List Byte) (ids : List Nat) : State :=
  let w0 := ids.headD 0
  let t := s.team
  let d := t.depth + 1
  let cont : Acorn :=
    { (acornOf bs b t.launch t.core).resolve t.no with
      world := t.world, joinrec := t.joinrec, x3 := b, x4 := BitVec.ofNat 64 w0, forks := w0 :: t.contOf,
      carries := t.carried + (if t.versioned then 1 else 0), moved := t.moved }
  let f : Fork :=
    { handle := w0, parent := t.world, rivals := ids.map fun w => { wid := w, depth := d, st := .running, score := none },
      decided := false, cont := cont, contAddr := b, core := t.core, pushed := false }
  let ws : List World := ids.zipIdx.map fun (w, k) =>
    { id := w, parent := t.world, depth := d, fork := some (w0, k), trapx := a.getLsbD 8, merged := false, home := towerOfCore t.core,
      log := [] }
  let harts := s.teamHarts
  let s1 := { s with worlds := s.worlds ++ ws, forks := s.forks ++ [f], nextWorld := ids.getLastD 0 }.dropTiles t.no
  let s2 := (ids.zipIdx.drop 1).foldl (fun s (w, k) => s.makeRival harts w d k) s1
  let first (h : Hart) : Hart := { h.setReg ((h.forkArgs.map (·.2.2)).getD 0) 0 with forkArgs := none }
  { s2 with
    team := { s2.team with
      world := w0, depth := d, joinrec := 0, versioned := false, carried := 0, restartable := false, moved := [],
      contOf := [], tshape := Vector.replicate 8 0, inSlot := Vector.replicate 8 false },
    me := first s2.me,
    peers := s2.peers.map fun h => if h.atFork then { first h with pc := h.pc + 4, wait := none } else h }

/-- The checks and the fork of the last hart to arrive. -/
def forkAll (a b : Word) : M Unit := do
  need (forkArgsOk a) (.trap (.of cENGINE a))
  needAligned b 64
  afterBlock
  let bs ← loadBytes 0 b 64
  let s ← now
  trapIf (s.recordTrap bs b)
  need (dwordOf bs 16 == 0) (.trap (.of cENGINE b))
  need (s.team.depth != 4) (.trap (.of cWORLD_DEPTH 4))
  let n := forkCount a
  need (decide (n ≤ s.freeCount)) (.trap (.of cWORLD_DEPTH (BitVec.ofNat 64 (0x1000 + s.freeCount))))
  need (decide (s.dequeCount + (n - 1) ≤ dequeRoom)) (.trap (.of cDEQUE_FULL b))
  need (!s.teamHarts.any Hart.inFlight) (.wait .block)
  need (!(s.side.any fun e => e.team == s.team.no && e.core != cpCore)) (.wait .hold)
  release .package
  change fun s => s.fork a b bs (s.freeIds.take n)

/-- FORKW. -/
def execForkw (d a b : Reg) (s : State) : Host.Outcome State Fault Refusal :=
  .next (s.word do
    let x := s.x a
    let y := s.x b
    need (!s.me.inHandler) (.trap (.of cENGINE x))
    change fun s => { s with me := { s.me with forkArgs := some (x, y, d) } }
    let s ← now
    need (s.peers.all fun h => !h.alive || h.atFork) (.wait .team)
    let leave (own : Bool) (t : Trap) : M Unit := do
      change fun s => { s.trapPeers t own with me := { s.me with forkArgs := none } }
      stop (.trap t)
    if s.forkAgrees x y then
      fun s => match forkAll x y s with
        | .error (.trap t) s1 => leave false t s1
        | r => r
    else leave true (.of cENGINE x))

/-! ### WEND and WABORT -/

/-- The rivals among the merged worlds that a team counts for, the latest first. -/
def Team.rivals (t : Team) : List (Nat × Nat) := t.moved.filter (·.2 != 8)

/-- The rival whose score a WEND of the focused task records: the chosen world's for a task that runs in its parent (R265). -/
def State.scored (s : State) : Option (Nat × Nat) :=
  match s.team.rivals with
  | x :: _ => some x
  | [] => (s.worldAt s.team.world).bind (·.fork)

/-- Record a score, once, and the end of a world still RUNNING (R265). -/
def State.recordScore (s : State) (h k : Nat) (v : Word) : State :=
  s.onRival h k fun r =>
    if r.score.isSome then r else { r with score := some v, st := if r.st = .running then .ended else r.st }

/-- Whether a rival has no score yet. -/
def State.unscored (s : State) (h k : Nat) : Bool :=
  match s.forkAt h with
  | some f => (f.rivals[k]?).any (·.score.isNone)
  | none => false

/-- WEND (R265, R437): the first of a world ends without step 1 of R65; later ones, and one of a task that runs in its
parent's world after its own was chosen, act as TEND. -/
def execWend (a : Reg) (s : State) : Host.Outcome State Fault Refusal :=
  .next (s.word do
    match s.scored with
    | none => stop (.trap (.of cENGINE 0))
    | some (h, k) =>
      beforeEnd
      let s ← now
      endWord (!(s.team.rivals.isEmpty && s.unscored h k)) fun s1 => s1.recordScore h k (s.x a))

/-- The arrival of a task whose version is discarded, made in the parent world. -/
def arriveInParent : M Unit := fun s =>
  let p := s.parentOf s.team.world
  let back (s1 : State) : State := { s1 with team := { s1.team with world := s.team.world, depth := s.team.depth } }
  match cpArrive { s with team := { s.team with world := p, depth := s.depthOf p } } with
  | .ok x s1 => .ok x (back s1)
  | .error .done s1 => .error .done s1
  | .error e s1 => .error e (back s1)

/-- WABORT (R266, R436). -/
def execWabort (s : State) : Host.Outcome State Fault Refusal :=
  .next (s.word do
    need (s.team.world != 0) (.trap (.of cENGINE 0))
    if (s.worldAt s.team.world).any (·.fork.isSome) then
      change fun s => s.endOwnWorld .aborted
    else
      arriveInParent
      change fun s =>
        let busy := s.busyCores
        s.discardVersion.endTask.reseek busy
    stop .done)

/-! ### CHOOSE (R270, R341, R342) -/

def selHandle (x : Word) : Nat := (bits x 0 12).toNat
def selRival (x : Word) : Nat := (bits x 16 3).toNat
def selNone (x : Word) : Bool := x.getLsbD 23
def selScore (x : Word) : Bool := x.getLsbD 20
/-- The bits that a selector may set (R261). -/
def selOk (x : Word) : Bool := x &&& ~~~0x970FFF#64 == 0

/-- Whether CHOOSE may decide a fork with a selector (R270). -/
def State.mayChoose (s : State) (x : Word) : Bool :=
  selOk x && !selScore x &&
    (match s.forkAt (selHandle x) with
     | some f => f.parent == s.team.world && !f.decided &&
        (selNone x || (f.rivals[selRival x]?).any (·.st == .ended))
     | none => false)

/-- Decide fork h for rival k, or for none: the log to replay. -/
def State.settleFork (s : State) (h : Nat) (k : Option Nat) : List LogCopy × State :=
  match s.forkAt h with
  | none => ([], s)
  | some f =>
    let busy := s.busyCores
    let s1 := s.setFork { f with decided := true }
    let losers := f.rivals.zipIdx.filter fun (_, j) => some j != k
    let running := losers.filter fun (r, _) => r.st == .running
    let s2 := running.foldl (fun s (r, j) => s.dropRival h j r) s1
    let (log, s3) : List LogCopy × State := match k.bind fun k => f.rivals[k]? with
      | some r => (s2.onRival h (k.getD 0) fun r => { r with st := .chosen }).commitWorld r.wid
      | none => ([], s2)
    let s4 := (losers.filter fun (r, _) => r.st != .running).foldl (fun s (r, j) => s.dropRival h j r) s3
    (log, s4.freeMerged.reseek busy)

/-- Decide, replay and acquire; a failed copy traps after completion (R270). -/
def chooseRest (start : M (List LogCopy)) : M Unit := do
  let s ← now
  let bad ← match s.me.replay with
    | some (log, bad) => replayLog log bad
    | none => do
      let log ← start
      replayLog log none
  acquire .package
  match bad with
  | some t => stop (.after t)
  | none => pure ()

/-- Decide fork h for a rival as an action. -/
def decideFork (h : Nat) (k : Option Nat) : M (List LogCopy) := fun s =>
  let (log, s1) := s.settleFork h k
  .ok log s1

/-- CHOOSE. -/
def execChoose (a : Reg) (s : State) : Host.Outcome State Fault Refusal :=
  .next (s.word (chooseRest do
    let x := s.x a
    need (s.mayChoose x) (.trap (.of cENGINE x))
    release .package
    decideFork (selHandle x) (if selNone x then none else some (selRival x))))

/-- CHOOSE.SELF. -/
def execChooseSelf (s : State) : Host.Outcome State Fault Refusal :=
  .next (s.word (chooseRest do
    match (s.worldAt s.team.world).bind (·.fork) with
    | none => stop (.trap (.of cENGINE 0))
    | some (h, k) =>
      if (s.forkAt h).any (!·.decided) then
        release .package
        decideFork h (some k)
      else
        change fun s => s.endOwnWorld .cancelled
        stop .done))

/-! ### WQUERY (R269, R438) -/

/-- The code of an end state (R264). -/
def WState.code : WState → Nat
  | .running => 0
  | .ended => 1
  | .aborted => 2
  | .cancelled => 3
  | .exhausted => 4
  | .chosen => 5
  | .discarded => 6

/-- The status word of a rival. -/
def statusWord (f : Fork) (r : Rival) : Word :=
  BitVec.ofNat 64 (r.depth % 16 * 2 ^ 28 + r.wid % 4096 * 2 ^ 16 + f.rivals.length % 16 * 16
    + (if f.decided then 8 else 0) + r.st.code)

/-- What WQUERY returns for a selector. -/
def State.query (s : State) (x : Word) : Word :=
  match (s.forkAt (selHandle x)).bind fun f => (f.rivals[selRival x]?).map fun r => (f, r) with
  | some (f, r) => if selScore x then r.score.getD 0 else statusWord f r
  | none => if selScore x then 0 else 7

/-- WQUERY. -/
def execWquery (d a : Reg) (s : State) : Host.Outcome State Fault Refusal :=
  let x := s.x a
  .next (if selOk x && !selNone x then s.put d (s.query x) else s.takeTrap (.of cENGINE x) s.me.pc true)

/-! ### The continuation (R268) -/

/-- FORK_CONTINUATION: when every rival of a fork has ended, the CP pushes the continuation. -/
def execForkContinuation (h : Nat) (s : State) : Host.Outcome State Fault Refusal :=
  .next (match s.forkAt h with
    | some f =>
      if !f.pushed && s.forkEnded f then
        (s.setFork { f with pushed := true }).cpContinue { f.cont with core := f.core }
      else s
    | none => s)

end Sys2Proof.Machine
end

