-- ==== Sys2Proof/Machine/Sched.lean ====
section
/-! DEFINITION. Scheduling: periods, budgets and gangs (R76 to R80), pre-emption and swap (R77, R81 to R86, R303), deques and
watchers (R58 to R61), hardware errors (R87), and the delivery of faults (R301). -/

namespace Sys2Proof.Machine

/-! ### Taking a team off its core (R82 to R86) -/

/-- Cores of the binding set of a launch. -/
def State.coresOf (s : State) (l : Nat) : List Nat := ((s.launchAt l).map (·.cores)).getD []

/-- Move a team to a place away from its core. -/
def State.setPlace (s : State) (no : Nat) (p : Place) : State :=
  if s.live ∧ s.team.no = no then s.park p
  else
    match s.parked.find? (·.team.no == no) with
    | some c => { s with parked := s.parked.filter (·.team.no != no) ++ [{ c with place := p }] }
    | none => s

/-- A hart waits for a rail move that it began, which nothing interrupts (R158). -/
def State.moving (s : State) (c : TeamCtx) : Bool :=
  let k := s.clusterAt (clusterOf c.team.core)
  k.target.isSome && match k.mover with
    | .hart t _ _ => t == c.team.no
    | _ => false

/-- Whether the team stands inside a word without a progress point: a rail move, or the replay of an effect log (R158, R342). -/
def State.fixed (s : State) (c : TeamCtx) : Bool := s.moving c || c.harts.any (·.replay.isSome)

/-- Save a running team to its context block and take it off its core; its registers come back as a restore leaves
them. -/
def State.swapOut (s : State) (c : TeamCtx) (p : Place) : State :=
  let s1 := (s.saveContext c).setPlace c.team.no p
  let n := c.harts.length
  { s1 with
    fresh := s1.fresh + n,
    parked := s1.parked.map fun x =>
      if x.team.no == c.team.no then { x with harts := restoreHarts x.harts (vlenOf x.team.size) s1.fresh } else x }

/-- The running team of a number. -/
def State.runningTeam (s : State) (no : Nat) : Option TeamCtx :=
  s.teams.find? fun c => c.team.no == no && c.place == .running

/-- Whether a fault may be delivered to the focused hart now: not while a rail move or the replay of an effect log of
its word is under way (R158, R270). -/
def State.canDeliver (s : State) : Bool :=
  s.me.alive && s.me.replay.isNone && s.me.entry.isNone && !s.moving s.focusCtx

/-! ### Delivery (R301) -/

/-- The state past the focused hart's word, when its action ends without a wait or a trap. -/
def State.tryWord (s : State) (act : M Unit) : Option State :=
  match act s with
  | .ok _ s1 => some s1.settle.next
  | _ => none

/-- The action of the word at which the focused hart stands, when it is a TLWAIT, an RFENCE, a FENCE on engine commands, or with
drain a VDRAIN. -/
def State.waitWord (s : State) (drain : Bool) : Option (M Unit) :=
  match fetchWord s with
  | .ok w _ =>
    match decodeScalar w with
    | .ok (.tlwait a b sc) => some (tlwaitWord a b sc)
    | .ok (.rfence a b) => some (rfenceWord a b)
    | .ok (.fence true sa k sc) => some (fenceWord true sa k sc)
    | .ok .vdrain => if drain then some drained else none
    | _ => none
  | .error _ _ => none

/-- Whether a fault of the focused hart's block abandons the word at which the hart waits: it is the next to be delivered, or the word
waits for the block (R207). -/
def Hart.abandons (h : Hart) : Bool :=
  h.pending.head? == some 8 || (h.blkFault.isSome && (h.wait == some .hold || h.wait == some .block))

/-- A hart stalled in TLWAIT, RFENCE, VDRAIN or a FENCE on engine commands whose wait is over completes it before a fault is
delivered (R172, R249, R301), unless a fault of its block abandons it (R207). -/
def State.finishWait (s : State) : State :=
  if s.me.wait.isNone || s.me.abandons then s else ((s.waitWord true).bind s.tryWord).getD s

/-- The word at which the focused hart waits completes once its block in flight has ended, and nothing else holds it: it completes
before a fault is delivered (R249). -/
def State.owesWait (s : State) : Bool :=
  s.me.wait.isSome && s.me.inFlight && !s.me.abandons &&
    let act := s.waitWord false
    (act.bind s.tryWord).isNone && (act.bind ({ s with me := { s.me with blk := none } } : State).tryWord).isSome

/-- Whether a fault is delivered at the focused hart's boundary. -/
def State.faultDue (s : State) : Bool := !s.me.pending.isEmpty && !s.me.inHandler && s.canDeliver && !s.owesWait

/-- ASYNC_FAULT_DELIVERY: the first undelivered fault of a hart is taken at its instruction boundary. -/
def execAsyncFaultDelivery (team hart : Nat) (s : State) : Host.Outcome State Fault Refusal :=
  .next (if (s.runningTeam team).isSome then
      let s1 := s.focus team hart
      if s1.team.no = team ∧ s1.me.idx = hart ∧ s1.faultDue then s1.finishWait.deliver else s1
    else s)

/-! ### Pre-emption (R86, R303) -/

/-- A trap at the same progress point as a pre-emption is entered first, also by a hart that waits (R301, R303). -/
def State.trapFirst (s : State) (no : Nat) : State :=
  let s1 := s.focusTeam no
  if s1.live ∧ s1.team.no = no then
    (s1.teamHarts.map (·.idx)).foldl (fun s h =>
      if s.live ∧ s.team.no = no then
        let s2 := s.focusHart h
        if s2.faultDue then s2.finishWait.deliver else s2
      else s) s1
  else s1

/-- Pre-empt a running team at a progress point (R86): it stands re-queued, its core without a team. -/
def State.preemptTeam (s : State) (no : Nat) : State :=
  if (s.runningTeam no).any s.fixed then s
  else
    let s1 := s.trapFirst no
    match s1.runningTeam no with
    | some c => s1.swapOut c .ready
    | none => s1

/-! ### Swap (R81, R82) -/

/-- Whether a wait is one of the table of R82 (log entry 52). -/
def Wait.counts : Wait → Bool
  | .counter _ _ | .rows | .watcher | .page _ _ | .pages _ | .full _ | .sideLog | .accumulator _ _ | .slot | .team => true
  | .adds | .quota | .block | .arriving | .barrier | .commands | .busy | .hold => false
  | .parts _ _ w => w.counts

/-- Whether a hart waits on an object of the table, itself or through the word of its block; not inside CHOOSE or TEND (R342). -/
def Hart.swappable (h : Hart) : Bool :=
  h.replay.isNone && match h.wait with
    | some .block => h.blk.any fun b => b.wait.any Wait.counts
    | some w => w.counts
    | none => false

/-- Whether a page request has been answered. -/
def State.answered (s : State) (t : Nat × Word) : Bool := !((s.pctlAt t.1).reqs.any (·.tag == t.2))

/-- Whether what a wait watches has changed so that the hart may test it again (R82): the condition itself for a counter, a
watcher, a page, a side log, an accumulator and a fork; any moment for the others, whose words test it. -/
def State.waitDue (s : State) (c : TeamCtx) (h : Hart) : Wait → Bool
  | .counter a v => s.condition c.team.asid c.team.world (resolveOwn c.team.no a) v
  | .watcher => decide (s.watchCount c.team.core < watcherRoom)
  | .page t g => s.answered (t, g)
  | .pages l => l.all s.answered
  | .sideLog => decide ((s.sideOf c.team.core).length < sideRoom) ||
      !(s.side.any fun e => e.team == c.team.no && e.hart == h.idx && e.core != cpCore)
  | .accumulator k n => !((s.saAt c.team.launch k n).any (·.evicted)) && !s.saBusy c.team.launch k n
  | .full t => decide ((s.pctlAt t).reqs.length < 1024)
  | .parts _ _ w => s.waitDue c h w
  | .team => c.harts.all fun x => !x.alive || x.atFork
  | .barrier => c.harts.all Hart.arrived
  | _ => true

/-- Whether a hart stands at TBAR, in no wait of R82 (R403). -/
def Hart.atBarrier (h : Hart) : Bool := h.wait == some .barrier || h.wait == some .arriving

/-- The same for a hart: through the word of its block when it waits for that. -/
def State.hartDue (s : State) (c : TeamCtx) (h : Hart) : Bool :=
  match h.wait with
  | some .block => h.blk.all fun b => b.wait.all (s.waitDue c h)
  | some w => s.waitDue c h w
  | none => true

/-- TEAM_SWAP_OUT (R82): a hart has waited THRESH cycles and every other live hart waits too or stands at TBAR. -/
def execTeamSwapOut (team : Nat) (s : State) : Host.Outcome State Fault Refusal :=
  .next (match s.runningTeam team with
    | some c =>
      let hs := c.harts.filter (·.alive)
      if s.waitswap != 0 && hs.any Hart.swappable &&
          hs.all (fun h => h.swappable || h.atBarrier) && !s.fixed c then
        (s.swapOut c .swapped).seekAll [c.team.core]
      else s
    | none => s)

/-- TEAM_REQUEUE (R82): every waiting hart's condition holds, harts at TBAR not counted. -/
def execTeamRequeue (team : Nat) (s : State) : Host.Outcome State Fault Refusal :=
  .next (match s.parked.find? fun c => c.team.no == team && c.place == .swapped with
    | some c =>
      if c.harts.all fun h => !h.alive || h.atBarrier || s.hartDue c h then
        (s.setPlace team .ready).seekAll (s.coresOf c.team.launch)
      else s
    | none => s)

/-- A hart whose condition holds: a TLWAIT, RFENCE, VDRAIN or FENCE completes (R249); another word leaves its wait and goes on
when the hart moves next, but for one that keeps the parts that it has stored. -/
def State.satisfy (s : State) (team hart : Nat) : State :=
  let s1 := (s.focus team hart).finishWait
  if s1.team.no = team ∧ s1.me.idx = hart then
    match s1.me.wait with
    | some (.parts _ _ _) => s1
    | _ => if s1.me.pending.isEmpty then s1.setWait none else s1
  else s

/-- WAIT_SATISFIED (R82). -/
def execWaitSatisfied (team hart : Nat) (s : State) : Host.Outcome State Fault Refusal :=
  .next (match s.runningTeam team with
    | some c =>
      match c.harts.find? (·.idx == hart) with
      | some h =>
        if h.alive && h.wait.isSome && h.wait != some .team && h.wait != some .barrier && h.entry.isNone &&
            s.hartDue c h && !s.moving c then s.satisfy team hart
        else s
      | none => s
    | none => s)

/-! ### Deques and watchers (R58 to R61) -/

/-- HELD_ACORN_PLACE (R61): a deque entry is free for a held acorn; without one, an idle core may take it. -/
def execHeldAcornPlace (k : Nat) (s : State) : Host.Outcome State Fault Refusal :=
  .next (match s.held[k]? with
    | some a =>
      (if s.dequeFree a.core then ({ s with held := s.held.eraseIdx k }).pushBottom a else s).seekAll (s.coresOf a.launch)
    | none => s)

/-- WATCHER_PUSH (R58, R61): a watched acorn is ready, and its deque has room or an idle core may take it. -/
def execWatcherPush (k : Nat) (s : State) : Host.Outcome State Fault Refusal :=
  .next (match s.watch[k]? with
    | some a =>
      if s.readyAcorn a then
        (if s.dequeFree a.core then ({ s with watch := s.watch.eraseIdx k }).pushBottom a else s).seekAll (s.coresOf a.launch)
      else s
    | none => s)

/-- The core whose share of ready acorns a pick takes from the top. -/
def State.victim (s : State) : Pick → Option Nat
  | .top v => some v
  | .held k => s.held[k]?.map (·.core)
  | .watched k => s.watch[k]?.map (·.core)
  | .team _ => none
  | .bottom => none

/-- DEQUE_STEAL (R59, R60, R61): an idle core takes the top of a deque when that is the work it ranks first; at an empty
deque the thief finds nothing. -/
def execDequeSteal (thief victim : Nat) (s : State) : Host.Outcome State Fault Refusal :=
  .next (match bestPick s thief (s.candidates thief) with
    | some (p, _) => if s.victim p = some victim then s.seekAll [thief] else s
    | none => s)

/-! ### Periods and budgets (R76, R78) -/

/-- The start of a queue's next period, in ns. -/
def Queue.nextStart (c : Queue) : Option Nat :=
  if c.periodUs = 0 then none
  else
    match c.begun with
    | some t => some (t + c.periodUs * 1000)
    | none => if c.gangEn then some (c.epoch * 1000) else none

/-! ### Gangs (R79, R80) -/

/-- PERIOD_START (R72, R76, R79): the values written since take effect, the budget is full, and the devices of a gang
free their cores and wait for each other. -/
def execPeriodStart (q : Nat) (s : State) : Host.Outcome State Fault Refusal :=
  .next (match (s.queueAt q).nextStart with
    | none => s
    | some t =>
      let s1 := (s.timeTo t).beginPeriod q t
      let c := s1.queueAt q
      if c.gangEn && c.begun.isSome then
        let s2 := s1.setQueue q { c with slice := .waiting }
        let teams := (s2.gangCores q).filterMap fun k => (s2.runningOn k).map (·.team.no)
        (teams.foldl State.preemptTeam s2).seekAll []
      else s1)

/-- The time at which the cores that a queue's teams occupy have used its budget up: now, or later in its period (R76). -/
def State.overrunAt (s : State) (q : Nat) : Option Nat :=
  let c := s.queueAt q
  let n := s.occupied q
  if c.periodUs = 0 ∨ c.demoted ∨ c.begun.isNone ∨ c.slice = .abandoned then none
  else if c.left = 0 then some s.time
  else
    let t := s.time + (c.left + n - 1) / n
    if n = 0 ∨ c.nextStart.any (fun e => decide (e < t)) then none else some t

/-- BUDGET_OVERRUN (R78): LEFT reaches 0 and the queue is demoted; cores that occupy it charge until then (R76). -/
def execBudgetOverrun (q : Nat) (s : State) : Host.Outcome State Fault Refusal :=
  .next (match s.overrunAt q with
    | some t =>
      let s1 := s.timeTo t
      let c := s1.queueAt q
      (s1.setQueue q { c with demoted := true }).event eBUDGET_OVERRUN q 0 (BitVec.ofNat 64 (c.begun.getD 0 / 1000))
        (BitVec.ofNat 64 c.budgetUs)
    | none => s)

/-- A write of GANGRDY(q, m): a device of the gang reports ready (R80; log entry 55). -/
def State.gangReady (s : State) (q m : Nat) (p : Word) : State :=
  State.seekAll { s with gangrdy := (s.gangrdy.filter fun x => x.1 != (q, m)) ++ [((q, m), p)] } []

/-- GANGRDY_WRITE. -/
def execGangrdyWrite (q m : Nat) (p : Word) (s : State) : Host.Outcome State Fault Refusal := .next (s.gangReady q m p)

/-- When the grace of the period that runs is over, in ns. -/
def Queue.graceEnd (c : Queue) : Nat := c.begun.getD 0 + (bits c.gangReg 40 16).toNat * 1000

/-- GANG_SKEW (R79): the grace has passed before every device is ready; the slice is abandoned for the rest of the
period. -/
def execGangSkew (q : Nat) (s : State) : Host.Outcome State Fault Refusal :=
  let c := s.queueAt q
  let cores := s.gangCores q
  let own := if cores.all fun k => (s.runningOn k).isNone then 0 else 1
  let begun := c.begun.getD 0
  .next (
    if c.gangEn && c.slice == .waiting && decide (0 < s.gangMissing q + own) then
      (((s.timeTo c.graceEnd).onQueue q fun c => { c with slice := .abandoned }).event
        eGANG_SKEW q 0 (BitVec.ofNat 64 (begun / 1000)) (BitVec.ofNat 64 (s.gangMissing q + own))).seekAll cores
    else s)

/-! ### Teams that move to another core (R85, R315) -/

/-- An online core of a binding set. -/
def State.onlineCore (s : State) (l : Nat) : Option Nat :=
  (s.coresOf l).find? fun k => !(s.towerAt (towerOfCore k)).offline

/-- Another core of a binding set that serves: an idle one, else the lowest-numbered. -/
def State.otherCore (s : State) (l core : Nat) : Option Nat :=
  let ks := (s.coresOf l).filter fun k => k != core && !(s.towerAt (towerOfCore k)).offline
  (ks.find? s.idleCore).or ks.head?

/-- The focused team has lost its core (R87): a restartable task is executed again from its acorn, up to three times;
any other task's launch completes with RESTART; a version is discarded. The versions that an acorn carries and the fork
that ends with it stay for the next attempt (log entry 54). -/
def State.loseTeam (s : State) : State :=
  let t := s.team
  let busy := s.busyCores
  let s1 := if t.versioned then s.discardVersion else s
  match t.acorn, s.otherCore t.launch t.core with
  | some a, some k =>
    if t.restartable && decide (t.attempts < 3) then
      let a1 := { a with core := k, world := s1.team.world, attempts := t.attempts + 1, avoid := some t.core,
                         moved := s1.team.moved }
      let s2 := s1.event eRESTART t.core (towerOfCore t.core) (BitVec.ofNat 64 (t.task % 2 ^ 32))
        (BitVec.ofNat 64 (t.attempts + 1))
      (({ s2 with team := { s2.team with carried := 0, contOf := [] } }.endTask).cpPush a1).reseek busy
    else (s1.endLaunch t.launch eRESTART t.task).endTask.reseek busy
  | _, _ => (s1.endLaunch t.launch eRESTART t.task).endTask.reseek busy

/-- A team that does not run resumes on another core, its dirty tiles saved first (R85), or is lost (R87). -/
def State.moveTeam (s : State) (no : Nat) : State :=
  match s.parked.find? (·.team.no == no) with
  | some c =>
    match s.onlineCore c.team.launch with
    | some k => (s.vacateTiles c.team.core no).onTeam no fun x => { x with core := k }
    | none =>
      let s1 := s.focusTeam no
      if s1.live ∧ s1.team.no = no then
        (if s.live then s1.loseTeam.focusTeam s.team.no else s1.loseTeam)
      else { s1 with parked := s1.parked.filter (·.team.no != no) }
  | none => s

/-! ### The choice of a core to pre-empt (R77, R79) -/

/-- How late work is: a deadline, or background and demoted work, which is later than any. -/
def lateKey (r : Nat × Nat × Nat) : Nat × Nat := (r.1, if r.1 = 1 then r.2.1 else 0)

def lateLt (a b : Nat × Nat) : Bool := decide (a.1 < b.1) || (a.1 == b.1 && decide (a.2 < b.2))

/-- How late the work is that runs on a core. -/
def State.runsLate (s : State) (core : Nat) : Option (Nat × Nat) :=
  (s.runningOn core).map fun c => lateKey (s.rank c.team.launch core)

/-- Whether work of launch l pre-empts the team of a core: it has a deadline, its binding set has no idle core, and the core's
work is later than it and as late as any on those cores. -/
def State.preempts (s : State) (l core : Nat) : Bool :=
  let mine := lateKey (s.rank l core)
  match s.runsLate core with
  | some r =>
    decide (mine.1 ≤ 1) && lateLt mine r && !((s.coresOf l).any s.idleCore) &&
      (s.coresOf l).all fun k => (s.runsLate k).all fun x => !lateLt r x
  | none => false

/-- PREEMPT: work with an earlier deadline that finds no idle core of its binding set takes the core of the latest work at its
team's next progress point (R77); so does a gang whose devices are waited for (R79), and an offline tower gives its team to
another core (R315). -/
def execPreempt (core : Nat) (s : State) : Host.Outcome State Fault Refusal :=
  .next (match s.runningOn core with
    | some c =>
      if (s.towerAt (towerOfCore core)).offline then
        if s.fixed c then s else ((s.preemptTeam c.team.no).moveTeam c.team.no).seekAll (s.coresOf c.team.launch)
      else if s.gangHeld core then (s.preemptTeam c.team.no).seekAll []
      else
        match bestPick s core (s.candidates core) with
        | some (_, l) => if s.preempts l core then (s.preemptTeam c.team.no).seekAll [core] else s
        | none => s
    | none => s)

end Sys2Proof.Machine
end

