-- ==== Sys2Proof/Machine/Pager.lean ====
section
/-! DEFINITION. The pager's replies and the replay of side logs (R149, R150, R152, R304, R305), invalidation of translations
(R146), leases of the pool (R160, R161), and requests from the fabric (R144, R188). -/

namespace Sys2Proof.Machine

/-! ### Replay of the side logs (R150) -/

/-- Perform an entry whose line address has key k; its core's L1 has the bytes too (R139). -/
def SideEntry.perform (e : SideEntry) (s : State) (k : Nat) : State :=
  match e.amo with
  | some (op, z, v, x) =>
    let at_ := k + (e.bytes.head?.map (·.1)).getD 0
    match amoNew op (8 * z) (leVal (s.bytesIn e.world at_ z)) v.toNat x.toNat with
    | some n => (s.storeAt e.world at_ (leBytes z n)).l1Store e.core e.world e.asid e.first (leBytes z n)
    | none => s
  | none => (s.writePart e.world k e.bytes e.masks).l1Runs e.core e.world e.asid e.va k e.bytes

/-- Perform an entry of a window access at the keys behind it: an operation only where all its bytes exist (R135). -/
def SideEntry.performKeys (e : SideEntry) (s : State) (keys : List (Option Nat)) : State :=
  match e.amo with
  | some (op, z, v, x) =>
    if keys.all (·.isSome) then
      match amoNew op (8 * z) (leVal (s.windowBytes (.bytes keys))) v.toNat x.toNat with
      | some n => s.windowWrite keys (leBytes z n)
      | none => s
    else s
  | none => s.writeKeys keys e.bytes e.masks

/-- Remember a replayed write to the pool (R160). -/
def SideEntry.notePool (e : SideEntry) (s : State) (k : Nat) : State :=
  if e.core = cpCore then s
  else (byteRuns e.bytes).foldl (fun s (o, bs) =>
    s.notePool e.team e.hart (e.va + BitVec.ofNat 64 o) (k + o) bs.length) s

/-- What becomes of an entry when the log looks at it. -/
inductive Fate where
  /-- it stays, and holds its stream -/
  | stays (s : State)
  /-- it has been performed or dropped -/
  | goes (s : State)
  deriving Repr

/-- An entry's page is refused, or the refusal waits behind an undelivered one (R150). -/
def State.refusePage (s : State) (core : Nat) (page : Word) (asid : BitVec 16) (cause : Nat) : State :=
  let r : HeldRefusal := { core := core, page := page, asid := asid, cause := cause }
  if s.refusalWaits r then
    if s.refusals.contains r then s else { s with refusals := s.refusals ++ [r] }
  else s.applyRefusal r

/-- Whether a fault of an entry waits for the delivery of another one (R301). -/
def State.sideWaits (s : State) (e : SideEntry) : Bool := s.refusalPending e.core || s.hasRefusal e.team e.hart

/-- A fault of an entry, pending for its hart. -/
def State.sideTrap (s : State) (e : SideEntry) (t : Trap) : State :=
  s.onHart e.team e.hart fun x => { x with sideFault := some { t with src := .side e.core }, pending := x.pending ++ [9] }

/-- A version of the entry cannot be placed (R272): its world is exhausted, or its hart traps at its next boundary outside a
handler, and the entry is tried again. -/
def SideEntry.exhausted (e : SideEntry) (s : State) : Fate :=
  if s.trapsOnFull e.world then
    if s.sideWaits e || (s.hartAt e.team e.hart).any (·.inHandler) then .stays s
    else .stays (s.sideTrap e (.sized cVIEW_EXHAUSTED e.first e.bytes.length))
  else
    let busy := s.busyCores
    .goes ((s.abortWorld e.world .exhausted none).reseek busy)

/-- The release of an entry of a release store, once its page is known to be of the pool (R171): its hart's pool writes from before
the store have completed, or the hart learns of a refused one and the store is made after that (R161). -/
def SideEntry.landed (e : SideEntry) (s : State) : State ⊕ State :=
  match e.rel with
  | none => .inr s
  | some ps =>
    match (s.hartAt e.team e.hart).bind (·.poolRefused) with
    | some (va, n) =>
      if s.sideWaits e then .inl s
      else .inl ((s.onHart e.team e.hart fun h => { h with poolRefused := none }).sideTrap e (.sized cPROTECT va n))
    | none => .inr { s with poolOut := s.poolOut.filter fun p => !ps.contains p }

/-- An entry joins the request of its page, or makes it, once for each request (R152, R304). -/
def SideEntry.join (e : SideEntry) (s : State) (a : Acc) : State :=
  let known := (s.pctlAt (towerOf e.va)).reqs.any fun r => r.page == pageOf e.va && r.asid == e.asid && some r.tag == e.tag
  if known then s
  else
    let (g, s1) := s.postPage e.asid a e.first
    { s1 with side := s1.side.map fun x => if x == e then { x with tag := g } else x }

/-- Try an entry at its translation. A pool page takes no atomic (R336) and no write of a speculative world (R259). -/
def SideEntry.tryPage (e : SideEntry) (s : State) : Fate :=
  let n := e.bytes.length
  let first := e.first
  let page := pageOf e.va
  let acc := if e.amo.isSome then Acc.atomic else Acc.store
  let agent := if e.core = cpCore then none else some e.core
  match s.xlate e.asid acc first with
  | .at_ k cls te =>
    let k0 := k - (first - e.va).toNat
    if cls = 2 ∧ e.world ≠ 0 then .stays (s.refusePage e.core page e.asid cWORLD_ESCAPE)
    else if cls = 2 ∧ e.amo.isSome then .stays (s.refusePage e.core page e.asid cPROTECT)
    else if s.accessHeld k n te agent true then .stays s
    else if !(e.bytes.all fun b => s.placeable e.world (k0 + b.1)) then e.exhausted s
    else
      match if cls = 2 then e.landed s else .inr s with
      | .inl s1 => .stays s1
      | .inr s1 => .goes (e.perform (e.notePool (s1.markPage te agent true) k0) k0)
  | .record k => .goes (e.perform s (k - (first - e.va).toNat))
  | .remote k => .goes (e.perform s (k - (first - e.va).toNat))
  | .missing => .stays (e.join s acc)
  | .busy => .stays s
  | .denied cls =>
    .stays (s.refusePage e.core page e.asid (if cls = 2 ∧ e.world ≠ 0 then cWORLD_ESCAPE else cPROTECT))
  | _ => .stays (s.refusePage e.core page e.asid cPROTECT)

/-- Try an entry: that of a window access needs no translation. -/
def SideEntry.tryIt (e : SideEntry) (s : State) : Fate :=
  match e.keys with
  | some keys => .goes (e.performKeys s keys)
  | none =>
    if s.refusals.any fun r => r.core == e.core && r.page == pageOf e.va && r.asid == e.asid then .stays s else e.tryPage s

/-- Whether two entries have a byte in common, under one address or by its storage. -/
def State.meets (s : State) (a b : SideEntry) : Bool :=
  (a.asid == b.asid && a.bytes.any fun x => b.covers (a.va + BitVec.ofNat 64 x.1) 1) ||
    (s.entryPlaces a).any (s.entryPlaces b).contains

/-- Whether an entry stays behind an earlier one that stays: one of its stream, one of its hart with a common byte (R150, R164),
and for a counter of the CP the status that goes before it (R69). -/
def State.behind (s : State) (e a : SideEntry) : Bool :=
  if e.core == cpCore then a.core == cpCore && a.asid == e.asid && (a.va == e.va + 8 || a.va == e.va)
  else a.core != cpCore && a.team == e.team && a.hart == e.hart && (a.stream == e.stream || s.meets a e)

/-- Go through the log in order; the list holds the entries that stay. -/
def State.replayFrom (s : State) (kept : List SideEntry) : List SideEntry → State
  | [] => s
  | e :: rest =>
    if !s.side.contains e then s.replayFrom kept rest
    else if kept.any (s.behind e) then s.replayFrom (kept ++ [e]) rest
    else
      match e.tryIt s with
      | .stays s1 => s1.replayFrom (kept ++ [e]) rest
      | .goes s1 =>
        let s2 := { s1 with side := s1.side.erase e }
        (if e.core = cpCore then s2
         else s2.setCore e.core { s2.coreAt e.core with sideFull := false }).replayFrom kept rest

/-- Replay every entry that can be performed, in log order; a held refusal that waits for no other any more takes effect first. -/
def State.replaySide (s : State) : State :=
  let s1 := s.nextRefusal
  s1.replayFrom [] s1.side

/-! ### Replies (R304) -/

/-- A request leaves its controller, and no wait of a command or a queue names it any more. -/
def State.dropRequest (s : State) (tower : Nat) (tag : Word) : State :=
  let c := s.pctlAt tower
  let s1 := s.setPctl tower { c with reqs := c.reqs.filter (·.tag != tag) }
  let free (l : List (Nat × Word)) : List (Nat × Word) := l.filter fun x => x != (tower, tag)
  { s1 with cmds := s1.cmds.map fun c => { c with hold := free c.hold },
            queues := s1.queues.map fun (q, c) => (q, { c with hold := free c.hold }) }

/-- PRTAG holds the tag of the reply (R305). -/
def State.replyTag (s : State) (tower : Nat) (tag : Word) : State := s.setPctl tower { s.pctlAt tower with tag := tag }

/-- The reply names no pending request: BADTAG (R305). -/
def State.badTag (s : State) (tower : Nat) : State := s.setPctl tower { s.pctlAt tower with bad := true }

/-- Whether the controller of a tower has posted a request of a tag. -/
def State.requestAt (s : State) (tower : Nat) (tag : Word) : Option PageReq :=
  (s.pctlAt tower).reqs.find? fun r => r.tag == tag && r.posted

/-- MAPPED: the waiters walk again; those that the step does not replay test their waits when they move. -/
def execMapped (tower : Nat) (tag : Word) (s : State) : Host.Outcome State Fault Refusal :=
  let s0 := s.replyTag (tower % 8) tag
  .next (match s0.requestAt (tower % 8) tag with
    | some _ => ((s0.dropRequest (tower % 8) tag).replaySide.drainRing (tower % 8) 1024).kickAll
    | none => s0.badTag (tower % 8))

/-- The answer to a refused page for those who wait for its request. -/
def Hart.refused (h : Hart) (key : Nat × Word) (page : Word) (cause : Nat) : Hart :=
  let mine := h.wait.any fun w => w.tags.contains key
  { h with
    answers := if mine then h.answers ++ [(page, cause)] else h.answers,
    blk := h.blk.map fun b =>
      if b.wait.any fun w => w.tags.contains key then { b with answers := b.answers ++ [(page, cause)] } else b }

/-- A refusal with a cause: harts, blocks, commands and queues that wait take the answer, and side-log entries of the
page are discarded with a trap of their hart to come (R149, R150). -/
def State.refuse (s : State) (tower : Nat) (tag : Word) (cause : Nat) : State :=
  match s.requestAt tower tag with
  | none => s.badTag tower
  | some r =>
    let key := (tower, tag)
    let s1 : State := { s with
      me := s.me.refused key r.page cause, peers := s.peers.map (·.refused key r.page cause),
      parked := s.parked.map fun c => { c with harts := c.harts.map (·.refused key r.page cause) },
      cmds := s.cmds.map fun c => if c.hold.contains key then { c with answers := c.answers ++ [(r.page, cause)] } else c,
      queues := s.queues.map fun (q, c) =>
        (q, if c.hold.contains key then { c with answers := c.answers ++ [(r.page, cause)] } else c) }
    let cores := ((s1.side.filter fun e => e.asid == r.asid && pageOf e.va == r.page).map (·.core)).eraseDups
    let s2 := cores.foldl (fun s k => s.refusePage k r.page r.asid cause) (s1.dropRequest tower tag)
    (s2.replaySide.drainRing tower 1024).kickAll

/-- REFUSE: the waiters trap PAGE_LOAD. -/
def execRefuse (tower : Nat) (tag : Word) (s : State) : Host.Outcome State Fault Refusal :=
  .next ((s.replyTag (tower % 8) tag).refuse (tower % 8) tag cPAGE_LOAD)

/-- DENY: the waiters trap PROTECT. -/
def execDeny (tower : Nat) (tag : Word) (s : State) : Host.Outcome State Fault Refusal :=
  .next ((s.replyTag (tower % 8) tag).refuse (tower % 8) tag cPROTECT)

/-! ### PTINV (R146) -/

def State.selAsid (s : State) : BitVec 16 := bits s.ptsel 0 16
def State.selTower (s : State) : Nat := (bits s.ptsel 16 3).toNat

/-- Whether an address lies on the page that PTINV kind 0 names by va: a page that the TLB holds, or the 64 KiB page of va. -/
def State.onPtinv (s : State) (va x : Word) : Bool :=
  isOwn x && (pageOf x == pageOf (va &&& 0x3FFFFFFFFFFF#64) ||
    s.tlb.any fun e => e.asid == s.selAsid && e.holds (va &&& 0x3FFFFFFFFFFF#64) && e.holds x)

/-- Kind 0: the page that holds va, at the tower that it names, with its lines in every L1; what the coherent L2 holds needs no step
(log entry 5). -/
def execPtinvPage (va : Word) (s : State) : Host.Outcome State Fault Refusal :=
  let o := offsetOf (pageOf va)
  .next { s with
    tlb := s.tlb.filter fun e =>
      !(e.asid == s.selAsid && e.tower == towerOf va && decide (e.base ≤ o) && decide (o < e.base + 2 ^ e.lg)),
    l1 := s.l1.filter fun l => !(l.asid == s.selAsid && s.onPtinv va l.va) }

/-- Kind 1. -/
def execPtinvAsid (s : State) : Host.Outcome State Fault Refusal :=
  .next { s with tlb := s.tlb.filter fun e => !(e.asid == s.selAsid && e.tower == s.selTower),
                 l1 := s.l1.filter fun l => !(l.asid == s.selAsid && towerOf l.va == s.selTower) }

/-- Kind 2. -/
def execPtinvAll (s : State) : Host.Outcome State Fault Refusal := .next { s with tlb := [], l1 := [] }

/-! ### Leases of the pool (R161) -/

/-- Pool writes still in flight to the bytes from lo up to hi. -/
def State.inFlightTo (s : State) (lo hi : Nat) : List PoolWrite :=
  s.poolOut.filter fun p => decide (lo ≤ p.key ∧ p.key < hi)

/-- Those that reached the pool after the end of the lease: from the first late one of a writer on (log entry 21). -/
def lateWrites (seed : Nat) (ps : List PoolWrite) : List PoolWrite :=
  let marked := ps.zipIdx.map fun (p, i) => (p, Config.poolLate (seed + i))
  (marked.zipIdx.filter fun (x, i) =>
    (marked.take (i + 1)).any fun y =>
      y.2 && y.1.team == x.1.team && y.1.hart == x.1.hart && y.1.by_ == x.1.by_).map (·.1.1)

/-- Who learns that a write to the pool was refused: a hart traps at its next release at fabric scope (R161), a replay of an
effect log has failed (R270), and a command ends as an engine fault (R348); of a command that has completed its hart learns it. -/
def State.tellLate (s : State) (p : PoolWrite) : State :=
  let t := Trap.sized cPROTECT p.va p.old.length
  let hart := s.onHart p.team p.hart fun h => { h with poolRefused := h.poolRefused.or (some (p.va, p.old.length)) }
  match p.by_ with
  | .hart => hart
  | .replay => s.onHart p.team p.hart fun h => { h with replay := h.replay.map fun r => (r.1, r.2.or (some t)) }
  | .command cid _ _ =>
    if (s.cmdAt cid).isSome then s.onCmd cid fun c => { c with fault := c.fault.or (some (c.asFault t)) } else hart

/-- The pool refuses late writes: their bytes are as before, and who made them learns it. -/
def State.refuseLate (s : State) (late : List PoolWrite) : State :=
  late.foldl State.tellLate (late.reverse.foldl (fun s p => { s with mem := Memory.writeBytes s.mem p.key p.old }) s)

/-- The address spaces that a tower translates. -/
def State.asidsAt (s : State) (t : Nat) : List (BitVec 16) :=
  ((s.ptroots.filter fun r => r.1.2 == t).map (fun r => BitVec.ofNat 16 r.1.1) ++
    (s.tlb.filter (·.tower == t)).map (·.asid)).eraseDups

/-- Invalidate the pool page at va in one address space. -/
def State.endLease (s : State) (va : Word) (asid : BitVec 16) : State :=
  match s.lookup asid (towerOf va) (offsetOf va) with
  | some e =>
    if pteClass e.pte = 2 then
      let lo := physKey e.tower (ptePa e.pte)
      let hi := lo + 2 ^ e.lg
      let mine := s.inFlightTo lo hi
      let s1 := { s with
        tlb := s.tlb.filter (·.slot != e.slot), fresh := s.fresh + mine.length,
        l1 := s.l1.filter fun l => !(l.asid == asid && e.holds l.va),
        poolOut := s.poolOut.filter fun p => !mine.contains p }
      (s1.ownWrite e.slot (leBytes 8 (e.pte &&& ~~~1#64).toNat)).refuseLate (lateWrites s.fresh mine)
    else s
  | none => s

/-- LEASE_EXPIRY: the extent's entries are invalidated in every address space. -/
def execLeaseExpiry (va : Word) (s : State) : Host.Outcome State Fault Refusal :=
  .next ((s.asidsAt (towerOf va)).foldl (fun s a => s.endLease va a) { s with leases := s.leases.filter (· != pageOf va) })

/-! ### Accesses from outside -/

/-- The entries of a tower that map one of the n bytes from pa. -/
def State.physLeaves (s : State) (t pa n : Nat) : List TlbEntry :=
  ((s.asidsAt t).flatMap fun a => s.leaves a t).filter fun e =>
    pteClass e.pte != 2 && decide (ptePa e.pte < pa + n ∧ pa < ptePa e.pte + 2 ^ e.lg)

/-- Pages of a tower that map one of the n bytes from pa count an access by another agent (R141, R148). -/
def State.touchPhys (s : State) (t pa n : Nat) (wr : Bool) : State :=
  (s.physLeaves t pa n).foldl (fun s e => s.shareLeaf e wr) s

/-- Whether an access to the n bytes from pa of a tower waits for a row command: for its rows, or for the mark of a page (R183). -/
def State.physHeld (s : State) (t pa n : Nat) (wr : Bool) : Bool :=
  s.rowHeld (dramKey t pa) n wr ||
    (!(s.runs.isEmpty && s.exprs.isEmpty) && (s.physLeaves t pa n).any fun e => s.markHeld e none wr)

/-- LINK_RETRY (R188): the flits are replayed in their order, so that nothing changes for a program. -/
def execLinkRetry (_port : Nat) (s : State) : Host.Outcome State Fault Refusal := .next s

/-- The access that a fabric request makes. -/
def fabricKind : FabricAcc → Acc
  | .load _ => .load
  | .store _ => .store
  | .atomic _ _ _ _ => .atomic
  | .tlsig _ => .atomic
  | .copyWrite _ _ => .store

def fabricBytes : FabricAcc → Nat
  | .load n => n
  | .store bs => bs.length
  | .atomic _ d _ _ => if d then 8 else 4
  | .tlsig _ => 8
  | .copyWrite bs _ => bs.length

/-- A load from the fabric has observed what it reads of the pool (R161). -/
def State.fabricSeen (s : State) (k : Nat) : FabricAcc → State
  | .load n => s.poolSeen k n fun _ => false
  | _ => s

/-- Perform a request at a key; an atomic's old value, or the bytes of a load, are in reply (R130, R335, R348). -/
def State.fabricDo (s : State) (k : Nat) : FabricAcc → State
  | .load n => { s with reply := s.bytesIn 0 k n }
  | .store bs => { s.storeAt 0 k bs with reply := [] }
  | .atomic op d v e =>
    let z := if d then 8 else 4
    let old := s.bytesIn 0 k z
    { (match amoNew op (8 * z) (leVal old) v.toNat e.toNat with
       | some n => s.storeAt 0 k (leBytes z n)
       | none => s) with reply := old }
  | .tlsig v =>
    let old := s.bytesIn 0 k 8
    { (if leVal old < v.toNat then s.storeAt 0 k (leBytes 8 v.toNat) else s) with reply := old }
  | .copyWrite bs bad =>
    let s1 := s.storeAt 0 k bs
    { (if bad then s1.poisonSegs 0 (((List.range bs.length).map fun i => (k + i) / 16).eraseDups) else s1) with reply := [] }

/-- FABRIC_REQUEST (R144): translated at the owning tower in the address space that travels with it. A missing page makes or joins its
request (R152), and the access is made later; a denied one has no effect here, and its requester traps. In husk mode and under the
recovery firmware every port but tower 0's start-up function is down (R20, R325, R326). -/
def execFabricRequest (asid : BitVec 16) (va : Word) (acc : FabricAcc) (s : State) :
    Host.Outcome State Fault Refusal :=
  let here := va &&& 0x3FFFFFFFFFFF#64
  let n := fabricBytes acc
  .next (if s.boot.husk || s.boot.recovering then s
    else match s.xlate asid (fabricKind acc) here with
    | .at_ k cls e =>
      if s.accessHeld k n e none (fabricKind acc).wr then s
      else if cls = 2 ∧ fabricKind acc = Acc.atomic then { s with reply := [] }
      else ((s.markPage e none (fabricKind acc).wr).fabricSeen k acc).fabricDo k acc
    | .record k => s.fabricDo k acc
    | .missing => (s.postPage asid (fabricKind acc) here).2
    | .busy => s
    | _ => { s with reply := [] })

end Sys2Proof.Machine
end

