-- ==== Sys2Proof/Machine/Power.lean ====
section
/-! DEFINITION. Power modes and the cooling contract (R22, R308 to R311), the matrix window (R310), thermal steps (R313 to
R315), and the latency capture units (R316, R317). -/

namespace Sys2Proof.Machine

/-! ### POWERMODE (R308, R309) -/

def State.contract (s : State) : Bool := s.powermode.getLsbD 8
def State.pmPending (s : State) : Bool := s.powermode.getLsbD 9
def State.pmLast (s : State) : Nat := (bits s.powermode 10 2).toNat

/-- POWERMODE with its fields. -/
def powerWord (mode : Nat) (contract pending : Bool) (last : Nat) : Word :=
  BitVec.ofNat 64 (last % 4 * 1024 + (if pending then 512 else 0) + (if contract then 256 else 0) + mode % 4)

/-- Whether a die runs more members than a mode's cap. -/
def State.overCap (s : State) (mode : Nat) : Bool :=
  (List.range 8).any fun t => (List.range 12).any fun d => decide (arrayShare mode < s.dieLoad t d)

/-- A matrix quota that falls leaves every core the old one until its window ends (R309). -/
def State.keepQuota (s : State) (mode : Nat) : State :=
  if modeQuota mode < modeQuota s.mode then
    (List.range 256).foldl (fun x k => x.setCore k { x.coreAt k with cap := max (modeQuota s.mode) (x.coreAt k).cap }) s
  else s

/-- The mode changes: PENDING holds while a die runs more members than the new cap. -/
def State.setMode (s : State) (mode last : Nat) (contract : Bool) : State :=
  { s.keepQuota mode with powermode := powerWord mode contract (s.overCap mode) last }

/-- POWERMODE_WRITE (R309). -/
def execPowermodeWrite (m : BitVec 2) (s : State) : Host.Outcome State Fault Refusal :=
  .next (if m = 3 ∧ !s.contract then { s with powermode := powerWord s.mode false s.pmPending 1 }
    else s.setMode m.toNat 0 s.contract)

/-- PENDING_CLEAR (R309): every die is within the cap. -/
def execPendingClear (s : State) : Host.Outcome State Fault Refusal :=
  .next (if s.overCap s.mode then s else { s with powermode := powerWord s.mode s.contract false s.pmLast })

/-- CONTRACT_LOSS (R309, R311): PEAK falls back to BALANCED. -/
def execContractLoss (s : State) : Host.Outcome State Fault Refusal :=
  .next (if s.mode = 3 then s.setMode 0 2 false
    else { s with powermode := powerWord s.mode false s.pmPending s.pmLast })

/-- CONTRACT_HOLDS (R308, R311): only a module reports it. -/
def execContractHolds (s : State) : Host.Outcome State Fault Refusal :=
  .next (if Config.onModule then { s with powermode := powerWord s.mode true s.pmPending s.pmLast } else s)

/-- MATRIX_WINDOW (R310): the core's quota renews, by the mode as it is. -/
def execMatrixWindow (core : Nat) (s : State) : Host.Outcome State Fault Refusal :=
  .next (s.setCore core { s.coreAt core with matrix := 0, cap := 0 })

/-! ### Heat (R313 to R315) -/

def State.limitC (s : State) : Nat := s.limit.toNat
def State.hardC (s : State) : Nat := s.hard.toNat

/-- The temperature of a tower's logic, in degrees. -/
def State.noteTemp (s : State) (t temp : Nat) : State := s.setTower t { s.towerAt t with temp := temp }

/-- THERMAL_STEP1: at LIMIT the tower throttles. -/
def execThermalStep1 (t temp : Nat) (s : State) : Host.Outcome State Fault Refusal :=
  let s1 := s.noteTemp t temp
  let x := s1.towerAt t
  .next (if s.limitC ≤ temp ∧ x.step = 0 ∧ !x.offline then s1.setTower t { x with step := 1 } else s1)

/-- THERMAL_STEP2: still at LIMIT, each cluster of the tower is commanded to LV, behind a move under way; a refused one stays at
HV (R158, R312). -/
def execThermalStep2 (t temp : Nat) (s : State) : Host.Outcome State Fault Refusal :=
  let s1 := s.noteTemp t temp
  let x := s1.towerAt t
  .next (if s.limitC ≤ temp ∧ x.step = 1 ∧ !x.offline then
      (List.range 8).foldl (fun s k => s.queueMove (8 * (t % 8) + k) .device true) (s1.setTower t { x with step := 2 })
    else s1)

/-- THERMAL_UNWIND: below LIMIT by more than 10 °C, the last step ends. -/
def execThermalUnwind (t temp : Nat) (s : State) : Host.Outcome State Fault Refusal :=
  let s1 := s.noteTemp t temp
  let x := s1.towerAt t
  .next (if temp + 10 < s.limitC then s1.setTower t { x with step := x.step - 1 } else s1)

/-- Move the waiting acorns of an offline tower: those of a deque and those held go to another core, those of the watcher are
watched for another core; a launch that has none left completes with THERMAL_OFFLINE (R315; log entry 56). -/
def State.rehome (s : State) (t : Nat) : State :=
  let away (a : Acorn) : Bool := towerOfCore a.core == t
  let moved := s.acorns.filter away
  let watched := s.watch.filter away
  let s1 := s.mapAcorns fun a => if away a then none else some a
  moved.foldl (fun s a =>
    match s.onlineCore a.launch with
    | some k =>
      if watched.contains a then { s with watch := s.watch ++ [{ a with core := k }] } else s.cpPush { a with core := k }
    | none => s.endLaunch a.launch eTHERMAL_OFFLINE 0) s1

/-- The contents of a tower's vaults are lost: their bytes read as bytes that nothing has written. -/
def State.loseVaults (s : State) (t : Nat) : State :=
  let lo := vaultKey (32 * t) 0
  let hi := vaultKey (32 * t + 32) 0
  { s with mem := s.mem.filter fun c => !(decide (lo ≤ c.1 ∧ c.1 < hi)) }

/-- Reservations on the clusters of a tower leave its arrays (R293). -/
def State.evictTower (s : State) (t : Nat) : State :=
  (List.range 8).foldl (fun s k => s.holding.foldl (fun s l => s.evictOn (8 * t + k) l) s) s

/-- Teams of a tower that do not run there any more and are not rivals yet to start. -/
def State.awayTeams (s : State) (t : Nat) : List TeamCtx :=
  s.parked.filter fun c => towerOfCore c.team.core == t && c.place != .rival && c.place != .running

/-- The work of an offline tower goes to other towers: its acorns, the continuations of its forks, and its teams; the contents of
its vaults are lost. -/
def State.leaveTower (s : State) (t : Nat) : State :=
  let s1 := s.rehome t
  let sent (f : Fork) : Fork :=
    if towerOfCore f.core = t then { f with core := (s1.onlineCore f.cont.launch).getD f.core } else f
  let s2 : State := { s1 with forks := s1.forks.map sent }
  (((s2.awayTeams t).map (·.team.no)).foldl State.moveTeam s2).loseVaults t

/-- The numbers of the teams that run on a tower. -/
def State.towerTeams (s : State) (t : Nat) : List Nat :=
  ((List.range 32).filterMap fun i => s.runningOn (32 * t + i)).map (·.team.no)

/-- A tower's compute goes offline by heat (R315): the moves of its rails end, it takes no more work, and its teams are
pre-empted, its accumulators evicted and its work moved. A team inside a word without a progress point follows at its end
(log entry 57). -/
def State.goOffline (s : State) (t temp : Nat) : State :=
  let s1 := (List.range 8).foldl (fun s k => s.drainRail (8 * t + k)) s
  let s2 := s1.setTower t { s1.towerAt t with offline := true }
  let s3 := (s2.towerTeams t).foldl State.preemptTeam s2
  let s4 := s3.evictTower t
  let moved := ((s4.awayTeams t).filter fun c => (s4.onlineCore c.team.launch).isSome).length
  let s5 := (s4.leaveTower t).event eTHERMAL_OFFLINE t t (BitVec.ofNat 64 (temp * 1000)) (BitVec.ofNat 64 moved)
  s5.seekAll ((List.range 256).filter fun k => towerOfCore k != t)

/-- A tower has lost its logic die (R25, R87): its compute is offline for good, its tasks fail as for an error of their cores, and
the contents of its arrays are lost with those of its vaults (log entry 54). -/
def State.loseDie (s : State) (t : Nat) : State :=
  let s1 := s.setTower t { s.towerAt t with offline := true, lost := true }
  let s2 := (s1.towerTeams t).foldl (fun s no =>
    let x := s.focusTeam no
    if x.live ∧ x.team.no = no then x.loseTeam else x) s1
  let gone (a : Sa) : Sa := if a.cluster / 8 = t then { a with rows := a.rows.map fun _ => { SaRow.zero a.len with ovf := true } } else a
  let s3 : State := { s2 with sas := s2.sas.map gone }
  ((s3.evictTower t).leaveTower t).seekAll ((List.range 256).filter fun k => towerOfCore k != t)

/-- HW_ERROR_RESTART (R87): an uncorrectable error of a core or its vault, or, with 256 + t, of the logic die of tower t. -/
def execHwErrorRestart (core : Nat) (s : State) : Host.Outcome State Fault Refusal :=
  .next (
    if 256 ≤ core then s.loseDie ((core - 256) % 8)
    else match s.runningOn core with
      | some c =>
        let s1 := s.focusTeam c.team.no
        if s1.live ∧ s1.team.no = c.team.no then s1.loseTeam else s1
      | none => s)

/-- THERMAL_OFFLINE: still at LIMIT 1 ms after step 2, or at HARD. -/
def execThermalOffline (t temp : Nat) (s : State) : Host.Outcome State Fault Refusal :=
  let s1 := s.noteTemp t temp
  let x := s1.towerAt t
  .next (if !x.offline && (decide (s.hardC ≤ temp) || (x.step == 2 && decide (s.limitC ≤ temp))) then
      s1.goOffline (t % 8) temp
    else s1)

/-- Towers offline by heat whose OFFL bit is written serve again (R313). -/
def State.towerReturn (s : State) (mask : BitVec 8) : State :=
  let back := (List.range 8).filter fun t => mask.getLsbD t && (s.towerAt t).offline && !(s.towerAt t).lost
  let s1 := back.foldl (fun s t => s.setTower t { s.towerAt t with offline := false }) s
  s1.seekAll ((List.range 256).filter fun k => back.contains (towerOfCore k))

/-- TOWER_RETURN. -/
def execTowerReturn (mask : BitVec 8) (s : State) : Host.Outcome State Fault Refusal := .next (s.towerReturn mask)

/-! ### Capture units (R316, R317) -/

def Mon.event (m : Mon) : Nat := (bits m.ctl 8 8).toNat
def Mon.frozen (m : Mon) : Bool := m.ctl.getLsbD 1
def Mon.enabled (m : Mon) : Bool := m.ctl.getLsbD 0

/-- Whether a unit takes an EVENT code. -/
def unitTakes (u : MonUnit) (e : Nat) : Bool :=
  match u with
  | .core _ => e == 2 || e == 3
  | .queue _ => e == 1 || e == 4 || e == 5
  | .tower _ => e == 6 || e == 7

/-- The bucket of a sample. -/
def bucketOf (v : Nat) : Nat := if v = 0 then 0 else min 31 (v.log2 + 1)

/-- One sample: MIN, MAX, COUNT and its bucket. -/
def Mon.take (m : Mon) (v : Nat) : Mon :=
  let w := BitVec.ofNat 64 v
  { m with
    lo := if w < m.lo then w else m.lo, hi := if m.hi < w then w else m.hi, count := m.count + 1,
    buckets := m.buckets.zipIdx.map fun (b, i) => if i = bucketOf v ∧ b ≠ BitVec.allOnes 32 then b + 1 else b }

/-- What CLR leaves. -/
def Mon.clear (m : Mon) : Mon := { Mon.reset m.unit with ctl := m.ctl }

def State.monAt (s : State) (u : MonUnit) : Mon := (s.mons.find? (·.unit == u)).getD (.reset u)
def State.setMon (s : State) (m : Mon) : State :=
  { s with mons := if s.mons.any (·.unit == m.unit) then s.mons.map fun x => if x.unit == m.unit then m else x
                   else s.mons ++ [m] }

/-- MONITOR_CLR. -/
def execMonitorClr (u : MonUnit) (s : State) : Host.Outcome State Fault Refusal := .next (s.setMon (s.monAt u).clear)

/-- Packets that begin between an offset and the tail of a ring, as many as their headers can be read (R73). -/
def State.packetsFrom (s : State) (q : Nat) : Nat → Nat → Nat → Nat
  | 0, _, _ => 0
  | fuel + 1, off, left =>
    if left < 16 then 0
    else
      match ringRead q off 16 s with
      | .ok bs _ =>
        let n := max 1 (bits (packetWord bs 0) 8 8).toNat
        1 + s.packetsFrom q fuel ((off + 16 * n) % (s.queueAt q).bytes) (left - 16 * n)
      | .error _ _ => 0

/-- Packets between QHEAD and QTAIL of a queue (R317). -/
def State.packetsIn (s : State) (q : Nat) : Nat :=
  let c := s.queueAt q
  s.packetsFrom q (c.avail / 16) c.offset c.avail

/-- What a unit measures: packets of a queue are counted, the rest is as the sample says. -/
def State.sampleOf (s : State) (u : MonUnit) (e v : Nat) : Nat :=
  match u with
  | .queue q => if e = 5 then s.packetsIn q else v
  | _ => v

/-- MONITOR_SAMPLE: a unit that captures the code takes the sample; code 0 of a core unit is a schedule slip, which counts
whether or not EN is set (R187, R316; log entry 31). -/
def execMonitorSample (u : MonUnit) (e v : Nat) (s : State) : Host.Outcome State Fault Refusal :=
  let m := s.monAt u
  let core := match u with
    | .core _ => true
    | _ => false
  .next (
    if e = 0 then (if core then s.setMon { m with slip := m.slip + 1 } else s)
    else if m.enabled && !m.frozen && m.event == e && unitTakes u e then s.setMon (m.take (s.sampleOf u e v))
    else s)

end Sys2Proof.Machine
end

