-- ==== Sys2Proof/Machine/Boot.lean ====
section
/-! DEFINITION. The alarm (R318, R319), images (R321), start-up, husk mode, recovery and the mailbox (R320 to R326), and
writes of the registers that have no row of their own (R7, R351, and the rules of each register). -/

namespace Sys2Proof.Machine

/-! ### Images (R321) -/

def imageMagic : Nat := 0x4B465A4C5A394657
def imageKind (img : List Byte) : Nat := leVal ((img.drop 8).take 4)
def imageSvn (img : List Byte) : Nat := leVal ((img.drop 12).take 4)
def imageLen (img : List Byte) : Nat := leVal ((img.drop 16).take 8)
def imageHead (img : List Byte) : List Byte := img.take 256
def imageBody (img : List Byte) : List Byte := (img.drop 256).take (imageLen img)

/-- Whether an image is accepted as one of a kind. -/
def State.imageOk (s : State) (kind : Nat) (img : List Byte) : Bool :=
  let n := imageLen img
  let key := (img.drop 72).take 96
  leVal (img.take 8) == imageMagic && imageKind img == kind && decide (1 ≤ n ∧ n ≤ 64 * 2 ^ 20) &&
    img.length == 256 + n + 96 && Config.sha384 key == s.boot.fuseRoot &&
    (Config.sha384 (imageBody img)).toNat == leVal ((img.drop 24).take 48) &&
    Config.ecdsaVerify key (Config.sha384 (imageHead img)) (img.drop (256 + n)) &&
    decide (s.boot.fuseSvn ≤ imageSvn img) && ((img.drop 168).take 88).all (· == 0)

/-- The digest of an accepted image. -/
def imageDigest (img : List Byte) : BitVec 384 := Config.sha384 (imageBody img)

/-! ### Start-up (R323, R324) -/

/-- Every unit at reset; the memory of the device, the boot flash and fuses, fabric time and the free values go on. -/
def State.powerUp (s : State) : State :=
  { State.reset with
    mem := s.mem, under := s.under, raws := s.raws, ue := s.ue, ce := s.ce, rowPoison := s.rowPoison, boot := { s.boot with ready := false, stage := 0 },
    time := s.time, fresh := s.fresh, agenda := s.agenda }

/-- Husk mode with a reason (R325): every other unit is held in reset. -/
def State.husk (s : State) (reason : Nat) : State :=
  let s1 := s.powerUp
  { s1 with boot := { s1.boot with husk := true, reason := reason, stage := s.boot.stage, recovering := false } }

/-- A stage fails: the counter rises, and at 3 the device enters husk mode; before that another start follows. -/
def State.failStart (s : State) (stage tower : Nat) (error : BitVec 32) : State :=
  let s1 := s.powerUp
  let s2 := { s1 with boot := { s1.boot with counter := s1.boot.counter + 1, stage := stage, tower := tower, error := error } }
  if 3 ≤ s2.boot.counter then s2.husk 1 else s2

/-- The strongroom is zeroed, and the device enters husk mode with reason ALARM (R319). -/
def State.erase (s : State) (sources : Nat) : State :=
  let b := { s.boot with keyPresent := false, chain := [], attest := 0, error := BitVec.ofNat 32 sources, mayClear := false }
  { s with boot := b }.husk 2

/-- Stage 0: the counter is read. -/
def State.stage0 (s : State) : State :=
  let s1 := s.powerUp
  let s2 := { s1 with boot := { s1.boot with husk := false, recovering := false, stage := 0 } }
  if 3 ≤ s2.boot.counter then s2.husk 1 else s2

/-- Whether every erase epoch is used (R326). -/
def State.noEpoch (s : State) : Bool := !s.boot.keyPresent && decide (15 ≤ s.boot.epoch)

/-- Stage 1: after an erase the ROM makes a new identity key (R326). -/
def State.rekey (s : State) : State :=
  if s.boot.keyPresent then s
  else
    let b := { s.boot with keyPresent := true, epoch := s.boot.epoch + 1, keyEpoch := s.boot.epoch + 1, attest := 0, chain := [] }
    { s with boot := b }

/-- Stage 2: the channels that training found bad. -/
def State.train (s : State) (r : StartRun) : State :=
  let one (l : List (Nat × BitVec 48)) (t : Nat) : BitVec 48 := ((l.find? (·.1 == t)).map (·.2)).getD 0
  (List.range 8).foldl (fun s t =>
    s.setTower t { s.towerAt t with retired := one r.retired t, narrowed := one r.narrowed t &&& ~~~(one r.retired t) }) s

def State.atStage (s : State) (n : Nat) : State := { s with boot := { s.boot with stage := n } }

/-- The failure that a start meets at a stage, if that is where it fails. -/
def startFails (r : StartRun) (n : Nat) : Option (Nat × BitVec 32) :=
  match r.fail with
  | some (k, t, e) => if k = n then some (t, e) else none
  | none => none

/-- The policies of ALARMCFG by source: MESH, GLITCH, TEMP, DEBUG, FUSE. -/
def policyOf (cfg : Word) (k : Nat) : Nat := (bits cfg (2 * k) 2).toNat

/-- One policy field as a write stores it. -/
def policyWrite (cfg v : Word) (k : Nat) : Nat :=
  let old := policyOf cfg k
  let new := policyOf v k
  if new = 3 ∨ (cfg.getLsbD 63 ∧ new < old) then old else new

/-- ALARMCFG after a write (R318). -/
def alarmcfgAfter (c v : Word) : Word :=
  BitVec.ofNat 64 ((List.range 5).map fun k => policyWrite c v k * 2 ^ (2 * k)).sum |||
    (if c.getLsbD 63 ∨ v.getLsbD 63 then 1#64 <<< 63 else 0)

/-- Stages 5 to 7: the escrow size, BALANCED, the policies that the management image carries and LOCK (R272, R318; log entry 30);
links; ready, with the counter at 0. -/
def State.lastStages (s : State) (r : StartRun) : State :=
  match startFails r 5, startFails r 6, startFails r 7 with
  | some (t, e), _, _ => (s.atStage 5).failStart 5 t e
  | none, some (t, e), _ => (s.atStage 6).failStart 6 t e
  | none, none, some (t, e) => (s.atStage 7).failStart 7 t e
  | none, none, none =>
    { s with alarmcfg := alarmcfgAfter s.alarmcfg (Config.imagePolicies s.boot.mgmtImage ||| 1#64 <<< 63),
             escrow := Config.imageEscrow s.boot.mgmtImage, powermode := powerWord 0 s.contract false 0,
             boot := { s.boot with ready := true, stage := 7, counter := 0 } }

/-- Stages 3 and 4: the management firmware and the CP firmware, or the recovery image in place of the first (R326). -/
def State.loadStages (s : State) (r : StartRun) : State :=
  match startFails r 3 with
  | some (t, e) => s.failStart 3 t e
  | none =>
    if s.boot.recovery then
      if s.imageOk 3 s.boot.recImage then
        { s with boot := { s.boot with recovering := true, stage := 3, digests := [imageDigest s.boot.recImage] } }
      else s.failStart 3 0 (Config.stageError 3)
    else if !s.imageOk 1 s.boot.mgmtImage then s.failStart 3 0 (Config.stageError 3)
    else
      match startFails r 4 with
      | some (t, e) => (s.atStage 4).failStart 4 t e
      | none =>
        if !s.imageOk 2 s.boot.cpImage then (s.atStage 4).failStart 4 0 (Config.stageError 4)
        else
          let ds := [imageDigest s.boot.mgmtImage, imageDigest s.boot.cpImage]
          ({ s with boot := { s.boot with stage := 4, digests := ds } } : State).lastStages r

/-- START (R323, R324, R326): the stages in order. A fuse failure at stage 1 is handled under the policy of FUSE
(R319; log entry 59). -/
def execStart (r : StartRun) (s : State) : Host.Outcome State Fault Refusal :=
  let s0 := s.stage0
  .next (
    if s0.boot.husk then s0
    else if s0.noEpoch then s0.husk 2
    else
      match startFails r 0, startFails r 1, startFails r 2 with
      | some (t, e), _, _ => s0.failStart 0 t e
      | none, some (t, e), _ =>
        if policyOf s0.alarmcfg 4 = 2 then (s0.atStage 1).erase 16
        else if policyOf s0.alarmcfg 4 = 1 then { s0.atStage 1 with halted := true }
        else (s0.atStage 1).failStart 1 t e
      | none, none, some (t, e) => (s0.rekey.atStage 2).failStart 2 t e
      | none, none, none => ((s0.rekey.atStage 2).train r |>.atStage 3).loadStages r)

/-- START_TIMEOUT (R324): stage 7 has not been reached within 30 s. -/
def execStartTimeout (s : State) : Host.Outcome State Fault Refusal :=
  .next (if s.boot.ready || s.boot.husk || s.boot.recovering then s
    else s.failStart s.boot.stage s.boot.tower s.boot.error)

/-! ### The alarm (R318, R319) -/

/-- ALARMCFG_WRITE. -/
def execAlarmcfgWrite (v : Word) (s : State) : Host.Outcome State Fault Refusal :=
  .next { s with alarmcfg := alarmcfgAfter s.alarmcfg v }

/-- The highest policy of some sources. -/
def alarmPolicy (cfg : Word) (sources : BitVec 5) : Nat :=
  ((List.range 5).filter sources.getLsbD).foldl (fun m k => max m (policyOf cfg k)) 0

/-- ALARM: sources that fire together. -/
def execAlarm (sources : BitVec 5) (s : State) : Host.Outcome State Fault Refusal :=
  let p := alarmPolicy s.alarmcfg sources
  .next (
    if sources = 0 then s
    else
      let s1 := s.event eALARM 0 0 (sources.zeroExtend 64) (BitVec.ofNat 64 p)
      if p = 2 then s1.erase sources.toNat else if p = 1 then { s1 with halted := true } else s1)

/-! ### The mailbox (R322, R325, R326) -/

/-- Whether the mailbox of R325 is offered. -/
def State.mailboxOpen (s : State) : Bool := s.boot.husk || s.boot.recovering

/-- The reason report. -/
def reasonReport (b : Boot) : List Byte :=
  leBytes 1 b.reason ++ leBytes 1 b.stage ++ leBytes 1 b.tower ++ leBytes 1 b.counter ++ leBytes 4 b.error.toNat
    ++ leBytes 8 0

/-- REPORT. -/
def execReport (s : State) : Host.Outcome State Fault Refusal :=
  .next { s with reply := if s.mailboxOpen then reasonReport s.boot else [] }

/-- CLEAR: refused after an erase, whatever starts came since, until a recovery image has been accepted. -/
def execClear (s : State) : Host.Outcome State Fault Refusal :=
  .next (if s.mailboxOpen && s.boot.mayClear then
      { s with boot := { s.boot with counter := 0 }, reply := [] }
    else { s with reply := [] })

/-- RECOVER: a kind-3 image goes to the boot flash and sets the recovery flag. -/
def execRecover (img : List Byte) (s : State) : Host.Outcome State Fault Refusal :=
  .next (if s.mailboxOpen && s.imageOk 3 img then
      { s with boot := { s.boot with recImage := img, recovery := true, mayClear := true }, reply := [] }
    else { s with reply := [] })

/-- RESET: a new start begins at stage 0. -/
def execReset (s : State) : Host.Outcome State Fault Refusal := .next (if s.mailboxOpen then s.stage0 else s)

/-- PROVISION: a certificate chain whose root matches the fuse digest; also taken when the device is ready. -/
def execProvision (chain : List Byte) (s : State) : Host.Outcome State Fault Refusal :=
  .next (if (s.mailboxOpen || s.boot.ready) && s.boot.keyPresent && Config.chainRoot chain == s.boot.fuseRoot then
      { s with boot := { s.boot with chain := chain }, reply := [] }
    else { s with reply := [] })

/-- WRITEFW: the recovery firmware writes a verified image of kind 1 or 2. -/
def execWritefw (img : List Byte) (s : State) : Host.Outcome State Fault Refusal :=
  .next (if s.boot.recovering && s.imageOk 1 img then { s with boot := { s.boot with mgmtImage := img }, reply := [] }
    else if s.boot.recovering && s.imageOk 2 img then { s with boot := { s.boot with cpImage := img }, reply := [] }
    else { s with reply := [] })

/-- DONE: the recovery flag and the start counter are cleared and a new start begins. -/
def execDone (s : State) : Host.Outcome State Fault Refusal :=
  .next (if s.boot.recovering then { s with boot := { s.boot with recovery := false, counter := 0 } }.stage0 else s)

/-- What an attestation report holds (R322), with the erase epoch and the chain (R326); log entry 30 says in which
order. -/
def State.attestBody (s : State) (nonce : BitVec 384) : List Byte :=
  let b := s.boot
  leBytes 48 nonce.toNat ++ (b.digests.flatMap fun d => leBytes 48 d.toNat) ++ leBytes 8 s.powermode.toNat
    ++ ((List.range 8).flatMap fun t => leBytes 6 (s.towerAt t).retired.toNat ++ leBytes 6 (s.towerAt t).narrowed.toNat)
    ++ leBytes 8 s.alarmcfg.toNat ++ leBytes 8 b.attest ++ leBytes 1 b.epoch ++ b.chain

/-- ATTESTATION_REPORT: the counter rises by one, and the report is signed with the identity key. -/
def execAttestationReport (nonce : BitVec 384) (s : State) : Host.Outcome State Fault Refusal :=
  .next (if s.boot.ready && s.boot.keyPresent then
      let s1 := { s with boot := { s.boot with attest := s.boot.attest + 1 } }
      let body := s1.attestBody nonce
      { s1 with reply := body ++ Config.ecdsaSign s1.boot.keyEpoch (Config.sha384 body) }
    else { s with reply := [] })

/-! ### Registers without a row of their own -/

/-- A write of a host queue's register (R72); the registers of a stopped ring may let its front end go on. -/
def State.writeQueue (s : State) (q : Nat) (f : Queue → Queue) : State := (s.setQueue q (f (s.queueAt q))).frontEnd q

/-- PERIOD: leaving background mode takes effect at once. -/
def Queue.writePeriod (c : Queue) (v : Word) : Queue :=
  let p := v &&& 0xFFFFFFFF#64
  { c with newPeriod := p, period := if c.periodUs = 0 ∧ p ≠ 0 then p else c.period }

/-- CTXSCOPE takes the values 2, 3 and 4 (R176). -/
def ctxscopeWrite (old : BitVec 3) (v : Word) : BitVec 3 :=
  let n := bits v 0 3
  if n = 2 ∨ n = 3 ∨ n = 4 then n else old

/-- The routing table after a write for a NODE: 1 a load-store device, 2 a message-only device, else none. A device beyond the
4,096 of the load-store domain or the 131,072 in all, this one included, is not entered (R21, R130; log entry 76). -/
def State.writeRoute (s : State) (n : Nat) (v : Word) : State :=
  let others := s.routes.filter (·.1 != n)
  if v = 1 then if (others.filter (·.2)).length < 4095 ∧ others.length < 131071 then { s with routes := others ++ [(n, true)] } else s
  else if v = 2 then if others.length < 131071 then { s with routes := others ++ [(n, false)] } else s
  else { s with routes := others }

/-- A register after a write: read-only and reserved fields keep their values (R7). -/
def State.writeReg (s : State) (r : MReg) (v : Word) : State :=
  match r with
    | .qbase q => s.writeQueue q fun c => { c with base := v }
    | .qsize q => s.writeQueue q fun c => { c with size := v &&& 0xFFFF00000000001F#64 }
    | .qhead q => s.writeQueue q fun c => { c with head := v, seen := none, hold := [], answers := [] }
    | .qperiod q => s.writeQueue q fun c => c.writePeriod v
    | .qbudget q => s.writeQueue q fun c => { c with newBudget := v &&& 0xFFFFFFFF#64 }
    | .qgang q => s.writeQueue q fun c => { c with newGang := v }
    | .prqbase t => s.setPctl t { s.pctlAt t with base := v }
    | .prqsize t => (s.setPctl t { s.pctlAt t with size := bits v 0 4 }).drainRing t 1024
    | .prqhead t => (s.setPctl t { s.pctlAt t with head := v }).drainRing t 1024
    | .prtag t => s.setPctl t { s.pctlAt t with tag := v }
    | .prstat t => if v.getLsbD 0 then s.setPctl t { s.pctlAt t with bad := false } else s
    | .evbase => { s with evbase := v }
    | .evhead => { s with evhead := v }
    | .monCtl u =>
      let m := { s.monAt u with ctl := v &&& 0xFF03#64 }
      s.setMon (if v.getLsbD 2 then m.clear else m)
    | .berr t b => if v.getLsbD 63 then { s with berr := tableSet s.berr (t % 8 * 384 + b % 384) 0 } else s
    | .waitswap => { s with waitswap := bits v 0 32 }
    | .ctxscope => { s with ctxscope := ctxscopeWrite s.ctxscope v }
    | .railstat =>
      let k := s.clustersel.toNat
      s.setCluster k { s.clusterAt k with lock := v.getLsbD 1 }
    | .clipstat =>
      let k := s.clustersel.toNat
      if v.getLsbD 48 then s.setCluster k { s.clusterAt k with grown := false } else s
    | .railcmd => s.writeRailcmd v
    | .thermcfg => State.towerReturn { s with hard := bits v 16 16, limit := bits v 0 16 } (bits v 56 8)
    | .clustersel => { s with clustersel := bits v 0 6 }
    | .ptsel => { s with ptsel := v &&& 0x7FFFF#64 }
    | .ptroot =>
      let key := (s.selAsid.toNat, s.selTower)
      { s with ptroots := (s.ptroots.filter (·.1 != key)) ++ [(key, v &&& 0xFFFFFFFFF0001#64)] }
    | .escrow => { s with escrow := v.toNat }
    | .route n => s.writeRoute n v
    | .lease va => { s with leases := if s.leases.contains (pageOf va) then s.leases else s.leases ++ [pageOf va] }

/-- REGISTER_WRITE. -/
def execRegisterWrite (r : MReg) (v : Word) (s : State) : Host.Outcome State Fault Refusal := .next (s.writeReg r v)

end Sys2Proof.Machine
end

