-- ==== Sys2Proof/Machine/Mmio.lean ====
section
/-! DEFINITION. The registers as the host and the management core read and write them: the CP register blocks behind the BAR
(R328), the management CSRs (R352), and host accesses (R148). -/

namespace Sys2Proof.Machine

/-! ### What registers read as -/

/-- QSTAT (R72): LEFT in core-µs. -/
def Queue.stat (c : Queue) : Word :=
  BitVec.ofNat 64 (c.haltOff.toNat % 2 ^ 24 * 2 ^ 40 + (if c.halted then 2 ^ 33 else 0) + (if c.demoted then 2 ^ 32 else 0)
    + c.left / 1000 % 2 ^ 32)

/-- Register k of a host queue; PERIOD, BUDGET and GANG read as they were written last (R72). -/
def Queue.reg (c : Queue) (k : Nat) : Word :=
  match k with
  | 0 => c.base
  | 1 => c.size
  | 2 => c.head
  | 3 => c.tail
  | 4 => c.newPeriod
  | 5 => c.newBudget
  | 6 => c.newGang
  | _ => c.stat

/-- The doubleword at an offset of a capture unit (R316). -/
def Mon.reg (m : Mon) (o : Nat) : Word :=
  if o = 0 then m.ctl
  else if o = 8 then m.lo
  else if o = 0x10 then m.hi
  else if o = 0x18 then m.count
  else if o < 0xA0 then
    let b := (o - 0x20) / 4
    BitVec.ofNat 64 ((m.buckets.getD b 0).toNat + (m.buckets.getD (b + 1) 0).toNat * 2 ^ 32)
  else if o = 0xA0 then m.slip
  else 0

/-- PRSTAT: the requests that wait for a reply, and BADTAG (R305). -/
def PageCtl.stat (c : PageCtl) : Word := BitVec.ofNat 64 (c.reqs.length * 2 ^ 16 + if c.bad then 1 else 0)

/-- The doubleword at an offset of a page-request controller (R305). -/
def PageCtl.reg (c : PageCtl) (o : Nat) : Word :=
  match o with
  | 0x00 => c.base
  | 0x08 => c.size.setWidth 64
  | 0x10 => c.head
  | 0x18 => c.tail
  | 0x20 => c.tag
  | 0x30 => c.stat
  | _ => 0

/-- The event ring registers (R307). -/
def State.ringReg (s : State) (o : Nat) : Word :=
  match o with
  | 0x00 => s.evbase
  | 0x08 => s.evhead
  | 0x10 => s.evtail
  | 0x18 => s.evseq
  | _ => 0

/-- The capture unit at an offset of tower t's block (R316, R328). -/
def monUnitAt (t o : Nat) : Option MonUnit :=
  if 0x10000 ≤ o ∧ o < 0x12000 then some (.core (32 * t + (o - 0x10000) / 0x100))
  else if 0x12000 ≤ o ∧ o < 0x12100 then some (.tower t)
  else if t = 0 ∧ 0x13000 ≤ o ∧ o < 0x17000 then some (.queue ((o - 0x13000) / 0x100))
  else none

/-- The doubleword at an offset of the register blocks, as the host or the management core reads it (R328): the host reaches
neither the event ring nor the page-request controllers. -/
def State.blockRead (s : State) (host : Bool) (off : Nat) : Word :=
  let t := off / 2 ^ 20
  let o := off % 2 ^ 20
  if 8 ≤ t ∨ off % 8 ≠ 0 then 0
  else if t = 0 ∧ o < 0x1000 then (s.queueAt (o / 0x40)).reg (o % 0x40 / 8)
  else if t = 0 ∧ o < 0x9000 then
    ((s.gangrdy.find? fun x => x.1 == ((o - 0x1000) / 0x200, (o - 0x1000) % 0x200 / 8)).map (·.2)).getD (BitVec.allOnes 64)
  else if t = 0 ∧ o = 0x20000 then s.alarmcfg
  else if !host ∧ t = 0 ∧ 0x21000 ≤ o ∧ o < 0x21020 then s.ringReg (o - 0x21000)
  else if !host ∧ 0x30000 ≤ o ∧ o < 0x30038 then (s.pctlAt t).reg (o - 0x30000)
  else if 0x48000 ≤ o ∧ o < 0x48000 + 8 * 384 then tableGet s.berr (t * 384 + (o - 0x48000) / 8) 0
  else
    match monUnitAt t o with
    | some u => (s.monAt u).reg (o % 0x100)
    | none => 0

/-- A register of a host queue after the host writes it. -/
def State.writeQueueReg (s : State) (q k : Nat) (v : Word) : State :=
  match k with
  | 0 => s.writeReg (.qbase q) v
  | 1 => s.writeReg (.qsize q) v
  | 2 => s.writeReg (.qhead q) v
  | 3 => s.doorbell q v
  | 4 => s.writeReg (.qperiod q) v
  | 5 => s.writeReg (.qbudget q) v
  | 6 => s.writeReg (.qgang q) v
  | _ => if v.getLsbD 33 then s.restartQueue q else s

/-- A doubleword that the host writes at an offset of the blocks: the queue, gang and capture registers take it, every other
offset ignores it (R328). -/
def State.barWrite (s : State) (off : Nat) (v : Word) : State :=
  let t := off / 2 ^ 20
  let o := off % 2 ^ 20
  if 8 ≤ t ∨ off % 8 ≠ 0 then s
  else if t = 0 ∧ o < 0x1000 then s.writeQueueReg (o / 0x40) (o % 0x40 / 8) v
  else if t = 0 ∧ o < 0x9000 then s.gangReady ((o - 0x1000) / 0x200) ((o - 0x1000) % 0x200 / 8) v
  else
    match monUnitAt t o with
    | some u => if o % 0x100 = 0 then s.writeReg (.monCtl u) v else s
    | none => s

/-! ### Management CSRs (R352) -/

/-- RAILSTAT of the selected cluster (R153, R154). -/
def State.railstat (s : State) : Word :=
  let c := s.clusterAt s.clustersel.toNat
  let bit (b : Bool) (k : Nat) : Nat := if b then 2 ^ k else 0
  BitVec.ofNat 64 (bit c.lvbar 8 + bit c.target.isSome 7 + c.last.toNat * 4 + bit c.lock 1 + bit c.lv 0)

/-- CLIPSTAT of the selected cluster. -/
def State.clipstat (s : State) : Word :=
  let c := s.clusterAt s.clustersel.toNat
  BitVec.ofNat 64 ((if c.grown then 2 ^ 48 else 0) + c.cacheClip % 2 ^ 16 * 2 ^ 32 + c.saClip % 2 ^ 16 * 2 ^ 16
    + c.vaultClip.toList.sum % 2 ^ 16)

/-- The throttle step of the hottest tower, and the towers offline by heat (R313). -/
def State.thermcfg (s : State) : Word :=
  let ts := s.towers.toList
  let hottest := ts.foldl (fun (a : Tower) t => if a.temp < t.temp then t else a) (s.towerAt 0)
  let offl := (ts.zipIdx.map fun (t, k) => if t.offline && !t.lost then 2 ^ k else 0).sum
  BitVec.ofNat 64 (offl * 2 ^ 56 + hottest.step * 2 ^ 40 + s.hard.toNat * 2 ^ 16 + s.limit.toNat)

/-- A management CSR as the management core reads it; PTINV is write-only. -/
def State.csrOfMgmt (s : State) (sel : Nat) : Word :=
  match sel with
  | 0x100 => s.railstat
  | 0x101 => s.clipstat
  | 0x120 => s.waitswap.setWidth 64
  | 0x121 => s.ctxscope.setWidth 64
  | 0x122 => s.powermode
  | 0x123 => s.railcmd
  | 0x124 => s.thermcfg
  | 0x125 => s.clustersel.setWidth 64
  | 0x126 => s.ptsel
  | 0x127 => ((s.ptroots.find? (·.1 == (s.selAsid.toNat, s.selTower))).map (·.2)).getD 0
  | _ => 0

/-! ### Accesses of the host -/

/-- HOST_MEM_ACCESS: device memory at tower h div 48 GiB and physical h mod 48 GiB, at the home LLC (R148), where an access to a
row or a bank that a row command holds is made later (R183); or a doubleword of the BAR at offset h (R328). What is read is in
reply. In husk mode and under the recovery firmware only the mailbox is reached (R20, R325, R326). -/
def execHostMemAccess (h : Nat) (acc : HostAcc) (s : State) : Host.Outcome State Fault Refusal :=
  let t := h / (48 * 2 ^ 30)
  let pa := h % (48 * 2 ^ 30)
  let k := dramKey t pa
  .next (
    if s.boot.husk || s.boot.recovering then s
    else
      match acc with
      | .barRead => { s with reply := leBytes 8 (s.blockRead true h).toNat }
      | .barWrite v => { s.barWrite h v with reply := [] }
      | .read n =>
        if 8 ≤ t then { s with reply := [] }
        else if s.physHeld t pa n false then s
        else { s.touchPhys t pa n false with reply := s.bytesIn 0 k n }
      | .write bs =>
        if 8 ≤ t then { s with reply := [] }
        else if s.physHeld t pa bs.length true then s
        else { (s.touchPhys t pa bs.length true).storeAt 0 k bs with reply := [] })

end Sys2Proof.Machine
end

