-- ==== Sys2Proof/Machine/VPerm.lean ====
section
/-! DEFINITION. Words that move or reduce elements: VXCH, VPERM, VSLIDE, VRED and VPOPC (R200 to R203, R430 to R433). -/

namespace Sys2Proof.Machine

/-! ### Permutes (R203, R430) -/

/-- Write active elements from a function of the element index; every source is read before. -/
def moveWord (vd : Reg) (w : Nat) (m : BitVec 3) (f : Hart → Nat → Nat) : M Unit :=
  change fun s =>
    let h := s.me
    { s with me := h.setElems s.vlen vd.val w ((h.active m 0 h.vlNow).map fun i => (i, f h i)) }

/-- VXCH: an element whose partner lies at or above VL keeps the value of va at its own index. -/
def execVxch (vd va : Reg) (d : BitVec 16) (q : VMod) (s : State) : Host.Outcome State Fault Refusal :=
  .next (s.vword q.fl do
    let t ← wordType q.width
    needGroups [va, vd]
    needFit t.w
    let vlen := s.vlen
    moveWord vd t.w q.msel fun h i =>
      let j := i ^^^ d.toNat
      h.elem vlen va.val t.w (if j < h.vlNow then j else i))

/-- VPERM: an index at or above VL gives 0. -/
def execVperm (vd va vb : Reg) (q : VMod) (s : State) : Host.Outcome State Fault Refusal :=
  .next (s.vword q.fl do
    let t ← wordType q.width
    needGroups [va, vd, vb]
    needFit t.w
    let vlen := s.vlen
    moveWord vd t.w q.msel fun h i =>
      let j := h.elem vlen vb.val t.w i
      if j < h.vlNow then h.elem vlen va.val t.w j else 0)

/-- VSLIDE: an index below 0 or at or above VL gives 0. -/
def execVslide (vd va : Reg) (n : BitVec 16) (q : VMod) (s : State) : Host.Outcome State Fault Refusal :=
  .next (s.vword q.fl do
    let t ← wordType q.width
    needGroups [va, vd]
    needFit t.w
    let vlen := s.vlen
    moveWord vd t.w q.msel fun h i =>
      let j : Int := (i : Int) + n.toInt
      if 0 ≤ j ∧ j < (h.vlNow : Int) then h.elem vlen va.val t.w j.toNat else 0)

/-! ### VRED (R432, R433) -/

/-- The reduction of active codes in an integer format: the code of element 0, none where it keeps its value. -/
def redInt (op : RedOp) (w : Nat) (sg : Bool) (cs : List Nat) : Option Nat × Flags :=
  let xs := cs.map (readInt w sg)
  match op with
  | .sum => (some (intCode w xs.sum), 0)
  | .sums =>
    let (x, fl) := clampInt sg w xs.sum
    (some (intCode w x), fl)
  | .min => (xs.min?.map (intCode w), 0)
  | .max => (xs.max?.map (intCode w), 0)
  | .and => (some (cs.foldl (· &&& ·) (2 ^ w - 1)), 0)
  | .or => (some (cs.foldl (· ||| ·) 0), 0)
  | .xor => (some (cs.foldl (· ^^^ ·) 0), 0)

/-- The least or greatest of values, by R42. -/
def redMinmax (greater : Bool) : List Num → Option Num
  | [] => none
  | x :: xs => some (xs.foldl (Num.minmax greater) x)

/-- The exact f32 code of a value of a narrower format (R50). -/
def toF32 (x : Num) : Nat := (roundF32 .rne x).1

/-- VRED. -/
def execVred (op : RedOp) (vd va : Reg) (rm : BitVec 3) (q : VMod) (s : State) : Host.Outcome State Fault Refusal :=
  .next (s.vword q.fl do
    let t ← wordType q.width
    needType q.width (decide (t.fmt ≤ 1) || (decide (4 ≤ t.fmt) && (op == .sum || op == .min || op == .max)))
    needGroups [va, vd]
    needFit t.w
    let s ← now
    let h := s.me
    let n := h.vlNow
    let act := h.active q.msel 0 n
    let code (i : Nat) : Nat := h.elem s.vlen va.val t.w i
    let value (i : Nat) : Num := h.num s.vlen t va.val i
    let (w, r, fl) : Nat × Option Nat × Flags :=
      if n = 0 then (t.w, none, 0)
      else if t.fmt ≤ 1 then
        let (r, fl) := redInt op t.w (t.fmt == 0) (act.map code)
        (t.w, r, fl)
      else if op == .sum then
        let x := h.mask q.msel
        let (c, fl) := treeSum (h.mode rm) ((List.range n).map fun i => if x.getLsbD i then toF32 (value i) else 0)
        (32, some c, fl)
      else (t.w, (redMinmax (op == .max) (act.map value)).map fun x => (t.fmtOf.round t.sat .rne x).1, 0)
    match r with
    | some c => change fun s => { s with me := s.me.setElem s.vlen vd.val w 0 c }
    | none => pure ()
    raiseFlags fl
    fpTrap fl)

/-! ### VPOPC and the length queue (R200, R201, R431) -/

/-- Push a count; a full queue loses its oldest entry and sets OVF. -/
def Hart.pushCount (h : Hart) (n : Nat) : Hart :=
  { h with lqOvf := h.lqOvf || decide (16 ≤ h.lq.length),
           lq := (if 16 ≤ h.lq.length then h.lq.drop 1 else h.lq) ++ [BitVec.ofNat 32 n] }

/-- VPOPC. -/
def execVpopc (ms : BitVec 3) (fl : Fl) (s : State) : Host.Outcome State Fault Refusal :=
  .next (s.vword fl (change fun s => { s with me := s.me.pushCount (s.me.active ms 0 s.me.vlNow).length }))

end Sys2Proof.Machine
end

