-- ==== Sys2Proof/Machine/Dispatch.lean ====
section
/-! DEFINITION. The one dispatch from an instruction to its meaning, one arm for each constructor. -/

namespace Sys2Proof.Machine

/-- The meaning of an instruction. -/
def exec (i : Instr) (s : State) : Host.Outcome State Fault Refusal :=
  match i with
  | .add d a b => Sys2Proof.Machine.execAdd d a b s
  | .addw d a b => Sys2Proof.Machine.execAddw d a b s
  | .sub d a b => Sys2Proof.Machine.execSub d a b s
  | .subw d a b => Sys2Proof.Machine.execSubw d a b s
  | .and d a b => Sys2Proof.Machine.execAnd d a b s
  | .or d a b => Sys2Proof.Machine.execOr d a b s
  | .xor d a b => Sys2Proof.Machine.execXor d a b s
  | .sll d a b => Sys2Proof.Machine.execSll d a b s
  | .sllw d a b => Sys2Proof.Machine.execSllw d a b s
  | .srl d a b => Sys2Proof.Machine.execSrl d a b s
  | .srlw d a b => Sys2Proof.Machine.execSrlw d a b s
  | .sra d a b => Sys2Proof.Machine.execSra d a b s
  | .sraw d a b => Sys2Proof.Machine.execSraw d a b s
  | .slt d a b => Sys2Proof.Machine.execSlt d a b s
  | .sltu d a b => Sys2Proof.Machine.execSltu d a b s
  | .min d a b => Sys2Proof.Machine.execMin d a b s
  | .max d a b => Sys2Proof.Machine.execMax d a b s
  | .minu d a b => Sys2Proof.Machine.execMinu d a b s
  | .maxu d a b => Sys2Proof.Machine.execMaxu d a b s
  | .clz d a => Sys2Proof.Machine.execClz d a s
  | .clzw d a => Sys2Proof.Machine.execClzw d a s
  | .popc d a => Sys2Proof.Machine.execPopc d a s
  | .popcw d a => Sys2Proof.Machine.execPopcw d a s
  | .sext d a z => Sys2Proof.Machine.execSext d a z s
  | .mul d a b => Sys2Proof.Machine.execMul d a b s
  | .mulw d a b => Sys2Proof.Machine.execMulw d a b s
  | .mulh d a b => Sys2Proof.Machine.execMulh d a b s
  | .mulhu d a b => Sys2Proof.Machine.execMulhu d a b s
  | .div d a b => Sys2Proof.Machine.execDiv d a b s
  | .divw d a b => Sys2Proof.Machine.execDivw d a b s
  | .divu d a b => Sys2Proof.Machine.execDivu d a b s
  | .divuw d a b => Sys2Proof.Machine.execDivuw d a b s
  | .rem d a b => Sys2Proof.Machine.execRem d a b s
  | .remw d a b => Sys2Proof.Machine.execRemw d a b s
  | .remu d a b => Sys2Proof.Machine.execRemu d a b s
  | .remuw d a b => Sys2Proof.Machine.execRemuw d a b s
  | .addi d a iv => Sys2Proof.Machine.execAddi d a iv s
  | .andi d a iv => Sys2Proof.Machine.execAndi d a iv s
  | .ori d a iv => Sys2Proof.Machine.execOri d a iv s
  | .xori d a iv => Sys2Proof.Machine.execXori d a iv s
  | .slti d a iv => Sys2Proof.Machine.execSlti d a iv s
  | .slli d a n => Sys2Proof.Machine.execSlli d a n s
  | .srli d a n => Sys2Proof.Machine.execSrli d a n s
  | .srai d a n => Sys2Proof.Machine.execSrai d a n s
  | .slliw d a n => Sys2Proof.Machine.execSlliw d a n s
  | .srliw d a n => Sys2Proof.Machine.execSrliw d a n s
  | .sraiw d a n => Sys2Proof.Machine.execSraiw d a n s
  | .lui d iv => Sys2Proof.Machine.execLui d iv s
  | .auipc d iv => Sys2Proof.Machine.execAuipc d iv s
  | .ld d a sv h z n o => Sys2Proof.Machine.execLd d a sv h z n o s
  | .st d a sv h z o => Sys2Proof.Machine.execSt d a sv h z o s
  | .amoswap d a b sc o w => Sys2Proof.Machine.execAmoswap d a b sc o w s
  | .amoadd d a b sc o w => Sys2Proof.Machine.execAmoadd d a b sc o w s
  | .amoand d a b sc o w => Sys2Proof.Machine.execAmoand d a b sc o w s
  | .amoor d a b sc o w => Sys2Proof.Machine.execAmoor d a b sc o w s
  | .amoxor d a b sc o w => Sys2Proof.Machine.execAmoxor d a b sc o w s
  | .amomin d a b sc o w => Sys2Proof.Machine.execAmomin d a b sc o w s
  | .amomax d a b sc o w => Sys2Proof.Machine.execAmomax d a b sc o w s
  | .amominu d a b sc o w => Sys2Proof.Machine.execAmominu d a b sc o w s
  | .amomaxu d a b sc o w => Sys2Proof.Machine.execAmomaxu d a b sc o w s
  | .amocas d a b sc o w => Sys2Proof.Machine.execAmocas d a b sc o w s
  | .beq a b o => Sys2Proof.Machine.execBeq a b o s
  | .bne a b o => Sys2Proof.Machine.execBne a b o s
  | .blt a b o => Sys2Proof.Machine.execBlt a b o s
  | .bge a b o => Sys2Proof.Machine.execBge a b o s
  | .bltu a b o => Sys2Proof.Machine.execBltu a b o s
  | .bgeu a b o => Sys2Proof.Machine.execBgeu a b o s
  | .j o => Sys2Proof.Machine.execJ o s
  | .jal o => Sys2Proof.Machine.execJal o s
  | .jalr d a iv => Sys2Proof.Machine.execJalr d a iv s
  | .bmz o => Sys2Proof.Machine.execBmz o s
  | .fence eng sa k sc => Sys2Proof.Machine.execFence eng sa k sc s
  | .sbar m => Sys2Proof.Machine.execSbar m s
  | .ifence d a => Sys2Proof.Machine.execIfence d a s
  | .tbar => Sys2Proof.Machine.execTbar s
  | .tlwait a b sc => Sys2Proof.Machine.execTlwait a b sc s
  | .tlpoll d a sc => Sys2Proof.Machine.execTlpoll d a sc s
  | .tlsig a b sc => Sys2Proof.Machine.execTlsig a b sc s
  | .cpy d a c => Sys2Proof.Machine.execCpy d a c s
  | .gthr d a c => Sys2Proof.Machine.execGthr d a c s
  | .sctr d a c => Sys2Proof.Machine.execSctr d a c s
  | .rpl d a c => Sys2Proof.Machine.execRpl d a c s
  | .bxl d a c => Sys2Proof.Machine.execBxl d a c s
  | .rlock a b => Sys2Proof.Machine.execRlock a b s
  | .runlock a b => Sys2Proof.Machine.execRunlock a b s
  | .rfence a b => Sys2Proof.Machine.execRfence a b s
  | .spawn d a => Sys2Proof.Machine.execSpawn d a s
  | .join d a => Sys2Proof.Machine.execJoin d a s
  | .tend => Sys2Proof.Machine.execTend s
  | .forkw d a b => Sys2Proof.Machine.execForkw d a b s
  | .wend a => Sys2Proof.Machine.execWend a s
  | .choose a => Sys2Proof.Machine.execChoose a s
  | .chooseSelf => Sys2Proof.Machine.execChooseSelf s
  | .wabort => Sys2Proof.Machine.execWabort s
  | .wquery d a => Sys2Proof.Machine.execWquery d a s
  | .vfetch d a b => Sys2Proof.Machine.execVfetch d a b s
  | .vsett d a => Sys2Proof.Machine.execVsett d a s
  | .vsetl d a => Sys2Proof.Machine.execVsetl d a s
  | .vsetlLq d => Sys2Proof.Machine.execVsetlLq d s
  | .tcfg a => Sys2Proof.Machine.execTcfg a s
  | .vdrain => Sys2Proof.Machine.execVdrain s
  | .unfs a => Sys2Proof.Machine.execUnfs a s
  | .sacfg n a => Sys2Proof.Machine.execSacfg n a s
  | .sasave n a => Sys2Proof.Machine.execSasave n a s
  | .saload n a => Sys2Proof.Machine.execSaload n a s
  | .csrr d sv => Sys2Proof.Machine.execCsrr d sv s
  | .csrw d a sv => Sys2Proof.Machine.execCsrw d a sv s
  | .csrs d a sv => Sys2Proof.Machine.execCsrs d a sv s
  | .csrc d a sv => Sys2Proof.Machine.execCsrc d a sv s
  | .trap c => Sys2Proof.Machine.execTrap c s
  | .eret => Sys2Proof.Machine.execEret s
  | .railsel d a => Sys2Proof.Machine.execRailsel d a s
  | .clipq d a => Sys2Proof.Machine.execClipq d a s
  | .vstop => Sys2Proof.Machine.execVstop s
  | .vskz n fl => Sys2Proof.Machine.execVskz n fl s
  | .vadd vd va b q => Sys2Proof.Machine.execVadd vd va b q s
  | .vsub vd va b q => Sys2Proof.Machine.execVsub vd va b q s
  | .vadds vd va b q => Sys2Proof.Machine.execVadds vd va b q s
  | .vsubs vd va b q => Sys2Proof.Machine.execVsubs vd va b q s
  | .vmul vd va b q => Sys2Proof.Machine.execVmul vd va b q s
  | .vmulh vd va b q => Sys2Proof.Machine.execVmulh vd va b q s
  | .vmin vd va b q => Sys2Proof.Machine.execVmin vd va b q s
  | .vmax vd va b q => Sys2Proof.Machine.execVmax vd va b q s
  | .vand vd va b q => Sys2Proof.Machine.execVand vd va b q s
  | .vor vd va b q => Sys2Proof.Machine.execVor vd va b q s
  | .vxor vd va b q => Sys2Proof.Machine.execVxor vd va b q s
  | .vsll vd va b q => Sys2Proof.Machine.execVsll vd va b q s
  | .vsrl vd va b q => Sys2Proof.Machine.execVsrl vd va b q s
  | .vsra vd va b q => Sys2Proof.Machine.execVsra vd va b q s
  | .vcmp c md va b q => Sys2Proof.Machine.execVcmp c md va b q s
  | .vsel vd va b ms q => Sys2Proof.Machine.execVsel vd va b ms q s
  | .vfadd vd va vb rm q => Sys2Proof.Machine.execVfadd vd va vb rm q s
  | .vfsub vd va vb rm q => Sys2Proof.Machine.execVfsub vd va vb rm q s
  | .vfmul vd va vb rm q => Sys2Proof.Machine.execVfmul vd va vb rm q s
  | .vfma vd va vb vc rm q => Sys2Proof.Machine.execVfma vd va vb vc rm q s
  | .vfmin vd va vb rm q => Sys2Proof.Machine.execVfmin vd va vb rm q s
  | .vfmax vd va vb rm q => Sys2Proof.Machine.execVfmax vd va vb rm q s
  | .vfdiv vd va vb rm q => Sys2Proof.Machine.execVfdiv vd va vb rm q s
  | .vfsqrt vd va rm q => Sys2Proof.Machine.execVfsqrt vd va rm q s
  | .vfrsq vd va rm q => Sys2Proof.Machine.execVfrsq vd va rm q s
  | .vfexp2 vd va rm q => Sys2Proof.Machine.execVfexp2 vd va rm q s
  | .vfcmp c md va vb rm q => Sys2Proof.Machine.execVfcmp c md va vb rm q s
  | .vfcvt vd va rm p w f k q => Sys2Proof.Machine.execVfcvt vd va rm p w f k q s
  | .vred op vd va rm q => Sys2Proof.Machine.execVred op vd va rm q s
  | .vxch vd va d q => Sys2Proof.Machine.execVxch vd va d q s
  | .vperm vd va vb q => Sys2Proof.Machine.execVperm vd va vb q s
  | .vslide vd va n q => Sys2Proof.Machine.execVslide vd va n q s
  | .vpopc ms fl => Sys2Proof.Machine.execVpopc ms fl s
  | .mpush ms fl => Sys2Proof.Machine.execMpush ms fl s
  | .minv fl => Sys2Proof.Machine.execMinv fl s
  | .mpop fl => Sys2Proof.Machine.execMpop fl s
  | .mmov md ms fl => Sys2Proof.Machine.execMmov md ms fl s
  | .vld vd a o sv h q => Sys2Proof.Machine.execVld vd a o sv h q s
  | .vst vd a o sv h q => Sys2Proof.Machine.execVst vd a o sv h q s
  | .vldx vd a vb sv h x64 q => Sys2Proof.Machine.execVldx vd a vb sv h x64 q s
  | .vstx vd a vb sv h x64 q => Sys2Proof.Machine.execVstx vd a vb sv h x64 q s
  | .tzero t fl => Sys2Proof.Machine.execTzero t fl s
  | .troww t vs iv ix msel fl => Sys2Proof.Machine.execTroww t vs iv ix msel fl s
  | .trowr vd t iv ix msel fl => Sys2Proof.Machine.execTrowr vd t iv ix msel fl s
  | .tcolw t vs iv ix msel fl => Sys2Proof.Machine.execTcolw t vs iv ix msel fl s
  | .tcolr vd t iv ix msel fl => Sys2Proof.Machine.execTcolr vd t iv ix msel fl s
  | .opa t va vb rm u cs k fl => Sys2Proof.Machine.execOpa t va vb rm u cs k fl s
  | .opag t va vb vc rm u cs pairs k fl => Sys2Proof.Machine.execOpag t va vb vc rm u cs pairs k fl s
  | .saadd vs a o sv q => Sys2Proof.Machine.execSaadd vs a o sv q s
  | .sanrm vd a o sv rm q => Sys2Proof.Machine.execSanrm vd a o sv rm q s
  | .aap sv d => Sys2Proof.Machine.execAap sv d s
  | .tra k => Sys2Proof.Machine.execTra k s
  | .dnot sv d => Sys2Proof.Machine.execDnot sv d s
  | .lshf sv d => Sys2Proof.Machine.execLshf sv d s
  | .rshf sv d => Sys2Proof.Machine.execRshf sv d s
  | .loopw c m => Sys2Proof.Machine.execLoopw c m s
  | .eLdk k => Sys2Proof.Machine.execELdk k s
  | .eCvt k p => Sys2Proof.Machine.execECvt k p s
  | .qtailDoorbell q tail => Sys2Proof.Machine.execQtailDoorbell q tail s
  | .nop q => Sys2Proof.Machine.execNop q s
  | .launch q kernel frame counter value => Sys2Proof.Machine.execLaunch q kernel frame counter value s
  | .wait q counter value => Sys2Proof.Machine.execWait q counter value s
  | .packetWaitDone q => Sys2Proof.Machine.execPacketWaitDone q s
  | .signal q counter value => Sys2Proof.Machine.execSignal q counter value s
  | .copy q desc => Sys2Proof.Machine.execCopy q desc s
  | .bind q table => Sys2Proof.Machine.execBind q table s
  | .configDeadline q value => Sys2Proof.Machine.execConfigDeadline q value s
  | .configGangTable q table => Sys2Proof.Machine.execConfigGangTable q table s
  | .queueRestart q => Sys2Proof.Machine.execQueueRestart q s
  | .launchReady l => Sys2Proof.Machine.execLaunchReady l s
  | .periodStart q => Sys2Proof.Machine.execPeriodStart q s
  | .budgetOverrun q => Sys2Proof.Machine.execBudgetOverrun q s
  | .preempt core => Sys2Proof.Machine.execPreempt core s
  | .gangrdyWrite q m p => Sys2Proof.Machine.execGangrdyWrite q m p s
  | .gangSkew q => Sys2Proof.Machine.execGangSkew q s
  | .heldAcornPlace k => Sys2Proof.Machine.execHeldAcornPlace k s
  | .watcherPush k => Sys2Proof.Machine.execWatcherPush k s
  | .dequeSteal thief victim => Sys2Proof.Machine.execDequeSteal thief victim s
  | .teamSwapOut team => Sys2Proof.Machine.execTeamSwapOut team s
  | .teamRequeue team => Sys2Proof.Machine.execTeamRequeue team s
  | .waitSatisfied team hart => Sys2Proof.Machine.execWaitSatisfied team hart s
  | .hwErrorRestart core => Sys2Proof.Machine.execHwErrorRestart core s
  | .forkContinuation handle => Sys2Proof.Machine.execForkContinuation handle s
  | .asyncFaultDelivery team hart => Sys2Proof.Machine.execAsyncFaultDelivery team hart s
  | .mapped tower tag => Sys2Proof.Machine.execMapped tower tag s
  | .refuse tower tag => Sys2Proof.Machine.execRefuse tower tag s
  | .deny tower tag => Sys2Proof.Machine.execDeny tower tag s
  | .ptinvPage va => Sys2Proof.Machine.execPtinvPage va s
  | .ptinvAsid => Sys2Proof.Machine.execPtinvAsid s
  | .ptinvAll => Sys2Proof.Machine.execPtinvAll s
  | .leaseExpiry va => Sys2Proof.Machine.execLeaseExpiry va s
  | .hostMemAccess h acc => Sys2Proof.Machine.execHostMemAccess h acc s
  | .linkRetry port => Sys2Proof.Machine.execLinkRetry port s
  | .railSwitchDone cluster => Sys2Proof.Machine.execRailSwitchDone cluster s
  | .learnedRow cluster store row => Sys2Proof.Machine.execLearnedRow cluster store row s
  | .railcmdGo cluster rail => Sys2Proof.Machine.execRailcmdGo cluster rail s
  | .powermodeWrite mode => Sys2Proof.Machine.execPowermodeWrite mode s
  | .matrixWindow core => Sys2Proof.Machine.execMatrixWindow core s
  | .thermalStep1 tower temp => Sys2Proof.Machine.execThermalStep1 tower temp s
  | .thermalStep2 tower temp => Sys2Proof.Machine.execThermalStep2 tower temp s
  | .thermalOffline tower temp => Sys2Proof.Machine.execThermalOffline tower temp s
  | .thermalUnwind tower temp => Sys2Proof.Machine.execThermalUnwind tower temp s
  | .towerReturn mask => Sys2Proof.Machine.execTowerReturn mask s
  | .monitorClr u => Sys2Proof.Machine.execMonitorClr u s
  | .monitorSample u event sample => Sys2Proof.Machine.execMonitorSample u event sample s
  | .alarmcfgWrite v => Sys2Proof.Machine.execAlarmcfgWrite v s
  | .alarm sources => Sys2Proof.Machine.execAlarm sources s
  | .start r => Sys2Proof.Machine.execStart r s
  | .recover image => Sys2Proof.Machine.execRecover image s
  | .provision chain => Sys2Proof.Machine.execProvision chain s
  | .writefw image => Sys2Proof.Machine.execWritefw image s
  | .attestationReport nonce => Sys2Proof.Machine.execAttestationReport nonce s
  | .refreshDue bank => Sys2Proof.Machine.execRefreshDue bank s
  | .rowProgramStart cid => Sys2Proof.Machine.execRowProgramStart cid s
  | .waveAdmit cid => Sys2Proof.Machine.execWaveAdmit cid s
  | .bxlStart cid => Sys2Proof.Machine.execBxlStart cid s
  | .copyStart cid => Sys2Proof.Machine.execCopyStart cid s
  | .gatherStart cid => Sys2Proof.Machine.execGatherStart cid s
  | .scatterStart cid => Sys2Proof.Machine.execScatterStart cid s
  | .engineComplete cid => Sys2Proof.Machine.execEngineComplete cid s
  | .saaddApply k => Sys2Proof.Machine.execSaaddApply k s
  | .saEvict launch cluster => Sys2Proof.Machine.execSaEvict launch cluster s
  | .saRestore launch cluster => Sys2Proof.Machine.execSaRestore launch cluster s
  | .registerWrite r v => Sys2Proof.Machine.execRegisterWrite r v s
  | .illegal w => Sys2Proof.Machine.execIllegal w s
  | .fabricRequest asid va acc => Sys2Proof.Machine.execFabricRequest asid va acc s
  | .halt => Sys2Proof.Machine.execHalt s
  | .endw => Sys2Proof.Machine.execEndw s
  | .step => Sys2Proof.Machine.execStep s
  | .eLda => Sys2Proof.Machine.execELda s
  | .eLdb => Sys2Proof.Machine.execELdb s
  | .eAdd => Sys2Proof.Machine.execEAdd s
  | .eSub => Sys2Proof.Machine.execESub s
  | .eMul => Sys2Proof.Machine.execEMul s
  | .eFma => Sys2Proof.Machine.execEFma s
  | .eMin => Sys2Proof.Machine.execEMin s
  | .eMax => Sys2Proof.Machine.execEMax s
  | .eAbs => Sys2Proof.Machine.execEAbs s
  | .eNeg => Sys2Proof.Machine.execENeg s
  | .eCmplt => Sys2Proof.Machine.execECmplt s
  | .eSel => Sys2Proof.Machine.execESel s
  | .eDup => Sys2Proof.Machine.execEDup s
  | .eSwap => Sys2Proof.Machine.execESwap s
  | .eDrop => Sys2Proof.Machine.execEDrop s
  | .eSumr => Sys2Proof.Machine.execESumr s
  | .eMaxr => Sys2Proof.Machine.execEMaxr s
  | .eSto => Sys2Proof.Machine.execESto s
  | .pendingClear => Sys2Proof.Machine.execPendingClear s
  | .contractLoss => Sys2Proof.Machine.execContractLoss s
  | .contractHolds => Sys2Proof.Machine.execContractHolds s
  | .startTimeout => Sys2Proof.Machine.execStartTimeout s
  | .report => Sys2Proof.Machine.execReport s
  | .clear => Sys2Proof.Machine.execClear s
  | .reset => Sys2Proof.Machine.execReset s
  | .done => Sys2Proof.Machine.execDone s

end Sys2Proof.Machine
end

