-- ==== Sys2Proof/Machine/Points.lean ====
section
/-! DEFINITION. The points within a word at which a pre-emption may fall (R86): the groups of 64 elements of an element-wise
or a vector memory word (R415, R426, R428) and the rows or pairs of a tile word (R212, R213). A step up to a point does what
the word does for the elements, rows or pairs up to there, and records them in PIX (log entry 38). -/

namespace Sys2Proof.Machine

/-- The destination whose PIX.v counts the elements of a word, and the FL of the word (R206, R414, R425). -/
def groupDest : Instr → Option (Reg × Fl)
  | .vadd vd _ _ q | .vsub vd _ _ q | .vadds vd _ _ q | .vsubs vd _ _ q | .vmul vd _ _ q | .vmulh vd _ _ q
  | .vmin vd _ _ q | .vmax vd _ _ q | .vand vd _ _ q | .vor vd _ _ q | .vxor vd _ _ q | .vsll vd _ _ q
  | .vsrl vd _ _ q | .vsra vd _ _ q | .vsel vd _ _ _ q
  | .vfadd vd _ _ _ q | .vfsub vd _ _ _ q | .vfmul vd _ _ _ q | .vfma vd _ _ _ _ q | .vfmin vd _ _ _ q
  | .vfmax vd _ _ _ q | .vfdiv vd _ _ _ q | .vfsqrt vd _ _ q | .vfrsq vd _ _ q | .vfexp2 vd _ _ q
  | .vfcvt vd _ _ _ _ _ _ q
  | .vld vd _ _ _ _ q | .vst vd _ _ _ _ q | .vldx vd _ _ _ _ _ q | .vstx vd _ _ _ _ _ q => some (vd, q.fl)
  | _ => none

/-- The tile whose PIX.t counts the rows or pairs of a word, its FL, and their number (R206, R212 to R214). -/
def State.tileDest (s : State) : Instr → Option (BitVec 3 × Fl × Nat)
  | .tzero t fl | .opa t _ _ _ _ _ _ fl => some (t, fl, shapeRows (s.slotOf (s.physTile t)))
  | .opag t _ _ _ _ _ _ pairs _ fl => some (t, fl, pairs.toNat + 1)
  | _ => none

/-- The word without the signal that its last row posts, and for OPAG with n pairs (R214, R216). -/
def shorter (n : Nat) : Instr → Instr
  | .opa t va vb rm u _ k fl => .opa t va vb rm u false k fl
  | .opag t va vb vc rm u _ _ k fl => .opag t va vb vc rm u false (BitVec.ofNat 8 (n - 1)) k fl
  | i => i

/-- The focused hart's block with another vector length. -/
def State.withLength (s : State) (n : Nat) : State :=
  { s with me := { s.me with blk := s.me.blk.map fun b => { b with vl := n } } }

/-- A tile with n rows only. -/
def State.withRows (s : State) (t : BitVec 3) (n : Nat) : State :=
  let p := s.physTile t % 8
  { s with team := { s.team with
      tshape := s.team.tshape.set p (s.slotOf p &&& ~~~15#16 ||| BitVec.ofNat 16 (n - 1)) (Nat.mod_lt _ (by decide)) } }

/-- Addresses that a store with a release hint judges its scope by (R429). -/
def State.releaseAddrs (s : State) : Instr → List Word
  | .vst _ a o _ .sync q =>
    spanPages (s.me.base a + sext16 o) ((s.me.vlNow * (etyOf (vtWith s.me.vt q.width)).w + 7) / 8)
  | .vstx vd a vb _ .sync x64 q =>
    (s.me.addrs s.vlen a vb x64 (etyOf (vtWith s.me.vt q.width)).w (s.me.active q.msel (s.me.pix vd) s.me.vlNow)).map (·.2)
  | _ => []

/-- Whether the block of the focused hart stands behind the word at which s has it. -/
def State.passed (s s1 : State) : Bool := s1.me.blk.map (·.idx) != s.me.blk.map (·.idx)

/-- s1 has completed a word up to a point: the block stands at the word again, with the length and the shapes of s. -/
def State.back (s s1 : State) : State :=
  { s1 with
    me := { s1.me with blk := s1.me.blk.map fun b =>
      { b with idx := (s.me.blk.map (·.idx)).getD 0, vl := (s.me.blk.map (·.vl)).getD 0 } },
    team := { s1.team with tshape := s.team.tshape } }

/-- The state that a word leaves when nothing stops or faults it. -/
def State.cleanly (s : State) (o : Host.Outcome State Fault Refusal) : Option State :=
  match o with
  | .next s1 => if s.passed s1 && s1.me.blkFault.isNone then some s1 else none
  | _ => none

/-- Whether the word that s stands at comes to a point: it passes, or its progress has. -/
def State.comesTo (s : State) (i : Instr) (there : Hart → Bool) : Bool :=
  match exec i s with
  | .next s1 => s.passed s1 || there s1.me
  | _ => false

/-- The word i at which s stands, performed up to its next point; s itself where the word has no further point, or stops before it. -/
def State.toPoint (s : State) (i : Instr) : State :=
  match groupDest i, s.tileDest i with
  | some (vd, fl), _ =>
    let n := s.me.pix vd / 64 * 64 + 64
    let cut := s.withLength n
    if s.me.runs fl && decide (n < s.me.vlNow) && s.spanScope (s.releaseAddrs i) == cut.spanScope (cut.releaseAddrs i)
        && s.comesTo i (fun h => decide (n ≤ h.pix vd)) then
      match s.cleanly (exec i cut) with
      | some s1 => let s2 := s.back s1; { s2 with me := s2.me.setPix vd n }
      | none => s
    else s
  | none, some (t, fl, rows) =>
    let n := s.me.pixOf t + 1
    if s.me.runs fl && decide (n < rows) && s.comesTo i (fun h => decide (n ≤ h.pixOf t)) then
      let cut := match i with
        | .opag .. => s
        | _ => s.withRows t n
      match s.cleanly (exec (shorter n i) cut) with
      | some s1 => let s2 := s.back s1; { s2 with me := s2.me.setPixT t n }
      | none => s
    else s
  | none, none => s

end Sys2Proof.Machine
end

