-- ==== Sys2Proof/Machine/Fetch.lean ====
section
/-! DEFINITION. What a step runs: the word that a hart, a vector block, a row program or a bank expression stands at (R89,
R103, R227, R238), and what can move when nothing is on the agenda (log entry 14). -/

namespace Sys2Proof.Machine

/-- What a move comes to: an instruction to be executed at a state, or a state, the move being over. -/
inductive Move where
  | run (i : Instr) (s : State)
  | pass (s : State)
  deriving DecidableEq, Repr

/-! ### A hart (R89, R295, R301) -/

/-- The focused hart at its instruction boundary: a held trap record is tried again, a pending fault is delivered, or the
word at the program counter runs. -/
def State.hartMove (s : State) : Move :=
  if !s.me.alive || s.moving s.focusCtx then .pass s
  else
    match s.me.entry with
    | some (t, tepc) => .pass (s.enterHandler t tepc false)
    | none =>
      if s.faultDue then .pass s.finishWait.deliver
      else
        match fetchWord s with
        | .ok w s1 =>
          match decodeScalar w with
          | .ok i => .run i s1
          | .error _ => .run (.illegal w) s1
        | .error e s1 => .pass (s1.word (stop e))

/-- The focus on hart h of team t, if that team runs and has the hart. -/
def State.atHart (s : State) (t h : Nat) : Option State :=
  if (s.runningTeam t).isSome then
    let s1 := s.focus t h
    if s1.live ∧ s1.team.no = t ∧ s1.me.idx = h then some s1 else none
  else none

/-! ### A vector block (R204, R206) -/

/-- The word at which the focused hart's block stands. -/
def State.blockMove (s : State) : Move :=
  match s.me.blk with
  | some b =>
    if b.suspended then .pass s
    else
      match b.words[b.idx]? with
      | some w =>
        match decodeVector w with
        | .ok i => .run i s
        | .error _ => .pass s
      | none => .pass s
  | none => .pass s

/-- The word of the block up to its next progress point (R86). -/
def State.groupMove (s : State) : Move :=
  match s.blockMove with
  | .run i s1 => .pass (s1.toPoint i)
  | .pass s1 => .pass s1

/-! ### Row programs and bank expressions -/

/-- Put a wave of a command at the head of the CP's list. -/
def State.headRun (s : State) (cid lo : Nat) : State :=
  let mine (r : Run) : Bool := r.cid == cid && r.lo == lo
  { s with runs := s.runs.filter mine ++ s.runs.filter (!mine ·) }

def State.headExpr (s : State) (cid : Nat) : State :=
  { s with exprs := s.exprs.filter (·.cid == cid) ++ s.exprs.filter (·.cid != cid) }

/-- The word at which a wave of a row program stands; one that has halted tries again to end (R230). -/
def State.rowMove (s : State) (cid lo : Nat) : Move :=
  let s1 := s.headRun cid lo
  match s1.runs with
  | r :: _ =>
    if r.cid != cid || r.lo != lo || !r.live || r.lo == r.hi then .pass s
    else if r.halted then .pass (s1.closeWave r)
    else
      match r.words[r.pc]? with
      | some w =>
        match decodeRow w with
        | .ok i => .run i s1
        | .error _ => .pass s
      | none => .pass s
  | [] => .pass s

/-- The operator at which a bank expression stands; one whose elements are done tries again to write its record. -/
def State.bankMove (s : State) (cid : Nat) : Move :=
  let s1 := s.headExpr cid
  match s1.exprs with
  | r :: _ =>
    if r.cid != cid then .pass s
    else if r.ended then .pass (s1.closeExpr r)
    else if !r.live then .pass s
    else
      match decodeExpr r.rest with
      | .ok (i, _) => .run i s1
      | .error _ => .pass s
  | [] => .pass s

/-- Events that a device in reset takes: a start, the alarm and the mailbox (R319, R325, R326). -/
def inReset : Instr → Bool
  | .start _ | .alarm _ | .report | .clear | .recover _ | .reset | .provision _ | .writefw _ | .done => true
  | _ => false

/-- Events that a halted device takes too: nothing runs, but its memory and registers are reached (R319; log entry 59). -/
def inHalt : Instr → Bool
  | .alarmcfgWrite _ | .registerWrite _ _ | .hostMemAccess _ _ | .fabricRequest _ _ _ | .ptinvPage _ | .ptinvAsid | .ptinvAll
  | .attestationReport _ => true
  | i => inReset i

/-- Whether an event acts on the device as it stands. Before a start the boot ROM has opened no port (R20): then too only the events of a
device in reset act (log entry 59). -/
def State.admitsEvent (s : State) (i : Instr) : Bool :=
  if s.boot.husk || s.boot.recovering || !s.boot.ready then inReset i else !s.halted || inHalt i

/-- What an input of the agenda comes to; units move only where the device runs. -/
def State.moveOf (s : State) (x : Input) : Move :=
  match x with
  | .event i => if s.admitsEvent i then .run i s else .pass s
  | .hart t h =>
    match s.atHart t h with
    | some s1 => if s.asleep then .pass s else s1.hartMove
    | none => .pass s
  | .block t h =>
    match s.atHart t h with
    | some s1 => if s.asleep then .pass s else s1.blockMove
    | none => .pass s
  | .group t h =>
    match s.atHart t h with
    | some s1 => if s.asleep then .pass s else s1.groupMove
    | none => .pass s
  | .row cid lo => if s.asleep then .pass s else s.rowMove cid lo
  | .bank cid => if s.asleep then .pass s else s.bankMove cid
  | .sideLogs => .pass (if s.asleep then s else s.replaySide)
  | .queues => .pass (if s.asleep then s else s.kickAll.evictSome)
  | .seek core => .pass (if s.asleep then s else s.seekAll [core])

/-! ### What can move by itself -/

/-- Harts of running teams and their blocks. -/
def State.hartMoves (s : State) : List Input :=
  (s.teams.filter (·.place == .running)).flatMap fun c =>
    (c.harts.filter (·.alive)).flatMap fun h =>
      Input.hart c.team.no h.idx :: if h.inFlight then [.group c.team.no h.idx, .block c.team.no h.idx] else []

/-- Commands that may start or are complete. -/
def State.cmdMoves (s : State) : List Input :=
  s.cmds.filterMap fun c =>
    if c.finished then some (.event (.engineComplete c.cid))
    else if c.started then none
    else some (.event (
      if c.kind = kCPY then .copyStart c.cid
      else if c.kind = kGTHR then .gatherStart c.cid
      else if c.kind = kSCTR then .scatterStart c.cid
      else if c.kind = kRPL then .rowProgramStart c.cid
      else .bxlStart c.cid))

/-- Row programs and waves still to be admitted, bank expressions, accumulator adds, side logs and front ends. -/
def State.unitMoves (s : State) : List Input :=
  ((s.runs.filter (·.live)).map fun r => if r.rest then .event (.waveAdmit r.cid) else .row r.cid r.lo)
    ++ ((s.exprs.filter fun r => r.live || r.ended).map fun r => .bank r.cid)
    ++ ((List.range s.adds.length).map fun k => .event (.saaddApply k))
    ++ (if s.side.isEmpty then [] else [.sideLogs])
    ++ (if s.queues.isEmpty && s.launches.isEmpty && s.under.isEmpty then [] else [.queues])

/-- Acorns that the watchers push or that find room, forks that end, and teams whose waits are over. -/
def State.acornMoves (s : State) : List Input :=
  ((s.watch.zipIdx.filter fun x => s.readyAcorn x.1).map fun x => .event (.watcherPush x.2))
    ++ ((List.range s.held.length).map fun k => .event (.heldAcornPlace k))
    ++ ((s.forks.filter fun f => !f.pushed && s.forkEnded f).map fun f => .event (.forkContinuation f.handle))
    ++ ((s.parked.filter (·.place == .swapped)).map fun c => .event (.teamRequeue c.team.no))

/-- Whether work waits for a core. -/
def State.workWaits (s : State) : Bool :=
  s.cores.any (fun c => !c.2.deque.isEmpty) || s.parked.any (·.place == .ready) || !s.held.isEmpty || s.watch.any s.readyAcorn

/-- Idle cores that take work or steal it (R59, R60). -/
def State.idleMoves (s : State) : List Input :=
  (List.range 256).flatMap fun k =>
    if (s.runningOn k).isSome || !s.coreServes k then []
    else
      match bestPick s k (s.candidates k) with
      | some (p, _) => match s.victim p with
        | some v => [.event (.dequeSteal k v)]
        | none => [.seek k]
      | none => []

/-- Idle cores, teams that waiting work or a gang pre-empts or that make room for it, and teams of offline towers. -/
def State.coreMoves (s : State) : List Input :=
  let running := s.teams.filter (·.place == .running)
  (if !s.workWaits then []
   else s.idleMoves ++ running.flatMap fun c => [.event (.preempt c.team.core), .event (.teamSwapOut c.team.no)])
    ++ ((running.filter fun c => s.gangHeld c.team.core || (s.towerAt (towerOfCore c.team.core)).offline).map fun c =>
      .event (.preempt c.team.core))

/-- Queues held by a WAIT packet, periods, budgets and graces that are due, and launches to be placed. -/
def State.queueMoves (s : State) : List Input :=
  ((s.queues.filter (·.2.blockedOn.isSome)).map fun q => .event (.packetWaitDone q.1))
    ++ ((s.queues.filter fun q => q.2.nextStart.any fun t => decide (t ≤ s.time)).map fun q => .event (.periodStart q.1))
    ++ ((s.queues.filter fun q => (s.overrunAt q.1).any fun t => decide (t ≤ s.time)).map fun q => .event (.budgetOverrun q.1))
    ++ ((s.queues.filter fun q => q.2.slice == .waiting && decide (q.2.graceEnd ≤ s.time)).map fun q => .event (.gangSkew q.1))
    ++ ((s.launches.filter fun l => !l.placed && !l.complete && s.depsDone l).map fun l => .event (.launchReady l.id))

/-- Rail moves, restored accumulators, quotas and POWERMODE. -/
def State.otherMoves (s : State) : List Input :=
  ((s.clusters.filter (·.2.target.isSome)).map fun c => .event (.railSwitchDone c.1))
    ++ (s.launches.flatMap fun l => (l.saOut.filter (s.canRestore l)).map fun c => .event (.saRestore l.id c))
    ++ ((s.cores.filter fun c => c.2.matrix ≠ 0 || c.2.cap ≠ 0).map fun c => .event (.matrixWindow c.1))
    ++ (if s.pmPending && !s.overCap s.mode then [.event .pendingClear] else [])

/-- What can move when the agenda is empty: start-up until the device is ready, then everything that is under way. -/
def State.moves (s : State) : List Input :=
  if s.boot.ready then
    s.hartMoves ++ s.cmdMoves ++ s.unitMoves ++ s.acornMoves ++ s.coreMoves ++ s.queueMoves ++ s.otherMoves
  else [.event (.start { fail := none, retired := [], narrowed := [] })]

/-- The next of the possible moves, each in its turn. -/
def State.nextMove (s : State) : Option Input :=
  match s.moves with
  | [] => none
  | ms => ms[s.turn % ms.length]?

/-! ### A place for one word (log entry 1) -/

/-- A leaf that maps a page of a tower for every access, its A bit set for core 0 (R145). -/
def leafWord (frame : Nat) : Word := BitVec.ofNat 64 (frame * 65536 + 0x100 + 0x1F)

/-- The page of va, made to translate to a frame of its tower by a TLB entry whose page-table entry lies at a slot. -/
def State.mapFor (s : State) (asid : BitVec 16) (va : Word) (frame slot : Nat) : State :=
  { s with
    tlb := { asid := asid, tower := towerOf va, base := offsetOf va / 65536 * 65536, lg := 16,
             slot := dramKey (towerOf va) slot, pte := leafWord frame } :: s.tlb }

/-- A one-hart team at the focus, running on core 0. -/
def State.withTeam (s : State) : State :=
  { s with live := true, me := { s.me with alive := true }, boot := { s.boot with ready := true } }

/-- Whether a translation gives a byte of this device or the pool. -/
def Xl.found : Xl → Bool
  | .at_ _ _ _ => true
  | _ => false

/-- The page of the focused hart's program counter mapped, unless it is already. -/
def State.mapPc (s : State) : State :=
  if (s.xlate s.team.asid .fetch s.me.pc).found then s else s.mapFor s.team.asid s.me.pc 0 0x100000

/-- Bytes placed at the focused hart's program counter, of which no cache holds an older copy. -/
def State.placeCode (s : State) (bs : List Byte) : State :=
  match s.xlate s.team.asid .fetch s.me.pc with
  | .at_ k _ _ =>
    let pc := s.me.pc.toNat
    { s.dropCode (fun _ => true) s.team.asid pc (pc + bs.length) with
      mem := Memory.writeBytes s.mem k bs, agenda := .hart s.team.no s.me.idx :: s.agenda }
  | _ => s

/-- The focused hart waits for nothing and has no fault to deliver. -/
def State.withRest (s : State) : State :=
  { s with me := { s.me with wait := none, pending := [], entry := none } }

/-- Bytes of code at the focused hart's program counter, its hart next to move. -/
def State.withCode (s : State) (bs : List Byte) : State := s.withTeam.withRest.mapPc.placeCode bs

/-- A vector block of the focused hart that holds one word and its VSTOP. -/
def State.withBlock (s : State) (w : BitVec 64) : State :=
  let s1 := s.withTeam
  let b : Block :=
    { addr := s1.me.pc, words := [w, 0x0100000000000000#64], idx := 0, levels := [], index := [], bases := [0, 0, 0, 0],
      vtype := s1.me.vtype, vl := s1.me.vl, frm := bits s1.me.fcsr 0 3, suspended := false, wait := none, answers := [], word := 0 }
  { s1 with me := { s1.me with blk := some b }, agenda := .block s1.team.no s1.me.idx :: s1.agenda }

/-- A command of the focused hart, with a number of its own. -/
def State.withCmd (s : State) (kind : Nat) (args : List Word) : State :=
  let s1 := s.withTeam
  { s1.issue 0 kind 0 args with boot := { s1.boot with ready := true } }

/-- A row program of one member that stands at a word. -/
def State.withRowWord (s : State) (w : BitVec 32) : State :=
  let cid := s.nextCmd
  let s1 := (s.withCmd kRPL [0, 0, 0, 0]).onCmd cid fun c => { c with accepted := true, started := true }
  let r : Run :=
    { cid := cid, order := 0, tower := 0, coords := [0], subs := [0], words := [w, 0], args := List.replicate 7 0, wcount := 1,
      tx := false, chk := false, flushed := [], reads := [], writes := [], live := true, lo := 0, hi := 1, pc := 0,
      bases := List.replicate 7 0, loops := [], stale := [], shadow := [], checked := [], bad := [], atStep := false,
      halted := false }
  { s1 with runs := r :: s1.runs, agenda := .row cid 0 :: s1.agenda }

/-- A bank expression of one element that stands at an operator. -/
def State.withOperator (s : State) (bs : List Byte) : State :=
  let cid := s.nextCmd
  let s1 := (s.withCmd kBXL [0, 0, 0, 1, 0, 0]).onCmd cid fun c => { c with accepted := true, started := true }
  let r : ExprRun :=
    { cid := cid, order := 0, tower := 0, ops := bs ++ [0x14], consts := [0, 0, 0, 0], aMap := [(0, 0)], bMap := [], reads := [],
      writes := [], live := true, rest := bs ++ [0x14], elem := 0, stack := [0, 0, 0], terms := [], acc := none, accs := [],
      flags := 0, ue := 0, ce := 0, firstUe := 0, out := [], ended := false }
  { s1 with exprs := r :: s1.exprs, agenda := .bank cid :: s1.agenda }

/-- The bytes of an operator of the table, as the record holds them (log entry 7). -/
def operatorBytes (nbits w : Nat) : List Byte :=
  if nbits = 8 then bytesLE 1 w
  else if (decodeExprExact (bytesLE 2 w)).isSome then bytesLE 2 w
  else (bytesLE 2 w).reverse

/-- A word of the table put where the unit that runs words of its kind stands: a scalar word at the program counter, a
vector word in a block, a row word in a row program, an operator in an expression. -/
def State.withWord (s : State) (nbits w : Nat) : State :=
  match nbits with
  | 64 => s.withBlock (BitVec.ofNat 64 w)
  | 32 =>
    let x := BitVec.ofNat 32 w
    match decodeScalar x, decodeRow x with
    | .error _, .ok _ => s.withRowWord x
    | _, _ => s.withCode (bytesLE 4 w)
  | _ => s.withOperator (operatorBytes nbits w)

end Sys2Proof.Machine
end

