-- ==== Sys2Proof/Machine/Step.lean ====
section
/-! DEFINITION. One step of the device: the input at the head of the agenda moves; with an empty agenda the units move
each in its turn (log entry 14). -/

namespace Sys2Proof.Machine

/-- Execute what a move comes to. -/
def Move.go : Move → Host.Outcome State Fault Refusal
  | .run i s => exec i s
  | .pass s => .next s

/-- One step. -/
def step (s : State) : Host.Outcome State Fault Refusal :=
  match s.agenda with
  | x :: rest => (State.moveOf { s with agenda := rest } x).go
  | [] =>
    if s.still then .fault .stopped
    else
      match s.nextMove with
      | some x => (State.moveOf { s with turn := s.turn + 1 } x).go
      | none => .next s

/-- s with one word of the opcode table where the next step runs it (log entry 1). -/
def State.withFetchWord (s : State) (nbits w : Nat) : State := s.withWord nbits w

end Sys2Proof.Machine
end

