-- ==== Sys2Proof/Safety.lean ====
section
/-! DEFINITION. What counts as a good run: what the claims say of states and of steps. -/

namespace Sys2Proof

open Sys2Proof.Machine

/-- The memory of a state is in its canonical form. -/
def MemoryOk (s : State) : Prop := Memory.wf s.mem = true

/-- A step that goes on keeps a property. -/
def StepKeeps (P : State → Prop) : Prop := ∀ s s', P s → step s = .next s' → P s'

/-- Decoding what an instruction encodes to gives it back: as a scalar, a vector or a row-program word, and as the
operator at the head of a byte stream. -/
def RoundTrips (i : Instr) : Prop :=
  i.wf = true →
    (∀ w, encodeScalar i = some w → decodeScalar w = .ok i) ∧
    (∀ w, encodeVector i = some w → decodeVector w = .ok i) ∧
    (∀ w, encodeRow i = some w → decodeRow w = .ok i) ∧
    (∀ bs rest, encodeExpr i = some bs → decodeExpr (bs ++ rest) = .ok (i, rest))

/-- k steps go on, with neither a fault nor a refusal. -/
def GoesOn : Nat → State → Prop
  | 0, _ => True
  | k + 1, s => ∃ s', step s = .next s' ∧ GoesOn k s'

/-- A scalar word that goes on: register d holds v (a write to x0 is discarded, R8), every other register and the rest of
the device, memory and flags among it, stand, and the program counter has moved past the word. -/
def Writes (s t : State) (d : Reg) (v : Word) : Prop :=
  (∀ r, t.x r = if r = d ∧ d ≠ 0 then v else s.x r) ∧
  t = { s with me := { s.me with x := t.me.x, pc := s.me.pc + 4 } }

/-- The instruction goes on and does only that. -/
def Computes (i : Instr) (s : State) (d : Reg) (v : Word) : Prop := ∃ t, exec i s = .next t ∧ Writes s t d v

/-- The same for a word that may have been held before: its wait and the pager's answers are gone too. -/
def WritesHeld (s t : State) (d : Reg) (v : Word) : Prop :=
  (∀ r, t.x r = if r = d ∧ d ≠ 0 then v else s.x r) ∧
  t = { s with me := { s.me with x := t.me.x, pc := s.me.pc + 4, wait := none, answers := [] } }

/-- A hart that ends: it is no longer live and waits for nothing, its registers are undefined from then on, and what the
device keeps for its commands, its block and its traps stands (R65). -/
def HartGone (h g : Hart) : Prop :=
  g = { h with alive := false, wait := none, blk := none, replay := none, answers := [], x := g.x, v := g.v, m := g.m, stk := g.stk,
               vtype := g.vtype, vl := g.vl, fcsr := g.fcsr, sperr := g.sperr, lqOvf := g.lqOvf, lqUnd := g.lqUnd,
               depth := g.depth, lskew := g.lskew, tepc := g.tepc, tcause := g.tcause, tval := g.tval, tstat := g.tstat,
               lq := [], unf := none, pixV := g.pixV, pixT := g.pixT }

/-- Ending the world of a rival leaves the tasks of world w alone: w is neither that world nor one below it (R267). -/
def Apart (s : State) (w : Nat) (r : Rival) : Prop := r.wid ≠ w ∧ w ∉ s.below r.wid

/-- A word whose whole effect is to move past itself. -/
def Passed (s : State) : State := { s with me := { s.me with pc := s.me.pc + 4, wait := none, answers := [] } }

/-- An access of n bytes at va by the focused hart that neither a side log nor a row command holds: an ordinary address
whose translation exists and allows the access; its mark is held no more than its bytes. k is where the bytes lie, in a line that begins at a
key (pages do), cls the class of the page and e its translation
(R131, R145, R149, R150, R183, R234, R259). -/
structure Mapped (s : State) (a : Acc) (va : Word) (n k cls : Nat) (e : TlbEntry) : Prop where
  noSide : s.side = []
  ordinary : isWindow va = false
  oneRange : isWindow (va + BitVec.ofNat 64 (n - 1)) = false
  line : va.toNat % 64 ≤ k
  found : s.xlate s.team.asid a va = .at_ k cls e
  inView : a.wr = true → s.team.world ≠ 0 → cls ≠ 2
  free : s.accessHeld k n e (some s.team.core) a.wr = false

/-- The same of a scalar word, with no block in flight (R204). -/
structure Reaches (s : State) (a : Acc) (va : Word) (n k cls : Nat) (e : TlbEntry) : Prop extends Mapped s a va n k cls e where
  noBlock : s.me.blk = none

/-- The mark of an access by an agent changes nothing: the entry is in the TLB with the marks already, and an agent that is a core finds
it owned (R141, R145). -/
def NoMark (s : State) (e : TlbEntry) (agent : Option Nat) (wr : Bool) : Prop :=
  e ∈ s.tlb ∧ pteMark e.pte agent wr (s.ownedPage e) = e.pte ∧ (agent ≠ none → e.slot ∉ s.unowned)

/-- s after the focused hart has read n bytes from key k at the point of coherence, through entry e: the entry is marked (R145), and pool
writes of other teams that it observes there have reached the pool (R161, R169). -/
def Seen (s : State) (e : TlbEntry) (k n : Nat) : State :=
  (s.markPage e (some s.team.core) false).poolSeen k n s.coreWrote

/-- s after an acquire of the focused hart at a scope (R168): above core scope the shared lines of its core's L1 are gone, at fabric scope
its pool lines too. -/
def Acquired (s : State) (sc : Scope) : State :=
  if sc = .core then s
  else
    let kept (l : L1Line) : Bool := decide (l.core ≠ s.team.core ∨ l.kind = .own ∨ (l.kind = .pool ∧ sc ≠ .fabric))
    { s with l1 := s.l1.filter kept }

/-- A line of the L1 of the focused hart's core that a load of its address space may find for the line of key k (R139, R143). -/
def Copied (s : State) (k : Nat) (l : L1Line) : Prop :=
  l ∈ s.l1 ∧ l.core = s.team.core ∧ l.asid = s.team.asid ∧ l.key = k ∧ s.serves l.world s.team.world = true

/-- No copy of a line in the L1 of the focused hart's core is older than what the point of coherence has. -/
def NoOlder (s : State) : Prop := ∀ k, s.l1Older s.team.core s.team.world s.team.asid k = []

/-- The block of the focused hart suspended where it stands (R207, R412). -/
def BlockSuspended (s : State) : State :=
  { s with me := { s.me with blk := s.me.blk.map fun b => { b with suspended := true } } }

/-- The n bytes from key k hold nothing uncorrectable in the view of the focused hart (R297). -/
def Clean (s : State) (k n : Nat) : Prop := ∀ i, i < n → s.byteBad s.team.world (k + i) = false

/-- A version of every line of the n bytes from key k can be placed (R272). -/
def Placeable (s : State) (k n : Nat) : Prop := ∀ i, i < n → s.placeable s.team.world (k + i) = true

/-- Nothing holds or fails a release of the focused hart: no block, no side-log entry, and at fabric scope no write that
the pool refused (R161, R169). -/
structure ReleaseFree (s : State) (sc : Scope) : Prop where
  noBlock : s.me.blk = none
  noSide : s.side = []
  poolOk : sc = .fabric → s.me.poolRefused = none

/-- A command that the focused hart issues in a context: the next number of the context goes to xd, the command is
outstanding with its arguments, and nothing else changes (R175). -/
def Issues (i : Instr) (s : State) (d : Reg) (c : BitVec 3) (kind : Nat) (args : List Word) : Prop :=
  ∃ t cmd, exec i s = .next t ∧ t.cmds = s.cmds ++ [cmd] ∧ cmd.cid = s.nextCmd ∧ cmd.kind = kind ∧ cmd.args = args ∧
    cmd.team = s.team.no ∧ cmd.hart = s.me.idx ∧ cmd.ctx = c.toNat ∧ cmd.world = s.team.world ∧
    cmd.seq = (s.me.ctxs[c.toNat]'c.isLt).seq + 1 ∧ cmd.started = false ∧ cmd.finished = false ∧
    (∀ r, t.x r = if r = d ∧ d ≠ 0 then BitVec.ofNat 64 cmd.seq else s.x r) ∧
    t = { s with cmds := t.cmds, nextCmd := s.nextCmd + 1, me := t.me } ∧
    t.me = { s.me with x := t.me.x, pc := s.me.pc + 4, wait := none, answers := [], ctxs := t.me.ctxs } ∧
    t.me.ctxs = s.me.ctxs.set c.toNat { (s.me.ctxs[c.toNat]'c.isLt) with seq := cmd.seq } c.isLt

/-- The team holds the contents of physical tile p on its core: a touch moves nothing (R85, R211). -/
def TileHere (s : State) (p : Nat) : Prop :=
  (s.tileAt p).owner = some s.team.no ∧ s.team.inSlot[p % 8]? = some false

/-- What R298 does at the focused hart, whose team is not versioned and has no record area: the saved pc, cause, value
and status, and the pc at the handler. -/
def Entered (s t : State) (code : Nat) (v resume : Word) : Prop :=
  t = { s with me := { s.me with tepc := resume, tcause := BitVec.ofNat 64 code, tval := v, tstat := t.me.tstat,
                                 pc := s.team.tvec, wait := none, entry := none, answers := [] } } ∧
  (∀ k, k < 64 → t.me.tstat.getLsbD k = if k = 0 then true
    else if k = 1 then s.me.blk.any (·.suspended)
    else if k = 2 ∨ k = 3 ∨ k = 4 then false
    else s.me.tstat.getLsbD k)

/-- What an atomic with code op writes over an old n-bit value: the operand v, or the old value with it, and for a
compare-and-swap nothing unless the old value is the expected one (R334). -/
def AtomicWrites (op : BitVec 5) (n old v e : Nat) (new : Option Nat) : Prop :=
  let sg (x : Nat) : Int := (BitVec.ofNat n x).toInt
  (op = 0 → new = some v) ∧ (op = 1 → new = some ((old + v) % 2 ^ n)) ∧ (op = 2 → new = some (old &&& v)) ∧
  (op = 3 → new = some (old ||| v)) ∧ (op = 4 → new = some (old ^^^ v)) ∧
  (op = 5 → new = some (if sg v < sg old then v else old)) ∧ (op = 6 → new = some (if sg old < sg v then v else old)) ∧
  (op = 7 → new = some (Nat.min old v)) ∧ (op = 8 → new = some (Nat.max old v)) ∧
  (op = 16 → new = if old = e then some v else none)

/-- The word of an atomic by its code (R97). -/
def amoInstr (op : BitVec 5) (d a b : Reg) (sc : Scope) (o : AmoOrder) (w : Bool) : Option Instr :=
  match op with
  | 0 => some (.amoswap d a b sc o w) | 1 => some (.amoadd d a b sc o w) | 2 => some (.amoand d a b sc o w)
  | 3 => some (.amoor d a b sc o w) | 4 => some (.amoxor d a b sc o w) | 5 => some (.amomin d a b sc o w)
  | 6 => some (.amomax d a b sc o w) | 7 => some (.amominu d a b sc o w) | 8 => some (.amomaxu d a b sc o w)
  | 16 => some (.amocas d a b sc o w) | _ => none

/-- The block of the focused hart past n + 1 words. -/
def PastWords (h : Hart) (n : Nat) : Option Block :=
  h.blk.map fun b => { b with idx := b.idx + 1 + n, wait := none, answers := [] }

/-- A vector word of width override and FL q on the named groups runs under the legal VTYPE that its block captured,
finds the element type t and passes the checks of R101 and R192. -/
structure WordRuns (s : State) (q : VMod) (t : ETy) (groups : List Reg) : Prop where
  runs : s.me.runs q.fl = true
  vtype : vtypeLegal s.me.vt = true
  type : t = etyOf (vtWith s.me.vt q.width)
  legal : typeOk t.fmt (vtW (vtWith s.me.vt q.width)) t.p = true
  aligned : ∀ r, r ∈ groups → r.val % groupOf s.me.vt = 0
  fits : s.me.vlNow * t.w ≤ 8 * groupOf s.me.vt * s.vlen

/-- Element i of a word with mask m that starts at element k is written: it is active and below VL (R191, R206). -/
def Touches (s : State) (m : BitVec 3) (k i : Nat) : Bool :=
  decide (k ≤ i) && decide (i < s.me.vlNow) && (s.me.mask m).getLsbD i

/-- A vector word that writes elements of w bits of the group at vd, raises flags and moves past itself: an element that
the word touches is val of its index, every other element of the register file (counted from vd, which the file wraps)
and the rest of the device stand (R191, R39, R415). -/
def SetsElements (s t : State) (vd : Reg) (w : Nat) (touched : Nat → Bool) (val : Nat → Nat) (fl : Flags) : Prop :=
  t = { s with me := { s.me with v := t.me.v, vmark := t.me.vmark, pixV := t.me.pixV,
                                 fcsr := s.me.fcsr ||| (fl.zeroExtend 64 <<< 8), blk := PastWords s.me 0 } } ∧
  (∀ r, r.val < 32 → t.me.pixV[r.val]? = if r = vd then some 0 else s.me.pixV[r.val]?) ∧
  ∀ i, i * w < 32 * (8 * s.vlen) →
    t.me.elem s.vlen vd.val w i = if touched i then val i else s.me.elem s.vlen vd.val w i

/-- A word that moves elements and makes no other change than moving past itself (R203, R430). -/
def MovesElements (s t : State) (vd : Reg) (w : Nat) (touched : Nat → Bool) (val : Nat → Nat) : Prop :=
  t = { s with me := { s.me with v := t.me.v, vmark := t.me.vmark, blk := PastWords s.me 0 } } ∧
  ∀ i, i * w < 32 * (8 * s.vlen) →
    t.me.elem s.vlen vd.val w i = if touched i then val i else s.me.elem s.vlen vd.val w i

/-- A comparison into mask register md: a bit of an active element below VL is the outcome, one of another element below
VL stands, and a bit from VL up is 0 (R196, R415). -/
def SetsMask (s t : State) (md : Reg) (m : BitVec 3) (holds : Nat → Bool) : Prop :=
  t = { s with me := { s.me with m := t.me.m, mmark := t.me.mmark, blk := PastWords s.me 0 } } ∧
  (∀ r, r < 8 → r ≠ md.val → t.me.m[r]? = s.me.m[r]?) ∧
  ∀ old new, s.me.m[md.val]? = some old → t.me.m[md.val]? = some new → ∀ k, k < 12288 →
    new.getLsbD k = (decide (k < s.me.vlNow) && if (s.me.mask m).getLsbD k then holds k else old.getLsbD k)

/-- The union of the flags that the elements below VL which a word touches raise. -/
def flagsOver (s : State) (touched : Nat → Bool) (fl : Nat → Flags) : Flags :=
  ((List.range s.me.vlNow).filter touched).foldl (fun acc i => acc ||| fl i) 0

/-- The word at which the block stands takes trap c with a value: it has no effect, the fault is pending and the block suspended (R207,
R301). -/
def WordFaults (i : Instr) (s : State) (c : Nat) (v : Word) : Prop := exec i s = .next { s with me := { s.me with
  pending := s.me.pending ++ [8], blkFault := some { Trap.of c v with src := .block s.me.wordAddr },
  blk := s.me.blk.map fun b => { b with suspended := true, wait := none, answers := [] } } }

/-- What a word that is complete in u leaves when it traps t after it: the fault is pending and the block suspended
(R207, R301). -/
def Suspends (s u : State) (t : Trap) : State :=
  { u with me := { u.me with blkFault := some { t with src := .block s.me.wordAddr }, pending := u.me.pending ++ [8],
                             blk := u.me.blk.map fun b => { b with suspended := true } } }

/-- What a word that is complete in u and has raised the flags fl leaves: with an enabled flag among them it traps FP, and
TVAL names those that are enabled (R40). -/
def FpEnds (s u : State) (fl : Flags) : State :=
  let e := fl &&& s.me.fcsr.extractLsb' 16 6
  if e = 0 then u else Suspends s u (.of 0x0A (e.zeroExtend 64))

/-- A tile word that leaves physical tile p of the core, dirty, with f r c as element (r, c), and nothing else changed but
the progress of the tile name, the flags, the quota of the core and the block's place. -/
def SetsTile (s u : State) (p : Nat) (f : Nat → Nat → Nat) : Prop :=
  u = { s with cores := u.cores, me := u.me } ∧
  u.me = { s.me with pixT := u.me.pixT, fcsr := u.me.fcsr, blk := PastWords s.me 0 } ∧
  (∀ c, c ≠ s.team.core → u.coreAt c = s.coreAt c) ∧
  u.coreAt s.team.core = { s.coreAt s.team.core with
    tiles := (u.coreAt s.team.core).tiles, matrix := (u.coreAt s.team.core).matrix } ∧
  (∀ q, q % 8 ≠ p % 8 → u.tileAt q = s.tileAt q) ∧
  (u.tileAt p).owner = some s.team.no ∧ (u.tileAt p).dirty = true ∧
  ∀ r c, r < 16 → c < 16 → tileElem (u.tileAt p).data r c = f r c

/-- The wave at the head of the list is under way: no other wave is the same, and none of its banks has a refresh to wait
for at a step boundary (R229, R230). -/
structure RowsRun (s : State) (r : Run) (rest : List Run) : Prop where
  head : s.runs = r :: rest
  alone : ∀ x, x ∈ rest → x.cid ≠ r.cid ∨ x.lo ≠ r.lo
  live : r.live = true
  wave : r.lo < r.hi
  going : r.halted = false
  fresh : r.atStep = true → ∀ m, m ∈ r.wave → m / 128 ∉ s.refreshes

/-- A row of member m as program r sees it: its shadow row, the cells of a data row, or a compute row. -/
def rowSeen (s : State) (r : Run) (m : Nat) : RowRef → Row
  | .comp n => s.compRow m n
  | .data j off =>
    let row := r.bases.getD j.val 0 + off.toNat
    ((r.shadow.find? fun x => x.1 == m && x.2.1 == row).map (·.2.2)).getD
      (BitVec.ofNat 8192 (leVal (s.dramBytes (rowKey m row) 1024)))

/-- The place of a row of a member: c3 is c2 inverted. -/
def rowPlace (r : Run) : RowRef → Bool × Nat
  | .comp n => (true, if n = 3 then 2 else n.val)
  | .data j off => (false, r.bases.getD j.val 0 + off.toNat)

/-- Whether an operand names a row of a member (R108). -/
def rowThere (r : Run) : RowRef → Prop
  | .comp _ => True
  | .data j off => r.bases.getD j.val 0 + off.toNat < 1024

/-- n bytes at va that an engine reaches from key k without waiting and without a mark to set: ordinary memory of this
device inside one page, in a page whose translation the tower holds, in no row and no bank that a row command holds (R131, R144,
R183, R234, R440). -/
structure EngineMapped (s : State) (c : Cmd) (a : Acc) (va : Word) (n k : Nat) : Prop where
  own : isOwn va = true ∧ isOwn (va + BitVec.ofNat 64 (n - 1)) = true
  onePage : va.toNat % 65536 + n ≤ 65536
  found : ∃ cls e, s.xlate c.asid a va = .at_ k cls e ∧ cls ≠ 2 ∧ NoMark s e none a.wr
  free : s.rowHeld k n a.wr = false

/-- The low 32 bits of a register. -/
def lo32 (x : Word) : BitVec 32 := x.setWidth 32

end Sys2Proof
end

