-- ==== Sys2Proof/Certificates/Slice0/Obligations.lean ====
section
/-! DEFINITION. The statements for the provers. Each docstring names the rules of the manual that its statement formalises;
a value or an order that the model chose is named there with its log entry. -/

open Sys2Proof Sys2Proof.Machine

/-! ### Scalar words -/

/-- R331, R8: the ALU words without W compute the exact result of their operands, reduced to 64 bits, and write nothing
else. -/
def Obligations.AluWordsGiveTheExactResult : Prop := ∀ (s : State) (d a b : Reg),
  let x := s.x a
  let y := s.x b
  Computes (.add d a b) s d (BitVec.ofInt 64 (x.toInt + y.toInt)) ∧
  Computes (.sub d a b) s d (BitVec.ofInt 64 (x.toInt - y.toInt)) ∧
  Computes (.and d a b) s d (x &&& y) ∧ Computes (.or d a b) s d (x ||| y) ∧ Computes (.xor d a b) s d (x ^^^ y) ∧
  Computes (.sll d a b) s d (BitVec.ofNat 64 (x.toNat * 2 ^ (y.toNat % 64))) ∧
  Computes (.srl d a b) s d (BitVec.ofNat 64 (x.toNat / 2 ^ (y.toNat % 64))) ∧
  Computes (.sra d a b) s d (BitVec.ofInt 64 (x.toInt / 2 ^ (y.toNat % 64))) ∧
  Computes (.slt d a b) s d (if x.toInt < y.toInt then 1 else 0) ∧
  Computes (.sltu d a b) s d (if x.toNat < y.toNat then 1 else 0) ∧
  Computes (.min d a b) s d (if x.toInt < y.toInt then x else y) ∧
  Computes (.max d a b) s d (if x.toInt < y.toInt then y else x) ∧
  Computes (.minu d a b) s d (if x.toNat < y.toNat then x else y) ∧
  Computes (.maxu d a b) s d (if x.toNat < y.toNat then y else x) ∧
  Computes (.mul d a b) s d (BitVec.ofInt 64 (x.toInt * y.toInt)) ∧
  Computes (.mulh d a b) s d (BitVec.ofInt 64 (x.toInt * y.toInt / 2 ^ 64)) ∧
  Computes (.mulhu d a b) s d (BitVec.ofNat 64 (x.toNat * y.toNat / 2 ^ 64))

/-- R331: the W forms compute on the low 32 bits of their operands and sign-extend a 32-bit result. Division truncates toward
zero, a zero divisor gives all ones and the dividend, and the overflow case gives the most negative number and 0. -/
def Obligations.WideAndDivisionWords : Prop := ∀ (s : State) (d a b : Reg),
  let x := s.x a
  let y := s.x b
  let v := lo32 x
  let w := lo32 y
  Computes (.addw d a b) s d ((BitVec.ofInt 32 (v.toInt + w.toInt)).signExtend 64) ∧
  Computes (.subw d a b) s d ((BitVec.ofInt 32 (v.toInt - w.toInt)).signExtend 64) ∧
  Computes (.mulw d a b) s d ((BitVec.ofInt 32 (v.toInt * w.toInt)).signExtend 64) ∧
  Computes (.sllw d a b) s d ((BitVec.ofNat 32 (v.toNat * 2 ^ (w.toNat % 32))).signExtend 64) ∧
  Computes (.srlw d a b) s d ((BitVec.ofNat 32 (v.toNat / 2 ^ (w.toNat % 32))).signExtend 64) ∧
  Computes (.sraw d a b) s d (BitVec.ofInt 64 (v.toInt / 2 ^ (w.toNat % 32))) ∧
  Computes (.div d a b) s d (if y = 0 then BitVec.allOnes 64 else BitVec.ofInt 64 (x.toInt.tdiv y.toInt)) ∧
  Computes (.divu d a b) s d (if y = 0 then BitVec.allOnes 64 else BitVec.ofNat 64 (x.toNat / y.toNat)) ∧
  Computes (.rem d a b) s d (if y = 0 then x else BitVec.ofInt 64 (x.toInt.tmod y.toInt)) ∧
  Computes (.remu d a b) s d (if y = 0 then x else BitVec.ofNat 64 (x.toNat % y.toNat)) ∧
  Computes (.divw d a b) s d (if w = 0 then BitVec.allOnes 64 else
    (BitVec.ofInt 32 (v.toInt.tdiv w.toInt)).signExtend 64) ∧
  Computes (.divuw d a b) s d (if w = 0 then BitVec.allOnes 64 else
    (BitVec.ofNat 32 (v.toNat / w.toNat)).signExtend 64) ∧
  Computes (.remw d a b) s d ((if w = 0 then v else BitVec.ofInt 32 (v.toInt.tmod w.toInt)).signExtend 64) ∧
  Computes (.remuw d a b) s d ((if w = 0 then v else BitVec.ofNat 32 (v.toNat % w.toNat)).signExtend 64)

/-- R331, R332, R396, R378, R337: CLZ counts the zeros above the leading 1 bit, POPC the 1 bits, and SEXT extends the low
byte, half or word. Immediates are sign-extended for ADDI, SLTI, LUI and AUIPC and zero-extended for ANDI, ORI and XORI;
shift amounts are the encoded ones; AUIPC adds to the address of the word itself. -/
def Obligations.CountExtendAndImmediateWords : Prop := ∀ (s : State) (d a : Reg) (k : BitVec 16) (n : BitVec 6) (m : BitVec 5),
  let x := s.x a
  (∃ n, n ≤ 64 ∧ Computes (.clz d a) s d (BitVec.ofNat 64 n) ∧ x.toNat < 2 ^ (64 - n) ∧
    (n < 64 → 2 ^ (63 - n) ≤ x.toNat)) ∧
  (∃ n, n ≤ 32 ∧ Computes (.clzw d a) s d (BitVec.ofNat 64 n) ∧ (lo32 x).toNat < 2 ^ (32 - n) ∧
    (n < 32 → 2 ^ (31 - n) ≤ (lo32 x).toNat)) ∧
  Computes (.popc d a) s d (BitVec.ofNat 64 (((List.range 64).map fun k => (x.getLsbD k).toNat).sum)) ∧
  Computes (.popcw d a) s d (BitVec.ofNat 64 (((List.range 32).map fun k => (x.getLsbD k).toNat).sum)) ∧
  Computes (.sext d a .byte) s d ((x.setWidth 8).signExtend 64) ∧
  Computes (.sext d a .half) s d ((x.setWidth 16).signExtend 64) ∧
  Computes (.sext d a .word) s d ((lo32 x).signExtend 64) ∧
  Computes (.addi d a k) s d (BitVec.ofInt 64 (x.toInt + k.toInt)) ∧
  Computes (.andi d a k) s d (x &&& BitVec.ofNat 64 k.toNat) ∧
  Computes (.ori d a k) s d (x ||| BitVec.ofNat 64 k.toNat) ∧
  Computes (.xori d a k) s d (x ^^^ BitVec.ofNat 64 k.toNat) ∧
  Computes (.slti d a k) s d (if x.toInt < k.toInt then 1 else 0) ∧
  Computes (.slli d a n) s d (BitVec.ofNat 64 (x.toNat * 2 ^ n.toNat)) ∧
  Computes (.srli d a n) s d (BitVec.ofNat 64 (x.toNat / 2 ^ n.toNat)) ∧
  Computes (.srai d a n) s d (BitVec.ofInt 64 (x.toInt / 2 ^ n.toNat)) ∧
  Computes (.slliw d a m) s d ((BitVec.ofNat 32 ((lo32 x).toNat * 2 ^ m.toNat)).signExtend 64) ∧
  Computes (.srliw d a m) s d ((BitVec.ofNat 32 ((lo32 x).toNat / 2 ^ m.toNat)).signExtend 64) ∧
  Computes (.sraiw d a m) s d (BitVec.ofInt 64 ((lo32 x).toInt / 2 ^ m.toNat)) ∧
  Computes (.lui d k) s d (BitVec.ofInt 64 (k.toInt * 65536)) ∧
  Computes (.auipc d k) s d (BitVec.ofInt 64 (s.me.pc.toInt + k.toInt * 65536))

/-- R338, R339, R96, R368: a taken branch goes to PC + 4·Sext(off13, 13), one not taken to PC + 4. J and JAL go to
PC + 4·Sext(off26, 26) and JAL links in x31; JALR reads its base before it links, discards a link to x0, and traps MISALIGN
with xd unchanged on a target that is no multiple of 4. BMZ branches when the mask stack is not empty and its top has no
active element below VL, and waits while a block is in flight. Nothing else changes. -/
def Obligations.BranchesAndJumps : Prop := ∀ (s : State) (d a b : Reg) (p : BitVec 13) (o : BitVec 26) (k : BitVec 16),
  let x := s.x a
  let y := s.x b
  let go (taken : Prop) [Decidable taken] : State :=
    { s with me := { s.me with pc := s.me.pc + if taken then BitVec.ofInt 64 (4 * p.toInt) else 4 } }
  let there := s.me.pc + BitVec.ofInt 64 (4 * o.toInt)
  let t := x + BitVec.ofInt 64 k.toInt
  exec (.beq a b p) s = .next (go (x = y)) ∧ exec (.bne a b p) s = .next (go (x ≠ y)) ∧
  exec (.blt a b p) s = .next (go (x.toInt < y.toInt)) ∧ exec (.bge a b p) s = .next (go (y.toInt ≤ x.toInt)) ∧
  exec (.bltu a b p) s = .next (go (x.toNat < y.toNat)) ∧ exec (.bgeu a b p) s = .next (go (y.toNat ≤ x.toNat)) ∧
  exec (.j o) s = .next { s with me := { s.me with pc := there } } ∧
  (∃ u, exec (.jal o) s = .next u ∧ u = { s with me := { s.me with x := u.me.x, pc := there } } ∧
    ∀ r, u.x r = if r = 31 then s.me.pc + 4 else s.x r) ∧
  (t.toNat % 4 = 0 → ∃ u, exec (.jalr d a k) s = .next u ∧ u = { s with me := { s.me with x := u.me.x, pc := t } } ∧
    ∀ r, u.x r = if r = d ∧ d ≠ 0 then s.me.pc + 4 else s.x r) ∧
  (t.toNat % 4 ≠ 0 → exec (.jalr d a k) s = .next (s.takeTrap (.of 0x02 t) s.me.pc true)) ∧
  (s.me.inFlight = true → exec (.bmz o) s = .next { s with me := { s.me with wait := some .block } }) ∧
  (s.me.inFlight = false → ∀ taken : Bool,
    (taken = true ↔ s.me.depth ≠ 0 ∧ ∀ i, i < s.me.vl → s.me.top.getLsbD i = false) →
    exec (.bmz o) s = .next { s with me := { s.me with
      pc := s.me.pc + if taken then BitVec.ofInt 64 (4 * o.toInt) else 4, wait := none, answers := [] } })

/-! ### Loads, stores and atomics -/

/-- R372, R139, R143: a load that nothing holds writes its register alone: bit i below its width is that bit of the bytes it
reads, the lowest address first, and the bits above are 0 or copies of the top bit. The bytes are those of the hart's view at the
point of coherence or, but for a bypass load, those of a copy of their line in its core's L1 (which of them, where they differ, is left
open: log entry 5). Memory changes at most in the page-table entry that the access marks (R145), no line of another core's L1
is new, and no write to the pool begins. -/
def Obligations.LoadsReadTheirBytes : Prop := ∀ (s : State) (d a : Reg) (st : BitVec 3) (h : Hint) (z : Size) (n : Bool)
    (o : BitVec 8) (k cls : Nat) (e : TlbEntry),
  let w : Nat := Size.bytes z
  let va := s.x a + BitVec.ofInt 64 (o.toInt * w)
  va.toNat % w = 0 → Reaches s .load va w k cls e → Clean s k w → MemoryOk s →
  ∃ (t : State) (bs : List Byte), exec (.ld d a st h z n o) s = .next t ∧
    t = { s with me := { s.me with x := t.me.x, pc := s.me.pc + 4, wait := none, answers := [] },
                 mem := t.mem, tlb := t.tlb, unowned := t.unowned, l1 := t.l1, fresh := t.fresh, poolOut := t.poolOut } ∧
    ((∀ i, i < w → bs.getD i 0 = t.byteIn s.team.world (k + i)) ∨
      (h ≠ .bypass ∧ ∃ l, Copied s (k - va.toNat % 64) l ∧
        ∀ i, i < w → bs.getD i 0 = (t.viaCopy s.team.world l.world l.key l.bytes).getD (va.toNat % 64 + i) 0)) ∧
    (∀ r, r ≠ d ∨ d = 0 → t.x r = s.x r) ∧
    (d ≠ 0 → ∀ i, i < 64 → (t.x d).getLsbD i =
      if i < 8 * w then (bs.getD (i / 8) 0).getLsbD (i % 8) else !n && (bs.getD (w - 1) 0).getLsbD 7) ∧
    (∀ j, (j < e.slot ∨ e.slot + 8 ≤ j) → Memory.read t.mem j = Memory.read s.mem j) ∧
    (∀ l, l ∈ t.l1 → l.core ≠ s.team.core → l ∈ s.l1) ∧ ∀ p, p ∈ t.poolOut → p ∈ s.poolOut

/-- R399, R139: a store that nothing holds writes the low bytes of X[xd], the lowest address first, in the hart's view, and no
other byte but the page-table entry that it marks; copies of the line change in no other core's L1, and registers, flags and every
other part of the device stand. -/
def Obligations.StoresWriteTheirBytes : Prop := ∀ (s : State) (d a : Reg) (st : BitVec 3) (h : Hint) (z : Size)
    (o : BitVec 8) (k cls : Nat) (e : TlbEntry),
  let w : Nat := Size.bytes z
  let va := s.x a + BitVec.ofInt 64 (o.toInt * w)
  va.toNat % w = 0 → Reaches s .store va w k cls e → Placeable s k w → MemoryOk s →
  (h = .sync → ReleaseFree s (s.hintScope va)) →
  ∃ t, exec (.st d a st h z o) s = .next t ∧
    t = { s with me := { s.me with pc := s.me.pc + 4, wait := none, answers := [] }, mem := t.mem, ver := t.ver,
                 tlb := t.tlb, unowned := t.unowned, ue := t.ue, verUe := t.verUe, rowPoison := t.rowPoison, ce := t.ce,
                 poolOut := t.poolOut, under := t.under, raws := t.raws, l1 := t.l1 } ∧
    (∀ i, i < w → t.byteIn s.team.world (k + i) = (s.x d).extractLsb' (8 * i) 8) ∧
    (∀ l, l ∈ t.l1 → l.core ≠ s.team.core → l ∈ s.l1) ∧
    ∀ j, (j < k ∨ k + w ≤ j) → (j < e.slot ∨ e.slot + 8 ≤ j) → t.byteIn s.team.world j = s.byteIn s.team.world j

/-- R334: an atomic that nothing holds writes the sign-extended old value to xd, replaces the value in memory by its
operation (a failing compare-and-swap writes nothing), and changes no other byte but the page-table entry it marks. -/
def Obligations.AtomicsReadModifyWrite : Prop := ∀ (s : State) (op : BitVec 5) (i : Instr) (d a b : Reg) (sc : Scope)
    (o : AmoOrder) (dw : Bool) (k cls : Nat) (e : TlbEntry),
  let w := if dw then 8 else 4
  let va := s.x a
  amoInstr op d a b sc o dw = some i → va.toNat % w = 0 → Reaches s .atomic va w k cls e → cls ≠ 2 →
  (sc = .fabric → s.team.world = 0) → (d ≠ 0 → Clean s k w) → Placeable s k w → MemoryOk s → ReleaseFree s sc →
  (k + w ≤ e.slot ∨ e.slot + 8 ≤ k) →
  ∃ t new, exec i s = .next t ∧
    t = { s with me := { s.me with x := t.me.x, pc := s.me.pc + 4, wait := none, answers := [] }, mem := t.mem,
                 ver := t.ver, tlb := t.tlb, unowned := t.unowned, ue := t.ue, verUe := t.verUe, rowPoison := t.rowPoison,
                 ce := t.ce, poolOut := t.poolOut, under := t.under, raws := t.raws, l1 := t.l1 } ∧
    (∀ l, l ∈ t.l1 → l.core ≠ s.team.core → l ∈ s.l1) ∧
    let old := leVal (s.bytesIn s.team.world k w)
    AtomicWrites op (8 * w) old ((s.x b).toNat % 2 ^ (8 * w)) ((s.x d).toNat % 2 ^ (8 * w)) new ∧
    (∀ r, t.x r = if r = d ∧ d ≠ 0 then (BitVec.ofNat (8 * w) old).signExtend 64 else s.x r) ∧
    (leVal (t.bytesIn s.team.world k w) = new.getD old) ∧
    ∀ j, (j < k ∨ k + w ≤ j) → (j < e.slot ∨ e.slot + 8 ≤ j) → t.byteIn s.team.world j = s.byteIn s.team.world j

/-- R334, R372, R399, R129, R133, R136, R137, R178, R259: the precise traps of scalar accesses, which have no other effect. An address
that is no multiple of the size of a load, a store or an atomic traps MISALIGN. An aligned access of a window traps WINDOW: CODE
in windows 5 to 7, KIND in the accumulator window and in the counter window but for a load of 8 bytes, and RANGE for such a load outside
its layout. In a speculative world a store to another device or the pool, an atomic there or at fabric scope, and a timeline word at
fabric scope trap WORLD_ESCAPE. A load or store of a NODE that names no device traps PROTECT. -/
def Obligations.MisalignedAccessesTrap : Prop := ∀ (s : State) (d a b : Reg) (st : BitVec 3) (h : Hint) (z : Size)
    (n : Bool) (o : BitVec 8) (op : BitVec 5) (i : Instr) (sc : Scope) (r : AmoOrder) (dw : Bool),
  let va := s.x a + BitVec.ofInt 64 (o.toInt * Size.bytes z)
  let t (v : Word) (m : Nat) : State := s.settle.takeTrap (.sized 0x02 v m) s.me.pc true
  let w : Nat := Size.bytes z
  let m : Nat := if dw then 8 else 4
  let code (v : Word) : Nat := v.toNat / 2 ^ 43 % 8
  let traps (i : Instr) (x : Trap) : Prop := exec i s = .next (s.settle.takeTrap x s.me.pc true)
  let both (x : Trap) : Prop := traps (.ld d a st h z n o) x ∧ traps (.st d a st h z o) x
  (va.toNat % Size.bytes z ≠ 0 → exec (.ld d a st h z n o) s = .next (t va (Size.bytes z)) ∧
    exec (.st d a st h z o) s = .next (t va (Size.bytes z))) ∧
  (amoInstr op d a b sc r dw = some i → (s.x a).toNat % (if dw then 8 else 4) ≠ 0 →
    exec i s = .next (t (s.x a) (if dw then 8 else 4))) ∧
  (s.me.blk = none → va.toNat % w = 0 → isWindow va = true →
    (5 ≤ code va → both (.window 2 va w)) ∧ (code va = 3 → both (.window 4 va w)) ∧
    (code va = 4 → traps (.st d a st h z o) (.window 4 va w) ∧ (w ≠ 8 → traps (.ld d a st h z n o) (.window 4 va w)) ∧
      (w = 8 → va.toNat / 2 ^ 32 % 2 ^ 11 ≠ 0 → traps (.ld d a st h z n o) (.window 5 va w)))) ∧
  (s.me.blk = none → va.toNat % w = 0 → isWindow va = false →
    (isOwn va = false → (∀ x, x ∈ s.routes → x.1 ≠ va.toNat / 2 ^ 46) → both (.sized 0x05 va w)) ∧
    (s.team.world ≠ 0 → ((∃ k e, s.xlate s.team.asid .store va = .at_ k 2 e) ∨
        (isOwn va = false ∧ ∃ x, x ∈ s.routes ∧ x.1 = va.toNat / 2 ^ 46)) → traps (.st d a st h z o) (.sized 0x0F va w))) ∧
  (s.me.blk = none → amoInstr op d a b sc r dw = some i → (s.x a).toNat % m = 0 →
    (isWindow (s.x a) = true → 5 ≤ code (s.x a) → traps i (.window 2 (s.x a) m)) ∧
    (isWindow (s.x a) = true → code (s.x a) = 3 ∨ code (s.x a) = 4 → traps i (.window 4 (s.x a) m)) ∧
    (s.team.world ≠ 0 → isWindow (s.x a) = false ∨ code (s.x a) < 3 → sc = .fabric ∨ s.hintScope (s.x a) = .fabric →
      traps i (.sized 0x0F (s.x a) m))) ∧
  (s.me.blk = none → s.team.world ≠ 0 → (s.x a).toNat % 8 = 0 →
    traps (.tlwait a b .fabric) (.sized 0x0F (s.x a) 8) ∧ traps (.tlpoll d a .fabric) (.sized 0x0F (s.x a) 8) ∧
    (isWindow (s.x a) = false ∨ code (s.x a) < 3 → traps (.tlsig a b .fabric) (.sized 0x0F (s.x a) 8)))

/-- R149, R150: a load whose page has no translation holds its hart at the load, which waits for a page request of its
page; a store there retires into the side log of its core and the hart goes on. -/
def Obligations.MissingPageHoldsALoadAndLogsAStore : Prop := ∀ (s : State) (d a : Reg) (st : BitVec 3) (h : Hint)
    (z : Size) (n : Bool) (o : BitVec 8),
  let w : Nat := Size.bytes z
  let va := s.x a + BitVec.ofInt 64 (o.toInt * w)
  va.toNat % w = 0 → s.me.blk = none → isOwn va = true → s.side = [] → s.me.wait = none →
  s.me.answers = [] → (s.pctlAt (towerOf va)).reqs.length < 1024 →
  (s.xlate s.team.asid .load va = .missing → ∃ t g, exec (.ld d a st h z n o) s = .next t ∧ t.me.pc = s.me.pc ∧
    t.me = { s.me with wait := some (.page (towerOf va) g) } ∧
    ∃ q, q ∈ (t.pctlAt (towerOf va)).reqs ∧ q.tag = g ∧ q.page = pageOf va ∧ q.asid = s.team.asid ∧ q.rd = true) ∧
  (s.xlate s.team.asid .store va = .missing → ∃ t, exec (.st d a st h z o) s = .next t ∧
    t.me = { s.me with pc := s.me.pc + 4, wait := none, answers := [] } ∧
    (∃ y, t.side = [y] ∧ y.core = s.team.core ∧ y.team = s.team.no ∧ y.hart = s.me.idx ∧ y.stream = st.toNat ∧
      y.amo = none ∧ y.bytes.map (·.2) = leBytes w (s.x d).toNat) ∧
    ∃ q, q ∈ (t.pctlAt (towerOf va)).reqs ∧ q.page = pageOf va ∧ q.asid = s.team.asid ∧ q.wr = true)

/-- R134, R135: a load from the scratchpad windows reads its launch's allocation in the vault that the window names, a
byte beyond the extent reads 0, and the first such byte goes to SPERR while SPERR.V is 0. -/
def Obligations.ScratchpadLoadsReadTheAllocation : Prop := ∀ (s : State) (d a : Reg) (st : BitVec 3) (h : Hint)
    (z : Size) (n : Bool) (o : BitVec 8),
  let w : Nat := Size.bytes z
  let va := s.x a + BitVec.ofInt 64 (o.toInt * w)
  let key (i : Nat) : Option Nat := s.scratchKey s.team (va + BitVec.ofNat 64 i)
  let byte (i : Nat) : Byte := ((key i).map (Memory.read s.mem)).getD 0
  va.toNat % w = 0 → s.me.blk = none → s.side = [] → isWindow va = true → towerOf va < 3 → s.ue = [] →
  ∃ t, exec (.ld d a st h z n o) s = .next t ∧
    t = { (if h = .sync then Acquired s .package else s) with
      me := { s.me with x := t.me.x, pc := s.me.pc + 4, wait := none, answers := [], sperr := t.me.sperr } } ∧
    (d ≠ 0 → ∀ i, i < 64 → (t.x d).getLsbD i = if i < 8 * w then (byte (i / 8)).getLsbD (i % 8)
      else !n && (byte (w - 1)).getLsbD 7) ∧
    (∀ r, r ≠ d ∨ d = 0 → t.x r = s.x r) ∧
    ((∀ i, i < w → (key i).isSome = true) ∨ s.me.sperr.getLsbD 63 = true → t.me.sperr = s.me.sperr) ∧
    ∀ i, i < w → (∀ j, j < i → (key j).isSome = true) → key i = none → s.me.sperr.getLsbD 63 = false →
      t.me.sperr = 1#64 <<< 63 ||| BitVec.ofNat 64 ((va.toNat + i) % 2 ^ 46)

/-- R256 to R258: what an agent of a speculative world writes to ordinary memory is a version of its world: the bytes that
world 0 and the host see stand. A world sees the byte that it has written, and for a byte that it has not written what its
parent sees; a world lies at most four levels down. -/
def Obligations.VersionsBelongToTheirWorlds : Prop := ∀ (s : State) (w k j : Nat) (bs : List Byte),
  w ≠ 0 →
  ((∀ i, i < bs.length → isOrdinary (k + i) = true) → MemoryOk s →
    (s.storeAt w k bs).byteIn 0 j = s.byteIn 0 j ∧ (s.storeAt w k bs).mem = s.mem ∧
    ((s.storeAt w k bs).byteIn w j = if h : k ≤ j ∧ j - k < bs.length then bs[j - k]'h.2 else s.byteIn w j)) ∧
  (isOrdinary k = true →
    (∀ b, s.verByte w k = some b → s.byteIn w k = b) ∧
    (s.verByte w k = none → s.parentOf (s.parentOf (s.parentOf (s.parentOf w))) = 0 →
      s.byteIn w k = s.byteIn (s.parentOf w) k))

/-! ### Ordering, timeline, engine and row words -/

/-- R172, R187, R361, R365, R366, R393, R138, R168: FENCE, SBAR and IFENCE complete. With nothing outstanding that they wait for, FENCE
and SBAR pass: a FENCE that acquires drops the lines of its core's L1 that its scope names, and one that releases at fabric scope leaves
no pool write of the hart outstanding, nor with ENG one of its commands. FENCE with ENG waits while a command of the hart
has not completed. IFENCE waits for nothing, in every state, and leaves no copy of a 64-byte line of its range in its cluster or in a
CP; an empty range leaves every copy. -/
def Obligations.FencesPassWhenNothingIsOutstanding : Prop := ∀ (s : State) (eng sa : Bool) (k : FenceKind) (sc : Scope)
    (m : BitVec 8) (d a : Reg),
  (∃ t : State, exec (.ifence d a) s = .next t ∧ t = { s with code := t.code, me := { s.me with pc := s.me.pc + 4 } } ∧
    ∀ c, c ∈ t.code ↔ c ∈ s.code ∧ ¬ ((c.cluster = s.team.core / 4 ∨ 64 ≤ c.cluster) ∧ c.asid = s.team.asid ∧
      ∃ b, (s.x a).toNat ≤ b ∧ b < min ((s.x a).toNat + (s.x d).toNat) (2 ^ 64) ∧ b / 64 = c.va.toNat / 64)) ∧
  (ReleaseFree s sc →
    (eng = true → s.cmdsPending = false) → (sa = true → s.addsPending (BitVec.allOnes 8) = false) →
    let mine (p : PoolWrite) : Bool :=
      p.team == s.team.no && p.hart == s.me.idx && (p.by_ == .hart || (eng && p.by_ != .replay))
    let s1 : State := if k ≠ .acq ∧ sc = .fabric then { s with poolOut := s.poolOut.filter (!mine ·) } else s
    exec (.fence eng sa k sc) s = .next (Passed (if k = .rel then s1 else Acquired s1 sc))) ∧
  (ReleaseFree s sc → s.cmdsPending = true → (sa = true → s.addsPending (BitVec.allOnes 8) = false) →
    exec (.fence true sa k sc) s = .next { s with me := { s.me with wait := some .commands } }) ∧
  (s.me.blk = none → s.side = [] → s.addsPending m = false → exec (.sbar m) s = .next (Passed s))

/-- R55, R403: the last live hart to arrive at TBAR lets every waiting hart of its team go on past its own TBAR; a
hart that is not the last waits. -/
def Obligations.TeamBarrierReleasesTheTeam : Prop := ∀ (s : State),
  s.me.blk = none → s.side = [] → s.addsPending (BitVec.allOnes 8) = false →
  ((∀ p, p ∈ s.peers → p.alive = false ∨ p.wait = some .barrier) →
    exec .tbar s = .next { s with
      me := { s.me with pc := s.me.pc + 4, wait := none, answers := [] },
      peers := s.peers.map fun p => if p.wait = some .barrier then
        { p with pc := p.pc + 4, wait := none, answers := [] } else p }) ∧
  ((∃ p, p ∈ s.peers ∧ p.alive = true ∧ p.wait ≠ some .barrier) →
    exec .tbar s = .next { s with me := { s.me with wait := some .barrier } })

/-- R178: TLWAIT ends when the doubleword is at least X[xb] and else waits for it; TLPOLL reads it; TLSIG writes the
greater of it and X[xb]. -/
def Obligations.TimelineWordsCompareAndRaise : Prop := ∀ (s : State) (d a b : Reg) (sc : Scope) (k cls : Nat)
    (e : TlbEntry),
  let va := s.x a
  let seen := Seen s e k 8
  let v := leVal (seen.bytesIn s.team.world k 8)
  va.toNat % 8 = 0 → (sc = .fabric → s.team.world = 0) → Clean s k 8 → MemoryOk s →
  (Reaches s .load va 8 k cls e →
    ((s.x b).toNat ≤ v → exec (.tlwait a b sc) s = .next (Passed (Acquired seen sc))) ∧
    (v < (s.x b).toNat → exec (.tlwait a b sc) s =
      .next { seen with me := { s.me with wait := some (.counter va (s.x b)) } }) ∧
    ∃ t, exec (.tlpoll d a sc) s = .next t ∧ WritesHeld (Acquired seen sc) t d (BitVec.ofNat 64 v)) ∧
  (Reaches s .atomic va 8 k cls e → cls ≠ 2 → Placeable s k 8 → ReleaseFree s sc →
    (k + 8 ≤ e.slot ∨ e.slot + 8 ≤ k) →
    ∃ t, exec (.tlsig a b sc) s = .next t ∧
      leVal (t.bytesIn s.team.world k 8) = Nat.max (leVal (s.bytesIn s.team.world k 8)) (s.x b).toNat ∧
      t.me = { s.me with pc := s.me.pc + 4, wait := none, answers := [] } ∧
      ∀ j, (j < k ∨ k + 8 ≤ j) → (j < e.slot ∨ e.slot + 8 ≤ j) → t.byteIn s.team.world j = s.byteIn s.team.world j)

/-- R175, R344, R250, R251, R389, R241: an engine word whose arguments keep its rules issues its command, with the
registers from xa up as arguments, when the engine has a slot. -/
def Obligations.EngineWordsIssueTheirCommands : Prop := ∀ (s : State) (d a : Reg) (c : BitVec 3),
  let x (k : Nat) : Word := s.x ⟨(a.val + k) % 32, Nat.mod_lt _ (by decide)⟩
  let args (n : Nat) : List Word := (List.range n).map x
  let near (k : Cmd) : Bool := k.queue.isNone && towerOfCore k.core == towerOfCore s.team.core
  let ix := ixArgs (args 5)
  ((x 0).toNat % 32 = 0 →
    s.outstanding (fun k => k.queue.isNone && k.kind == kCPY && k.core == s.team.core) < 128 →
    Issues (.cpy d a c) s d c kCPY (args 1)) ∧
  (s.outstanding (fun k => near k && (k.kind == kGTHR || k.kind == kSCTR)) < 256 →
    (x 0).toNat % (if ix.ix64 then 8 else 4) = 0 → (x 1).toNat % 2 ^ ix.esize = 0 → (x 2).toNat % 32 = 0 →
    (ixOk kGTHR (args 5) = true → Issues (.gthr d a c) s d c kGTHR (args 5)) ∧
    (ixOk kSCTR (args 5) = true → Issues (.sctr d a c) s d c kSCTR (args 5))) ∧
  (s.outstanding (fun k => near k && (k.kind == kRPL || k.kind == kBXL)) < 256 → s.team.world = 0 →
    ((x 0).toNat % 4 = 0 → (x 1).toNat % 256 = 0 → isWindow (x 0) = false → isWindow (x 1) = false →
      (x 2).toNat < 2 ^ 60 → (∀ k, k < 64 → (34 ≤ k ∨ (21 ≤ k ∧ k < 32) ∨ (10 ≤ k ∧ k < 16)) →
        (x 3).getLsbD k = false) → ((x 3).toNat / 2 ^ 16) % 32 ≤ 16 →
      Issues (.rpl d a c) s d c kRPL (args 4)) ∧
    ((x 0).toNat % 8 = 0 → (x 1).toNat % 32 = 0 → (x 2).toNat % 32 = 0 → (x 4).toNat % 32 = 0 →
      bxlOk (x 3) (x 5) = true → isWindow (x 0) = false → Issues (.bxl d a c) s d c kBXL (args 6)))

/-- R185, R386, R387: RLOCK adds a lock of the team on the rows of its range, RUNLOCK takes away the team's locks that lie
within its range, and RFENCE passes, the older copies of those rows gone, so that later accesses see what the row commands wrote; each waits while a row program or expression that it must let finish uses one of the
rows, and an empty range does nothing. -/
def Obligations.RowWordsLockAndWait : Prop := ∀ (s : State) (a b : Reg) (rows : List Nat),
  let n := (s.x b).toNat
  let busy (others : Bool) : Bool := s.rowCmds.any fun r =>
    ((r.2.1 && (!others || s.teamOfCmd r.1 != s.team.no)) || (!others && s.teamOfCmd r.1 == s.team.no)) &&
      r.2.2.any rows.contains
  (n = 0 → exec (.rlock a b) s = .next (Passed s) ∧ exec (.runlock a b) s = .next (Passed s) ∧
    (s.me.blk = none → exec (.rfence a b) s = .next (Passed (Acquired s .package)))) ∧
  (n ≠ 0 → s.team.world = 0 → s.me.blk = none → s.side = [] → rangeRows (s.x a) n s = .ok rows s →
    (busy true = false → (s.locks.filter (·.tower == towerOf (s.x a))).length < 64 →
      exec (.rlock a b) s = .next (Passed { s with
        locks := s.locks ++ [{ tower := towerOf (s.x a), team := s.team.no, rows := rows }] })) ∧
    (busy true = true → exec (.rlock a b) s = .next { s with me := { s.me with wait := some .rows } }) ∧
    exec (.runlock a b) s = .next (Passed { s with
      locks := s.locks.filter fun l => !(l.team == s.team.no && l.rows.all rows.contains) }) ∧
    ((s.cmds.any fun c => c.queue.isNone && c.team == s.team.no && (c.kind == kRPL || c.kind == kBXL) &&
        !c.accepted) = false →
      (busy false = false → ∃ t, exec (.rfence a b) s = .next t ∧
        t = { Passed s with l1 := t.l1, mem := t.mem, under := t.under } ∧
        (∀ m, m ∈ rows → m < 2 ^ 30 → (∀ l, l ∈ t.l1 → l.core = s.team.core → l.key / 1024 ≠ m) ∧
          ∀ y, y ∈ t.under → y.1 / 1024 = m → s.under.any (fun x => x.1 == y.1 && x.2.2) = true) ∧
        (MemoryOk s → (∀ j b dirty, s.under.filter (·.1 == j) = [(j, b, dirty)] → t.dramByte j = b ∧
            (j / 1024 ∈ rows → j < 2 ^ 40 → dirty = false → Memory.read t.mem j = b)) ∧
          ∀ j, (j / 1024 ∉ rows ∨ s.under.any (fun y => y.1 == j) = false) → Memory.read t.mem j = Memory.read s.mem j)) ∧
      (busy false = true → exec (.rfence a b) s = .next { s with me := { s.me with wait := some .rows } })))

/-! ### Tasks and worlds -/

/-- R63, R61, R397, R274: SPAWN of a record that passes its checks pushes an acorn of the hart's launch and world at the
bottom of its core's deque when its conditions hold, and answers the acorns there; else it gives the acorn to the watcher
of its tower and answers 0, or waits for room there. A record that fails its checks traps, with ENGINE where a field breaks
its rules, a full deque DEQUE_FULL, and a versioned acorn at depth 4 WORLD_DEPTH. -/
def Obligations.SpawnPushesAnAcorn : Prop := ∀ (s : State) (d a : Reg) (k cls : Nat) (e : TlbEntry),
  let va := s.x a
  let seen := Seen s e k 64
  let bs := seen.bytesIn s.team.world k 64
  let acorn := seen.acornHere bs va
  va.toNat % 64 = 0 → Reaches s .load va 64 k cls e → Clean s k 64 →
  (∀ t, seen.recordTrap bs va = some t → exec (.spawn d a) s = .next (seen.settle.takeTrap t s.me.pc true)) ∧
  (acornOk bs = false → seen.recordTrap bs va = some (.of 0x16 va)) ∧
  (seen.recordTrap bs va = none → acorn.versioned = true → s.team.depth = 4 →
    exec (.spawn d a) s = .next (seen.settle.takeTrap (.of 0x11 4) s.me.pc true)) ∧
  (seen.recordTrap bs va = none → (acorn.versioned = true → s.team.depth ≠ 4) →
    acorn.code = dwordOf bs 0 ∧ acorn.frame = dwordOf bs 8 ∧ acorn.joinrec = dwordOf bs 16 ∧
    acorn.launch = s.team.launch ∧ acorn.core = s.team.core ∧ acorn.world = s.team.world ∧ acorn.x3 = va ∧
    (seen.readyAcorn acorn = true → (s.coreAt s.team.core).deque.length < 4096 →
      ∃ t, exec (.spawn d a) s = .next t ∧ (t.coreAt s.team.core).deque = (s.coreAt s.team.core).deque ++ [acorn] ∧
        WritesHeld (seen.pushBottom acorn) t d (BitVec.ofNat 64 ((s.coreAt s.team.core).deque.length + 1))) ∧
    (seen.readyAcorn acorn = true → 4096 ≤ (s.coreAt s.team.core).deque.length →
      exec (.spawn d a) s = .next (seen.settle.takeTrap (.of 0x18 va) s.me.pc true)) ∧
    (seen.readyAcorn acorn = false → s.watchCount s.team.core < 16384 → ∃ t, exec (.spawn d a) s = .next t ∧
      t.watch = s.watch ++ [acorn] ∧ WritesHeld (seen.watchAcorn acorn) t d 0) ∧
    (seen.readyAcorn acorn = false → 16384 ≤ s.watchCount s.team.core →
      exec (.spawn d a) s = .next { seen with me := { s.me with wait := some .watcher } }))

/-- R64, R370: JOIN takes 1 from the count of its record and answers what is left; the arrival that leaves 0 with a
continuation record that passes its checks pushes it at the bottom of its core's deque, or gives it to the watcher until it is
ready. A record that fails them traps after the count has changed. A count of 0 traps ENGINE, a full deque DEQUE_FULL and a
versioned continuation at depth 4 WORLD_DEPTH, each before it. The pages are marked already. -/
def Obligations.JoinCountsDown : Prop := ∀ (s : State) (d a : Reg) (k cls : Nat) (e : TlbEntry),
  let j := s.x a
  let w := s.team.world
  let n := leVal (s.bytesIn w k 8)
  let left (r : State) : State := r.storeOwn j k (leBytes 8 (n - 1))
  let gives (r : State) (v : Nat) : Prop := ∃ t, exec (.join d a) s = .next t ∧
    WritesHeld (Acquired r .package) t d (BitVec.ofNat 64 v)
  let va := BitVec.ofNat 64 (leVal (s.bytesIn w (k + 8) 8))
  j.toNat % 16 = 0 → Reaches s .atomic j 8 k cls e → cls ≠ 2 → Clean s k 8 → Placeable s k 8 →
  s.markPage e (some s.team.core) true = s →
  (4096 ≤ (s.coreAt s.team.core).deque.length → exec (.join d a) s = .next (s.settle.takeTrap (.of 0x18 j) s.me.pc true)) ∧
  ((s.coreAt s.team.core).deque.length < 4096 →
  (n = 0 → exec (.join d a) s = .next (s.settle.takeTrap (.of 0x16 j) s.me.pc true)) ∧
  (1 < n → gives (left s) (n - 1)) ∧
  (n = 1 → ∀ (c2 : Nat) (e2 : TlbEntry), Reaches s .load (j + 8) 8 (k + 8) c2 e2 → Clean s (k + 8) 8 →
    s.markPage e2 (some s.team.core) false = s →
    let fails (r : State) (t : Trap) : Prop := exec (.join d a) s = .next (((left r).setX d 0).settle.takeTrap t s.me.pc true)
    (va = 0 → gives (left s) 0) ∧
    (va.toNat % 64 ≠ 0 → fails s (.of 0x16 va)) ∧
    (∀ (k3 c3 : Nat) (e3 : TlbEntry), let acorn := s.acornHere (s.bytesIn w k3 64) va
      let r := s.poolSeen k3 64 s.coreWrote;
      va ≠ 0 → va.toNat % 64 = 0 → Reaches s .load va 64 k3 c3 e3 → Clean s k3 64 → s.markPage e3 (some s.team.core) false = s →
      (∀ t, s.recordTrap (s.bytesIn w k3 64) va = some t → fails r t) ∧
      (s.recordTrap (s.bytesIn w k3 64) va = none →
        (acorn.versioned = true → s.team.depth = 4 →
          exec (.join d a) s = .next (r.settle.takeTrap (.of 0x11 4) s.me.pc true)) ∧
        ((acorn.versioned = true → s.team.depth ≠ 4) → gives (if (left r).readyAcorn acorn = true then (left r).pushBottom acorn
          else (left r).watchAcorn acorn) 0)))))

/-- R65, R265, R408, R437, R68, R69: TEND ends its hart, whose registers are undefined from then on, while others of its team
live; the last live hart ends the task: the count of its join record goes down by 1 (an arrival at a record in a window, at one that cannot
be written and at a count of 0 is dropped: log entry 24), its team leaves the core with its locks gone, and the task's launch
completes when its own count is 0, while launches with a count of more go on. A first WEND of a world records
X[xa] as the score of its rival, whose state becomes ENDED; outside a rival's world WEND traps ENGINE. -/
def Obligations.EndsOfHartsAndTasks : Prop := ∀ (s : State) (a : Reg),
  s.me.blk = none → s.side = [] → s.me.replay = none → s.cmdsPending = false → s.me.inHandler = false →
  ((∃ p, p ∈ s.peers ∧ p.alive = true) → ∃ t, exec .tend s = .next t ∧
    t = { s with fresh := s.fresh + 1, me := t.me } ∧ HartGone s.me t.me) ∧
  (∀ after : State, (∀ p, p ∈ s.peers → p.alive = false) → s.team.versioned = false → s.team.carried = 0 →
    (let j := s.team.joinrec;
      ((j = 0 ∨ isWindow j = true ∨ (∃ c, s.xlate s.team.asid .atomic j = .denied c) ∨
        (∃ m, s.xlate s.team.asid .atomic j = .message m) ∨ s.xlate s.team.asid .atomic j = .unrouted) ∧ after = s) ∨
      (j ≠ 0 ∧ isWindow j = false ∧ ∃ k cls e, s.xlate s.team.asid .atomic j = .at_ k cls e ∧ s.accessHeld k 16 e none true = false ∧
        s.markPage e none true = s ∧ Placeable s k 8 ∧
        let n := leVal (s.bytesIn s.team.world k 8);
        (n = 0 ∧ after = s) ∨ ((1 < n ∨ (n = 1 ∧ leVal (s.bytesIn s.team.world (k + 8) 8) = 0)) ∧
          after = s.storeAt s.team.world k (leBytes 8 (n - 1))))) →
    s.team.owed = none → s.forks = [] → s.worlds = [] → s.team.contOf = [] → s.live = true →
    let cores := s.team.core :: ((s.parked.filter (·.place == .running)).map (·.team.core))
    let completes (l : Launch) : Bool := l.started && !l.complete && after.dwordAt (joinKey l.id 0) == 0
    let left (t : State) : Prop :=
      t.live = false ∧ t.parked = s.parked ∧ t.mem = after.mem ∧ t.launches = s.launches ∧
      (∀ l, l ∈ t.locks ↔ l ∈ s.locks ∧ l.team ≠ s.team.no) ∧
      ∀ c p, p < 8 → ((t.coreAt c).tiles[p]?.bind (·.owner)) ≠ some s.team.no;
    (s.launches.filter completes = [] → ∃ t, exec .tend s = .next (t.reseek cores) ∧ left t) ∧
    (∀ l, s.launches = [l] → completes l = true → ∃ t, exec .tend s = .next ((t.completeLaunch l).reseek cores) ∧ left t)) ∧
  (s.scored = none → exec (.wend a) s = .next (s.settle.takeTrap (.of 0x16 0) s.me.pc true)) ∧
  (∀ (h k : Nat) (f : Fork) (r : Rival), s.scored = some (h, k) → s.forkAt h = some f → f.rivals[k]? = some r →
    r.score = none → s.team.moved = [] → (∃ p, p ∈ s.peers ∧ p.alive = true) →
    ∃ t f', exec (.wend a) s = .next t ∧ HartGone s.me t.me ∧ t.forkAt h = some f' ∧ f'.rivals.length = f.rivals.length ∧
      f'.rivals[k]? = some { r with score := some (s.x a), st := if r.st = .running then .ended else r.st } ∧
      t = { s with forks := t.forks, fresh := s.fresh + 1, me := t.me })

/-- R262, R263, R271: the last hart of a team to reach its FORKW makes worlds of the first free ids below the present one,
one rival for each: the team becomes the first rival, with 0 in xd of every hart, and the others are set aside with acorns in
the core's deque. The harts before it wait. Operands that differ or break their rules trap ENGINE or MISALIGN, a record that
fails SPAWN's checks its trap, a fork at depth 4 or with too few free ids WORLD_DEPTH, and too full a deque DEQUE_FULL: in
every hart. -/
def Obligations.ForkwMakesWorlds : Prop := ∀ (s : State) (d a b : Reg) (k cls : Nat) (e : TlbEntry),
  let x := s.x a
  let y := s.x b
  let n := x.toNat % 16
  let ids := s.freeIds.take n
  let seen := Seen s e k 64
  let bs := seen.bytesIn s.team.world k 64
  let okArgs := 2 ≤ n ∧ n ≤ 8 ∧ x.toNat / 512 = 0 ∧ x.toNat / 16 % 16 = 0
  let traps (r : State) (t : Trap) (own : Bool) : Prop := exec (.forkw d a b) s = .next (State.takeTrap
    (State.settle { r.trapPeers t own with me := { s.me with forkArgs := none } }) t s.me.pc true)
  let arrived := ∀ p, p ∈ s.peers → p.alive = false ∨ p.atFork = true
  let agree := ∀ p, p ∈ s.peers → p.alive = true → p.forkArgs.map (fun z => (z.1, z.2.1)) = some (x, y)
  (s.me.inHandler = true → exec (.forkw d a b) s = .next (s.settle.takeTrap (.of 0x16 x) s.me.pc true)) ∧
  (s.me.inHandler = false → ¬ arrived → exec (.forkw d a b) s =
    .next { s with me := { s.me with forkArgs := some (x, y, d), wait := some .team } }) ∧
  (s.me.inHandler = false → arrived → ¬ agree → traps s (.of 0x16 x) true) ∧
  (s.me.inHandler = false → arrived → agree → ¬ okArgs → traps s (.of 0x16 x) false) ∧
  (s.me.inHandler = false → arrived → agree → okArgs → y.toNat % 64 ≠ 0 → traps s (.sized 0x02 y 64) false) ∧
  (s.me.inHandler = false → arrived → agree → okArgs → y.toNat % 64 = 0 → Reaches s .load y 64 k cls e → Clean s k 64 →
    (∀ t, seen.recordTrap bs y = some t → traps seen t false) ∧
    (seen.recordTrap bs y = none → dwordOf bs 16 ≠ 0 → traps seen (.of 0x16 y) false) ∧
    (seen.recordTrap bs y = none → dwordOf bs 16 = 0 → s.team.depth = 4 → traps seen (.of 0x11 4) false) ∧
    (seen.recordTrap bs y = none → dwordOf bs 16 = 0 → s.team.depth ≠ 4 →
      (s.freeCount < n → traps seen (.of 0x11 (BitVec.ofNat 64 (0x1000 + s.freeCount))) false) ∧
      (n ≤ s.freeCount → 4096 < (s.coreAt s.team.core).deque.length + (n - 1) → traps seen (.of 0x18 y) false)) ∧
    (seen.recordTrap bs y = none → dwordOf bs 16 = 0 → s.team.depth ≠ 4 → n ≤ s.freeCount →
      (s.coreAt s.team.core).deque.length + (n - 1) ≤ 4096 → (∀ p, p ∈ s.peers → p.inFlight = false) →
      ∃ t f, exec (.forkw d a b) s = .next t ∧ t.forks = s.forks ++ [f] ∧ f.handle = ids.headD 0 ∧
        f.parent = s.team.world ∧ f.decided = false ∧ f.rivals.map (·.wid) = ids ∧
        (∀ r, r ∈ f.rivals → r.st = .running ∧ r.score = none ∧ r.depth = s.team.depth + 1) ∧
        t.worlds.map (·.id) = s.worlds.map (·.id) ++ ids ∧ t.parked.length = s.parked.length + (n - 1) ∧
        (t.coreAt s.team.core).deque.length = (s.coreAt s.team.core).deque.length + (n - 1) ∧
        t.team.world = ids.headD 0 ∧ t.team.depth = s.team.depth + 1 ∧ t.me.pc = s.me.pc + 4 ∧
        (∀ r, t.x r = if r = d then 0 else s.x r) ∧
        t.peers = s.peers.map fun p => if p.atFork then
          { p.setReg ((p.forkArgs.map (·.2.2)).getD 0) 0 with forkArgs := none, pc := p.pc + 4, wait := none } else p))

/-- R266, R269, R270, R341, R342, R436, R438. WQUERY completes for every selector that breaks no rule, with the score or the
state word of a rival, 0 or 7 where there is none. WABORT completes in a rival's world and in a versioned task's world, which
ends. CHOOSE completes for an undecided fork of its own world and an ended rival, or none, and CHOOSE.SELF for the undecided
fork whose rival its world is: the fork is decided, the chosen rival CHOSEN, and the hart goes on, its world merged into the
parent for CHOOSE.SELF. Where another rival was chosen CHOOSE.SELF cancels its world. None of them is allowed otherwise:
ENGINE. -/
def Obligations.WorldWords : Prop := ∀ (s : State) (d a : Reg),
  let x := s.x a
  let h := x.toNat % 4096
  let k := x.toNat / 65536 % 8
  let none' := x.getLsbD 23
  let score := x.getLsbD 20
  let ok := x &&& ~~~0x970FFF#64 = 0
  let trapped (v : Word) : State := s.settle.takeTrap (.of 0x16 v) s.me.pc true
  let onward (t : State) : Prop := t.me = { s.me with pc := s.me.pc + 4, wait := none, answers := [], replay := none }
  let mine (r : State) (p : PoolWrite) : Bool := p.team == r.team.no && p.hart == r.me.idx && p.by_ == .replay
  let merged (r : State) : State :=
    Passed (Acquired { r with me := { r.me with replay := none }, poolOut := r.poolOut.filter (!mine r ·) } .package)
  let calm := s.live = true ∧ s.me.replay = none ∧ s.me.blk = none ∧ s.side = [] ∧ ∀ w, w ∈ s.worlds → w.log = []
  (ok → none' = false →
    (∀ f r, s.forkAt h = some f → f.rivals[k]? = some r → Computes (.wquery d a) s d
      (if score then r.score.getD 0 else BitVec.ofNat 64 (r.depth % 16 * 2 ^ 28 + r.wid % 4096 * 2 ^ 16 +
        f.rivals.length % 16 * 16 + (if f.decided then 8 else 0) + r.st.code))) ∧
    ((∀ f, s.forkAt h = some f → f.rivals[k]? = none) →
      Computes (.wquery d a) s d (if score then 0 else 7))) ∧
  (¬ ok ∨ none' = true → exec (.wquery d a) s = .next (s.takeTrap (.of 0x16 x) s.me.pc true)) ∧
  (s.team.world = 0 → exec .wabort s = .next (trapped 0) ∧
    (s.worldAt 0 = none → s.me.replay = none → exec .chooseSelf s = .next (trapped 0))) ∧
  (∀ w, s.team.world ≠ 0 → s.worldAt s.team.world = some w →
    (w.fork ≠ none → exec .wabort s = .next (s.endOwnWorld .aborted)) ∧
    (w.fork = none → s.team.joinrec = 0 → s.team.owed = none →
      exec .wabort s = .next (s.discardVersion.endTask.reseek s.busyCores))) ∧
  (∀ f, s.forkAt h = some f → f.parent = s.team.world → f.decided = false → ok → score = false →
    (none' = true ∨ ∃ r, f.rivals[k]? = some r ∧ r.st = .ended) → calm → (∀ r, r ∈ f.rivals → Apart s s.team.world r) →
    ∃ t f', exec (.choose a) s = .next t ∧ onward t ∧ t.forkAt h = some f' ∧ f'.decided = true ∧
      (none' = false → (f'.rivals[k]?).map (·.st) = some .chosen)) ∧
  (∀ w hd j f own, s.worldAt s.team.world = some w → w.fork = some (hd, j) → s.forkAt hd = some f → f.parent = w.parent →
    f.rivals[j]? = some own → own.wid = s.team.world → f.decided = false → calm →
    s.team.world ∉ s.below s.team.world → w.parent ∉ s.below s.team.world →
    (∀ i r, f.rivals[i]? = some r → i ≠ j → Apart s s.team.world r ∧ Apart s w.parent r) →
    ∃ t f', exec .chooseSelf s = .next t ∧ onward t ∧ t.team.world = w.parent ∧ t.forkAt hd = some f' ∧
      f'.decided = true ∧ (f'.rivals[j]?).map (·.st) = some .chosen) ∧
  (s.me.replay = none → ∀ w hd j f, s.worldAt s.team.world = some w → w.fork = some (hd, j) → s.forkAt hd = some f →
    (f.decided = true → exec .chooseSelf s = .next (s.endOwnWorld .cancelled)) ∧
    (f.decided = false → s.me.blk = none → s.side = [] → (s.settleFork hd (some j)).1 = [] →
      (s.settleFork hd (some j)).2.me.blk = none → exec .chooseSelf s = .next (merged (s.settleFork hd (some j)).2))) ∧
  (s.me.replay = none → ∀ allowed : Bool,
    (allowed = true ↔ ok ∧ score = false ∧ ∃ f, s.forkAt h = some f ∧ f.parent = s.team.world ∧ f.decided = false ∧
      (none' = true ∨ ∃ r, f.rivals[k]? = some r ∧ r.st = .ended)) →
    (allowed = false → exec (.choose a) s = .next (trapped x)) ∧
    (allowed = true → s.me.blk = none → s.side = [] →
      let r := s.settleFork h (if none' then none else some k)
      r.1 = [] → r.2.me.blk = none → exec (.choose a) s = .next (merged r.2)))

/-! ### Vector control, CSRs and traps -/

/-- R193, R201, R419: VSETT takes a legal VTYPE, cuts VL to the new VLMAX and answers VLMAX; an illegal one traps VTYPE.
VSETL answers the lesser of X[xa] and VLMAX, which VL becomes. VSETL.lq takes the head of the length queue, or 0 with UND
set when the queue is empty and no block runs; it and VDRAIN wait for a block in flight. -/
def Obligations.VectorLengthWords : Prop := ∀ (s : State) (d a : Reg),
  let v := s.x a
  let new := vlmaxOf s.team.size v
  let n := Nat.min (s.x a).toNat s.vlmax
  (vtypeLegal v = true → ∃ t, exec (.vsett d a) s = .next t ∧
    Writes { s with me := { s.me with vtype := v, vl := Nat.min s.me.vl new } } t d (BitVec.ofNat 64 new)) ∧
  (vtypeLegal v = false → exec (.vsett d a) s = .next (s.takeTrap (.of 0x08 v) s.me.pc true)) ∧
  (∃ t, exec (.vsetl d a) s = .next t ∧
    Writes { s with me := { s.me with vl := n } } t d (BitVec.ofNat 64 n)) ∧
  (∀ h rest, s.me.lq = h :: rest → ∃ t, exec (.vsetlLq d) s = .next t ∧
    WritesHeld { s with me := { s.me with lq := rest, vl := Nat.min h.toNat s.vlmax } } t d
      (BitVec.ofNat 64 (Nat.min h.toNat s.vlmax))) ∧
  (s.me.lq = [] → s.me.inFlight = false → ∃ t, exec (.vsetlLq d) s = .next t ∧
    WritesHeld { s with me := { s.me with vl := 0, lqUnd := true } } t d 0) ∧
  (s.me.inFlight = true →
    (s.me.lq = [] → exec (.vsetlLq d) s = .next { s with me := { s.me with wait := some .block } }) ∧
    exec .vdrain s = .next { s with me := { s.me with wait := some .block } }) ∧
  (s.me.inFlight = false → exec .vdrain s = .next (Passed s))

/-- R103, R104, R204, R424: VFETCH of a block that reads and validates, with no block of the hart there, captures VTYPE, VL
and the rounding mode, takes the bases from xd up (zeros for x0) and the launch's temporal levels with those of the loop table
behind them, and clears the progress indices. In a handler it drops a suspended block first; it waits for another one. A word
that fails validation and a block without VSTOP trap ILLEGAL, more than six levels or a loop table that breaks its rules
VTYPE. -/
def Obligations.VfetchLoadsABlock : Prop := ∀ (s s1 : State) (d a b : Reg) (ws : List (BitVec 64)),
  let va := s.x a
  let lt := s.x b
  let s0 : State := if s.me.inHandler = true ∧ s.me.tstat.getLsbD 1 = true then
    { s with me := { s.me with blk := none, tstat := s.me.tstat &&& ~~~2#64 } } else s
  let traps (s2 : State) (t : Trap) : Prop := exec (.vfetch d a b) s = .next (s2.settle.takeTrap t s2.me.pc true)
  (s0.me.blk ≠ none → exec (.vfetch d a b) s = .next { s0 with me := { s0.me with wait := some .block } }) ∧
  (s0.me.blk = none → va.toNat % 8 ≠ 0 → traps s0 (.sized 0x02 va 8)) ∧
  (s0.me.blk = none → va.toNat % 8 = 0 → readBlock 512 va s0 = .ok ws s1 →
    (∀ k, blockFails (tilesOf s.team.size) ws = some k → traps s1 (.of 0x01 (va + BitVec.ofNat 64 (8 * k)))) ∧
    (blockFails (tilesOf s.team.size) ws = none → ws.getLast? ≠ some vstopWord → traps s1 (.of 0x01 (va + 4096))) ∧
    (blockFails (tilesOf s.team.size) ws = none → ws.getLast? = some vstopWord → ∀ (table : List Level) (s2 : State),
      (if lt = 0 then table = [] ∧ s2 = s1 else readTable lt s1 = .ok table s2) →
      (6 < (s.temporal ++ table).length → traps s2 (.of 0x08 lt)) ∧
      ((s.temporal ++ table).length ≤ 6 → ∃ t blk, exec (.vfetch d a b) s = .next t ∧
        t = { s2 with me := { s2.me with blk := some blk, pixV := t.me.pixV, pixT := t.me.pixT, pc := s2.me.pc + 4,
                                         wait := none, answers := [] } } ∧
        (∀ k, k < 32 → t.me.pixV[k]? = some 0) ∧ (∀ k, k < 8 → t.me.pixT[k]? = some 0) ∧
        blk.addr = va ∧ blk.words = ws ∧ blk.idx = 0 ∧ blk.levels = s.temporal ++ table ∧ blk.vtype = s.me.vtype ∧
        blk.vl = s.me.vl ∧ blk.frm = s.me.fcsr.extractLsb' 0 3 ∧ blk.suspended = false ∧
        ∀ k, k < 4 → blk.bases[k]? = some (if d = 0 then 0 else s.x ⟨(d.val + k) % 32, Nat.mod_lt _ (by decide)⟩)))) ∧
  (∀ (n k cls cls' : Nat) (e e' : TlbEntry), lt.toNat % 16 = 0 → lt.toNat % 65536 + (16 + 32 * n) ≤ 65536 →
    Mapped s .fetch lt 16 k cls e → Mapped s .fetch (lt + 16) (32 * n) (k + 16) cls' e' → Clean s k (16 + 32 * n) →
    s.markPage e (some s.team.core) false = s → s.markPage e' (some s.team.core) false = s →
    let bs := s.bytesIn s.team.world k (16 + 32 * n)
    let count (l : Nat) : Nat := (dwordOf bs (16 + 32 * l)).toNat
    let good (l : Nat) : Prop := 0 < count l ∧ count l < 2 ^ 32 ∧ dwordOf bs (16 + 32 * l + 24) = 0
    (dwordOf bs 0 = 0 ∨ 6 < (dwordOf bs 0).toNat ∨ dwordOf bs 8 ≠ 0 → readTable lt s = .error (.trap (.of 0x08 lt)) s) ∧
    (dwordOf bs 0 = BitVec.ofNat 64 n → dwordOf bs 8 = 0 → 1 ≤ n → n ≤ 6 →
      ((∃ l, l < n ∧ ¬ good l) → readTable lt s = .error (.trap (.of 0x08 lt)) s) ∧
      ((∀ l, l < n → good l) → readTable lt s = .ok ((List.range n).map fun l =>
        { count := count l, strides := (List.range 4).map fun j =>
            (BitVec.ofNat 32 (leVal ((bs.drop (16 + 32 * l + 8 + 4 * j)).take 4))).signExtend 64 }) s)))

/-- R210, R217: TCFG of a legal operand sets the shape of its tile and no other, and an illegal one traps VTYPE; both wait
while words still to run of the block in flight name the tile. UNFS of a valid descriptor sets the unfolding unit, and an
invalid one traps ENGINE. -/
def Obligations.TileAndUnfoldConfiguration : Prop := ∀ (s s1 : State) (a : Reg) (parts : List (List Byte)) (u : Unfold),
  let v := s.x a
  let p := s.physTile (v.extractLsb' 16 3)
  (tcfgOk s.team.size v = true → s.me.blk = none → TileHere s p → ∃ t, exec (.tcfg a) s = .next t ∧
    t.team.tshape[p % 8]? = some (v.extractLsb' 0 16) ∧
    (∀ q, q < 8 → q ≠ p % 8 → t.team.tshape[q]? = s.team.tshape[q]?) ∧
    t = { s with me := { s.me with pc := s.me.pc + 4, wait := none, answers := [] }, cores := t.cores, fresh := t.fresh,
                 team := { s.team with tshape := t.team.tshape, slots := t.team.slots } }) ∧
  (tcfgOk s.team.size v = false → s.me.blk = none →
    exec (.tcfg a) s = .next (s.settle.takeTrap (.of 0x08 v) s.me.pc true)) ∧
  (∀ b word, s.me.blk = some b → b.suspended = false → word ∈ b.wordsLeft → tileName word = some (v.toNat / 2 ^ 16 % 8) →
    exec (.tcfg a) s = .next { s with me := { s.me with wait := some .hold } }) ∧
  (s.me.inFlight = false → v.toNat % 64 = 0 → ¬ (isWindow v = true ∧ (towerOf v = 3 ∨ towerOf v = 4)) →
    ((List.range 8).mapM fun k => loadBytes 0 (v + BitVec.ofNat 64 (8 * k)) 8) s = .ok parts s1 →
    (unfoldOf v (2 ^ vtW s.me.vtype) parts.flatten = some u →
      exec (.unfs a) s = .next (Passed { s1 with me := { s1.me with unf := some u } })) ∧
    (unfoldOf v (2 ^ vtW s.me.vtype) parts.flatten = none →
      exec (.unfs a) s = .next (s1.settle.takeTrap (.of 0x16 v) s1.me.pc true)))

/-- R351: a CSR instruction answers the old value in xd and writes X[xa] (CSRW), the old value with its bits set (CSRS) or
cleared (CSRC) by the rule of the register, the last two not for x0; CSRR writes nothing. -/
def Obligations.CsrWordsReadThenWrite : Prop := ∀ (s : State) (d a : Reg) (c : BitVec 11),
  let n := c.toNat
  let old := s.csrValue n
  let set := old ||| s.x a
  let clr := old &&& ~~~(s.x a)
  (csrKind n = .readOnly → ∃ t, exec (.csrr d c) s = .next t ∧
    WritesHeld (s.csrClock n) t d ((s.csrClock n).csrValue n)) ∧
  (csrKind n = .task → ((n = 4 ∨ n = 6 ∨ n = 7) → s.me.inFlight = false) →
  (∃ t, exec (.csrr d c) s = .next t ∧ WritesHeld s t d old) ∧
  ((n = 0 → vtypeLegal (s.x a) = true) → ∃ t, exec (.csrw d a c) s = .next t ∧
    WritesHeld (s.csrStore n (s.x a) (s.x a) false) t d old) ∧
  (a = 0 → (∃ t, exec (.csrs d a c) s = .next t ∧ WritesHeld s t d old) ∧
    ∃ t, exec (.csrc d a c) s = .next t ∧ WritesHeld s t d old) ∧
  (a ≠ 0 → (n = 0 → vtypeLegal set = true) → ∃ t, exec (.csrs d a c) s = .next t ∧
    WritesHeld (s.csrStore n set (s.x a) false) t d old) ∧
  (a ≠ 0 → (n = 0 → vtypeLegal clr = true) → ∃ t, exec (.csrc d a c) s = .next t ∧
    WritesHeld (s.csrStore n clr (s.x a) true) t d old))

/-- R38, R191, R197, R294, R351: what a write stores in a CSR: VL clamps to VLMAX, FCSR keeps its reserved fields and
stores 0 for RM 6 and 7, MSTK above 8 stores 8, TVEC and TREC keep their low bits 0, and TSTAT.OVR is cleared by a 1. -/
def Obligations.CsrFieldRules : Prop := ∀ (s : State) (v src : Word) (clr : Bool),
  ((s.csrStore 0x001 v src clr).me.vl = Nat.min (v.toNat % 2 ^ 32) s.vlmax) ∧
  (vtypeLegal v = true → (s.csrStore 0x000 v src clr).me.vtype = v ∧
    (s.csrStore 0x000 v src clr).me.vl = Nat.min s.me.vl (vlmaxOf s.team.size v)) ∧
  (∀ k, k < 64 → (s.csrStore 0x004 v src clr).me.fcsr.getLsbD k =
    (((k < 3 ∧ v.toNat % 8 < 6) ∨ (8 ≤ k ∧ k < 14) ∨ (16 ≤ k ∧ k < 22)) && v.getLsbD k)) ∧
  ((s.csrStore 0x007 v src clr).me.depth = Nat.min (v.toNat % 16) 8) ∧
  ((s.csrStore 0x040 v src clr).team.tvec = BitVec.ofNat 64 (v.toNat / 4 * 4)) ∧
  ((s.csrStore 0x044 v src clr).team.trec = BitVec.ofNat 64 (v.toNat / 4096 * 4096)) ∧
  ((s.csrStore 0x041 v src clr).me.tepc = v) ∧ ((s.csrStore 0x043 v src clr).me.tval = v) ∧
  ((s.csrStore 0x042 v src clr).me.tcause = BitVec.ofNat 64 (v.toNat % 65536)) ∧
  ((s.csrStore 0x045 v src false).me.tstat.getLsbD 5 = (s.me.tstat.getLsbD 5 && !src.getLsbD 5)) ∧
  (s.csrStore 0x045 v src true).me.tstat = s.me.tstat

/-- R298, R299, R302, R351, R90: TRAP and a word that is no instruction enter the handler of the team: TRAP saves the address
after itself, has its code as TVAL and suspends a block in flight, the other saves its own address and has the word as TVAL. An undefined selector and a
write of a read-only CSR are ILLEGAL with the word as TVAL, and a management CSR is PROTECT with the selector as TVAL:
nothing is written. A synchronous trap in a handler, and any trap of a team whose TVEC is 0, is a double fault. -/
def Obligations.TrapsEnterTheHandler : Prop := ∀ (s : State) (d a : Reg) (c : BitVec 11) (w : BitVec 32) (f : Trap)
    (resume : Word),
  let t (code : Nat) (v : Word) : State := s.settle.takeTrap (.of code v) s.me.pc true
  (csrKind c.toNat = .undefined →
    (encodeScalar (.csrr d c) = some w → exec (.csrr d c) s = .next (t 0x01 (w.setWidth 64))) ∧
    (encodeScalar (.csrw d a c) = some w → exec (.csrw d a c) s = .next (t 0x01 (w.setWidth 64))) ∧
    (encodeScalar (.csrs d a c) = some w → exec (.csrs d a c) s = .next (t 0x01 (w.setWidth 64))) ∧
    (encodeScalar (.csrc d a c) = some w → exec (.csrc d a c) s = .next (t 0x01 (w.setWidth 64)))) ∧
  (csrKind c.toNat = .management → exec (.csrr d c) s = .next (t 0x05 (BitVec.ofNat 64 c.toNat)) ∧
    exec (.csrw d a c) s = .next (t 0x05 (BitVec.ofNat 64 c.toNat)) ∧
    exec (.csrs d a c) s = .next (t 0x05 (BitVec.ofNat 64 c.toNat)) ∧
    exec (.csrc d a c) s = .next (t 0x05 (BitVec.ofNat 64 c.toNat))) ∧
  (csrKind c.toNat = .readOnly →
    (encodeScalar (.csrw d a c) = some w → exec (.csrw d a c) s = .next (t 0x01 (w.setWidth 64))) ∧
    (encodeScalar (.csrs d a c) = some w → exec (.csrs d a c) s = .next (t 0x01 (w.setWidth 64))) ∧
    (encodeScalar (.csrc d a c) = some w → exec (.csrc d a c) s = .next (t 0x01 (w.setWidth 64)))) ∧
  (s.team.versioned = false → s.me.inHandler = false → s.team.tvec ≠ 0 → s.team.trec = 0 →
    (∃ t, exec (.trap c) s = .next t ∧ Entered (BlockSuspended s) t 0x17 (BitVec.ofNat 64 c.toNat) (s.me.pc + 4)) ∧
    (∃ t, exec (.illegal w) s = .next t ∧ Entered s t 0x01 (BitVec.ofNat 64 w.toNat) s.me.pc)) ∧
  (s.team.versioned = false → (s.me.inHandler = true ∨ s.team.tvec = 0) →
    s.takeTrap f resume true = s.doubleFault f resume)

/-- R300: ERET in a handler goes to TEPC, clears IN, BLK, ENG, SIDE and DISC and keeps OVR; outside a handler it is
ILLEGAL. -/
def Obligations.EretReturns : Prop := ∀ (s : State),
  (s.me.inHandler = true → s.me.pixW = [] → ∃ t, exec .eret s = .next t ∧
    t = { s with me := { s.me with pc := s.me.tepc, tstat := t.me.tstat, blk := t.me.blk, wait := none,
                                   entry := none } } ∧
    (∀ k, k < 64 → t.me.tstat.getLsbD k = (decide (5 ≤ k) && s.me.tstat.getLsbD k)) ∧
    (s.me.tstat.getLsbD 1 = false → t.me.blk = s.me.blk) ∧
    (s.me.tstat.getLsbD 1 = true → s.me.blkFault = none →
      t.me.blk = s.me.blk.map fun b => { b with suspended := false })) ∧
  (s.me.inHandler = false →
    exec .eret s = .next (s.takeTrap (.of 0x01 0xFC002800) s.me.pc true))

/-! ### Vector words -/

/-- R205, R102, R105, R435, R204: VSTOP goes to the next point of the nest, innermost index fastest, or ends the block;
VSKZ passes over n words when the stack is not empty and its top has no active element below VL, and over none else. -/
def Obligations.BlockSteering : Prop := ∀ (s : State) (n : BitVec 16) (fl : Fl),
  (∀ (b : Block) (outer inner : List Level) (l : Level) (pre rest : List Nat) (i : Nat), s.me.blk = some b →
    b.levels = outer ++ l :: inner → b.index = pre ++ i :: rest → pre.length = outer.length → rest.length = inner.length →
    (∀ (k : Nat) (x : Level) (j : Nat), inner[k]? = some x → rest[k]? = some j → x.count ≤ j + 1) → i + 1 < l.count →
    exec .vstop s = .next { s with me := { s.me with blk := some { b with
      index := pre ++ (i + 1) :: rest.map (fun _ => 0), idx := 0, wait := none, answers := [] } } }) ∧
  (∀ b, s.me.blk = some b → b.index.length = b.levels.length →
    (∀ (k : Nat) (l : Level) (i : Nat), b.levels[k]? = some l → b.index[k]? = some i → l.count ≤ i + 1) →
    exec .vstop s = .next { s with me := { s.me with blk := none } }) ∧
  (∀ skip : Bool, (skip = true ↔ s.me.runs fl = true ∧ s.me.depth ≠ 0 ∧ ∀ i, i < s.me.vlNow → s.me.top.getLsbD i = false) →
    exec (.vskz n fl) s = .next { s with me := { s.me with blk := PastWords s.me (if skip then n.toNat else 0) } })

/-- R414 to R418, R191: the integer words set each active element below VL from PIX.v up to the exact result cut to the
width of the element: sums, differences, products and the high half, the lesser and the greater; bitwise words and VSEL
take codes of any type, and a shift takes its count modulo the width. VADDS and VSUBS clamp and raise OF, and trap FP after
it where OF is enabled. VCMP writes the outcome into a mask. An immediate is cut to the width. -/
def Obligations.VectorIntegerWords : Prop := ∀ (s : State) (vd va : Reg) (b : VSrc) (ms : BitVec 3) (q : VMod) (t : ETy),
  WordRuns s q t ([vd, va] ++ srcRegs b) →
  let w := t.w
  let x (i : Nat) : Nat := s.me.elem s.vlen va.val w i
  let y (i : Nat) : Nat := match b with
    | .reg v => s.me.elem s.vlen v.val w i
    | .imm k => (k.toInt % 2 ^ w).toNat
  let int (c : Nat) : Int := if t.fmt = 0 ∧ 2 ^ (w - 1) ≤ c then (c : Int) - 2 ^ w else (c : Int)
  let X (i : Nat) : Int := int (x i)
  let Y (i : Nat) : Int := int (y i)
  let cut (v : Int) : Nat := (v % 2 ^ w).toNat
  let lo : Int := if t.fmt = 0 then -(2 ^ (w - 1)) else 0
  let hi : Int := if t.fmt = 0 then 2 ^ (w - 1) - 1 else 2 ^ w - 1
  let clamp (v : Int) : Int := if v < lo then lo else if hi < v then hi else v
  let touched := Touches s q.msel (s.me.pix vd)
  let sets (i : Instr) (f : Nat → Nat) (fl : Flags) : Prop := ∃ u, exec i s = .next u ∧ SetsElements s u vd w touched f fl
  let spills (f : Nat → Int) : Flags := flagsOver s touched fun i => if clamp (f i) = f i then 0 else 0x04#6
  let clamps (i : Instr) (f : Nat → Int) : Prop := ∃ u, exec i s = .next (FpEnds s u (spills f)) ∧
    SetsElements s u vd w touched (fun i => cut (clamp (f i))) (spills f)
  (t.fmt ≤ 1 →
    sets (.vadd vd va b q) (fun i => cut (X i + Y i)) 0 ∧ sets (.vsub vd va b q) (fun i => cut (X i - Y i)) 0 ∧
    sets (.vmul vd va b q) (fun i => cut (X i * Y i)) 0 ∧ sets (.vmulh vd va b q) (fun i => cut (X i * Y i / 2 ^ w)) 0 ∧
    sets (.vmin vd va b q) (fun i => cut (if X i ≤ Y i then X i else Y i)) 0 ∧
    sets (.vmax vd va b q) (fun i => cut (if X i ≤ Y i then Y i else X i)) 0 ∧
    sets (.vsll vd va b q) (fun i => x i * 2 ^ (y i % w) % 2 ^ w) 0 ∧
    sets (.vsrl vd va b q) (fun i => x i / 2 ^ (y i % w)) 0 ∧
    sets (.vsra vd va b q) (fun i => cut ((BitVec.ofNat w (x i)).toInt / 2 ^ (y i % w))) 0 ∧
    clamps (.vadds vd va b q) (fun i => X i + Y i) ∧ clamps (.vsubs vd va b q) (fun i => X i - Y i) ∧
    ∀ (c : ICond) (md : Reg), 2 ≤ md.val → md.val < 8 → ∃ u, exec (.vcmp c md va b q) s = .next u ∧
      SetsMask s u md q.msel fun i => match c with
        | .eq => decide (X i = Y i)
        | .ne => decide (X i ≠ Y i)
        | .lt => decide (X i < Y i)
        | .ge => decide (Y i ≤ X i)
        | .le => decide (X i ≤ Y i)
        | .gt => decide (Y i < X i)) ∧
  sets (.vand vd va b q) (fun i => x i &&& y i) 0 ∧ sets (.vor vd va b q) (fun i => x i ||| y i) 0 ∧
  sets (.vxor vd va b q) (fun i => x i ^^^ y i) 0 ∧
  sets (.vsel vd va b ms q) (fun i => if (s.me.mask ms).getLsbD i then x i else y i) 0

/-- R420 to R423, R42 to R47: a floating-point word sets each active element to its operation on the exact values of the
operands, rounded once into the format by the word's rounding mode, raises the flags of every element, and traps FP after it
where one of them is enabled. VFCMP compares values; only UN holds of a NaN. VFCVT converts the code of each element, times
the scale of the element where it has one, into the destination type. Where the rules leave a bit or a flag of a result open, these are
the model's: log entries 8, 9, 32, 33 and 62 (an integer source). -/
def Obligations.VectorFloatingWords : Prop := ∀ (s : State) (vd va vb vc md : Reg) (rm : BitVec 3) (q : VMod) (t : ETy)
    (f : Fmt),
  let num (r : Reg) (i : Nat) : Machine.Num := t.value (s.me.elem s.vlen r.val t.w i)
  let touched := Touches s q.msel (s.me.pix vd)
  let mode := s.me.mode rm
  let sets (i : Instr) (w : Nat) (g : Nat → Nat × Flags) : Prop :=
    let fl := flagsOver s touched fun i => (g i).2
    ∃ u, exec i s = .next (FpEnds s u fl) ∧ SetsElements s u vd w touched (fun i => (g i).1) fl
  let once (x : Machine.Num × Flags) : Nat × Flags :=
    ((f.round t.sat mode x.1).1, x.2 ||| (f.round t.sat mode x.1).2)
  (4 ≤ t.fmt → t.float = some f →
    (WordRuns s q t [vd, va, vb] →
      sets (.vfadd vd va vb rm q) t.w (fun i => once (Machine.Num.add mode (num va i) (num vb i))) ∧
      sets (.vfsub vd va vb rm q) t.w (fun i => once (Machine.Num.add mode (num va i) (num vb i).neg)) ∧
      sets (.vfmul vd va vb rm q) t.w (fun i => once ((num va i).mul (num vb i))) ∧
      sets (.vfmin vd va vb rm q) t.w (fun i => f.round t.sat mode (Machine.Num.minmax false (num va i) (num vb i))) ∧
      sets (.vfmax vd va vb rm q) t.w (fun i => f.round t.sat mode (Machine.Num.minmax true (num va i) (num vb i))) ∧
      sets (.vfdiv vd va vb rm q) t.w (fun i => divRound f t.sat mode (num va i) (num vb i))) ∧
    (WordRuns s q t [vd, va, vb, vc] → sets (.vfma vd va vb vc rm q) t.w
      (fun i => once (sumProducts mode [[num va i, num vb i], [num vc i]]))) ∧
    (WordRuns s q t [vd, va] →
      sets (.vfsqrt vd va rm q) t.w (fun i => sqrtRound f t.sat mode (num va i)) ∧
      sets (.vfrsq vd va rm q) t.w (fun i => rsqrtRound f t.sat mode (num va i)) ∧
      sets (.vfexp2 vd va rm q) t.w (fun i => exp2Round f t.sat mode (num va i))) ∧
    (WordRuns s q t [va, vb] → 2 ≤ md.val → md.val < 8 → ∀ c : FCond, ∃ u, exec (.vfcmp c md va vb rm q) s = .next u ∧
      SetsMask s u md q.msel fun i =>
        if (num va i).isNan || (num vb i).isNan then c == .un
        else match c with
          | .eq => (num va i).cmp (num vb i) == .eq
          | .ne => (num va i).cmp (num vb i) != .eq
          | .lt => (num va i).cmp (num vb i) == .lt
          | .le => (num va i).cmp (num vb i) != .gt
          | .gt => (num va i).cmp (num vb i) == .gt
          | .ge => (num va i).cmp (num vb i) != .lt
          | .un => false)) ∧
  (∀ (p w : BitVec 3) (fc : BitVec 5) (k : BitVec 4),
    let d : ETy := { fmt := fc.toNat, w := 2 ^ w.toNat, p := p.toNat, infOn := s.me.vt.getLsbD 11, sat := s.me.vt.getLsbD 12 }
    WordRuns s q t [va, vd] → typeOk d.fmt w.toNat d.p = true → s.me.vlNow * d.w ≤ 8 * groupOf s.me.vt * s.vlen →
    (t.w = d.w ∨ vd.val + groupOf s.me.vt ≤ va.val ∨ va.val + groupOf s.me.vt ≤ vd.val) →
    (k.toNat < 8 → sets (.vfcvt vd va rm p w fc k q) d.w fun i =>
      if t.fmt ≤ 3 then d.ofIntSource mode (t.int (s.me.elem s.vlen va.val t.w i)) else d.round mode (num va i)) ∧
    (8 ≤ k.toNat → blockOf s.me.vt ≠ 0 → (∀ i, touched i = true → i / blockOf s.me.vt < scaleCount s.vlen) →
      sets (.vfcvt vd va rm p w fc k q) d.w fun i =>
        let x := (num va i).mul (s.me.scale s.vlen (k.toNat % 8) (i / blockOf s.me.vt))
        ((d.round mode x.1).1, x.2 ||| (d.round mode x.1).2)))

/-- R43, R41: a value that a format represents rounds to its own code with no flag, under every rounding mode: for f32,
f16 and bf16, and for the codes of every 8-bit format. -/
def Obligations.ValuesRoundToTheirOwnCodes : Prop := ∀ (f : Fmt) (bits p c : Nat) (io sat : Bool) (mode : RM),
  ((f = fmtF32 ∧ bits = 32) ∨ (f = fmtF16 ∧ bits = 16) ∨ (f = fmtBf16 ∧ bits = 16) ∨
    (1 ≤ p ∧ p ≤ 7 ∧ bits = 8 ∧ (f = fmtB8 p io ∨ f = fmtB8n p io))) →
  c < 2 ^ bits → (f.value c).isNan = false → f.round sat mode (f.value c) = (c, 0)

/-- R200 to R203, R430 to R433: VXCH, VPERM and VSLIDE move codes between elements; VRED puts the reduction of the active
elements into element 0, the least and the greatest of none leave it, and a sum that is rounded or clamped raises flags and
traps FP where one of them is enabled; VPOPC appends the count of active elements to the length queue, whose oldest entry is lost, with
OVF set, when it holds 16. -/
def Obligations.MovesAndReductions : Prop := ∀ (s : State) (vd va vb : Reg) (d : BitVec 16) (rm ms : BitVec 3) (fl : Fl)
    (q : VMod) (t : ETy),
  let n := s.me.vlNow
  let x (i : Nat) : Nat := s.me.elem s.vlen va.val t.w i
  let touched := Touches s q.msel 0
  let act := (List.range n).filter fun i => (s.me.mask q.msel).getLsbD i
  let moves (i : Instr) (f : Nat → Nat) : Prop := ∃ u, exec i s = .next u ∧ MovesElements s u vd t.w touched f
  let puts (op : RedOp) (w v : Nat) : Prop := ∃ u, exec (.vred op vd va rm q) s = .next u ∧
    MovesElements s u vd w (fun i => i == 0) fun _ => v
  let raises (op : RedOp) (w v : Nat) (fl : Flags) : Prop := ∃ u, exec (.vred op vd va rm q) s = .next (FpEnds s u fl) ∧
    u.me.fcsr = s.me.fcsr ||| (fl.zeroExtend 64 <<< 8) ∧
    MovesElements s { u with me := { u.me with fcsr := s.me.fcsr } } vd w (fun i => i == 0) fun _ => v
  let int (c : Nat) : Int := if t.fmt = 0 ∧ 2 ^ (t.w - 1) ≤ c then (c : Int) - 2 ^ t.w else (c : Int)
  let sum : Int := (act.map fun i => int (x i)).sum
  (WordRuns s q t [va, vd] →
    moves (.vxch vd va d q) (fun i => x (if i ^^^ d.toNat < n then i ^^^ d.toNat else i)) ∧
    moves (.vslide vd va d q) (fun i =>
      if 0 ≤ (i : Int) + d.toInt ∧ (i : Int) + d.toInt < n then x ((i : Int) + d.toInt).toNat else 0) ∧
    (t.fmt ≤ 1 → n ≠ 0 →
      puts .sum t.w (sum % 2 ^ t.w).toNat ∧
      puts .and t.w (act.foldl (fun acc i => acc &&& x i) (2 ^ t.w - 1)) ∧
      puts .or t.w (act.foldl (fun acc i => acc ||| x i) 0) ∧
      puts .xor t.w (act.foldl (fun acc i => acc ^^^ x i) 0) ∧
      (∀ m, m ∈ act → (∀ i, i ∈ act → int (x m) ≤ int (x i)) → puts .min t.w (x m)) ∧
      (∀ m, m ∈ act → (∀ i, i ∈ act → int (x i) ≤ int (x m)) → puts .max t.w (x m)) ∧
      (let lo : Int := if t.fmt = 0 then -(2 ^ (t.w - 1)) else 0
        let hi : Int := if t.fmt = 0 then 2 ^ (t.w - 1) - 1 else 2 ^ t.w - 1
        let v := if sum < lo then lo else if hi < sum then hi else sum;
        raises .sums t.w (v % 2 ^ t.w).toNat (if v = sum then 0 else 0x04#6))) ∧
    (n = 0 → (t.fmt ≤ 1 ∨ 4 ≤ t.fmt) → exec (.vred .sum vd va rm q) s =
      .next { s with me := { s.me with blk := PastWords s.me 0 } }) ∧
    ((t.fmt ≤ 1 ∨ 4 ≤ t.fmt) → act = [] → ∀ op, op = .min ∨ op = .max → exec (.vred op vd va rm q) s =
      .next { s with me := { s.me with blk := PastWords s.me 0 } }) ∧
    (4 ≤ t.fmt → n ≠ 0 →
      (let r := treeSum (s.me.mode rm) ((List.range n).map fun i =>
          if (s.me.mask q.msel).getLsbD i then (roundF32 .rne (t.value (x i))).1 else 0);
        raises .sum 32 r.1 r.2) ∧
      ∀ f m rest, t.float = some f → act.map (fun i => t.value (x i)) = m :: rest →
        puts .min t.w (f.round t.sat .rne (rest.foldl (Machine.Num.minmax false) m)).1 ∧
        puts .max t.w (f.round t.sat .rne (rest.foldl (Machine.Num.minmax true) m)).1)) ∧
  (WordRuns s q t [va, vd, vb] → moves (.vperm vd va vb q) fun i =>
    if s.me.elem s.vlen vb.val t.w i < n then x (s.me.elem s.vlen vb.val t.w i) else 0) ∧
  (s.me.runs fl = true →
    let count := ((List.range n).filter fun i => (s.me.mask ms).getLsbD i).length
    exec (.vpopc ms fl) s = .next { s with me := { s.me with
      lqOvf := s.me.lqOvf || decide (16 ≤ s.me.lq.length),
      lq := (if 16 ≤ s.me.lq.length then s.me.lq.drop 1 else s.me.lq) ++ [BitVec.ofNat 32 count],
      blk := PastWords s.me 0 } })

/-- R196, R198, R379, R380: MPUSH puts the top AND a mask above the top, MINV makes the top what is below it without the
top, MPOP drops the top, and MMOV copies a mask; each over the elements below VL, with zeros above. A full stack traps
MASK_STACK with 8 on MPUSH, an empty one with 0 on MINV and MPOP: the block is suspended and nothing else changes. -/
def Obligations.MaskWords : Prop := ∀ (s : State) (md ms : BitVec 3) (fl : Fl), s.me.runs fl = true → s.me.depth ≤ 8 →
  let n := s.me.vlNow
  let low (k : Nat) (b : Bool) : Bool := decide (k < n) && b
  let faults (i : Instr) (v : Word) : Prop := WordFaults i s 0x09 v
  let pushes (i : Instr) (depth e : Nat) (f : Nat → Bool) : Prop := ∃ u, exec i s = .next u ∧
    u = { s with me := { s.me with depth := depth, stk := u.me.stk, mmark := u.me.mmark, blk := PastWords s.me 0 } } ∧
    (∀ j, j < 8 → j ≠ e → u.me.stk[j]? = s.me.stk[j]?) ∧ ∀ k, k < 12288 → (u.me.stackAt e).getLsbD k = low k (f k)
  (s.me.depth < 8 → pushes (.mpush ms fl) (s.me.depth + 1) s.me.depth fun k => s.me.top.getLsbD k && (s.me.mask ms).getLsbD k) ∧
  (s.me.depth = 8 → faults (.mpush ms fl) 8) ∧
  (0 < s.me.depth → pushes (.minv fl) s.me.depth (s.me.depth - 1) fun k => s.me.belowTop.getLsbD k && !s.me.top.getLsbD k) ∧
  (0 < s.me.depth → exec (.mpop fl) s = .next { s with me := { s.me with depth := s.me.depth - 1, blk := PastWords s.me 0 } }) ∧
  (s.me.depth = 0 → faults (.minv fl) 0 ∧ faults (.mpop fl) 0) ∧
  (2 ≤ md.toNat → ∃ u, exec (.mmov md ms fl) s = .next u ∧
    u = { s with me := { s.me with m := u.me.m, mmark := u.me.mmark, blk := PastWords s.me 0 } } ∧
    (∀ j, j < 8 → j ≠ md.toNat → u.me.m[j]? = s.me.m[j]?) ∧
    ∀ x, u.me.m[md.toNat]? = some x → ∀ k, k < 12288 → x.getLsbD k = low k ((s.me.mask ms).getLsbD k))

/-- R425 to R429, R139, R151: when nothing holds or faults them, VLD and VLDX set the touched elements to what memory holds at
their places, for a bypass load or where the L1 of the core has no older copy, and VST and VSTX write each touched element there and no
other byte; an element narrower than a byte changes its own bits alone. -/
def Obligations.VectorMemoryWords : Prop := ∀ (s : State) (vd vb : Reg) (a : BitVec 2) (o : BitVec 16) (st : BitVec 3) (h : Hint)
    (x64 : Bool) (q : VMod) (t : ETy) (key cls : Nat → Nat) (e : Nat → TlbEntry),
  let w := t.w
  let z := Nat.max 1 (w / 8)
  let n := s.me.vlNow
  let world := s.team.world
  let touched := Touches s q.msel (s.me.pix vd)
  let el (i : Nat) : Nat := s.me.elem s.vlen vd.val w i
  let va := s.me.base a + o.signExtend 64
  let place (i : Nat) : Word := va + BitVec.ofNat 64 (i * w / 8)
  let indexed (i : Nat) : Word :=
    s.me.base a + BitVec.ofNat 64 (s.me.elem s.vlen vb.val (if x64 then 64 else 32) i * (w / 8))
  let span := n = 0 ∨ (isWindow va = false ∧ isWindow (va + BitVec.ofNat 64 ((n * w + 7) / 8 - 1)) = false)
  let still (i : Nat) (wr : Bool) : Prop := NoMark s (e i) (some s.team.core) wr
  let reads (at_ : Nat → Word) : Prop := ∀ i, touched i = true →
    Mapped s .load (at_ i) z (key i) (cls i) (e i) ∧ Clean s (key i) z ∧ still i false
  let lined (at_ : Nat → Word) (el : Nat → Nat) : Prop := ∃ line : Nat → Nat, ∀ i, touched i = true →
    key (el i) = line ((at_ i).toNat / 64) + (at_ i).toNat % 64
  let writes (at_ : Nat → Word) : Prop := s.me.enterBlock.partsMade = 0 ∧ lined at_ id ∧ ∀ i, touched i = true →
    Mapped s .store (at_ i) z (key i) (cls i) (e i) ∧ still i true ∧
    ∀ j, touched j = true → i ≠ j → key i + z ≤ key j ∨ key j + z ≤ key i
  let loaded (i : Instr) : Prop := ∃ u, exec i s = .next u ∧
    SetsElements { s with l1 := u.l1, poolOut := u.poolOut } u vd w touched
    (fun i => leVal (s.bytesIn world (key i) z) / 2 ^ (i * w % 8) % 2 ^ w) 0
  let kept (u : State) : Prop := u = { s with mem := u.mem, poolOut := u.poolOut, me := u.me,
                                              ue := u.ue, rowPoison := u.rowPoison, under := u.under,
                                              raws := u.raws, ce := u.ce, l1 := u.l1 } ∧
    (∃ no, u.me = { s.me with pixV := u.me.pixV, blk := (PastWords s.me 0).map fun b => { b with word := no } }) ∧
    ∀ r, r.val < 32 → u.me.pixV[r.val]? = if r = vd then some 0 else s.me.pixV[r.val]?
  let stored (i : Instr) : Prop := ∃ u, exec i s = .next u ∧ kept u ∧
    (∀ i, touched i = true → ∀ b, b < z → u.byteIn 0 (key i + b) = BitVec.ofNat 8 (el i / 256 ^ b)) ∧
    ∀ k, (∀ i, touched i = true → k < key i ∨ key i + z ≤ k) → u.byteIn 0 k = s.byteIn 0 k
  (s.side = [] → MemoryOk s → WordRuns s q t [vd] → va.toNat % Nat.min z 8 = 0 → span →
    (reads place → h = .bypass ∨ NoOlder s → loaded (.vld vd a o st h q)) ∧
    ((h = .sync → s.me.poolRefused = none) → world = 0 → 8 ≤ w → writes place → stored (.vst vd a o st h q)) ∧
    ((h = .sync → s.me.poolRefused = none) → world = 0 → w < 8 →
      s.me.enterBlock.partsMade = 0 → lined place (fun i => i * w / 8) →
      (∀ i, touched i = true → Mapped s .store (place i) 1 (key (i * w / 8)) (cls i) (e i) ∧ still i true) →
      (∀ x y, key x = key y → x = y) →
      ∃ u, exec (.vst vd a o st h q) s = .next u ∧ kept u ∧
        (∀ x b, b < 8 → (u.byteIn 0 (key x)).getLsbD b =
          if touched ((8 * x + b) / w) then (el ((8 * x + b) / w)).testBit (b % w) else (s.byteIn 0 (key x)).getLsbD b) ∧
        ∀ k, (∀ x, k ≠ key x) → u.byteIn 0 k = s.byteIn 0 k)) ∧
  (s.side = [] → MemoryOk s → WordRuns s q t [vd, vb] → 8 ≤ w → n * (if x64 then 8 else 4) ≤ groupOf s.me.vt * s.vlen →
    (∀ i, touched i = true → (indexed i).toNat % Nat.min z 8 = 0) →
    (reads indexed → h = .bypass ∨ NoOlder s → loaded (.vldx vd a vb st h x64 q)) ∧
    ((h = .sync → s.me.poolRefused = none) → world = 0 → writes indexed → stored (.vstx vd a vb st h x64 q)))

/-- R212 to R216, R381 to R383, R406, R407, R48, R49: on a configured tile that the team holds, TZERO zeroes the elements
of its shape from row PIX.t on; TROWW and TCOLW write the active elements of a register into a row or a column, TROWR and
TCOLR read them out; OPA adds to each element from row PIX.t on the dot product of its row of A and its row of B, and OPAG
does so for the pairs of rows that vc lists, each with the flags of its sums, whose enabled ones trap FP after it. Under U the
rows of A come from the unfolding unit, which reads zeros outside the activation (here from the scratchpads; the code of such an element is
0 in every type: log entry 25); under CS the doubleword at a3 is then 1 more. A tile without a shape traps TILE_UNCONFIG with its name, and
a slice index outside the shape, an element type that the tile does not take and an operand group too small for the shape trap
VTYPE, before any write. -/
def Obligations.TileWords : Prop := ∀ (s : State) (t : BitVec 3) (v va vb vc : Reg) (i : BitVec 4) (ix : Bool)
    (m rm : BitVec 3) (np k8 : BitVec 8) (fl : Fl) (ty : ETy) (un : Unfold),
  (∀ (a2 : Word) (w e x : Nat), s.side = [] → s.ue = [] → w ∈ [1, 2, 4, 8, 16] →
    let pos := a2.toNat / 2 ^ 16 % 2 ^ 32 + x
    let place (j : Nat) : Option Nat :=
      let n := a2.toNat % 2 ^ 16 * e + j
      let y : Int := ((pos / un.ow * un.sh + n / un.c / un.kw * un.dh : Nat) : Int) - un.pt
      let z : Int := ((pos % un.ow * un.sw + n / un.c % un.kw * un.dw : Nat) : Int) - un.pl
      if pos < un.oh * un.ow ∧ n < un.kh * un.kw * un.c ∧ 0 ≤ y ∧ y < un.h ∧ 0 ≤ z ∧ z < un.w then
        some (((y.toNat * un.w + z.toNat) * un.c + n % un.c) * w)
      else none
    let n := Nat.max 1 (w / 8)
    let va (b : Nat) : Word := un.base + BitVec.ofNat 64 (b / 8)
    let key (b i : Nat) : Option Nat := s.scratchKey s.team (va b + BitVec.ofNat 64 i)
    (∀ j b, j < e → place j = some b → (va b).toNat % n = 0 ∧ isWindow (va b) = true ∧ towerOf (va b) < 3 ∧
      ∀ i, i < n → (key b i).isSome = true) →
    unfoldRow un a2 w e x s = .ok ((List.range e).map fun j => match place j with
      | none => 0
      | some b => leVal ((List.range n).map fun i => ((key b i).map (Memory.read s.mem)).getD 0) / 2 ^ (b % 8) % 2 ^ w) s) ∧
  let p := s.physTile t
  let rows := shapeRows (s.slotOf p)
  let cols := shapeCols (s.slotOf p)
  let old (r c : Nat) : Nat := tileElem (s.tileAt p).data r c
  let at_ := i.toNat + if ix then s.me.inner else 0
  let act (j : Nat) : Bool := (s.me.mask m).getLsbD j
  let reg (j : Nat) : Nat := s.me.elem s.vlen v.val 32 j
  let from_ := s.me.pixOf t
  let tile (i : Instr) (f : Nat → Nat → Nat) : Prop := ∃ u, exec i s = .next u ∧ SetsTile s u p f
  let moves (i : Instr) (n : Nat) (f : Nat → Nat) : Prop := ∃ u, exec i s = .next u ∧
    MovesElements s u v 32 (fun j => decide (j < n) && act j) f
  (s.me.runs fl = true → shapeSet (s.slotOf p) = false → ∀ j,
    j ∈ [.tzero t fl, .troww t v i ix m fl, .trowr v t i ix m fl, .tcolw t v i ix m fl, .tcolr v t i ix m fl,
      .opa t va vb rm false false k8 fl, .opag t va vb vc rm false false np k8 fl] →
    WordFaults j s 0x07 (BitVec.ofNat 64 t.toNat)) ∧
  (s.me.runs fl = true → shapeSet (s.slotOf p) = true →
    (rows ≤ at_ → ∀ j, j ∈ [.troww t v i ix m fl, .trowr v t i ix m fl] → WordFaults j s 0x08 (BitVec.ofNat 64 at_)) ∧
    (cols ≤ at_ → ∀ j, j ∈ [.tcolw t v i ix m fl, .tcolr v t i ix m fl] → WordFaults j s 0x08 (BitVec.ofNat 64 at_)) ∧
    (let g := groupOf s.me.vt * s.vlen
     let both (x : Word) : Prop := ∀ j, j ∈ [.opa t va vb rm false false k8 fl, .opag t va vb vc rm false false np k8 fl] →
       WordFaults j s 0x08 x
     let taken := ty.w < 32 ∧ (shapeInt (s.slotOf p) = true → ty.fmt ≤ 3 ∧ vtSb s.me.vt = 0)
     ty = etyOf (vtWith s.me.vt 0) → typeOk ty.fmt (vtW s.me.vt) ty.p = true → va.val % groupOf s.me.vt = 0 →
     vb.val % groupOf s.me.vt = 0 → vc.val % groupOf s.me.vt = 0 →
     (¬ taken → both s.me.vt) ∧ (taken → g < rows * 384 → both (BitVec.ofNat 64 va.val)) ∧
     (taken → rows * 384 ≤ g → g < cols * 384 → both (BitVec.ofNat 64 vb.val)))) ∧
  (s.me.runs fl = true → shapeSet (s.slotOf p) = true → TileHere s p →
  tile (.tzero t fl) (fun r c => if from_ ≤ r ∧ r < rows ∧ c < cols then 0 else old r c) ∧
  (at_ < rows →
    tile (.troww t v i ix m fl) (fun r c => if r = at_ ∧ c < cols ∧ act c then reg c else old r c) ∧
    moves (.trowr v t i ix m fl) cols (fun j => old at_ j)) ∧
  (at_ < cols →
    tile (.tcolw t v i ix m fl) (fun r c => if c = at_ ∧ r < rows ∧ act r then reg r else old r c) ∧
    moves (.tcolr v t i ix m fl) rows (fun j => old j at_)) ∧
  (let e := 3072 / ty.w
    let g := groupOf s.me.vt * s.vlen
    let codes (r : Reg) (x : Nat) : List Nat := (List.range e).map fun k => s.me.elem s.vlen r.val ty.w (x * e + k)
    let fa := k8.extractLsb' 0 4
    let fb := k8.extractLsb' 4 4
    let factors (cs : List Nat) (field : BitVec 4) (x : Nat) : List (List Machine.Num) := (List.range e).map fun k =>
      ty.value (cs.getD k 0) :: ((s.me.scaleFor s.vlen field).map fun f => f (x * e + k)).toList
    let dot (as : Nat → List Nat) (acc : Nat × Flags) (x c : Nat) : Nat × Flags :=
      let y := if shapeInt (s.slotOf p) then dotI32 acc.1 (((as x).map ty.int).zip ((codes vb c).map ty.int))
        else dotF32 (s.me.mode rm) (256 / ty.w) acc.1
          (((factors (as x) fa x).zip (factors (codes vb c) fb c)).map fun f => f.1 ++ f.2)
      (y.1, acc.2 ||| y.2)
    let sums (as : Nat → List Nat) (pairs : List (Nat × Nat)) (r c : Nat) : Nat × Flags :=
      if c < cols then ((pairs.drop from_).filter (·.2 == r)).foldl (fun acc x => dot as acc x.1 c) (old r c, 0)
      else (old r c, 0)
    let raised (as : Nat → List Nat) (pairs : List (Nat × Nat)) : Flags :=
      (List.range rows).foldl (fun acc r => (List.range cols).foldl (fun acc c => acc ||| (sums as pairs r c).2) acc) 0
    let multiplies (i : Instr) (left : State) (as : Nat → List Nat) (pairs : List (Nat × Nat)) : Prop :=
      ∃ u, exec i s = .next (FpEnds s u (raised as pairs)) ∧ SetsTile left u p (fun r c => (sums as pairs r c).1) ∧
        u.me.fcsr = s.me.fcsr ||| ((raised as pairs).zeroExtend 64 <<< 8)
    let posted (left : State) : Prop := ∃ k cls en, (s.me.base 3).toNat % 8 = 0 ∧ Mapped s .atomic (s.me.base 3) 8 k cls en ∧
      cls ≠ 2 ∧ NoMark s en (some s.team.core) true ∧ Placeable s k 8 ∧
      left = s.storeOwn (s.me.base 3) k (leBytes 8 ((leVal (s.bytesIn s.team.world k 8) + 1) % 2 ^ 64))
    let scaled (field : BitVec 4) (xs : List Nat) : Prop := field.getLsbD 3 = true → blockOf s.me.vt ≠ 0 ∧
      ∀ x, x ∈ xs → ∀ k, k < e → (x * e + k) / blockOf s.me.vt < scaleCount s.vlen
    let scales (xs : List Nat) : Prop := scaled fa xs ∧ scaled fb (List.range cols)
    let quota := (s.coreAt s.team.core).matrix < s.matrixQuota s.team.core
    let list := (List.range (np.toNat + 1)).map fun x =>
      (s.me.elem s.vlen vc.val 16 (2 * x), s.me.elem s.vlen vc.val 16 (2 * x + 1))
    ty = etyOf (vtWith s.me.vt 0) → typeOk ty.fmt (vtW s.me.vt) ty.p = true → ty.w < 32 →
    (shapeInt (s.slotOf p) = true → ty.fmt ≤ 3 ∧ vtSb s.me.vt = 0) → quota → vtypeLegal s.me.vt = true →
    cols * 384 ≤ g → va.val % groupOf s.me.vt = 0 → vb.val % groupOf s.me.vt = 0 →
    let all := (List.range rows).map fun x => (x, x)
    let listed := vc.val % groupOf s.me.vt = 0 ∧ 4 * (np.toNat + 1) ≤ g ∧ scales (list.map (·.1)) ∧
      ∀ x, x ∈ list → 384 * x.1 + 383 < g ∧ x.2 < rows
    (rows * 384 ≤ g → (scales (List.range rows) → multiplies (.opa t va vb rm false false k8 fl) s (codes va) all) ∧
      (listed → multiplies (.opag t va vb vc rm false false np k8 fl) s (codes va) list)) ∧
    (∀ (as : Nat → List Nat), s.me.unf = some un →
      (∀ x cores h, unfoldRow un (s.me.base 2) ty.w e x { s with cores := cores, me := h } =
        .ok (as x) { s with cores := cores, me := h }) →
      (scales (List.range rows) → multiplies (.opa t va vb rm true false k8 fl) s as all) ∧
      (listed → multiplies (.opag t va vb vc rm true false np k8 fl) s as list) ∧
      ∀ left, posted left →
        (scales (List.range rows) → from_ < rows → multiplies (.opa t va vb rm true true k8 fl) left as all) ∧
        (listed → from_ < list.length → multiplies (.opag t va vb vc rm true true np k8 fl) left as list))))

/-- R281 to R286, R391, R392: SAADD queues one add, of the active elements of vs in the row that its address names, each
in units of 2^(-FRAC), or makes it at once where it traps FP after it; SANRM sets the active elements of vd to the normalised
row, poison where the row overflowed, once no add of its stream is outstanding. It traps FP after it for an enabled flag, and
SA_OVERFLOW for an overflowed row whose accumulator asks for that, FP first. Neither does anything where VL is 0. -/
def Obligations.AccumulatorWords : Prop := ∀ (s : State) (v : Reg) (a : BitVec 2) (o : BitVec 16) (st rm : BitVec 3)
    (q : VMod) (t : ETy) (acc : Sa) (row : SaRow) (f : Fmt),
  let va := s.me.base a + o.signExtend 64
  let first := va.toNat % 2 ^ 14
  let active := (List.range s.me.vlNow).filter fun i => (s.me.mask q.msel).getLsbD i
  (s.me.runs q.fl = true → s.me.vlNow = 0 → let past : State := { s with me := { s.me with blk := PastWords s.me 0 } }
    exec (.saadd v a o st q) s = .next past ∧ exec (.sanrm v a o st rm q) s = .next past) ∧
  (WordRuns s q t [v] → s.me.vlNow ≠ 0 → isWindow va = true → towerOf va = 3 → va.extractLsb' 39 4 = 0 →
  s.saAt s.team.launch (va.toNat / 2 ^ 33 % 64) (va.toNat / 2 ^ 29 % 16) = some acc →
  acc.rows[va.toNat / 2 ^ 14 % 2 ^ 15]? = some row → first + s.me.vlNow ≤ acc.len → acc.evicted = false →
  (s.team.world = 0 → ∀ sc : Nat → Option Machine.Num, saScale s = .ok sc s →
    let scaled (i : Nat) : Machine.Num × Flags := match sc i with
      | some k => (t.value (s.me.elem s.vlen v.val t.w i)).mul k
      | none => (t.value (s.me.elem s.vlen v.val t.w i), 0)
    let fl := active.foldl (fun x i => x ||| ((scaled i).2 ||| (saFix acc.frac (scaled i).1).2.2)) (0 : Flags)
    ∃ add, exec (.saadd v a o st q) s = .next (FpEnds s
      { (if fl &&& s.me.fcsr.extractLsb' 16 6 = 0 then { s with adds := s.adds ++ [add] } else s.applyBehind add : State) with
        me := { s.me with fcsr := s.me.fcsr ||| (fl.zeroExtend 64 <<< 8), blk := PastWords s.me 0 } } fl) ∧
    add.launch = s.team.launch ∧ add.cluster = va.toNat / 2 ^ 33 % 64 ∧ add.n = va.toNat / 2 ^ 29 % 16 ∧
    add.row = va.toNat / 2 ^ 14 % 2 ^ 15 ∧ add.team = s.team.no ∧ add.hart = s.me.idx ∧ add.stream = st.toNat ∧
    add.elems = active.map (fun i =>
      let x := saFix acc.frac (scaled i).1
      (first + i, x.1, x.2.1))) ∧
  (4 ≤ t.fmt → t.float = some f → s.addsPending (1#8 <<< st.toNat) = false →
    let fl := active.foldl (fun x i => x ||| (acc.out row f t.sat (s.me.mode rm) (first + i)).2) (0 : Flags)
    let ovf := Trap.of 0x12 va
    ∃ u, u.me.fcsr = s.me.fcsr ||| (fl.zeroExtend 64 <<< 8) ∧
      (row.ovf = false ∨ acc.ovfe = false → exec (.sanrm v a o st rm q) s = .next (FpEnds s u fl)) ∧
      (row.ovf = true → acc.ovfe = true → exec (.sanrm v a o st rm q) s = .next (
        if fl &&& s.me.fcsr.extractLsb' 16 6 = 0 then Suspends s u ovf
        else FpEnds s { u with me := { u.me with blkNext := some { ovf with src := .block s.me.wordAddr } } } fl)) ∧
      MovesElements s { u with me := { u.me with fcsr := s.me.fcsr } } v t.w (Touches s q.msel 0)
        fun i => (acc.out row f t.sat (s.me.mode rm) (first + i)).1))

/-- R279, R280, R283, R284, R290 to R292: SACFG with no rows takes its accumulator away and with rows makes it anew with
every row zero; SALOAD takes the row that an image holds and SASAVE writes images that read back as the rows; an add puts
exact deltas into its row. -/
def Obligations.AccumulatorState : Prop := ∀ (s : State) (n : Fin 16) (a : Reg) (k cls : Nat) (e : TlbEntry),
  let va := s.x a
  let l := s.team.launch
  let c := s.team.core / 4
  let seen := Seen s e k 32
  let d := saDesc (seen.bytesIn s.team.world k 32)
  let others := ((s.sas.filter fun x => x.launch == l && x.cluster == c && x.n != n.val).map Sa.foot).sum
  (s.team.world = 0 → va.toNat % 32 = 0 → Reaches s .load va 32 k cls e → Clean s k 32 →
    (d.ok = false → exec (.sacfg n a) s = .next (seen.settle.takeTrap (.of 0x16 va) s.me.pc true)) ∧
    (d.ok = true → (∀ x, s.launchAt l = some x → c ∉ x.saOut) → 0 < s.saReserved l c → others ≤ s.saReserved l c →
      s.saBusy l c n.val = false → s.saSaving l c n.val = false → (∀ x, s.saAt l c n.val = some x → x.evicted = false) →
      (d.rows = 0 → exec (.sacfg n a) s = .next (Passed (seen.dropSa l c n.val))) ∧
      (d.rows ≠ 0 → saFoot d.len d.rows d.ln + others ≤ s.saReserved l c → ∀ (g b : List (BitVec 32)) (s1 s2 : State),
        readGain d.gain d.len d.gtype 0x3F800000#32 seen = .ok g s1 → readGain d.bias d.len d.gtype 0 s1 = .ok b s2 →
        (d.gain = 0 → g = List.replicate d.len 0x3F800000#32) ∧ (d.bias = 0 → b = List.replicate d.len 0) ∧
        exec (.sacfg n a) s = .next (Passed (s2.setSa
          { launch := l, cluster := c, n := n.val, len := d.len, frac := d.frac, ln := d.ln, ovfe := d.ovfe, eps := d.eps,
            gain := g, bias := b, rows := List.replicate d.rows (.zero d.len), evicted := false }))))) ∧
  (∀ (x : Sa) (r : SaRow), s.saAt l c n.val = some x → x.rows = [r] → x.evicted = false → s.team.world = 0 →
    s.addsPending (BitVec.allOnes 8) = false → va.toNat % 32 = 0 → va.toNat % 65536 + (32 + 6 * x.len) ≤ 65536 →
    (MemoryOk s → Reaches s .store va (32 + 6 * x.len) k cls e → (x.image r).length = 32 + 6 * x.len →
      s.me.partsMade = 0 → NoMark s e (some s.team.core) true →
      (∀ i, i < 32 + 6 * x.len → s.xlate s.team.asid .store (va + BitVec.ofNat 64 i) = .at_ (k + i) cls e ∧
        s.accessHeld (k + i) 64 e (some s.team.core) true = false) →
      ∃ t, exec (.sasave n a) s = .next t ∧ t.bytesIn 0 k (32 + 6 * x.len) = x.image r ∧
        (∀ j, (j < k ∨ k + (32 + 6 * x.len) ≤ j) → t.byteIn 0 j = s.byteIn 0 j) ∧
        t.me = { s.me with pc := s.me.pc + 4, wait := none, answers := [], saving := none }) ∧
    (Reaches s .load va (32 + 6 * x.len) k cls e → Clean s k (32 + 6 * x.len) → ∀ r',
      let read := Seen s e k (32 + 6 * x.len)
      x.rowOf (read.bytesIn 0 k (32 + 6 * x.len)) = some r' →
      exec (.saload n a) s = .next (Passed (read.setSa { x with rows := [r'] })))) ∧
  (∀ (x : Sa) (r : SaRow), x.len < 65536 → x.frac < 256 → r.x.length = x.len →
    (∀ v, v ∈ r.x → -(2 ^ 47) ≤ v ∧ v < 2 ^ 47) → r.t = r.x.sum → r.s = (r.x.map fun v => v.natAbs ^ 2).sum →
    x.rowOf (x.image r) = some r) ∧
  (∀ (r : SaRow) (i : Nat) (v : Int) (bad : Bool), i < r.x.length → r.t = r.x.sum →
    r.s = (r.x.map fun v => v.natAbs ^ 2).sum →
    let y := r.addAt i v bad
    y.t = y.x.sum ∧ y.s = (y.x.map fun v => v.natAbs ^ 2).sum ∧ y.x.length = r.x.length ∧
    ∀ j, j < r.x.length → y.x[j]? = if j = i then
      (r.x[i]?).map (fun o => if o + v < -(2 ^ 47) then -(2 ^ 47) else if 2 ^ 47 - 1 < o + v then 2 ^ 47 - 1 else o + v)
      else r.x[j]?)

/-! ### Row programs and bank expressions -/

/-- R220 to R223, R329, R354, R377, R390, R411: AAP, LSHF, RSHF and DNOT give the destination of every member of the wave
its source row, as it is, a lane down, a lane up or inverted; DNOT leaves the source in c2. TRA puts the majority of the
three temporaries other than the named one into all three. No other row of a member changes. No row carries an error. -/
def Obligations.RowWordsActOnEveryMember : Prop := ∀ (s : State) (r : Run) (rest : List Run) (src dst : RowRef) (k : BitVec 2),
  RowsRun s r rest → r.subs.Nodup → s.ue = [] → s.ce = [] → s.rowPoison = [] → MemoryOk s →
  let goes (u : State) (r' : Run) : Prop := u = { s with runs := r' :: rest, crows := u.crows, mem := u.mem,
                                                                under := u.under, raws := u.raws, fresh := u.fresh } ∧
    r' = { r with pc := r.pc + 1, atStep := false, checked := r'.checked, stale := r'.stale, shadow := r'.shadow }
  let moves (i : Instr) (f : Row → Row) : Prop := ∃ u r', exec i s = .next u ∧ goes u r' ∧
    (∀ m, m ∈ r.wave → rowSeen u r' m dst = f (rowSeen s r m src)) ∧
    ∀ m ref, rowThere r ref → (m ∉ r.wave ∨ rowPlace r ref ≠ rowPlace r dst) → rowSeen u r' m ref = rowSeen s r m ref
  rowThere r src → rowThere r dst → rowDestOk dst = true →
  moves (.aap src dst) id ∧ moves (.lshf src dst) (fun v => v >>> 1) ∧ moves (.rshf src dst) (fun v => v <<< 1) ∧
  (∃ u r', exec (.dnot src dst) s = .next u ∧ goes u r' ∧
    (∀ m, m ∈ r.wave → rowSeen u r' m dst = ~~~(rowSeen s r m src) ∧
      (rowPlace r dst ≠ (true, 2) → u.compRow m 2 = rowSeen s r m src)) ∧
    ∀ m ref, rowThere r ref → (m ∉ r.wave ∨ (rowPlace r ref ≠ rowPlace r dst ∧ rowPlace r ref ≠ (true, 2))) →
      rowSeen u r' m ref = rowSeen s r m ref) ∧
  (∃ u r', exec (.tra k) s = .next u ∧ goes u r' ∧
    (∀ m, m ∈ r.wave → ∀ p q x : Fin 16, [p, q, x] = [4, 5, 6, 7].filter (fun n : Fin 16 => n.val != 4 + k.toNat) →
      let v := (s.compRow m p &&& s.compRow m q) ||| (s.compRow m p &&& s.compRow m x) ||| (s.compRow m q &&& s.compRow m x)
      u.compRow m p = v ∧ u.compRow m q = v ∧ u.compRow m x = v) ∧
    ∀ m ref, (m ∉ r.wave ∨ ∀ n : Fin 16, ref = .comp n → n.val < 4 ∨ 7 < n.val ∨ n.val = 4 + k.toNat) →
      rowSeen u r' m ref = rowSeen s r m ref)

/-- R224, R229, R230, R358, R364, R375, R402: LOOPW opens a loop of its count, or of WCOUNT for 0; ENDW adds 1 to the bases of
the loop's mask and goes back while passes are left; STEP lets postponed refreshes of the wave's banks happen; HALT ends
the wave, once no refresh of its banks is postponed by another wave, and with the last one the program, whose command has
then been performed, while no write of the device itself waits for the rows (R183). -/
def Obligations.RowControlWords : Prop := ∀ (s : State) (r : Run) (rest : List Run) (c : BitVec 5) (m : BitVec 7),
  RowsRun s r rest →
  let with_ (r' : Run) : State := { s with runs := r' :: rest }
  let passes := if c = 0 then r.wcount else c.toNat
  exec (.loopw c m) s = .next (with_ { r with pc := r.pc + 1, atStep := false, loops := (r.pc + 1, passes, m) :: r.loops }) ∧
  (r.loops = [] → exec .endw s = .next (with_ { r with pc := r.pc + 1 })) ∧
  (∀ at_ left mask outer, r.loops = (at_, left, mask) :: outer → ∃ bases,
    (∀ j : Nat, j < 7 → bases[j]? = (r.bases[j]?).map fun b => if mask.getLsbD j then b + 1 else b) ∧
    bases.length = r.bases.length ∧
    exec .endw s = .next (with_ (if 1 < left then
      { r with bases := bases, atStep := false, pc := at_, loops := (at_, left - 1, mask) :: outer }
      else { r with bases := bases, atStep := false, pc := r.pc + 1, loops := outer }))) ∧
  (∃ u, exec .step s = .next u ∧ u = { with_ { r with pc := r.pc + 1, atStep := true } with refreshes := u.refreshes } ∧
    ∀ b, b ∈ u.refreshes ↔ b ∈ s.refreshes ∧ ∃ x, x ∈ rest ∧ x.live = true ∧ x.atStep = false ∧ x.halted = false ∧
      ∃ sub, sub ∈ x.wave ∧ sub / 128 = b) ∧
  (let postponed (b : Nat) : Prop := b ∈ s.refreshes ∧ ∃ x, x ∈ rest ∧ x.live = true ∧ x.atStep = false ∧ x.halted = false ∧
      ∃ sub, sub ∈ x.wave ∧ sub / 128 = b
    let waits : Prop := ∃ sub, sub ∈ r.wave ∧ postponed (sub / 128)
    let quiet : Prop := s.late = [] ∧ ∀ t x, x ∈ (s.pctlAt t).reqs → x.posted = true
    (waits → ∃ u, exec .halt s = .next u ∧ u = { with_ { r with halted := true } with refreshes := u.refreshes }) ∧
    (¬ waits → quiet → ∀ o, rest.find? (·.cid == r.cid) = some o → ∃ u, exec .halt s = .next u ∧ u.mem = s.mem ∧
      u.crows = s.crows ∧ u.cmds = s.cmds ∧
      u.runs = rest.map fun x => if x.same o then { o with bad := o.bad ++ r.bad, shadow := o.shadow ++ r.shadow } else x) ∧
    (¬ waits → quiet → (∀ x, x ∈ rest → x.cid ≠ r.cid) → r.bad = [] → r.tx = false →
      ∀ cmd, s.cmds.find? (·.cid == r.cid) = some cmd → ∃ u cmd', exec .halt s = .next u ∧ u.runs = rest ∧ u.mem = s.mem ∧
        u.crows = s.crows ∧ u.cmds.find? (·.cid == r.cid) = some cmd' ∧ cmd'.finished = true ∧ cmd'.fault = cmd.fault ∧
        (∀ g, g ∈ u.ue ↔ g ∈ s.ue ∧ ∀ sub row, (sub, row) ∈ r.stale → g / 64 ≠ sub * 1024 + row)))

/-- R238 to R240, R244, R355, R356: an operator of a bank expression pops its values off the stack, the last pushed on
top, and pushes its result rounded to f32 by RNE; E.SUMR, E.MAXR and E.STO take the value of the element and go on to the
next, the last of which ends the expression. No burst carries an error. -/
def Obligations.ExpressionOperators : Prop := ∀ (s : State) (r : ExprRun) (rest : List ExprRun) (c : Cmd) (k : BitVec 2)
    (kind : BitVec 4) (p : BitVec 3) (x y z : BitVec 32) (st : List (BitVec 32)),
  s.exprs = r :: rest → (∀ e, e ∈ rest → e.cid ≠ r.cid) → r.live = true → r.ended = false → s.cmdAt r.cid = some c →
  s.ue = [] → s.ce = [] → s.rowPoison = [] →
  let b := bxlArgs c.args
  let num (v : BitVec 32) : Machine.Num := fmtF32.value v.toNat
  let goes (i : Instr) (n : Nat) (st' : List (BitVec 32)) (fl : Flags) : Prop := exec i s = .next { s with
    exprs := { r with rest := r.rest.drop n, stack := st', flags := r.flags ||| fl } :: rest }
  let once (i : Instr) (v : Machine.Num × Flags) : Prop := goes i 1 (BitVec.ofNat 32 (roundF32 .rne v.1).1 :: st)
    (v.2 ||| (roundF32 .rne v.1).2)
  let element (va : Word) (map : List (Word × Nat)) : BitVec 32 := BitVec.ofNat 32 (roundF32 .rne (b.otype.value
    (leVal (s.dramBytes (keyIn map (va + BitVec.ofNat 64 (r.elem * b.osize))) b.osize)))).1
  let ends (i : Instr) (good : ExprRun → Prop) : Prop := ∃ r', good r' ∧ r'.elem = r.elem + 1 ∧ r'.stack = [] ∧
    (r.elem + 1 < b.count → r'.ended = false ∧ r'.rest = r.ops ∧ exec i s = .next { s with exprs := r' :: rest }) ∧
    (b.count ≤ r.elem + 1 → r'.ended = true ∧ exec i s = .next (State.closeExpr { s with exprs := r' :: rest } r'))
  (r.stack = st →
    goes .eLda 1 (element b.a r.aMap :: st) 0 ∧ goes .eLdb 1 (element b.b r.bMap :: st) 0 ∧
    goes (.eLdk k) 2 (r.consts.getD k.toNat 0 :: st) 0) ∧
  (r.stack = z :: st →
    once .eAbs ((num z).abs, 0) ∧ once .eNeg ((num z).neg, 0) ∧ goes .eDup 1 (z :: z :: st) 0 ∧ goes .eDrop 1 st 0 ∧
    (let t := kindType kind.toNat p.toNat (b.q.getLsbD 32) (b.q.getLsbD 33)
      let v := t.round .rne (num z)
      goes (.eCvt kind p) 2 (BitVec.ofNat 32 (roundF32 .rne (t.value v.1)).1 :: st) (v.2 ||| (roundF32 .rne (t.value v.1)).2)) ∧
    ends .eSto (fun r' => r'.out = r.out ++ [leBytes (b.rtype.w / 8) (b.rtype.round .rne (num z)).1] ∧
      r'.flags = r.flags ||| (b.rtype.round .rne (num z)).2) ∧
    (let start := if b.acc then r.accs[r.elem / b.segment]? else none
      let closes := (r.elem + 1) % b.segment = 0 ∨ r.elem + 1 = b.count
      ends .eMaxr (fun r' =>
        let v := match r.acc.or start with
          | some a => BitVec.ofNat 32 (roundF32 .rne (Machine.Num.minmax true (num a) (num z))).1
          | none => BitVec.ofNat 32 (roundF32 .rne (num z)).1
        if closes then r'.acc = none ∧ r'.out = r.out ++ [leBytes 4 v.toNat] else r'.acc = some v ∧ r'.out = r.out) ∧
      ends .eSumr (fun r' =>
        let terms := r.terms ++ [z]
        let v := groupStep .rne (((r.acc.or start).getD 0).toNat, 0) (terms.map fun t => [num t])
        if closes then r'.terms = [] ∧ r'.acc = none ∧ r'.out = r.out ++ [leBytes 4 (v.1 % 2 ^ 32)] ∧
          r'.flags = r.flags ||| v.2
        else if (r.elem + 1) * b.osize % 32 = 0 then r'.terms = [] ∧ r'.acc = some (BitVec.ofNat 32 v.1) ∧
          r'.out = r.out ∧ r'.flags = r.flags ||| v.2
        else r'.terms = terms ∧ r'.acc = r.acc ∧ r'.out = r.out ∧ r'.flags = r.flags))) ∧
  (r.stack = z :: y :: st →
    once .eAdd (Machine.Num.add .rne (num y) (num z)) ∧ once .eSub (Machine.Num.add .rne (num y) (num z).neg) ∧
    once .eMul ((num y).mul (num z)) ∧ once .eMin (Machine.Num.minmax false (num y) (num z), 0) ∧
    once .eMax (Machine.Num.minmax true (num y) (num z), 0) ∧ goes .eSwap 1 (y :: z :: st) 0 ∧
    goes .eCmplt 1 ((if num y = .poison ∨ num z = .poison then 0x7FE00001#32
      else if (num y).isNan ∨ (num z).isNan then 0
      else if (num y).cmp (num z) = .lt then 0x3F800000#32 else 0) :: st) 0) ∧
  (r.stack = z :: y :: x :: st →
    once .eFma (sumProducts .rne [[num x, num y], [num z]]) ∧
    goes .eSel 1 ((match num z with
      | .poison => 0x7FE00001#32
      | .nan | .zero _ => y
      | _ => x) :: st) 0)

/-! ### Host queues and launches -/

/-- R72 to R75, R80, R344: what each packet does to its queue before the queue looks at its signals and its next packet:
the head moves past the packet's units, and BIND sets the table, CONFIG the deadline or the gang table, WAIT what the queue
waits for, SIGNAL the value to be written, and COPY issues a copy command. A doorbell sets the tail and a restart clears
the halt. -/
def Obligations.QueuePackets : Prop := ∀ (s : State) (q : Nat) (a v : Word),
  let c := s.queueAt q
  let ring := 16 * 2 ^ (c.size.toNat % 32)
  let past (n : Nat) (d : Queue) : Queue :=
    { d with head := BitVec.ofNat 64 ((c.head.toNat % ring + 16 * n) % ring), seen := none, hold := [], answers := [] }
  let then_ (i : Instr) (s1 : State) (d : Queue) : Prop := exec i s = .next (State.kickQueue (s1.setQueue q d) q)
  let open_ := (s.launches.filter fun l => l.queue == q && !l.complete).map (·.id)
  let asid := (c.seen.map (·.1)).getD (c.size.extractLsb' 48 16)
  exec (.qtailDoorbell q v) s = .next (State.frontEnd (s.setQueue q { c with tail := v }) q) ∧
  exec (.queueRestart q) s = .next (State.frontEnd (s.setQueue q { c with halted := false }) q) ∧
  then_ (.nop q) s (past (s.headLen q) c) ∧
  then_ (.bind q a) s (past 2 { c with bound := some a }) ∧
  then_ (.configDeadline q v) s (past 2 { c with deadline := v.toNat }) ∧
  then_ (.signal q a v) s
    (past 2 { c with signals :=
      c.signals ++ [{ counter := a, value := v, asid := asid, launches := open_, copies := c.copies }] }) ∧
  ((∀ x, x ∈ s.cmds → x.cid ≠ s.nextCmd) → ∃ cmd : Cmd,
    then_ (.copy q a) { s with cmds := s.cmds ++ [cmd], nextCmd := s.nextCmd + 1 }
      (past 2 { c with copies := c.copies ++ [s.nextCmd] }) ∧
    cmd.cid = s.nextCmd ∧ cmd.kind = 0 ∧ cmd.args = [a] ∧ cmd.queue = some q ∧ cmd.asid = asid ∧
    cmd.seq = c.head.toNat % ring ∧
    (if a.toNat % 32 = 0 then cmd.started = false ∧ cmd.finished = false ∧ cmd.fault = none
      else cmd.finished = true ∧ ∃ t, cmd.fault = some t ∧ t.code = 0x02 ∧ t.tval = a)) ∧
  (∀ ts, gangEntries q asid a s = .ok ts s → then_ (.configGangTable q a) s (past 2 { c with gangTable := ts })) ∧
  (isWindow a = true → towerOf a = 4 →
    let n := s.counterOf (a.toNat / 512 % 2 ^ 23) (a.toNat / 64 % 8) (a.toNat / 8 % 8)
    then_ (.wait q a v) s (past 2 (if v.toNat ≤ n then c else { c with blockedOn := some (a, v, asid) })) ∧
    (∀ space, c.blockedOn = some (a, v, space) →
      (v.toNat ≤ n → then_ (.packetWaitDone q) s { c with blockedOn := none, hold := [], answers := [] }) ∧
      (n < v.toNat → exec (.packetWaitDone q) s = .next s))) ∧
  (isWindow a = false → ∀ (k cls : Nat) (e : TlbEntry) (space : BitVec 16), s.xlate space .load a = .at_ k cls e →
    a.toNat % 8 = 0 → s.markPage e none false = s → s.accessHeld k 8 e none false = false →
    (isPool k = true → s.poolOut = []) → (space = asid → then_ (.wait q a v) s
      (past 2 (if v.toNat ≤ leVal (s.bytesIn 0 k 8) then c else { c with blockedOn := some (a, v, asid) }))) ∧
    (c.blockedOn = some (a, v, space) → v.toNat ≤ leVal (s.bytesIn 0 k 8) →
      then_ (.packetWaitDone q) s { c with blockedOn := none, hold := [], answers := [] })) ∧
  (c.blockedOn = none → exec (.packetWaitDone q) s = .next s)

/-- R66 to R71, R76, R180, R181. LAUNCH completes for every state: it waits for a page or for room in the handle table, or it is
taken, and then a refused launch has completed with its status and an accepted one is entered with what it depends on and
placed at once when that is nothing incomplete. In particular the launch of a kernel record that keeps its rules, with an empty
binding table and no ranges, is entered with its record's code when some cluster's capacity covers it. A record or a table that
cannot be read refuses the launch with ENGINE (log entry 49), and the copy of a record that names a short binding's mask is log entry
50. LAUNCH_READY completes too: it places a held launch once what it depends on is complete, the launch having started when the clusters that cover it
have room, and leaves another one alone. -/
def Obligations.LaunchesAreAcceptedAndPlaced : Prop := ∀ (s : State) (q : Nat) (kernel frame counter value : Word),
  let c := s.queueAt q
  let s0 := if c.period.toNat % 2 ^ 32 ≠ 0 ∧ c.begun = none ∧ c.gangEn = false then
    State.beginPeriod s.passTime q s.passTime.time else s
  let i := Instr.launch q kernel frame counter value
  let l := newLaunch s0 q frame counter value
  let taken (s1 : State) : State := State.tookPacket s1 q 3
  let refused (s1 : State) (status : Nat) : State := taken ((s1.addLaunch l).failLaunch l.id status 0 0 l.offset)
  (∀ s1, acceptLaunch l kernel s0 = .error .bad s1 → exec i s = .next (refused s1 0x16)) ∧
  (∀ s1 status, acceptLaunch l kernel s0 = .ok (.inl (.status status)) s1 → exec i s = .next (refused s1 status)) ∧
  (∀ s1 mask, acceptLaunch l kernel s0 = .ok (.inl (.short mask)) s1 →
    exec i s = .next (taken ((s1.addLaunch l).failShort l mask))) ∧
  (∀ s1, acceptLaunch l kernel s0 = .error .wait s1 → exec i s = .next s1) ∧
  (∀ s1 l1, acceptLaunch l kernel s0 = .ok (.inr l1) s1 →
    let t := s1.freeHandles
    let room := t.length + (l1.uses.filter fun u => !(t.any (·.handle == u.1))).length ≤ 8192
    let r := l1.uses.foldl (fun x u => enterHandle l1.id x.1 x.2 u.1 u.2) ([], t)
    let l2 := { l1 with deps := r.1.filter s1.launchOpen }
    let s2 : State := { s1.addLaunch l2 with handles := r.2 }
    (¬ room → exec i s = .next s1) ∧
    (room → exec i s = .next (taken (if l2.deps = [] then s2.placeLaunch l2 else s2)))) ∧
  (l.id = s0.nextLaunch ∧ l.queue = q ∧ l.frame = frame ∧ l.counter = counter ∧ l.value = value ∧ l.placed = false ∧
    l.complete = false) ∧
  (∀ (k cls k' cls' : Nat) (e e' : TlbEntry),
    let bs := s.bytesIn 0 k 256
    let table := dwordOf bs 16
    s0 = s → kernel.toNat % 64 = 0 → isWindow kernel = false → kernel.toNat % 65536 + 256 ≤ 65536 →
    s.xlate l.asid .load kernel = .at_ k cls e → s.accessHeld k 256 e none false = false → s.markPage e none false = s →
    s.poolOut = [] →
    kernelOk bs = true → dwordOf bs 32 = 0 → table ≠ 0 → isWindow table = false → table.toNat % 65536 + 8 ≤ 65536 →
    s.xlate l.asid .load table = .at_ k' cls' e' → s.accessHeld k' 8 e' none false = false → s.markPage e' none false = s →
    (∀ j, j < 8 → s.byteIn 0 (k' + j) = 0) → s.freeHandles.length ≤ 8192 → (∀ x, x ∈ s.launches → x.id ≠ s.nextLaunch) →
    (∃ j, j < 64 ∧ s.covers { l with spneed := (dwordOf bs 40).toNat % 2 ^ 32, saneed := (dwordOf bs 40).toNat / 2 ^ 32 } j) →
    ∃ t l', exec i s = .next t ∧ t.nextLaunch = s.nextLaunch + 1 ∧ t.launchAt s.nextLaunch = some l' ∧ l'.queue = q ∧
      l'.frame = frame ∧ l'.counter = counter ∧ l'.value = value ∧ l'.code = dwordOf bs 0) ∧
  (∀ n x, s.launchAt n = some x →
    (x.placed = false → x.complete = false → (∀ d, d ∈ x.deps → ∀ y, s.launchAt d = some y → y.complete = true) →
      exec (.launchReady n) s = .next (s.placeLaunch x) ∧
      ((∀ k, k ∈ x.clusters → (s.clusterAt k).target = none ∧ (s.covers x k = true → s.hasRoom x k = true)) →
        (∃ k, k ∈ x.clusters ∧ s.covers x k = true) → ∃ t x', exec (.launchReady n) s = .next t ∧
          t.launchAt n = some x' ∧ x'.placed = true ∧ x'.started = true ∧ x'.code = x.code)) ∧
    (x.placed = true ∨ x.complete = true ∨ (∃ d y, d ∈ x.deps ∧ s.launchAt d = some y ∧ y.complete = false) →
      exec (.launchReady n) s = .next s)) ∧
  (∀ n, s.launchAt n = none → exec (.launchReady n) s = .next s)

/-! ### Scheduling -/

/-- R53, R54, R58 to R61, R72, R76 to R83, R87, R249, R268, R301, R403: a period begins with the values written since and a full budget; a queue
that has used its budget is demoted and reported; acorns that were held or watched go to their deques once there is room and
their counters allow it; an idle core steals: the acorn leaves its deque, and its task's team stands at the acorn's code with the entry
registers on the core, in whose L1 no shared line is left; a team that only waits is swapped out and comes back; a hart whose wait is
over goes on; work of an earlier deadline takes the core of the latest work when no core of its binding set is idle; a fork
whose rivals have ended gets its continuation; a lost core's task is lost; and a pending fault is taken. -/
def Obligations.SchedulingEvents : Prop := ∀ (s : State) (q m k core team hart : Nat) (p : Word),
  let c := s.queueAt q
  let s1 : State := { s with gangrdy := (s.gangrdy.filter fun x => x.1 != (q, m)) ++ [((q, m), p)] }
  (∀ t, c.period.toNat % 2 ^ 32 ≠ 0 → c.begun = some t → c.newGang.getLsbD 63 = false →
    let t' := t + c.period.toNat % 2 ^ 32 * 1000
    let n := c.newPeriod.toNat % 2 ^ 32
    exec (.periodStart q) s = .next ((s.timeTo t').setQueue q { c with
      period := c.newPeriod, budget := c.newBudget, gang := c.newGang, demoted := false, slice := .none,
      begun := if n = 0 then none else some t', left := if n = 0 then 0 else c.newBudget.toNat % 2 ^ 32 * 1000 })) ∧
  (c.period.toNat % 2 ^ 32 = 0 → exec (.periodStart q) s = .next s ∧ exec (.budgetOverrun q) s = .next s) ∧
  (∀ t end_, c.period.toNat % 2 ^ 32 ≠ 0 → c.begun = some t → c.demoted = false → c.slice ≠ .abandoned →
    (c.left = 0 ∧ end_ = s.time ∨ 0 < c.left ∧ 0 < s.occupied q ∧ end_ = s.time + (c.left + s.occupied q - 1) / s.occupied q ∧
      end_ ≤ t + c.period.toNat % 2 ^ 32 * 1000) →
    exec (.budgetOverrun q) s = .next (((s.timeTo end_).setQueue q { c with left := 0, demoted := true }).event 0x42 q 0
      (BitVec.ofNat 64 (t / 1000)) (BitVec.ofNat 64 (c.budget.toNat % 2 ^ 32)))) ∧
  ((∀ x, x ∈ s.queues → x.2.slice ≠ .waiting) → exec (.gangrdyWrite q m p) s = .next s1) ∧
  (c.gangEn = true → c.slice = .waiting → s1.gangMissing q = 0 → (∀ x, s.gangCore q x = true → s.runningOn x = none) →
    ∃ t, exec (.gangrdyWrite q m p) s = .next t ∧ (t.queueAt q).slice = .running) ∧
  (∀ own, c.gangEn = true → c.slice = .waiting → 0 < s.gangMissing q + own →
    (own = 0 ∧ (∀ x, x < 256 → s.gangCore q x = true → s.runningOn x = none) ∨
      own = 1 ∧ ∃ x, x < 256 ∧ s.gangCore q x = true ∧ s.runningOn x ≠ none) →
    exec (.gangSkew q) s = .next ((((s.timeTo c.graceEnd).onQueue q fun d => { d with slice := .abandoned }).event 0x43 q 0
      (BitVec.ofNat 64 (c.begun.getD 0 / 1000)) (BitVec.ofNat 64 (s.gangMissing q + own))).seekAll (s.gangCores q))) ∧
  (c.gangEn = false → exec (.gangSkew q) s = .next s) ∧
  (∀ a, s.held[k]? = some a → exec (.heldAcornPlace k) s = .next (State.seekAll
    (if (s.coreAt a.core).deque.length < 4096 then ({ s with held := s.held.eraseIdx k }).pushBottom a else s)
    (s.coresOf a.launch))) ∧
  (∀ a, s.watch[k]? = some a → exec (.watcherPush k) s = .next (if s.readyAcorn a = true then State.seekAll
    (if (s.coreAt a.core).deque.length < 4096 then ({ s with watch := s.watch.eraseIdx k }).pushBottom a else s)
    (s.coresOf a.launch) else s)) ∧
  (s.held[k]? = none → exec (.heldAcornPlace k) s = .next s) ∧ (s.watch[k]? = none → exec (.watcherPush k) s = .next s) ∧
  (∀ l, bestPick s core (s.candidates core) = some (.top k, l) → exec (.dequeSteal core k) s = .next (s.seekAll [core]) ∧
    ∀ a rest, (s.coreAt k).deque = a :: rest → s.runningOn core = none → s.coreServes core = true →
      (∀ x, x ∈ s.queues → x.2.slice ≠ .waiting) → a.rival = none → (a.versioned = true → s.freeIds ≠ []) →
      ∃ t c, exec (.dequeSteal core k) s = .next t ∧ (t.coreAt k).deque = rest ∧ t.runningOn core = some c ∧
        c.harts.length = hartsOf a.size ∧
        (∀ i h, c.harts[i]? = some h →
          h = { Hart.reset with idx := i, alive := true, pc := a.code, x := h.x, v := h.v, m := h.m, stk := h.stk, seed := h.seed } ∧
          ∀ r : Reg, h.x[r] = if r = 1 then BitVec.ofNat 64 i else if r = 2 then a.frame else if r = 3 then a.x3
            else if r = 4 then a.x4 else if r = 5 then a.joinrec else 0) ∧
        (c.team.no = s.teamNo ∧ c.team.task = s.nextTask % 2 ^ 32 ∧ c.team.launch = a.launch ∧ c.team.core = core ∧
          c.team.asid = s.asidOf a.launch ∧ c.team.joinrec = a.joinrec ∧ c.team.tvec = 0 ∧ c.team.trec = 0 ∧
          c.team.tshape = Team.reset.tshape ∧ (a.versioned = false → c.team.world = a.world)) ∧
        ∀ y, y ∈ t.l1 → y ∈ s.l1 ∧ ¬ (y.core = core ∧ y.kind = .shared)) ∧
  (bestPick s core (s.candidates core) = none → exec (.dequeSteal core k) s = .next s) ∧
  (s.live = true → s.team.no = team → s.waitswap ≠ 0 → s.fixed s.focusCtx = false → s.me.alive = true →
    s.me.swappable = true →
    (∀ h, h ∈ s.peers → h.alive = false ∨ h.swappable = true ∨ h.wait = some .barrier ∨ h.wait = some .arriving) →
    exec (.teamSwapOut team) s = .next ((s.swapOut s.focusCtx .swapped).seekAll [s.team.core])) ∧
  (s.live = true → s.team.no = team → s.waitswap = 0 → exec (.teamSwapOut team) s = .next s) ∧
  (∀ x, s.parked.find? (fun y => y.team.no == team && y.place == .swapped) = some x →
    ((∀ h, h ∈ x.harts → h.alive = false ∨ h.wait = some .barrier ∨ h.wait = some .arriving ∨ s.hartDue x h = true) →
      exec (.teamRequeue team) s = .next ((s.setPlace team .ready).seekAll (s.coresOf x.team.launch))) ∧
    ((∃ h, h ∈ x.harts ∧ h.alive = true ∧ h.wait ≠ some .barrier ∧ h.wait ≠ some .arriving ∧ s.hartDue x h = false) →
      exec (.teamRequeue team) s = .next s)) ∧
  (s.live = true → s.team.no = team → s.me.idx = hart → s.me.alive = true → s.me.entry = none →
    s.moving s.focusCtx = false → ∀ w, s.me.wait = some w → w ≠ .team → w ≠ .barrier →
    (s.hartDue s.focusCtx s.me = false → exec (.waitSatisfied team hart) s = .next s) ∧
    (s.hartDue s.focusCtx s.me = true → s.me.pending = [] → s.me.blkFault = none →
      ((∀ k' no' w', w ≠ .parts k' no' w') → (∀ word s' i, fetchWord s = .ok word s' → decodeScalar word = .ok i → i ≠ .vdrain ∧
          (∀ a b sc, i ≠ .tlwait a b sc) ∧ (∀ a b, i ≠ .rfence a b) ∧ ∀ sa kind sc, i ≠ .fence true sa kind sc) →
        exec (.waitSatisfied team hart) s = .next { s with me := { s.me with wait := none } }) ∧
      (∀ word s' a b sc s2, fetchWord s = .ok word s' → decodeScalar word = .ok (.tlwait a b sc) →
        tlwaitWord a b sc s = .ok () s2 → exec (.waitSatisfied team hart) s = .next s2.settle.next))) ∧
  (s.runningOn core = none → exec (.preempt core) s = .next s ∧ (core < 256 → exec (.hwErrorRestart core) s = .next s)) ∧
  (∀ x, s.runningOn core = some x → (s.towerAt (towerOfCore core)).offline = false → s.gangHeld core = false →
    ∀ pick l, bestPick s core (s.candidates core) = some (pick, l) →
    let late (y : TeamCtx) (at_ : Nat) : Nat × Nat := lateKey (s.rank y.team.launch at_)
    (lateLt (lateKey (s.rank l core)) (late x core) = true → (s.rank l core).1 ≤ 1 →
      (∀ y, y ∈ s.coresOf l → s.idleCore y = false) →
      (∀ y z, y ∈ s.coresOf l → s.runningOn y = some z → lateLt (late x core) (late z y) = false) →
      exec (.preempt core) s = .next ((s.preemptTeam x.team.no).seekAll [core])) ∧
    (lateLt (lateKey (s.rank l core)) (late x core) = false → exec (.preempt core) s = .next s)) ∧
  (s.live = true → core < 256 → s.team.core = core → exec (.hwErrorRestart core) s = .next s.loseTeam ∧
    (s.team.restartable = false → s.team.versioned = false →
      s.loseTeam = ((s.endLaunch s.team.launch 0x48 s.team.task).endTask).reseek s.busyCores)) ∧
  (∀ f, s.forkAt k = some f → exec (.forkContinuation k) s = .next (if f.pushed = false ∧ s.forkEnded f = true then
    (s.setFork { f with pushed := true }).cpContinue { f.cont with core := f.core } else s)) ∧
  (s.forkAt k = none → exec (.forkContinuation k) s = .next s) ∧
  (s.live = true → s.team.no = team → s.me.idx = hart → (∀ h, h ∈ s.peers → h.idx ≠ hart) →
    (s.me.pending = [] → exec (.asyncFaultDelivery team hart) s = .next s) ∧
    (∀ n rest t, s.me.pending = n :: rest → n ≠ 9 → s.me.pendingTrap n = some t → s.me.inHandler = false →
      s.canDeliver = true → s.me.wait = none → exec (.asyncFaultDelivery team hart) s =
        .next (({ s with me := s.me.clearPending n }).takeTrap t s.me.pc false)))

/-! ### Translation and accesses from outside -/

/-- R146, R148 to R150, R160, R161, R188, R304, R305: a reply names its tag and, where no request has it, sets BADTAG; MAPPED
takes the request away, and REFUSE and DENY give their cause to the hart that waits for it. PTINV drops translations of one
page, of one space at one tower, or all, with the lines of every L1 there. The end of a lease invalidates the pool's page. -/
def Obligations.PagerReplies : Prop := ∀ (s : State) (tower : Nat) (tag va : Word),
  let t := tower % 8
  let c := s.pctlAt t
  let asid := s.ptsel.extractLsb' 0 16
  ((∀ r, r ∈ c.reqs → r.tag = tag → r.posted = false) →
    exec (.mapped tower tag) s = .next (s.setPctl t { c with tag := tag, bad := true }) ∧
    exec (.refuse tower tag) s = .next (s.setPctl t { c with tag := tag, bad := true }) ∧
    exec (.deny tower tag) s = .next (s.setPctl t { c with tag := tag, bad := true })) ∧
  (∀ r, c.reqs.find? (fun r => r.tag == tag && r.posted) = some r → s.side = [] → s.refusals = [] → s.queues = [] → s.launches = [] →
    s.cmds = [] → s.peers = [] → s.parked = [] → (∀ x, x ∈ c.reqs → x.posted = true) →
    let left := s.setPctl t { c with tag := tag, reqs := c.reqs.filter (·.tag != tag) }
    let told (cause : Nat) : State := { left with me := s.me.refused (t, tag) r.page cause }
    exec (.mapped tower tag) s = .next left ∧ exec (.refuse tower tag) s = .next (told 0x03) ∧
    exec (.deny tower tag) s = .next (told 0x05) ∧
    (s.me.wait = some (.page t tag) → s.me.blk = none → ∀ cause,
      s.me.refused (t, tag) r.page cause = { s.me with answers := s.me.answers ++ [(r.page, cause)] })) ∧
  exec .ptinvAll s = .next { s with tlb := [], l1 := [] } ∧
  exec .ptinvAsid s = .next { s with
    tlb := s.tlb.filter fun e => !(e.asid == asid && e.tower == s.ptsel.toNat / 2 ^ 16 % 8),
    l1 := s.l1.filter fun l => !(l.asid == asid && towerOf l.va == s.ptsel.toNat / 2 ^ 16 % 8) } ∧
  (let o := offsetOf (pageOf va)
   exec (.ptinvPage va) s = .next { s with
    tlb := s.tlb.filter fun e =>
      !(e.asid == asid && e.tower == towerOf va && decide (e.base ≤ o) && decide (o < e.base + 2 ^ e.lg)),
    l1 := s.l1.filter fun l => !(l.asid == asid && s.onPtinv va l.va) }) ∧
  (∀ x, isOwn x = true → pageOf x = pageOf (va &&& 0x3FFFFFFFFFFF#64) → s.onPtinv va x = true) ∧
  ((∀ r, r ∈ s.ptroots → r.1.2 ≠ towerOf va) → (∀ e, e ∈ s.tlb → e.tower ≠ towerOf va) →
    exec (.leaseExpiry va) s = .next { s with leases := s.leases.filter (· != pageOf va) }) ∧
  (∀ a root, s.ptroots = [((a, towerOf va), root)] → s.poolOut = [] → ∀ e, a < 65536 →
    (∀ x, x ∈ s.tlb → x.tower = towerOf va → x.asid = BitVec.ofNat 16 a) →
    s.lookup (BitVec.ofNat 16 a) (towerOf va) (offsetOf va) = some e →
    (pteClass e.pte = 2 → s.late = [] → s.rowHeld e.slot 8 true = false → exec (.leaseExpiry va) s = .next { s with
      leases := s.leases.filter (· != pageOf va), tlb := s.tlb.filter (·.slot != e.slot),
      l1 := s.l1.filter fun l => !(l.asid == BitVec.ofNat 16 a && e.holds l.va),
      mem := Memory.writeBytes s.mem e.slot (leBytes 8 (e.pte &&& ~~~1#64).toNat) }) ∧
    (pteClass e.pte ≠ 2 → exec (.leaseExpiry va) s = .next { s with leases := s.leases.filter (· != pageOf va) }))

/-- R130, R144, R148, R188, R325, R328, R335: the host reads and writes a tower's DRAM by its offset in the window, and the
doublewords of the register blocks; a request from another device is made where its address translates, with the old value
or the bytes as its reply, and asks the pager where there is no translation; a link retry changes nothing. In husk mode and
under the recovery firmware (log entry 59) neither is served. -/
def Obligations.AccessesFromOutside : Prop := ∀ (s : State) (h n port : Nat) (bs : List Byte) (asid : BitVec 16) (va v x : Word)
    (op : BitVec 5) (d : Bool) (k cls : Nat) (e : TlbEntry),
  let t := h / (48 * 2 ^ 30)
  let pa := h % (48 * 2 ^ 30)
  let key := t * 2 ^ 36 + pa
  let here := va &&& 0x3FFFFFFFFFFF#64
  let seen (wr : Bool) : State := s.markPage e none wr
  let read := (seen false).poolSeen k n fun _ => false
  exec (.linkRetry port) s = .next s ∧
  (s.boot.husk = true ∨ s.boot.recovering = true → (∀ acc, exec (.hostMemAccess h acc) s = .next s) ∧
    ∀ acc, exec (.fabricRequest asid va acc) s = .next s) ∧
  (s.boot.husk = false → s.boot.recovering = false →
  exec (.hostMemAccess h .barRead) s = .next { s with reply := leBytes 8 (s.blockRead true h).toNat } ∧
  exec (.hostMemAccess h (.barWrite v)) s = .next { s.barWrite h v with reply := [] } ∧
  (8 ≤ t → exec (.hostMemAccess h (.read n)) s = .next { s with reply := [] } ∧
    exec (.hostMemAccess h (.write bs)) s = .next { s with reply := [] }) ∧
  (t < 8 → (s.physHeld t pa n false = false → exec (.hostMemAccess h (.read n)) s =
      .next { s.touchPhys t pa n false with reply := s.bytesIn 0 key n }) ∧
    (s.physHeld t pa bs.length true = false → exec (.hostMemAccess h (.write bs)) s =
      .next { (s.touchPhys t pa bs.length true).storeAt 0 key bs with reply := [] })) ∧
  (s.xlate asid .load here = .at_ k cls e → s.accessHeld k n e none false = false →
    exec (.fabricRequest asid va (.load n)) s = .next { read with reply := read.bytesIn 0 k n }) ∧
  (s.xlate asid .store here = .at_ k cls e → s.accessHeld k bs.length e none true = false →
    exec (.fabricRequest asid va (.store bs)) s = .next { (seen true).storeAt 0 k bs with reply := [] } ∧
    exec (.fabricRequest asid va (.copyWrite bs false)) s = .next { (seen true).storeAt 0 k bs with reply := [] }) ∧
  (s.xlate asid .atomic here = .at_ k cls e → cls ≠ 2 →
    let z := if d then 8 else 4
    let old (z : Nat) := (seen true).bytesIn 0 k z
    (s.accessHeld k z e none true = false → op ∈ [0, 1, 2, 3, 4, 5, 6, 7, 8, 16] → ∀ new,
      AtomicWrites op (8 * z) (leVal (old z)) (v.toNat % 2 ^ (8 * z)) (x.toNat % 2 ^ (8 * z)) new →
      exec (.fabricRequest asid va (.atomic op d v x)) s = .next { (match new with
        | some y => (seen true).storeAt 0 k (leBytes z y)
        | none => seen true) with reply := old z }) ∧
    (s.accessHeld k 8 e none true = false → exec (.fabricRequest asid va (.tlsig v)) s = .next { (if leVal (old 8) < v.toNat then
      (seen true).storeAt 0 k (leBytes 8 v.toNat) else seen true) with reply := old 8 })) ∧
  (∀ acc, (s.xlate asid (fabricKind acc) here = .missing →
      exec (.fabricRequest asid va acc) s = .next (s.postPage asid (fabricKind acc) here).2) ∧
    (s.xlate asid (fabricKind acc) here = .busy → exec (.fabricRequest asid va acc) s = .next s) ∧
    ∀ c, s.xlate asid (fabricKind acc) here = .denied c → exec (.fabricRequest asid va acc) s = .next { s with reply := [] }))

/-! ### Rails, power and heat -/

/-- R155 to R158, R312, R384: RAILSEL ends at once with a status when the move does not run and holds the hart when it
runs; CLIPQ answers the capacities of a cluster at a rail; RAIL_SWITCH_DONE puts the cluster on its rail, gives status 0 to the
hart or the command that moved it, and goes on with the moves that wait; a learned row leaves the clip map one row smaller and
below the guaranteed figures bars LV; a management command is refused neither by LOCK nor by heat, and waits behind a move of
its cluster. -/
def Obligations.RailsAndCapacity : Prop := ∀ (s : State) (d a : Reg) (n row : Nat) (rail : Bool) (store : RowStore),
  let k := s.team.core / 4
  let c := s.clusterAt k
  let lv := s.x a == 1
  let hot := (s.towerAt (k / 8)).step = 2 ∨ (s.towerAt (k / 8)).offline = true
  let st := if 1 < (s.x a).toNat then 5 else if lv = c.lv then 1 else if c.lock = true then 3 else if hot then 6
    else if lv = true ∧ c.lvbar = true then 4 else if lv = true ∧ s.fitsLv k = false then 2 else 0
  let v := s.x a
  let m := v.toNat / 256 % 256
  let x := s.clusterAt (if m = 255 then k else m)
  let best := 16384 - x.vaultClip.toList.foldl max 0
  let j := n % 64
  let y := s.clusterAt j
  let stm := if rail = y.lv then 1 else if rail = true ∧ y.lvbar = true then 4
    else if rail = true ∧ s.fitsLv j = false then 2 else 0
  let w := railcmdFields s.railcmd j rail ||| 0x8000#64
  (c.target.isSome = true → exec (.railsel d a) s = .next { s with me := { s.me with wait := some .hold } }) ∧
  (c.target = none → st ≠ 0 → ∃ t, exec (.railsel d a) s = .next t ∧
    WritesHeld (s.setCluster k { c with last := BitVec.ofNat 3 st }) t d (BitVec.ofNat 64 st)) ∧
  (c.target = none → st = 0 → ∃ t, exec (.railsel d a) s = .next t ∧
    t.clusterAt k = { c with last := 0, target := some lv, mover := .hart s.team.no s.me.idx d } ∧
    (∀ i, i ≠ k → t.clusterAt i = s.clusterAt i) ∧
    t = { s with clusters := t.clusters, me := { s.me with wait := some .hold } }) ∧
  (v &&& 0xFFFFFFFFFFFF00FE#64 ≠ 0 ∨ (63 < m ∧ m ≠ 255) → Computes (.clipq d a) s d (BitVec.allOnes 64)) ∧
  (v &&& 0xFFFFFFFFFFFF00FE#64 = 0 → m ≤ 63 ∨ m = 255 → Computes (.clipq d a) s d (BitVec.ofNat 64
    (if v.getLsbD 0 then 128 * (32768 - x.saClip) * 2 ^ 32 + 128 * best else 128 * 32768 * 2 ^ 32 + 128 * 16384))) ∧
  (y.target = none → exec (.railSwitchDone n) s = .next s) ∧
  (∀ to_, y.target = some to_ →
    let cyc := y.cycles + (if y.lv = to_ then 0 else if y.lv then 18 else 25)
    let z : Cluster := { y with lv := to_, target := none, mover := .device, cycles := cyc }
    let done (u : State) := exec (.railSwitchDone n) s = .next (State.kickAll (State.runQueued u j y.queued))
    (y.mover = .device → done (s.setCluster j z)) ∧
    (y.mover = .command → done { s.setCluster j z with railcmd := railcmdEnd s.railcmd 0 }) ∧
    (∀ t h r, y.mover = .hart t h r → done ((s.setCluster j { z with last := 0 }).onHart t h fun w =>
        { w.setReg r 0 with pc := w.pc + 4, wait := none, answers := [] }))) ∧
  (y.lv = false → exec (.learnedRow n store row) s = .next s) ∧
  (y.lv = true → ∃ t, exec (.learnedRow n store row) s = .next t ∧
    (t.clusterAt j).grown = true ∧
    (∀ i : Fin 4, (t.clusterAt j).vaultClip[i] = if store = .vault i then y.vaultClip[i] + 1 else y.vaultClip[i]) ∧
    (t.clusterAt j).saClip = (if store = .sa then y.saClip + 1 else y.saClip) ∧
    (t.clusterAt j).cacheClip = (if store = .cache then y.cacheClip + 1 else y.cacheClip) ∧
    ((t.clusterAt j).lvbar = true ↔ y.lvbar = true ∨
      (∃ i : Fin 4, 16384 - (t.clusterAt j).vaultClip[i] < 14336) ∨ 32768 - (t.clusterAt j).saClip < 28672) ∧
    (y.lvbar = false → y.target = none → (t.clusterAt j).target = if (t.clusterAt j).lvbar then some false else none) ∧
    (∀ i, i ≠ j → t.clusterAt i = s.clusterAt i) ∧ t = { s with clusters := t.clusters }) ∧
  (s.railcmd.getLsbD 15 = true → exec (.railcmdGo n rail) s = .next s) ∧
  (s.railcmd.getLsbD 15 = false →
    (∀ b, y.target = some b → exec (.railcmdGo n rail) s = .next
      ({ s with railcmd := w }.setCluster j { y with queued := y.queued ++ [(Mover.command, rail)] })) ∧
    (y.target = none → stm ≠ 0 → exec (.railcmdGo n rail) s = .next { s with railcmd := railcmdEnd w stm }) ∧
    (y.target = none → stm = 0 → exec (.railcmdGo n rail) s = .next
      ({ s with railcmd := w }.setCluster j { y with target := some rail, mover := .command }))) ∧
  (w.getLsbD 0 = rail ∧ w.toNat / 4 % 64 = j ∧ w.getLsbD 15 = true ∧
    (∀ i, 8 ≤ i → i < 64 → i ≠ 15 → w.getLsbD i = s.railcmd.getLsbD i) ∧
    ∀ q, q < 8 → (railcmdEnd w q).toNat / 2 ^ 12 % 16 = q ∧
      ∀ i, i < 12 ∨ 16 ≤ i → (railcmdEnd w q).getLsbD i = w.getLsbD i)

/-- R308 to R315: a write of POWERMODE takes effect, and is refused for PEAK outside the contract; PENDING clears once every
die is within its cap; a lost contract ends PEAK; a matrix window renews the quota. A tower at LIMIT throttles, at LIMIT
again sends its clusters to LV, then or at HARD goes offline, and 10 °C below LIMIT undoes its last step; towers whose
OFFL bit is written serve again. That such a command to LV stands behind a move that runs, and that the unwinding moves no rail, is the
model's reading (log entry 57). -/
def Obligations.PowerAndHeat : Prop := ∀ (s : State) (m : BitVec 2) (core t temp : Nat) (mask : BitVec 8),
  let mode := s.powermode.toNat % 4
  let ctr := s.powermode.getLsbD 8
  let pend := s.powermode.getLsbD 9
  let last := s.powermode.toNat / 1024 % 4
  let x := s.towerAt t
  let y : Tower := { x with temp := temp }
  let hot := s.limit.toNat ≤ temp
  (∀ (n : Nat) (b p : Bool) (l : Nat), n < 4 → l < 4 → let w := powerWord n b p l
    w.toNat % 256 = n ∧ w.getLsbD 8 = b ∧ w.getLsbD 9 = p ∧ w.toNat / 1024 = l) ∧
  (let w := if m = 3 ∧ ctr = false then powerWord mode false pend 1 else powerWord m.toNat ctr (s.overCap m.toNat) 0
   let t := if m = 3 ∧ ctr = false then s else s.keepQuota m.toNat
   exec (.powermodeWrite m) s = .next { t with powermode := w }) ∧
  (let b := if m = 3 ∧ ctr = false then mode else m.toNat
   let after : State := { s.keepQuota b with powermode := powerWord b ctr false 0 }
   ∀ k, k < 256 → s.matrixQuota k ≤ after.matrixQuota k) ∧
  exec .pendingClear s = .next (if s.overCap mode = true then s else { s with powermode := powerWord mode ctr false last }) ∧
  (let w := if mode = 3 then powerWord 0 false (s.overCap 0) 2 else powerWord mode false pend last
   let t := if mode = 3 then s.keepQuota 0 else s
   exec .contractLoss s = .next { t with powermode := w }) ∧
  exec .contractHolds s = .next (if Config.onModule then { s with powermode := powerWord mode true pend last } else s) ∧
  exec (.matrixWindow core) s = .next (s.setCore core { s.coreAt core with matrix := 0, cap := 0 }) ∧
  exec (.thermalStep1 t temp) s = .next (s.setTower t
    (if hot ∧ x.step = 0 ∧ x.offline = false then { y with step := 1 } else y)) ∧
  exec (.thermalUnwind t temp) s = .next (s.setTower t
    (if temp + 10 < s.limit.toNat then { y with step := x.step - 1 } else y)) ∧
  (¬ (hot ∧ x.step = 1 ∧ x.offline = false) → exec (.thermalStep2 t temp) s = .next (s.setTower t y)) ∧
  (hot → x.step = 1 → x.offline = false → ∃ u, exec (.thermalStep2 t temp) s = .next u ∧
    u.towerAt t = { y with step := 2 } ∧ u.live = s.live ∧ u.me = s.me ∧ u.mem = s.mem ∧
    ∀ k, u.clusterAt k =
      let c := s.clusterAt k
      if k / 8 ≠ t % 8 then c
      else if c.target.isSome then { c with queued := c.queued ++ [(.device, true)] }
      else if c.lv = false ∧ c.lvbar = false ∧ s.fitsLv k = true then { c with target := some true, mover := .device } else c) ∧
  (x.offline = true ∨ (temp < s.hard.toNat ∧ (x.step ≠ 2 ∨ temp < s.limit.toNat)) →
    exec (.thermalOffline t temp) s = .next (s.setTower t y)) ∧
  (x.offline = false → s.hard.toNat ≤ temp ∨ (x.step = 2 ∧ hot) → s.live = false → s.parked = [] → s.launches = [] →
    s.cores = [] → s.watch = [] → s.held = [] → s.forks = [] → s.sas = [] → s.queues = [] → (∀ k, (s.clusterAt k).target = none) →
    exec (.thermalOffline t temp) s = .next (State.event ((s.setTower t { y with offline := true }).loseVaults (t % 8))
      0x44 (t % 8) (t % 8) (BitVec.ofNat 64 (temp * 1000)) 0)) ∧
  (let back := (List.range 8).filter fun i => mask.getLsbD i && (s.towerAt i).offline && !(s.towerAt i).lost
   ∃ u, exec (.towerReturn mask) s =
      .next (State.seekAll u ((List.range 256).filter fun k => back.contains (k / 32))) ∧
    (∀ i, i < 8 → u.towerAt i =
      if mask.getLsbD i = true ∧ (s.towerAt i).lost = false then { s.towerAt i with offline := false } else s.towerAt i) ∧
    u = { s with towers := u.towers })

/-! ### Alarm, monitors, start-up and registers -/

/-- R316 to R319: a policy field of ALARMCFG never takes the value 3 and falls under LOCK never; sources that fire together
are logged and act under the highest of their policies: nothing, a halt, or an erase into husk mode. A capture unit is
cleared but for its control, and takes a sample of the code that it captures, for code 5 the packets of its queue; that code 0 of a core's unit stands for a
schedule slip is the model's reading (log entry 31), and that an erase keeps the DRAM (log entry 59). -/
def Obligations.AlarmAndCaptureUnits : Prop := ∀ (s : State) (v : Word) (src : BitVec 5) (u : MonUnit) (e x p : Nat),
  let pol (w : Word) (j : Nat) : Nat := w.toNat / 4 ^ j % 4
  let s1 := s.event 0x45 0 0 (src.setWidth 64) (BitVec.ofNat 64 p)
  let m := s.monAt u
  let ctl := m.ctl.toNat
  let kinds : List Nat := match u with
    | .core _ => [2, 3]
    | .queue _ => [1, 4, 5]
    | .tower _ => [6, 7]
  let y : Nat := match u with
    | .queue q => if e = 5 then s.packetsIn q else x
    | _ => x
  (∃ cfg, exec (.alarmcfgWrite v) s = .next { s with alarmcfg := cfg } ∧
    (∀ j, j < 5 → pol cfg j =
      if pol v j = 3 ∨ (s.alarmcfg.getLsbD 63 = true ∧ pol v j < pol s.alarmcfg j) then pol s.alarmcfg j else pol v j) ∧
    (∀ j, 10 ≤ j → j < 64 → cfg.getLsbD j = (decide (j = 63) && (s.alarmcfg.getLsbD 63 || v.getLsbD 63)))) ∧
  exec (.alarm 0) s = .next s ∧
  (src ≠ 0 → (∃ j, j < 5 ∧ src.getLsbD j = true ∧ pol s.alarmcfg j = p) →
    (∀ j, j < 5 → src.getLsbD j = true → pol s.alarmcfg j ≤ p) →
    (p = 0 → exec (.alarm src) s = .next s1) ∧
    (p = 1 → exec (.alarm src) s = .next { s1 with halted := true }) ∧
    (p = 2 → ∃ t : State, exec (.alarm src) s = .next t ∧ t.boot.husk = true ∧ t.boot.reason = 2 ∧ t.boot.keyPresent = false ∧
      t.boot.chain = [] ∧ t.boot.attest = 0 ∧ t.boot.error = src.setWidth 32 ∧ t.boot.mayClear = false ∧
      t.boot.mgmtImage = s.boot.mgmtImage ∧ t.mem = s1.mem ∧ t.live = false ∧ t.powermode = 0 ∧ t.launches = [])) ∧
  exec (.monitorClr u) s = .next (s.setMon { Mon.reset u with ctl := m.ctl }) ∧
  (e = 0 → ∀ k, (u = .core k → exec (.monitorSample u e x) s = .next (s.setMon { m with slip := m.slip + 1 })) ∧
    (u = .queue k ∨ u = .tower k → exec (.monitorSample u e x) s = .next s)) ∧
  (e ≠ 0 → m.ctl.getLsbD 0 = true → m.ctl.getLsbD 1 = false → ctl / 256 % 256 = e → e ∈ kinds → y < 2 ^ 64 →
    ∃ n : Mon, exec (.monitorSample u e x) s = .next (s.setMon n) ∧
      n.unit = u ∧ n.ctl = m.ctl ∧ n.slip = m.slip ∧ n.count = m.count + 1 ∧ n.lo.toNat = Nat.min m.lo.toNat y ∧
      n.hi.toNat = Nat.max m.hi.toNat y ∧
      ∀ (i : Nat) (b : BitVec 32), m.buckets[i]? = some b → i < 32 → n.buckets[i]? = some (
        if ((i = 0 ∧ y = 0) ∨ (0 < i ∧ 2 ^ (i - 1) ≤ y ∧ (y < 2 ^ i ∨ i = 31))) ∧ b.toNat < 2 ^ 32 - 1 then b + 1 else b)) ∧
  (e ≠ 0 → m.ctl.getLsbD 0 = false ∨ m.ctl.getLsbD 1 = true ∨ ctl / 256 % 256 ≠ e ∨ e ∉ kinds →
    exec (.monitorSample u e x) s = .next s)

/-- R320, R323 to R326: without a key a start makes a new one in the next erase epoch while there is one. A start whose counter has reached 3 ends in husk mode; one that fails at a stage counts, and the
third failure ends in husk mode; one that loads its images is ready, BALANCED and locked, with the alarm policies and the escrow size of its firmware and the counter at 0; the
recovery flag loads the recovery image in place of the firmware. A start that has not got there within its time fails at
the stage where it stands. The error code of an image that is not accepted, and what an image says of the policies and the escrow,
are open values (log entry 30), whether any image is accepted rests on open functions (log entry 12), and that husk mode and a start keep
the DRAM is the model's reading (log entry 59). -/
def Obligations.StartRunsItsStages : Prop := ∀ (s : State) (r : StartRun),
  let b := s.boot
  let husk (t : State) (reason : Nat) : Prop := t.boot.husk = true ∧ t.boot.reason = reason ∧ t.boot.ready = false ∧
    t.live = false ∧ t.launches = [] ∧ t.mem = s.mem
  let fails (i : Instr) (n tower : Nat) (error : BitVec 32) : Prop := ∃ t : State, exec i s = .next t ∧
    t.boot.counter = b.counter + 1 ∧ t.boot.stage = n ∧ t.boot.tower = tower ∧ t.boot.error = error ∧
    t.boot.ready = false ∧ t.mem = s.mem ∧ (3 ≤ b.counter + 1 → t.boot.husk = true ∧ t.boot.reason = 1) ∧
    (b.counter + 1 < 3 → t.boot.husk = false)
  let keyed (t : State) : Prop := t.boot.keyPresent = true ∧
    (b.keyPresent = true → t.boot.keyEpoch = b.keyEpoch ∧ t.boot.epoch = b.epoch ∧ t.boot.chain = b.chain ∧
      t.boot.attest = b.attest) ∧
    (b.keyPresent = false → t.boot.keyEpoch = b.epoch + 1 ∧ t.boot.epoch = b.epoch + 1 ∧ t.boot.chain = [] ∧ t.boot.attest = 0)
  (3 ≤ b.counter → ∃ t, exec (.start r) s = .next t ∧ husk t 1) ∧
  (b.counter < 3 → b.keyPresent = false → 15 ≤ b.epoch → ∃ t, exec (.start r) s = .next t ∧ husk t 2) ∧
  (b.counter < 3 → b.keyPresent = true ∨ b.epoch < 15 →
    (∀ n t e, r.fail = some (n, t, e) → n = 0 ∨ n = 2 ∨ n = 3 ∨
      ((n = 4 ∨ ((n = 5 ∨ n = 6 ∨ n = 7) ∧ s.imageOk 2 b.cpImage = true)) ∧ b.recovery = false ∧
        s.imageOk 1 b.mgmtImage = true) → fails (.start r) n t e) ∧
    (r.fail = none → b.recovery = false →
      (s.imageOk 1 b.mgmtImage = false → fails (.start r) 3 0 (Config.stageError 3)) ∧
      (s.imageOk 1 b.mgmtImage = true → s.imageOk 2 b.cpImage = false → fails (.start r) 4 0 (Config.stageError 4)) ∧
      (s.imageOk 1 b.mgmtImage = true → s.imageOk 2 b.cpImage = true → ∃ t : State, exec (.start r) s = .next t ∧
        t.boot.ready = true ∧ t.boot.husk = false ∧ t.boot.stage = 7 ∧ t.boot.counter = 0 ∧ keyed t ∧
        t.boot.digests = [Config.sha384 (imageBody b.mgmtImage), Config.sha384 (imageBody b.cpImage)] ∧
        t.powermode = 0 ∧ t.alarmcfg = alarmcfgAfter 0x296#64 (Config.imagePolicies b.mgmtImage ||| 1#64 <<< 63) ∧
        t.alarmcfg.getLsbD 63 = true ∧ t.escrow = Config.imageEscrow b.mgmtImage ∧ t.live = false ∧ t.launches = [] ∧ t.mem = s.mem ∧
        ∀ k, k < 8 → (t.towerAt k).retired = ((r.retired.find? (·.1 == k)).map (·.2)).getD 0)) ∧
    (r.fail = none → b.recovery = true →
      (s.imageOk 3 b.recImage = true → ∃ t : State, exec (.start r) s = .next t ∧ t.boot.recovering = true ∧
        t.boot.ready = false ∧ t.boot.husk = false ∧ t.boot.stage = 3 ∧ keyed t ∧
        t.boot.digests = [Config.sha384 (imageBody b.recImage)]) ∧
      (s.imageOk 3 b.recImage = false → fails (.start r) 3 0 (Config.stageError 3)))) ∧
  (b.ready = true ∨ b.husk = true ∨ b.recovering = true → exec .startTimeout s = .next s) ∧
  (b.ready = false → b.husk = false → b.recovering = false → fails .startTimeout b.stage b.tower b.error)

/-- R322, R325, R326: what the mailbox answers and takes in husk mode and from the recovery firmware, and the attestation
report of a device that is ready (its layout is the model's, log entry 30); a command that is not taken changes no more than
the reply. That a new start keeps the DRAM is the model's reading (log entry 59). -/
def Obligations.MailboxAndAttestation : Prop := ∀ (s : State) (img chain : List Byte) (nonce : BitVec 384),
  let b := s.boot
  let offered := b.husk = true ∨ b.recovering = true
  let replied (bs : List Byte) : State := { s with reply := bs }
  let booted (c : Boot) : State := { s with boot := c, reply := [] }
  let again (t : State) : Prop := t.boot.husk = decide (3 ≤ b.counter) ∧ t.boot.recovering = false ∧ t.boot.ready = false ∧
    t.live = false ∧ t.launches = [] ∧ t.mem = s.mem
  (offered → exec .report s = .next (replied (leBytes 1 b.reason ++ leBytes 1 b.stage ++ leBytes 1 b.tower
    ++ leBytes 1 b.counter ++ leBytes 4 b.error.toNat ++ List.replicate 8 0))) ∧
  (¬ offered → exec .report s = .next (replied []) ∧ exec .clear s = .next (replied []) ∧
    exec (.recover img) s = .next (replied []) ∧ exec .reset s = .next s) ∧
  (offered → b.mayClear = true → exec .clear s = .next (booted { b with counter := 0 })) ∧
  (b.mayClear = false → exec .clear s = .next (replied [])) ∧
  (offered → s.imageOk 3 img = true →
    exec (.recover img) s = .next (booted { b with recImage := img, recovery := true, mayClear := true })) ∧
  (s.imageOk 3 img = false → exec (.recover img) s = .next (replied [])) ∧
  (offered → ∃ t, exec .reset s = .next t ∧ again t) ∧
  (offered ∨ b.ready = true → b.keyPresent = true → Config.chainRoot chain = b.fuseRoot →
    exec (.provision chain) s = .next (booted { b with chain := chain })) ∧
  (b.keyPresent = false ∨ Config.chainRoot chain ≠ b.fuseRoot → exec (.provision chain) s = .next (replied [])) ∧
  (b.recovering = true → s.imageOk 1 img = true → exec (.writefw img) s = .next (booted { b with mgmtImage := img })) ∧
  (b.recovering = true → s.imageOk 2 img = true → exec (.writefw img) s = .next (booted { b with cpImage := img })) ∧
  (b.recovering = false ∨ (s.imageOk 1 img = false ∧ s.imageOk 2 img = false) →
    exec (.writefw img) s = .next (replied [])) ∧
  (b.recovering = true → ∃ t : State, exec .done s = .next t ∧ t.boot.recovery = false ∧ t.boot.counter = 0 ∧
    t.boot.recovering = false ∧ t.boot.husk = false ∧ t.boot.ready = false ∧ t.live = false) ∧
  (b.recovering = false → exec .done s = .next s) ∧
  (b.ready = true → b.keyPresent = true →
    let s1 : State := { s with boot := { b with attest := b.attest + 1 } }
    let body := s1.attestBody nonce
    exec (.attestationReport nonce) s =
      .next { s1 with reply := body ++ Config.ecdsaSign b.keyEpoch (Config.sha384 body) }) ∧
  (b.ready = false ∨ b.keyPresent = false → exec (.attestationReport nonce) s = .next (replied []))

/-- R7, R21, R72, R77, R79, R87, R146, R155, R157, R176, R248, R304, R307, R312, R313, R316: a write of a register sets the fields
that it may write and no other: its reserved and read-only bits keep their values, and a register whose rule names an effect has
that effect. A device beyond the limits of the routing table is not entered, by the model's choice (log entry 76). -/
def Obligations.RegisterWritesKeepReadOnlyFields : Prop := ∀ (s : State) (v : Word) (n q t : Nat) (u : MonUnit),
  let w (r : MReg) (s1 : State) : Prop := exec (.registerWrite r v) s = .next s1
  let c := s.queueAt q
  let queue (r : MReg) (d : Queue) : Prop := w r (State.frontEnd (s.setQueue q d) q)
  let p := s.pctlAt t
  let low (k : Nat) : Word := BitVec.ofNat 64 (v.toNat % 2 ^ k)
  let k := s.clustersel.toNat
  let x := s.clusterAt k
  let others := s.routes.filter (·.1 != n)
  let room : Bool := v ≠ 1 ∧ v ≠ 2 ∨ others.length + 1 < 131072 ∧ (v = 1 → (others.filter (·.2)).length + 1 < 4096)
  queue (.qbase q) { c with base := v } ∧ queue (.qsize q) { c with size := v &&& 0xFFFF00000000001F#64 } ∧
  queue (.qhead q) { c with head := v, seen := none, hold := [], answers := [] } ∧ queue (.qbudget q) { c with newBudget := low 32 } ∧
  queue (.qgang q) { c with newGang := v } ∧
  (let now := if c.period.toNat % 2 ^ 32 = 0 ∧ low 32 ≠ 0 then low 32 else c.period
   queue (.qperiod q) { c with newPeriod := low 32, period := now }) ∧
  w (.prqbase t) (s.setPctl t { p with base := v }) ∧ w (.prtag t) (s.setPctl t { p with tag := v }) ∧
  w (.prqsize t) ((s.setPctl t { p with size := v.extractLsb' 0 4 }).drainRing t 1024) ∧
  w (.prqhead t) ((s.setPctl t { p with head := v }).drainRing t 1024) ∧
  w (.prstat t) (if v.getLsbD 0 then s.setPctl t { p with bad := false } else s) ∧
  w .evbase { s with evbase := v } ∧ w .evhead { s with evhead := v } ∧
  (v.getLsbD 2 = false → w (.monCtl u) (s.setMon { s.monAt u with ctl := v &&& 0xFF03#64 })) ∧
  (v.getLsbD 2 = true → w (.monCtl u) (s.setMon { Mon.reset u with ctl := v &&& 0xFF03#64 })) ∧
  (t < 8 → n < 384 → w (.berr t n) (if v.getLsbD 63 then { s with berr := tableSet s.berr (t * 384 + n) 0 } else s)) ∧
  w .waitswap { s with waitswap := v.extractLsb' 0 32 } ∧
  w .ctxscope { s with ctxscope := if v.toNat % 8 ∈ [2, 3, 4] then v.extractLsb' 0 3 else s.ctxscope } ∧
  w .railstat (s.setCluster k { x with lock := v.getLsbD 1 }) ∧
  w .clipstat (if v.getLsbD 48 then s.setCluster k { x with grown := false } else s) ∧
  w .thermcfg (State.towerReturn { s with limit := v.extractLsb' 0 16, hard := v.extractLsb' 16 16 } (v.extractLsb' 56 8)) ∧
  w .railcmd (if v.getLsbD 1 then s.railCommand (v.toNat / 4 % 64) (v.getLsbD 0)
    else { s with railcmd := railcmdFields s.railcmd (v.toNat / 4 % 64) (v.getLsbD 0) }) ∧
  w .clustersel { s with clustersel := v.extractLsb' 0 6 } ∧ w .ptsel { s with ptsel := low 19 } ∧
  w .escrow { s with escrow := v.toNat } ∧
  (∃ s1, w .ptroot s1 ∧ s1 = { s with ptroots := s1.ptroots } ∧
    ∀ key, (s1.ptroots.find? (·.1 == key)).map (·.2) =
      if key = (s.ptsel.toNat % 2 ^ 16, s.ptsel.toNat / 2 ^ 16 % 8) then some (v &&& 0xFFFFFFFFF0001#64)
      else (s.ptroots.find? (·.1 == key)).map (·.2)) ∧
  (room = false → w (.route n) s) ∧
  (room = true → ∃ s1, w (.route n) s1 ∧ s1 = { s with routes := s1.routes } ∧
    ∀ i, (s1.routes.find? (·.1 == i)).map (·.2) =
      if i = n then (if v = 1 then some true else if v = 2 then some false else none)
      else (s.routes.find? (·.1 == i)).map (·.2)) ∧
  (∃ s1, w (.lease v) s1 ∧ s1 = { s with leases := s1.leases } ∧
    ∀ page, page ∈ s1.leases ↔ page ∈ s.leases ∨ page = pageOf v)

/-! ### Engines and row commands -/

/-- R175, R245, R247, R252, R253, R267, R301, R345 to R349: an engine performs a command once the memory words that come
before it are done; one that has been held goes on where it stood. From its start a copy of one row moves its bytes and a fill
repeats its pattern, once no queued reader of a refilled range is left; a gather of one element moves it into its slot, or zeros
when it is out of bounds, and a scatter of one element stores it or adds it, both with their record. The completion advances the
counter of the context over the commands that are done, under a CTXSCOPE of fabric with the pool writes of all of them completed, and a
fault of the command is pending. -/
def Obligations.EnginesPerformTheirCommands : Prop := ∀ (s : State) (cid : Nat) (c : Cmd) (kd ks kt kp ki ke : Nat),
  s.cmdAt cid = some c → MemoryOk s →
  let fin (y : Cmd) : Cmd :=
    { y with accepted := true, started := true, finished := true, hold := [], answers := [], work := .none }
  let done (t : State) : Prop := t.cmds = s.cmds.map fun y => if y.cid = cid then fin y else y
  let wrote (t : State) (at_ : Nat → Bool) : Prop :=
    t = { s with cmds := t.cmds, mem := t.mem, ue := t.ue, rowPoison := t.rowPoison, under := t.under, raws := t.raws,
                 poolOut := t.poolOut, ce := t.ce } ∧
    ∀ k, at_ k = false → t.byteIn 0 k = s.byteIn 0 k
  let within (b n k : Nat) : Bool := decide (b ≤ k) && decide (k < b + n)
  let clean (k n : Nat) : Prop := ∀ i, i < n → s.byteBad 0 (k + i) = false
  let bursts (k n : Nat) : Prop := clean (k / 32 * 32) ((k + n + 31) / 32 * 32 - k / 32 * 32)
  let dw (k : Nat) : Word := BitVec.ofNat 64 (leVal (s.bytesIn 0 k 8))
  let x := ixArgs c.args
  let z := 2 ^ x.esize
  let zi := if x.ix64 then 8 else 4
  let ix := leVal (s.bytesIn 0 ki zi)
  let va := x.table + BitVec.ofNat 64 ix * BitVec.ofNat 64 x.stride
  let bound := x.limit = 0 ∨ ix < x.limit
  let record (oob made : Nat) : List Byte := leBytes 8 0 ++ leBytes 8 (oob * 2 ^ 32) ++ leBytes 8 0 ++ leBytes 8 made
  let indexed : Prop := x.count = 1 ∧ c.world = 0 ∧ s.ce = [] ∧ EngineMapped s c .load x.idx zi ki ∧ clean ki zi ∧
    EngineMapped s c .store x.pack 32 kp ∧ x.pack.toNat % 65536 + 32 + z ≤ 65536
  (c.finished = true ∨ s.settled c = false →
    exec (.copyStart cid) s = .next s ∧ exec (.gatherStart cid) s = .next s ∧ exec (.scatterStart cid) s = .next s) ∧
  (c.finished = false → s.settled c = true → c.dropped = true →
    (c.kind = 0 → s.copyTurn c = true → exec (.copyStart cid) s = .next (s.finishCmd cid none)) ∧
    (c.kind = 1 → exec (.gatherStart cid) s = .next (s.finishCmd cid none)) ∧
    (c.kind = 2 → exec (.scatterStart cid) s = .next (s.finishCmd cid none))) ∧
  (c.finished = false → s.settled c = true → c.dropped = false → c.work = .none →
    (c.kind = 0 → s.copyTurn c = true → c.world = 0 → ∀ a, c.args = [a] → EngineMapped s c .load a 32 kd → clean kd 32 →
      let src := dw kd
      let dst := dw (kd + 8)
      let n := (dw (kd + 16)).toNat
      let fill := dw (kd + 24) = 2
      1 ≤ n → fill ∨ (dw (kd + 24) = 0 ∧ EngineMapped s c .load src n ks ∧ clean ks n ∧
        (src.toNat + n ≤ dst.toNat ∨ dst.toNat + n ≤ src.toNat)) →
      (∀ r, r ∈ s.routes → r.2 = true) → EngineMapped s c .store dst n kt →
      (∀ l r, s.launchAt c.launch = some l → r ∈ l.ranges → r.handle = 0) ∨ (∀ y, y ∈ s.teams → ∀ h, h ∈ y.harts → h.blk = none) →
      ∃ t, exec (.copyStart cid) s = .next t ∧ done t ∧ wrote t (within kt n) ∧
        ∀ i, i < n → t.byteIn 0 (kt + i) = if fill then BitVec.ofNat 8 (src.toNat / 256 ^ (i % 8)) else s.byteIn 0 (ks + i)) ∧
    (c.kind = 1 → indexed → EngineMapped s c .store (x.pack + 32) z (kp + 32) →
      (bound → EngineMapped s c .load va z ke ∧ bursts ke z) →
      ∃ t, exec (.gatherStart cid) s = .next t ∧ done t ∧ wrote t (within kp (32 + z)) ∧
        t.bytesIn 0 kp 32 = (if bound then record 0 1 else record 1 0) ∧
        t.bytesIn 0 (kp + 32) z = if bound then s.bytesIn 0 ke z else List.replicate z 0) ∧
    (c.kind = 2 → indexed → EngineMapped s c .load x.pack (32 + z) kp → EngineMapped s c .load (x.pack + 32) z (kp + 32) →
      clean (kp + 32) z → x.sop = 0 ∨ (x.sop = 1 ∧ ((x.atype = 3 ∧ z = 4) ∨ (x.atype = 4 ∧ z = 8))) →
      (bound → EngineMapped s c .store va z ke ∧ (ke + z ≤ kp ∨ kp + 32 ≤ ke) ∧
        (x.sop = 1 → EngineMapped s c .atomic va z ke ∧ bursts ke z)) →
      ∃ t, exec (.scatterStart cid) s = .next t ∧ done t ∧
        wrote t (fun k => within kp 32 k || (decide bound && within ke z k)) ∧
        t.bytesIn 0 kp 32 = (if bound then record 0 1 else record 1 0) ∧
        (bound → leVal (t.bytesIn 0 ke z) = if x.sop = 0 then leVal (s.bytesIn 0 (kp + 32) z)
          else (leVal (s.bytesIn 0 ke z) + leVal (s.bytesIn 0 (kp + 32) z)) % 2 ^ (8 * z)))) ∧
  (c.finished = false → exec (.engineComplete cid) s = .next s) ∧
  (c.finished = true →
    let rest := s.cmds.filter (·.cid != cid)
    let outs := rest.filter fun y => y.queue.isNone && y.team == c.team && y.hart == c.hart && y.ctx == c.ctx
    let left : State := { s with cmds := rest }
    (∀ q, c.queue = some q →
      let u := { left with poolOut := s.poolOut.filter fun p => p.by_ != PoolBy.command cid c.ctx c.seq }.setQueue q { s.queueAt q with copies := (s.queueAt q).copies.filter (· != cid) }
      (c.fault = none → exec (.engineComplete cid) s = .next (u.kickQueue q)) ∧
      (∀ f, c.fault = some f → exec (.engineComplete cid) s = .next (State.kickQueue
        (u.event 0x47 q 0 (BitVec.ofNat 64 (f.sub % 256 * 256 + f.code % 256)) (BitVec.ofNat 64 c.seq)) q))) ∧
    (∀ k : Fin 8, c.queue = none → s.live = true → s.team.no = c.team → s.me.idx = c.hart → c.ctx = k.val →
      (∀ y, y ∈ s.peers → y.idx ≠ c.hart) → s.me.ctxs[k].late = [] → ∃ n,
        (∀ y, y ∈ outs → n ≤ y.seq - 1) ∧ (n = s.me.ctxs[k].seq ∨ ∃ y, y ∈ outs ∧ n = y.seq - 1) ∧
        n ≤ s.me.ctxs[k].seq ∧
        (let x := { s.me.ctxs[k] with tc := Nat.max s.me.ctxs[k].tc n }
         let landed := if s.ctxscope = 4 then s.poolOut.filter (!PoolWrite.upTo · c.team c.hart k.val n) else s.poolOut
         let told (h : Hart) : Prop := exec (.engineComplete cid) s = .next { left with poolOut := landed, me := h }
         (c.fault = none → told { s.me with ctxs := s.me.ctxs.set k x }) ∧
         (∀ f, c.fault = some f → c.seq ≤ n → s.me.ctxs[k].fault = none →
           told { s.me with ctxs := s.me.ctxs.set k { x with fault := some f }, pending := s.me.pending ++ [k.val] }) ∧
         (∀ f, c.fault = some f → n < c.seq → told { s.me with ctxs := s.me.ctxs.set k { x with late := [(c.seq, f)] } }))))

/-- R179, R182, R183, R185, R222, R228 to R230, R246, R284, R289, R293, R315: a row program and a bank expression that their CP
has accepted start, after the flush of their launch's ranges, once no lock and no earlier command holds their rows; members are
admitted in the descriptor's order, as a wave, while the cap of the power mode has room; a refresh waits for the programs of
its bank; an add reaches its row; the accumulators of a launch leave the arrays and come back (the place of their images is the
model's, log entry 26). -/
def Obligations.RowCommandsAndAddsProceed : Prop := ∀ (s : State) (cid bank i l k : Nat) (c : Cmd),
  let cap := if s.powermode.toNat % 4 = 0 then 256 else if s.powermode.toNat % 4 = 1 then 512
    else if s.powermode.toNat % 4 = 2 then 128 else 4096
  let started (s1 : State) : State := s1.onCmd cid fun y => { y with started := true }
  let flushed : List (Nat × Nat) × State := s.rangeFlush c.launch
  let ready := s.cmdAt cid = some c ∧ c.finished = false ∧ c.started = false ∧ s.issueOrder c = true
  let conflict (e u : RowUse) : Prop := (∃ m, m ∈ e.subs ∧ m ∈ u.subs) ∨ (∃ m, m ∈ e.writes ∧ (m ∈ u.reads ∨ m ∈ u.writes)) ∨
    ∃ m, m ∈ e.reads ∧ m ∈ u.writes
  let free (u : RowUse) : Prop := (∀ y, y ∈ s.locks → y.team ≠ c.team → ∀ m, m ∈ y.rows → m ∉ u.reads ∧ m ∉ u.writes) ∧
    ∀ e, e ∈ s.rowUses → e.cid ≠ cid → e.tower = u.tower → e.order < u.order → e.live = true ∧ ¬ conflict e u
  (s.cmdAt cid = none → exec (.rowProgramStart cid) s = .next s ∧ exec (.bxlStart cid) s = .next s) ∧
  (ready → s.settled c = false → exec (.rowProgramStart cid) s = .next s ∧ exec (.bxlStart cid) s = .next s) ∧
  (ready → s.settled c = true → c.kind = 3 →
    (c.accepted = true → ∀ r, s.runs.find? (·.cid == cid) = some r →
      (free r.use → s.flushHeld c.launch = false → exec (.rowProgramStart cid) s =
        .next (started (flushed.2.setRun { r with live := true, flushed := flushed.1 }))) ∧
      (¬ free r.use ∨ s.flushHeld c.launch = true → exec (.rowProgramStart cid) s = .next s)) ∧
    (c.accepted = false → c.dropped = false →
      (∀ f s1, acceptRpl c s = .error (.fault f) s1 → (∀ y, y ∈ s1.runs → y.cid ≠ cid) →
        exec (.rowProgramStart cid) s = .next (s1.finishCmd cid (some f))) ∧
      (∀ r s1, acceptRpl c s = .ok r s1 → r.cid = cid → (∀ y, y ∈ s1.runs → y.cid ≠ cid) →
        let s2 : State := { s1.onCmd cid fun y => { y with accepted := true, hold := [], answers := [] } with
                            runs := s1.runs ++ [r], nextOrder := s1.nextOrder + 1 }
        s2.mayStart c.team r.use = false → exec (.rowProgramStart cid) s = .next s2))) ∧
  (ready → s.settled c = true → c.kind = 4 → c.accepted = true → ∀ r, s.exprs.find? (·.cid == cid) = some r →
    let alone := ∀ y, y ∈ s.exprs → y.cid ≠ cid → y.live = true → y.pair ≠ r.pair
    (free r.use → alone → s.flushHeld c.launch = false →
      ((bxlArgs c.args).acc = false →
        exec (.bxlStart cid) s = .next (started (flushed.2.setExpr { r with live := true, accs := [] }))) ∧
      ∀ accs s1, readAccs c flushed.2 = .ok accs s1 →
        exec (.bxlStart cid) s = .next (started (s1.setExpr { r with live := true, accs := accs }))) ∧
    (¬ (free r.use ∧ alone) ∨ s.flushHeld c.launch = true → exec (.bxlStart cid) s = .next s)) ∧
  ((∀ r, r ∈ s.runs → r.cid = cid → r.live = true → r.lo = r.hi → r.subs.length ≤ r.lo) → exec (.waveAdmit cid) s = .next s) ∧
  (∀ r, s.runs.find? (fun y => y.cid == cid && (y.live && y.lo == y.hi && decide (y.lo < y.subs.length))) = some r →
    r.subs.length = r.coords.length → (∀ die, s.dieLoad r.tower die ≤ cap) → ∃ n,
      let taken (die : Nat) : Nat := (((r.coords.drop r.lo).take n).filter fun y => coordDie y == die).length
      let wave := { r with hi := r.lo + n, pc := 0, bases := r.args, loops := [], atStep := false, halted := false }
      let left := { r with lo := r.lo + n, hi := r.lo + n, bad := [], shadow := [] }
      let others := s.runs.filter fun y => !(r.cid == y.cid && r.lo == y.lo)
      r.lo + n ≤ r.coords.length ∧ (∀ die, s.dieLoad r.tower die + taken die ≤ cap) ∧
      (∀ y, r.coords[r.lo + n]? = some y → s.dieLoad r.tower (coordDie y) + taken (coordDie y) = cap) ∧
      (n = 0 → exec (.waveAdmit cid) s = .next s) ∧
      (0 < n → exec (.waveAdmit cid) s = .next (State.clearRows
        { s with runs := others ++ wave :: (if r.lo + n < r.subs.length then [left] else []) }
        ((r.subs.drop r.lo).take n)))) ∧
  (let busy := ∃ r, r ∈ s.runs ∧ r.live = true ∧ r.atStep = false ∧ r.halted = false ∧ ∃ m, m ∈ r.wave ∧ m / 128 = bank
   (busy → exec (.refreshDue bank) s = .next { s with refreshes := s.refreshes ++ [bank] }) ∧
   (¬ busy → exec (.refreshDue bank) s = .next s)) ∧
  (s.adds[i]? = none → exec (.saaddApply i) s = .next s) ∧
  (∀ a sa, s.adds[i]? = some a → s.saAt a.launch a.cluster a.n = some sa →
    (sa.evicted = true → exec (.saaddApply i) s = .next s) ∧
    (sa.evicted = false → (∀ j b, j < i → s.adds[j]? = some b → b.launch ≠ a.launch ∨ b.cluster ≠ a.cluster ∨ b.n ≠ a.n ∨
        b.row ≠ a.row ∨ b.team ≠ a.team ∨ b.hart ≠ a.hart) →
      ∀ (r : SaRow) (e : Nat) (d old : Int) (bad : Bool), sa.rows[a.row]? = some r → a.elems = [(e, d, bad)] →
      r.x[e]? = some old →
      let new := Max.max (-(2 ^ 47) : Int) (Min.min (2 ^ 47 - 1) (old + d))
      let sum := (r.s : Int) + new * new - old * old
      let row : SaRow := { x := r.x.set e new, s := sum.toNat, t := r.t + (new - old), ovf := r.ovf || bad || new != old + d }
      exec (.saaddApply i) s =
        .next (({ s with adds := s.adds.eraseIdx i } : State).setSa { sa with rows := sa.rows.set a.row row }))) ∧
  (s.launchAt l = none → exec (.saEvict l k) s = .next s ∧ exec (.saRestore l k) s = .next s) ∧
  (∀ x, s.launchAt l = some x →
    let held := ∃ a, a ∈ x.sares ∧ a.1 = k
    (s.runsOn l k = true ∨ ¬ held → exec (.saEvict l k) s = .next s) ∧
    (s.runsOn l k = false → held → ∀ a r,
      s.sas.filter (fun y => y.launch == l && y.cluster == k && !y.evicted) = [a] → a.rows = [r] →
      (s.areaHeld a true = true → exec (.saEvict l k) s = .next s) ∧ (s.areaHeld a true = false →
      let s1 := ((s.storeAt 0 a.areaKey a.config).storeAt 0 (a.imageKey 0) (a.image r)).setSa { a with evicted := true }
      exec (.saEvict l k) s = .next (s1.setLaunch
        { x with sares := x.sares.filter (·.1 != k), saOut := x.saOut ++ [k] }))) ∧
    (k ∉ x.saOut ∨ (s.towerAt (k / 8)).offline = true ∨ (s.saFits (fun _ => true) x k = false ∧
      (s.saWanted l k = false ∨ s.saFits (s.saStays k) x k = false)) → exec (.saRestore l k) s = .next s) ∧
    (k ∈ x.saOut → (s.towerAt (k / 8)).offline = false → s.saFits (fun _ => true) x k = true → ∀ a r r1,
      s.sas.filter (fun y => y.launch == l && y.cluster == k && y.evicted) = [a] → a.rows = [r] →
      s.restoredRow a 0 = (r1, true) → s.areaHeld a false = false →
      let s1 := s.setLaunch { x with sares := x.sares ++ [(k, s.saRun (fun _ => true) x k, rows128 x.saneed)],
                                     saOut := x.saOut.filter (· != k) }
      exec (.saRestore l k) s = .next (State.seekAll (s1.setSa { a with rows := [r1], evicted := false }) x.cores)))

/-! ### The whole machine -/

/-- R89 to R110: every well-formed instruction that has a word, a vector word, a row-program word or operator bytes is what
its encoding decodes to, with every operand. -/
def Obligations.EncodeDecode : Prop := ∀ i : Instr, RoundTrips i

/-- R93 to R106: words that the manual writes out decode to what the manual writes beside them. -/
def Obligations.WordsDecode : Prop :=
  decodeScalar 0x0460FFF4 = .ok (.addi 3 0 0xFFF4) ∧ decodeScalar 0x01291401 = .ok (.subw 9 9 2) ∧
  decodeScalar 0x14848003 = .ok (.srai 4 4 3) ∧ decodeScalar 0x24E95602 = .ok (.ld 7 9 2 .sync .dword false 2) ∧
  decodeScalar 0x28A224FE = .ok (.st 5 2 1 .normal .word 0xFE) ∧ decodeScalar 0x40645FFB = .ok (.blt 3 4 0x1FFB) ∧
  decodeScalar 0x2CA63BE1 = .ok (.amoadd 5 6 7 .package .acqrel true) ∧
  decodeScalar 0x60000031 = .ok (.fence false true .rel .cluster) ∧ decodeScalar 0x6406380C = .ok (.tlwait 6 7 .package) ∧
  decodeScalar 0x698A001A = .ok (.rpl 12 10 2) ∧ decodeScalar 0x74AB5000 = .ok (.forkw 5 11 10) ∧
  decodeScalar 0x79095000 = .ok (.vfetch 8 9 10) ∧ decodeScalar 0xFC060801 = .ok (.csrw 0 6 1) ∧
  decodeVector 0x1E10400000140000 = .ok (.vcmp .lt 2 1 (.imm 0) { msel := 0, width := 0, fl := .always }) ∧
  decodeVector 0x4038400084010080 = .ok (.vld 7 1 128 2 .normal { msel := 0, width := 4, fl := .first }) ∧
  decodeVector 0x55080800000000BA = .ok (.opa 1 0 4 0 false false 0xBA .always) ∧
  decodeRow 0x12060200 = .ok (.aap (.data 0 3) (.comp 8)) ∧ decodeRow 0x60030000 = .ok (.loopw 0 3) ∧
  decodeScalar 0x7C0000FF = .error .subField ∧ decodeVector 0x0F00000000000000 = .error .major

/-- R89, R103, R227, R238, R319, R323, R325, R326 (log entry 14 orders the agenda): a step takes the input at the head of the agenda
away. A hart that is ready runs the word at its program counter, or the trap of a word that is no instruction, and its cluster keeps the
line of the word (a copy with older bytes that it may take instead is the model's reading, log entry 74); a block runs the word at which
it stands, or the word up to its next progress point (log entry 38), a wave of a row program its word, a bank expression its operator, and an event runs as it is. On a device that is halted, in
reset or not yet started no unit moves, and the events run that it takes (which they are is log entry 59). -/
def Obligations.StepRunsTheDecodedWord : Prop := ∀ (s : State) (rest : List Input) (i : Instr),
  let s0 : State := { s with agenda := rest }
  let on := s.halted = false ∧ s.boot.husk = false ∧ s.boot.recovering = false ∧ s.boot.ready = true
  let off := s.boot.husk = true ∨ s.boot.recovering = true ∨ s.boot.ready = false
  let runs := on ∨ (off ∧ inReset i = true) ∨ (¬ off ∧ inHalt i = true)
  (s.agenda = .event i :: rest → (runs → step s = exec i s0) ∧ (¬ runs → step s = .next s0)) ∧
  (¬ on → ∀ n m, s.agenda = .hart n m :: rest ∨ s.agenda = .block n m :: rest ∨ s.agenda = .group n m :: rest ∨
    s.agenda = .row n m :: rest ∨
    s.agenda = .bank n :: rest ∨ s.agenda = .sideLogs :: rest ∨ s.agenda = .queues :: rest ∨ s.agenda = .seek n :: rest →
    step s = .next s0) ∧
  (on → s.agenda = .hart s.team.no s.me.idx :: rest → s.live = true → s.me.alive = true → s.me.entry = none →
    s.me.pending = [] → s.moving s.focusCtx = false → s.me.pc.toNat % 4 = 0 →
    ∀ (k cls : Nat) (e : TlbEntry), Mapped s .fetch s.me.pc 4 k cls e → Clean s k 4 →
    s.markPage e (some s.team.core) false = s →
    let bs := s.bytesIn s.team.world k 4
    let w := BitVec.ofNat 32 (leVal bs)
    let o := s.me.pc.toNat % 64
    let copy : CodeLine :=
      { cluster := s.team.core / 4, world := s.team.world, key := k - o, asid := s.team.asid, va := s.me.pc &&& ~~~63#64,
        bytes := s.bytesIn s.team.world (k - o) 64 }
    let same (y : CodeLine) : Prop := y.cluster = copy.cluster ∧ y.key = copy.key ∧ y.asid = copy.asid ∧ y.va = copy.va ∧
      s.serves y.world s.team.world = true
    let code := trimCode (s.code ++ [copy]) copy.cluster
    ((∀ y, y ∈ s.code → ¬ same y) →
      (decodeScalar w = .ok i → step s = exec i { s0 with code := code }) ∧
      (∀ r, decodeScalar w = .error r → step s = exec (.illegal w) { s0 with code := code })) ∧
    ((∀ y, y ∈ s.code → same y → ((s.viaCopy s.team.world y.world y.key y.bytes).drop o).take 4 = bs) → (∃ y, y ∈ s.code ∧ same y) →
      (decodeScalar w = .ok i → step s = exec i s0) ∧
      (∀ r, decodeScalar w = .error r → step s = exec (.illegal w) s0))) ∧
  (on → ∀ (b : Block) (w : BitVec 64), s.agenda = .block s.team.no s.me.idx :: rest → s.live = true → s.me.blk = some b →
    b.suspended = false → b.words[b.idx]? = some w → decodeVector w = .ok i → step s = exec i s0) ∧
  (on → ∀ (b : Block) (w : BitVec 64), s.agenda = .group s.team.no s.me.idx :: rest → s.live = true → s.me.blk = some b →
    b.suspended = false → b.words[b.idx]? = some w → decodeVector w = .ok i → step s = .next (s0.toPoint i)) ∧
  (on → ∀ (r : Run) (rs : List Run) (w : BitVec 32), s.runs = r :: rs → (∀ y, y ∈ rs → y.cid ≠ r.cid ∨ y.lo ≠ r.lo) →
    s.agenda = .row r.cid r.lo :: rest → r.live = true → r.halted = false → r.lo ≠ r.hi → r.words[r.pc]? = some w →
    decodeRow w = .ok i → step s = exec i s0) ∧
  (on → ∀ (r : ExprRun) (rs : List ExprRun) (bs : List Byte), s.exprs = r :: rs → (∀ y, y ∈ rs → y.cid ≠ r.cid) →
    s.agenda = .bank r.cid :: rest → r.live = true → r.ended = false → decodeExpr r.rest = .ok (i, bs) →
    step s = exec i s0)

/-- R8, R14, R52, R72, R156, R176, R193, R196, R294, R307 to R316, R323: what reset leaves: no task runs, nothing is queued,
and the registers hold the values that the manual states; memory lists nothing. The registers that no rule gives a value
are those of log entry 2, which no clause here names; that memory lists nothing is log entry 3 (what an unwritten byte
reads as), and that the caches are empty log entry 5. -/
def Obligations.ResetValues : Prop :=
  let s := State.reset
  MemoryOk s ∧ s.mem = [] ∧ s.under = [] ∧ s.code = [] ∧ s.l1 = [] ∧ s.unowned = [] ∧ s.late = [] ∧
  s.live = false ∧ s.parked = [] ∧ s.launches = [] ∧ s.agenda = [] ∧ s.runs = [] ∧ s.exprs = [] ∧
  s.cmds = [] ∧ s.sas = [] ∧ s.worlds = [] ∧ s.evseq = 0 ∧ s.evhead = 0 ∧ s.evtail = 0 ∧ s.waitswap = 20000 ∧
  s.ctxscope = 2 ∧ s.limit = 105 ∧ s.hard = 125 ∧ s.alarmcfg = 0x296 ∧ s.powermode.toNat % 4 = 0 ∧
  s.boot.ready = false ∧ s.boot.husk = false ∧
  (∀ q, (s.queueAt q).newGang = 50#64 <<< 40 ∧ (s.queueAt q).halted = false ∧ (s.queueAt q).tail = 0) ∧
  (∀ k, (s.clusterAt k).lv = false ∧ (s.clusterAt k).lock = false ∧ (s.clusterAt k).target = none) ∧
  (∀ t, (s.towerAt t).offline = false ∧ (s.towerAt t).step = 0) ∧
  (∀ u, (s.monAt u).lo = BitVec.allOnes 64 ∧ (s.monAt u).count = 0)

/-- Log entry 3 (the model's own form of memory): a step that goes on keeps memory in its one canonical form, whatever it
runs and from whatever state. -/
def Obligations.MemoryStaysCanonical : Prop := StepKeeps MemoryOk

/-- R319, R325 (log entry 14): no step ends in a refusal, and one stops only where nothing is to come: no input waits and
the device is halted, a husk or in recovery. -/
def Obligations.StepsGoOn : Prop := ∀ s : State,
  ((s.agenda ≠ [] ∨ (s.halted = false ∧ s.boot.husk = false ∧ s.boot.recovering = false)) → ∃ t, step s = .next t) ∧
  (s.agenda = [] → s.halted = true ∨ s.boot.husk = true ∨ s.boot.recovering = true → step s = .fault .stopped)
end

