-- ==== Sys2Proof/Laws/State.lean ====
section
/-! SUPPORT. One lemma for each field of the state under each plain update, so that no proof unfolds a record. -/

namespace Sys2Proof.Machine

/-! ### Scalar registers of a hart (R8) -/

@[simp] theorem Hart.reg_zero (h : Hart) : h.reg 0 = 0 := rfl
@[simp] theorem Hart.setReg_zero (h : Hart) (v : Word) : h.setReg 0 v = h := rfl
theorem Hart.setReg_of_ne (h : Hart) {d : Reg} (v : Word) (hd : d ≠ 0) :
    h.setReg d v = { h with x := h.x.set d.val v d.isLt } := if_neg hd

/-- A register read after a register write: the value at the destination, the old value elsewhere, 0 at x0. -/
theorem Hart.reg_setReg (h : Hart) (d r : Reg) (v : Word) :
    (h.setReg d v).reg r = if r = d ∧ d ≠ 0 then v else h.reg r := by
  by_cases hd : d = 0
  · subst hd; simp
  · rw [Hart.setReg_of_ne h v hd]
    by_cases hr : r = 0
    · subst hr
      have : ¬ ((0 : Reg) = d) := fun e => hd e.symm
      simp [Hart.reg, this]
    · by_cases e : r = d
      · subst e; simp [Hart.reg, hd]
      · have : d.val ≠ r.val := fun x => e (Fin.ext x.symm)
        simp [Hart.reg, hr, e, Vector.getElem_set_ne, this]

@[simp] theorem Hart.setReg_idx (h : Hart) (d : Reg) (v : Word) : (h.setReg d v).idx = h.idx := by
  unfold Hart.setReg; split <;> rfl
@[simp] theorem Hart.setReg_alive (h : Hart) (d : Reg) (v : Word) : (h.setReg d v).alive = h.alive := by
  unfold Hart.setReg; split <;> rfl
@[simp] theorem Hart.setReg_pc (h : Hart) (d : Reg) (v : Word) : (h.setReg d v).pc = h.pc := by
  unfold Hart.setReg; split <;> rfl
@[simp] theorem Hart.setReg_vtype (h : Hart) (d : Reg) (v : Word) : (h.setReg d v).vtype = h.vtype := by
  unfold Hart.setReg; split <;> rfl
@[simp] theorem Hart.setReg_vl (h : Hart) (d : Reg) (v : Word) : (h.setReg d v).vl = h.vl := by
  unfold Hart.setReg; split <;> rfl
@[simp] theorem Hart.setReg_fcsr (h : Hart) (d : Reg) (v : Word) : (h.setReg d v).fcsr = h.fcsr := by
  unfold Hart.setReg; split <;> rfl
@[simp] theorem Hart.setReg_sperr (h : Hart) (d : Reg) (v : Word) : (h.setReg d v).sperr = h.sperr := by
  unfold Hart.setReg; split <;> rfl
@[simp] theorem Hart.setReg_lqOvf (h : Hart) (d : Reg) (v : Word) : (h.setReg d v).lqOvf = h.lqOvf := by
  unfold Hart.setReg; split <;> rfl
@[simp] theorem Hart.setReg_lqUnd (h : Hart) (d : Reg) (v : Word) : (h.setReg d v).lqUnd = h.lqUnd := by
  unfold Hart.setReg; split <;> rfl
@[simp] theorem Hart.setReg_lq (h : Hart) (d : Reg) (v : Word) : (h.setReg d v).lq = h.lq := by
  unfold Hart.setReg; split <;> rfl
@[simp] theorem Hart.setReg_depth (h : Hart) (d : Reg) (v : Word) : (h.setReg d v).depth = h.depth := by
  unfold Hart.setReg; split <;> rfl
@[simp] theorem Hart.setReg_stk (h : Hart) (d : Reg) (v : Word) : (h.setReg d v).stk = h.stk := by
  unfold Hart.setReg; split <;> rfl
@[simp] theorem Hart.setReg_lskew (h : Hart) (d : Reg) (v : Word) : (h.setReg d v).lskew = h.lskew := by
  unfold Hart.setReg; split <;> rfl
@[simp] theorem Hart.setReg_tepc (h : Hart) (d : Reg) (v : Word) : (h.setReg d v).tepc = h.tepc := by
  unfold Hart.setReg; split <;> rfl
@[simp] theorem Hart.setReg_tcause (h : Hart) (d : Reg) (v : Word) : (h.setReg d v).tcause = h.tcause := by
  unfold Hart.setReg; split <;> rfl
@[simp] theorem Hart.setReg_tval (h : Hart) (d : Reg) (v : Word) : (h.setReg d v).tval = h.tval := by
  unfold Hart.setReg; split <;> rfl
@[simp] theorem Hart.setReg_tstat (h : Hart) (d : Reg) (v : Word) : (h.setReg d v).tstat = h.tstat := by
  unfold Hart.setReg; split <;> rfl
@[simp] theorem Hart.setReg_pixV (h : Hart) (d : Reg) (v : Word) : (h.setReg d v).pixV = h.pixV := by
  unfold Hart.setReg; split <;> rfl
@[simp] theorem Hart.setReg_pixT (h : Hart) (d : Reg) (v : Word) : (h.setReg d v).pixT = h.pixT := by
  unfold Hart.setReg; split <;> rfl
@[simp] theorem Hart.setReg_pixW (h : Hart) (d : Reg) (v : Word) : (h.setReg d v).pixW = h.pixW := by
  unfold Hart.setReg; split <;> rfl
@[simp] theorem Hart.setReg_v (h : Hart) (d : Reg) (v : Word) : (h.setReg d v).v = h.v := by
  unfold Hart.setReg; split <;> rfl
@[simp] theorem Hart.setReg_vmark (h : Hart) (d : Reg) (v : Word) : (h.setReg d v).vmark = h.vmark := by
  unfold Hart.setReg; split <;> rfl
@[simp] theorem Hart.setReg_m (h : Hart) (d : Reg) (v : Word) : (h.setReg d v).m = h.m := by
  unfold Hart.setReg; split <;> rfl
@[simp] theorem Hart.setReg_mmark (h : Hart) (d : Reg) (v : Word) : (h.setReg d v).mmark = h.mmark := by
  unfold Hart.setReg; split <;> rfl
@[simp] theorem Hart.setReg_ctxs (h : Hart) (d : Reg) (v : Word) : (h.setReg d v).ctxs = h.ctxs := by
  unfold Hart.setReg; split <;> rfl
@[simp] theorem Hart.setReg_blk (h : Hart) (d : Reg) (v : Word) : (h.setReg d v).blk = h.blk := by
  unfold Hart.setReg; split <;> rfl
@[simp] theorem Hart.setReg_unf (h : Hart) (d : Reg) (v : Word) : (h.setReg d v).unf = h.unf := by
  unfold Hart.setReg; split <;> rfl
@[simp] theorem Hart.setReg_wait (h : Hart) (d : Reg) (v : Word) : (h.setReg d v).wait = h.wait := by
  unfold Hart.setReg; split <;> rfl
@[simp] theorem Hart.setReg_blkFault (h : Hart) (d : Reg) (v : Word) : (h.setReg d v).blkFault = h.blkFault := by
  unfold Hart.setReg; split <;> rfl
@[simp] theorem Hart.setReg_blkNext (h : Hart) (d : Reg) (v : Word) : (h.setReg d v).blkNext = h.blkNext := by
  unfold Hart.setReg; split <;> rfl
@[simp] theorem Hart.setReg_sideFault (h : Hart) (d : Reg) (v : Word) : (h.setReg d v).sideFault = h.sideFault := by
  unfold Hart.setReg; split <;> rfl
@[simp] theorem Hart.setReg_pending (h : Hart) (d : Reg) (v : Word) : (h.setReg d v).pending = h.pending := by
  unfold Hart.setReg; split <;> rfl
@[simp] theorem Hart.setReg_entry (h : Hart) (d : Reg) (v : Word) : (h.setReg d v).entry = h.entry := by
  unfold Hart.setReg; split <;> rfl
@[simp] theorem Hart.setReg_answers (h : Hart) (d : Reg) (v : Word) : (h.setReg d v).answers = h.answers := by
  unfold Hart.setReg; split <;> rfl
@[simp] theorem Hart.setReg_poolRefused (h : Hart) (d : Reg) (v : Word) : (h.setReg d v).poolRefused = h.poolRefused := by
  unfold Hart.setReg; split <;> rfl
@[simp] theorem Hart.setReg_replay (h : Hart) (d : Reg) (v : Word) : (h.setReg d v).replay = h.replay := by
  unfold Hart.setReg; split <;> rfl
@[simp] theorem Hart.setReg_forkArgs (h : Hart) (d : Reg) (v : Word) : (h.setReg d v).forkArgs = h.forkArgs := by
  unfold Hart.setReg; split <;> rfl
@[simp] theorem Hart.setReg_seed (h : Hart) (d : Reg) (v : Word) : (h.setReg d v).seed = h.seed := by
  unfold Hart.setReg; split <;> rfl

/-! ### Updates of the focused hart -/

@[simp] theorem State.setX_live (s : State) (d : Reg) (v : Word) : (s.setX d v).live = s.live := rfl
@[simp] theorem State.setX_team (s : State) (d : Reg) (v : Word) : (s.setX d v).team = s.team := rfl
@[simp] theorem State.setX_peers (s : State) (d : Reg) (v : Word) : (s.setX d v).peers = s.peers := rfl
@[simp] theorem State.setX_parked (s : State) (d : Reg) (v : Word) : (s.setX d v).parked = s.parked := rfl
@[simp] theorem State.setX_past (s : State) (d : Reg) (v : Word) : (s.setX d v).past = s.past := rfl
@[simp] theorem State.setX_mem (s : State) (d : Reg) (v : Word) : (s.setX d v).mem = s.mem := rfl
@[simp] theorem State.setX_under (s : State) (d : Reg) (v : Word) : (s.setX d v).under = s.under := rfl
@[simp] theorem State.setX_ver (s : State) (d : Reg) (v : Word) : (s.setX d v).ver = s.ver := rfl
@[simp] theorem State.setX_ue (s : State) (d : Reg) (v : Word) : (s.setX d v).ue = s.ue := rfl
@[simp] theorem State.setX_ce (s : State) (d : Reg) (v : Word) : (s.setX d v).ce = s.ce := rfl
@[simp] theorem State.setX_verUe (s : State) (d : Reg) (v : Word) : (s.setX d v).verUe = s.verUe := rfl
@[simp] theorem State.setX_rowPoison (s : State) (d : Reg) (v : Word) : (s.setX d v).rowPoison = s.rowPoison := rfl
@[simp] theorem State.setX_raws (s : State) (d : Reg) (v : Word) : (s.setX d v).raws = s.raws := rfl
@[simp] theorem State.setX_worlds (s : State) (d : Reg) (v : Word) : (s.setX d v).worlds = s.worlds := rfl
@[simp] theorem State.setX_forks (s : State) (d : Reg) (v : Word) : (s.setX d v).forks = s.forks := rfl
@[simp] theorem State.setX_crows (s : State) (d : Reg) (v : Word) : (s.setX d v).crows = s.crows := rfl
@[simp] theorem State.setX_tlb (s : State) (d : Reg) (v : Word) : (s.setX d v).tlb = s.tlb := rfl
@[simp] theorem State.setX_ptroots (s : State) (d : Reg) (v : Word) : (s.setX d v).ptroots = s.ptroots := rfl
@[simp] theorem State.setX_ptsel (s : State) (d : Reg) (v : Word) : (s.setX d v).ptsel = s.ptsel := rfl
@[simp] theorem State.setX_code (s : State) (d : Reg) (v : Word) : (s.setX d v).code = s.code := rfl
@[simp] theorem State.setX_l1 (s : State) (d : Reg) (v : Word) : (s.setX d v).l1 = s.l1 := rfl
@[simp] theorem State.setX_unowned (s : State) (d : Reg) (v : Word) : (s.setX d v).unowned = s.unowned := rfl
@[simp] theorem State.setX_routes (s : State) (d : Reg) (v : Word) : (s.setX d v).routes = s.routes := rfl
@[simp] theorem State.setX_leases (s : State) (d : Reg) (v : Word) : (s.setX d v).leases = s.leases := rfl
@[simp] theorem State.setX_poolOut (s : State) (d : Reg) (v : Word) : (s.setX d v).poolOut = s.poolOut := rfl
@[simp] theorem State.setX_pctl (s : State) (d : Reg) (v : Word) : (s.setX d v).pctl = s.pctl := rfl
@[simp] theorem State.setX_side (s : State) (d : Reg) (v : Word) : (s.setX d v).side = s.side := rfl
@[simp] theorem State.setX_refusals (s : State) (d : Reg) (v : Word) : (s.setX d v).refusals = s.refusals := rfl
@[simp] theorem State.setX_cmds (s : State) (d : Reg) (v : Word) : (s.setX d v).cmds = s.cmds := rfl
@[simp] theorem State.setX_runs (s : State) (d : Reg) (v : Word) : (s.setX d v).runs = s.runs := rfl
@[simp] theorem State.setX_exprs (s : State) (d : Reg) (v : Word) : (s.setX d v).exprs = s.exprs := rfl
@[simp] theorem State.setX_locks (s : State) (d : Reg) (v : Word) : (s.setX d v).locks = s.locks := rfl
@[simp] theorem State.setX_berr (s : State) (d : Reg) (v : Word) : (s.setX d v).berr = s.berr := rfl
@[simp] theorem State.setX_refreshes (s : State) (d : Reg) (v : Word) : (s.setX d v).refreshes = s.refreshes := rfl
@[simp] theorem State.setX_late (s : State) (d : Reg) (v : Word) : (s.setX d v).late = s.late := rfl
@[simp] theorem State.setX_sas (s : State) (d : Reg) (v : Word) : (s.setX d v).sas = s.sas := rfl
@[simp] theorem State.setX_adds (s : State) (d : Reg) (v : Word) : (s.setX d v).adds = s.adds := rfl
@[simp] theorem State.setX_cores (s : State) (d : Reg) (v : Word) : (s.setX d v).cores = s.cores := rfl
@[simp] theorem State.setX_watch (s : State) (d : Reg) (v : Word) : (s.setX d v).watch = s.watch := rfl
@[simp] theorem State.setX_held (s : State) (d : Reg) (v : Word) : (s.setX d v).held = s.held := rfl
@[simp] theorem State.setX_launches (s : State) (d : Reg) (v : Word) : (s.setX d v).launches = s.launches := rfl
@[simp] theorem State.setX_handles (s : State) (d : Reg) (v : Word) : (s.setX d v).handles = s.handles := rfl
@[simp] theorem State.setX_queues (s : State) (d : Reg) (v : Word) : (s.setX d v).queues = s.queues := rfl
@[simp] theorem State.setX_gangrdy (s : State) (d : Reg) (v : Word) : (s.setX d v).gangrdy = s.gangrdy := rfl
@[simp] theorem State.setX_served (s : State) (d : Reg) (v : Word) : (s.setX d v).served = s.served := rfl
@[simp] theorem State.setX_evbase (s : State) (d : Reg) (v : Word) : (s.setX d v).evbase = s.evbase := rfl
@[simp] theorem State.setX_evhead (s : State) (d : Reg) (v : Word) : (s.setX d v).evhead = s.evhead := rfl
@[simp] theorem State.setX_evtail (s : State) (d : Reg) (v : Word) : (s.setX d v).evtail = s.evtail := rfl
@[simp] theorem State.setX_evseq (s : State) (d : Reg) (v : Word) : (s.setX d v).evseq = s.evseq := rfl
@[simp] theorem State.setX_waitswap (s : State) (d : Reg) (v : Word) : (s.setX d v).waitswap = s.waitswap := rfl
@[simp] theorem State.setX_ctxscope (s : State) (d : Reg) (v : Word) : (s.setX d v).ctxscope = s.ctxscope := rfl
@[simp] theorem State.setX_powermode (s : State) (d : Reg) (v : Word) : (s.setX d v).powermode = s.powermode := rfl
@[simp] theorem State.setX_railcmd (s : State) (d : Reg) (v : Word) : (s.setX d v).railcmd = s.railcmd := rfl
@[simp] theorem State.setX_hard (s : State) (d : Reg) (v : Word) : (s.setX d v).hard = s.hard := rfl
@[simp] theorem State.setX_limit (s : State) (d : Reg) (v : Word) : (s.setX d v).limit = s.limit := rfl
@[simp] theorem State.setX_clustersel (s : State) (d : Reg) (v : Word) : (s.setX d v).clustersel = s.clustersel := rfl
@[simp] theorem State.setX_clusters (s : State) (d : Reg) (v : Word) : (s.setX d v).clusters = s.clusters := rfl
@[simp] theorem State.setX_towers (s : State) (d : Reg) (v : Word) : (s.setX d v).towers = s.towers := rfl
@[simp] theorem State.setX_mons (s : State) (d : Reg) (v : Word) : (s.setX d v).mons = s.mons := rfl
@[simp] theorem State.setX_alarmcfg (s : State) (d : Reg) (v : Word) : (s.setX d v).alarmcfg = s.alarmcfg := rfl
@[simp] theorem State.setX_halted (s : State) (d : Reg) (v : Word) : (s.setX d v).halted = s.halted := rfl
@[simp] theorem State.setX_escrow (s : State) (d : Reg) (v : Word) : (s.setX d v).escrow = s.escrow := rfl
@[simp] theorem State.setX_boot (s : State) (d : Reg) (v : Word) : (s.setX d v).boot = s.boot := rfl
@[simp] theorem State.setX_time (s : State) (d : Reg) (v : Word) : (s.setX d v).time = s.time := rfl
@[simp] theorem State.setX_agenda (s : State) (d : Reg) (v : Word) : (s.setX d v).agenda = s.agenda := rfl
@[simp] theorem State.setX_turn (s : State) (d : Reg) (v : Word) : (s.setX d v).turn = s.turn := rfl
@[simp] theorem State.setX_reply (s : State) (d : Reg) (v : Word) : (s.setX d v).reply = s.reply := rfl
@[simp] theorem State.setX_fresh (s : State) (d : Reg) (v : Word) : (s.setX d v).fresh = s.fresh := rfl
@[simp] theorem State.setX_nextTask (s : State) (d : Reg) (v : Word) : (s.setX d v).nextTask = s.nextTask := rfl
@[simp] theorem State.setX_nextTeam (s : State) (d : Reg) (v : Word) : (s.setX d v).nextTeam = s.nextTeam := rfl
@[simp] theorem State.setX_nextLaunch (s : State) (d : Reg) (v : Word) : (s.setX d v).nextLaunch = s.nextLaunch := rfl
@[simp] theorem State.setX_nextCmd (s : State) (d : Reg) (v : Word) : (s.setX d v).nextCmd = s.nextCmd := rfl
@[simp] theorem State.setX_nextOrder (s : State) (d : Reg) (v : Word) : (s.setX d v).nextOrder = s.nextOrder := rfl
@[simp] theorem State.setX_nextTag (s : State) (d : Reg) (v : Word) : (s.setX d v).nextTag = s.nextTag := rfl
@[simp] theorem State.setX_nextWorld (s : State) (d : Reg) (v : Word) : (s.setX d v).nextWorld = s.nextWorld := rfl
@[simp] theorem State.setX_nextSide (s : State) (d : Reg) (v : Word) : (s.setX d v).nextSide = s.nextSide := rfl

@[simp] theorem State.setPc_live (s : State) (p : Word) : (s.setPc p).live = s.live := rfl
@[simp] theorem State.setPc_team (s : State) (p : Word) : (s.setPc p).team = s.team := rfl
@[simp] theorem State.setPc_peers (s : State) (p : Word) : (s.setPc p).peers = s.peers := rfl
@[simp] theorem State.setPc_parked (s : State) (p : Word) : (s.setPc p).parked = s.parked := rfl
@[simp] theorem State.setPc_past (s : State) (p : Word) : (s.setPc p).past = s.past := rfl
@[simp] theorem State.setPc_mem (s : State) (p : Word) : (s.setPc p).mem = s.mem := rfl
@[simp] theorem State.setPc_under (s : State) (p : Word) : (s.setPc p).under = s.under := rfl
@[simp] theorem State.setPc_ver (s : State) (p : Word) : (s.setPc p).ver = s.ver := rfl
@[simp] theorem State.setPc_ue (s : State) (p : Word) : (s.setPc p).ue = s.ue := rfl
@[simp] theorem State.setPc_ce (s : State) (p : Word) : (s.setPc p).ce = s.ce := rfl
@[simp] theorem State.setPc_verUe (s : State) (p : Word) : (s.setPc p).verUe = s.verUe := rfl
@[simp] theorem State.setPc_rowPoison (s : State) (p : Word) : (s.setPc p).rowPoison = s.rowPoison := rfl
@[simp] theorem State.setPc_raws (s : State) (p : Word) : (s.setPc p).raws = s.raws := rfl
@[simp] theorem State.setPc_worlds (s : State) (p : Word) : (s.setPc p).worlds = s.worlds := rfl
@[simp] theorem State.setPc_forks (s : State) (p : Word) : (s.setPc p).forks = s.forks := rfl
@[simp] theorem State.setPc_crows (s : State) (p : Word) : (s.setPc p).crows = s.crows := rfl
@[simp] theorem State.setPc_tlb (s : State) (p : Word) : (s.setPc p).tlb = s.tlb := rfl
@[simp] theorem State.setPc_ptroots (s : State) (p : Word) : (s.setPc p).ptroots = s.ptroots := rfl
@[simp] theorem State.setPc_ptsel (s : State) (p : Word) : (s.setPc p).ptsel = s.ptsel := rfl
@[simp] theorem State.setPc_code (s : State) (p : Word) : (s.setPc p).code = s.code := rfl
@[simp] theorem State.setPc_l1 (s : State) (p : Word) : (s.setPc p).l1 = s.l1 := rfl
@[simp] theorem State.setPc_unowned (s : State) (p : Word) : (s.setPc p).unowned = s.unowned := rfl
@[simp] theorem State.setPc_routes (s : State) (p : Word) : (s.setPc p).routes = s.routes := rfl
@[simp] theorem State.setPc_leases (s : State) (p : Word) : (s.setPc p).leases = s.leases := rfl
@[simp] theorem State.setPc_poolOut (s : State) (p : Word) : (s.setPc p).poolOut = s.poolOut := rfl
@[simp] theorem State.setPc_pctl (s : State) (p : Word) : (s.setPc p).pctl = s.pctl := rfl
@[simp] theorem State.setPc_side (s : State) (p : Word) : (s.setPc p).side = s.side := rfl
@[simp] theorem State.setPc_refusals (s : State) (p : Word) : (s.setPc p).refusals = s.refusals := rfl
@[simp] theorem State.setPc_cmds (s : State) (p : Word) : (s.setPc p).cmds = s.cmds := rfl
@[simp] theorem State.setPc_runs (s : State) (p : Word) : (s.setPc p).runs = s.runs := rfl
@[simp] theorem State.setPc_exprs (s : State) (p : Word) : (s.setPc p).exprs = s.exprs := rfl
@[simp] theorem State.setPc_locks (s : State) (p : Word) : (s.setPc p).locks = s.locks := rfl
@[simp] theorem State.setPc_berr (s : State) (p : Word) : (s.setPc p).berr = s.berr := rfl
@[simp] theorem State.setPc_refreshes (s : State) (p : Word) : (s.setPc p).refreshes = s.refreshes := rfl
@[simp] theorem State.setPc_late (s : State) (p : Word) : (s.setPc p).late = s.late := rfl
@[simp] theorem State.setPc_sas (s : State) (p : Word) : (s.setPc p).sas = s.sas := rfl
@[simp] theorem State.setPc_adds (s : State) (p : Word) : (s.setPc p).adds = s.adds := rfl
@[simp] theorem State.setPc_cores (s : State) (p : Word) : (s.setPc p).cores = s.cores := rfl
@[simp] theorem State.setPc_watch (s : State) (p : Word) : (s.setPc p).watch = s.watch := rfl
@[simp] theorem State.setPc_held (s : State) (p : Word) : (s.setPc p).held = s.held := rfl
@[simp] theorem State.setPc_launches (s : State) (p : Word) : (s.setPc p).launches = s.launches := rfl
@[simp] theorem State.setPc_handles (s : State) (p : Word) : (s.setPc p).handles = s.handles := rfl
@[simp] theorem State.setPc_queues (s : State) (p : Word) : (s.setPc p).queues = s.queues := rfl
@[simp] theorem State.setPc_gangrdy (s : State) (p : Word) : (s.setPc p).gangrdy = s.gangrdy := rfl
@[simp] theorem State.setPc_served (s : State) (p : Word) : (s.setPc p).served = s.served := rfl
@[simp] theorem State.setPc_evbase (s : State) (p : Word) : (s.setPc p).evbase = s.evbase := rfl
@[simp] theorem State.setPc_evhead (s : State) (p : Word) : (s.setPc p).evhead = s.evhead := rfl
@[simp] theorem State.setPc_evtail (s : State) (p : Word) : (s.setPc p).evtail = s.evtail := rfl
@[simp] theorem State.setPc_evseq (s : State) (p : Word) : (s.setPc p).evseq = s.evseq := rfl
@[simp] theorem State.setPc_waitswap (s : State) (p : Word) : (s.setPc p).waitswap = s.waitswap := rfl
@[simp] theorem State.setPc_ctxscope (s : State) (p : Word) : (s.setPc p).ctxscope = s.ctxscope := rfl
@[simp] theorem State.setPc_powermode (s : State) (p : Word) : (s.setPc p).powermode = s.powermode := rfl
@[simp] theorem State.setPc_railcmd (s : State) (p : Word) : (s.setPc p).railcmd = s.railcmd := rfl
@[simp] theorem State.setPc_hard (s : State) (p : Word) : (s.setPc p).hard = s.hard := rfl
@[simp] theorem State.setPc_limit (s : State) (p : Word) : (s.setPc p).limit = s.limit := rfl
@[simp] theorem State.setPc_clustersel (s : State) (p : Word) : (s.setPc p).clustersel = s.clustersel := rfl
@[simp] theorem State.setPc_clusters (s : State) (p : Word) : (s.setPc p).clusters = s.clusters := rfl
@[simp] theorem State.setPc_towers (s : State) (p : Word) : (s.setPc p).towers = s.towers := rfl
@[simp] theorem State.setPc_mons (s : State) (p : Word) : (s.setPc p).mons = s.mons := rfl
@[simp] theorem State.setPc_alarmcfg (s : State) (p : Word) : (s.setPc p).alarmcfg = s.alarmcfg := rfl
@[simp] theorem State.setPc_halted (s : State) (p : Word) : (s.setPc p).halted = s.halted := rfl
@[simp] theorem State.setPc_escrow (s : State) (p : Word) : (s.setPc p).escrow = s.escrow := rfl
@[simp] theorem State.setPc_boot (s : State) (p : Word) : (s.setPc p).boot = s.boot := rfl
@[simp] theorem State.setPc_time (s : State) (p : Word) : (s.setPc p).time = s.time := rfl
@[simp] theorem State.setPc_agenda (s : State) (p : Word) : (s.setPc p).agenda = s.agenda := rfl
@[simp] theorem State.setPc_turn (s : State) (p : Word) : (s.setPc p).turn = s.turn := rfl
@[simp] theorem State.setPc_reply (s : State) (p : Word) : (s.setPc p).reply = s.reply := rfl
@[simp] theorem State.setPc_fresh (s : State) (p : Word) : (s.setPc p).fresh = s.fresh := rfl
@[simp] theorem State.setPc_nextTask (s : State) (p : Word) : (s.setPc p).nextTask = s.nextTask := rfl
@[simp] theorem State.setPc_nextTeam (s : State) (p : Word) : (s.setPc p).nextTeam = s.nextTeam := rfl
@[simp] theorem State.setPc_nextLaunch (s : State) (p : Word) : (s.setPc p).nextLaunch = s.nextLaunch := rfl
@[simp] theorem State.setPc_nextCmd (s : State) (p : Word) : (s.setPc p).nextCmd = s.nextCmd := rfl
@[simp] theorem State.setPc_nextOrder (s : State) (p : Word) : (s.setPc p).nextOrder = s.nextOrder := rfl
@[simp] theorem State.setPc_nextTag (s : State) (p : Word) : (s.setPc p).nextTag = s.nextTag := rfl
@[simp] theorem State.setPc_nextWorld (s : State) (p : Word) : (s.setPc p).nextWorld = s.nextWorld := rfl
@[simp] theorem State.setPc_nextSide (s : State) (p : Word) : (s.setPc p).nextSide = s.nextSide := rfl

@[simp] theorem State.next_live (s : State) : (s.next).live = s.live := rfl
@[simp] theorem State.next_team (s : State) : (s.next).team = s.team := rfl
@[simp] theorem State.next_peers (s : State) : (s.next).peers = s.peers := rfl
@[simp] theorem State.next_parked (s : State) : (s.next).parked = s.parked := rfl
@[simp] theorem State.next_past (s : State) : (s.next).past = s.past := rfl
@[simp] theorem State.next_mem (s : State) : (s.next).mem = s.mem := rfl
@[simp] theorem State.next_under (s : State) : (s.next).under = s.under := rfl
@[simp] theorem State.next_ver (s : State) : (s.next).ver = s.ver := rfl
@[simp] theorem State.next_ue (s : State) : (s.next).ue = s.ue := rfl
@[simp] theorem State.next_ce (s : State) : (s.next).ce = s.ce := rfl
@[simp] theorem State.next_verUe (s : State) : (s.next).verUe = s.verUe := rfl
@[simp] theorem State.next_rowPoison (s : State) : (s.next).rowPoison = s.rowPoison := rfl
@[simp] theorem State.next_raws (s : State) : (s.next).raws = s.raws := rfl
@[simp] theorem State.next_worlds (s : State) : (s.next).worlds = s.worlds := rfl
@[simp] theorem State.next_forks (s : State) : (s.next).forks = s.forks := rfl
@[simp] theorem State.next_crows (s : State) : (s.next).crows = s.crows := rfl
@[simp] theorem State.next_tlb (s : State) : (s.next).tlb = s.tlb := rfl
@[simp] theorem State.next_ptroots (s : State) : (s.next).ptroots = s.ptroots := rfl
@[simp] theorem State.next_ptsel (s : State) : (s.next).ptsel = s.ptsel := rfl
@[simp] theorem State.next_code (s : State) : (s.next).code = s.code := rfl
@[simp] theorem State.next_l1 (s : State) : (s.next).l1 = s.l1 := rfl
@[simp] theorem State.next_unowned (s : State) : (s.next).unowned = s.unowned := rfl
@[simp] theorem State.next_routes (s : State) : (s.next).routes = s.routes := rfl
@[simp] theorem State.next_leases (s : State) : (s.next).leases = s.leases := rfl
@[simp] theorem State.next_poolOut (s : State) : (s.next).poolOut = s.poolOut := rfl
@[simp] theorem State.next_pctl (s : State) : (s.next).pctl = s.pctl := rfl
@[simp] theorem State.next_side (s : State) : (s.next).side = s.side := rfl
@[simp] theorem State.next_refusals (s : State) : (s.next).refusals = s.refusals := rfl
@[simp] theorem State.next_cmds (s : State) : (s.next).cmds = s.cmds := rfl
@[simp] theorem State.next_runs (s : State) : (s.next).runs = s.runs := rfl
@[simp] theorem State.next_exprs (s : State) : (s.next).exprs = s.exprs := rfl
@[simp] theorem State.next_locks (s : State) : (s.next).locks = s.locks := rfl
@[simp] theorem State.next_berr (s : State) : (s.next).berr = s.berr := rfl
@[simp] theorem State.next_refreshes (s : State) : (s.next).refreshes = s.refreshes := rfl
@[simp] theorem State.next_late (s : State) : (s.next).late = s.late := rfl
@[simp] theorem State.next_sas (s : State) : (s.next).sas = s.sas := rfl
@[simp] theorem State.next_adds (s : State) : (s.next).adds = s.adds := rfl
@[simp] theorem State.next_cores (s : State) : (s.next).cores = s.cores := rfl
@[simp] theorem State.next_watch (s : State) : (s.next).watch = s.watch := rfl
@[simp] theorem State.next_held (s : State) : (s.next).held = s.held := rfl
@[simp] theorem State.next_launches (s : State) : (s.next).launches = s.launches := rfl
@[simp] theorem State.next_handles (s : State) : (s.next).handles = s.handles := rfl
@[simp] theorem State.next_queues (s : State) : (s.next).queues = s.queues := rfl
@[simp] theorem State.next_gangrdy (s : State) : (s.next).gangrdy = s.gangrdy := rfl
@[simp] theorem State.next_served (s : State) : (s.next).served = s.served := rfl
@[simp] theorem State.next_evbase (s : State) : (s.next).evbase = s.evbase := rfl
@[simp] theorem State.next_evhead (s : State) : (s.next).evhead = s.evhead := rfl
@[simp] theorem State.next_evtail (s : State) : (s.next).evtail = s.evtail := rfl
@[simp] theorem State.next_evseq (s : State) : (s.next).evseq = s.evseq := rfl
@[simp] theorem State.next_waitswap (s : State) : (s.next).waitswap = s.waitswap := rfl
@[simp] theorem State.next_ctxscope (s : State) : (s.next).ctxscope = s.ctxscope := rfl
@[simp] theorem State.next_powermode (s : State) : (s.next).powermode = s.powermode := rfl
@[simp] theorem State.next_railcmd (s : State) : (s.next).railcmd = s.railcmd := rfl
@[simp] theorem State.next_hard (s : State) : (s.next).hard = s.hard := rfl
@[simp] theorem State.next_limit (s : State) : (s.next).limit = s.limit := rfl
@[simp] theorem State.next_clustersel (s : State) : (s.next).clustersel = s.clustersel := rfl
@[simp] theorem State.next_clusters (s : State) : (s.next).clusters = s.clusters := rfl
@[simp] theorem State.next_towers (s : State) : (s.next).towers = s.towers := rfl
@[simp] theorem State.next_mons (s : State) : (s.next).mons = s.mons := rfl
@[simp] theorem State.next_alarmcfg (s : State) : (s.next).alarmcfg = s.alarmcfg := rfl
@[simp] theorem State.next_halted (s : State) : (s.next).halted = s.halted := rfl
@[simp] theorem State.next_escrow (s : State) : (s.next).escrow = s.escrow := rfl
@[simp] theorem State.next_boot (s : State) : (s.next).boot = s.boot := rfl
@[simp] theorem State.next_time (s : State) : (s.next).time = s.time := rfl
@[simp] theorem State.next_agenda (s : State) : (s.next).agenda = s.agenda := rfl
@[simp] theorem State.next_turn (s : State) : (s.next).turn = s.turn := rfl
@[simp] theorem State.next_reply (s : State) : (s.next).reply = s.reply := rfl
@[simp] theorem State.next_fresh (s : State) : (s.next).fresh = s.fresh := rfl
@[simp] theorem State.next_nextTask (s : State) : (s.next).nextTask = s.nextTask := rfl
@[simp] theorem State.next_nextTeam (s : State) : (s.next).nextTeam = s.nextTeam := rfl
@[simp] theorem State.next_nextLaunch (s : State) : (s.next).nextLaunch = s.nextLaunch := rfl
@[simp] theorem State.next_nextCmd (s : State) : (s.next).nextCmd = s.nextCmd := rfl
@[simp] theorem State.next_nextOrder (s : State) : (s.next).nextOrder = s.nextOrder := rfl
@[simp] theorem State.next_nextTag (s : State) : (s.next).nextTag = s.nextTag := rfl
@[simp] theorem State.next_nextWorld (s : State) : (s.next).nextWorld = s.nextWorld := rfl
@[simp] theorem State.next_nextSide (s : State) : (s.next).nextSide = s.nextSide := rfl

@[simp] theorem State.put_live (s : State) (d : Reg) (v : Word) : (s.put d v).live = s.live := rfl
@[simp] theorem State.put_team (s : State) (d : Reg) (v : Word) : (s.put d v).team = s.team := rfl
@[simp] theorem State.put_peers (s : State) (d : Reg) (v : Word) : (s.put d v).peers = s.peers := rfl
@[simp] theorem State.put_parked (s : State) (d : Reg) (v : Word) : (s.put d v).parked = s.parked := rfl
@[simp] theorem State.put_past (s : State) (d : Reg) (v : Word) : (s.put d v).past = s.past := rfl
@[simp] theorem State.put_mem (s : State) (d : Reg) (v : Word) : (s.put d v).mem = s.mem := rfl
@[simp] theorem State.put_under (s : State) (d : Reg) (v : Word) : (s.put d v).under = s.under := rfl
@[simp] theorem State.put_ver (s : State) (d : Reg) (v : Word) : (s.put d v).ver = s.ver := rfl
@[simp] theorem State.put_ue (s : State) (d : Reg) (v : Word) : (s.put d v).ue = s.ue := rfl
@[simp] theorem State.put_ce (s : State) (d : Reg) (v : Word) : (s.put d v).ce = s.ce := rfl
@[simp] theorem State.put_verUe (s : State) (d : Reg) (v : Word) : (s.put d v).verUe = s.verUe := rfl
@[simp] theorem State.put_rowPoison (s : State) (d : Reg) (v : Word) : (s.put d v).rowPoison = s.rowPoison := rfl
@[simp] theorem State.put_raws (s : State) (d : Reg) (v : Word) : (s.put d v).raws = s.raws := rfl
@[simp] theorem State.put_worlds (s : State) (d : Reg) (v : Word) : (s.put d v).worlds = s.worlds := rfl
@[simp] theorem State.put_forks (s : State) (d : Reg) (v : Word) : (s.put d v).forks = s.forks := rfl
@[simp] theorem State.put_crows (s : State) (d : Reg) (v : Word) : (s.put d v).crows = s.crows := rfl
@[simp] theorem State.put_tlb (s : State) (d : Reg) (v : Word) : (s.put d v).tlb = s.tlb := rfl
@[simp] theorem State.put_ptroots (s : State) (d : Reg) (v : Word) : (s.put d v).ptroots = s.ptroots := rfl
@[simp] theorem State.put_ptsel (s : State) (d : Reg) (v : Word) : (s.put d v).ptsel = s.ptsel := rfl
@[simp] theorem State.put_code (s : State) (d : Reg) (v : Word) : (s.put d v).code = s.code := rfl
@[simp] theorem State.put_l1 (s : State) (d : Reg) (v : Word) : (s.put d v).l1 = s.l1 := rfl
@[simp] theorem State.put_unowned (s : State) (d : Reg) (v : Word) : (s.put d v).unowned = s.unowned := rfl
@[simp] theorem State.put_routes (s : State) (d : Reg) (v : Word) : (s.put d v).routes = s.routes := rfl
@[simp] theorem State.put_leases (s : State) (d : Reg) (v : Word) : (s.put d v).leases = s.leases := rfl
@[simp] theorem State.put_poolOut (s : State) (d : Reg) (v : Word) : (s.put d v).poolOut = s.poolOut := rfl
@[simp] theorem State.put_pctl (s : State) (d : Reg) (v : Word) : (s.put d v).pctl = s.pctl := rfl
@[simp] theorem State.put_side (s : State) (d : Reg) (v : Word) : (s.put d v).side = s.side := rfl
@[simp] theorem State.put_refusals (s : State) (d : Reg) (v : Word) : (s.put d v).refusals = s.refusals := rfl
@[simp] theorem State.put_cmds (s : State) (d : Reg) (v : Word) : (s.put d v).cmds = s.cmds := rfl
@[simp] theorem State.put_runs (s : State) (d : Reg) (v : Word) : (s.put d v).runs = s.runs := rfl
@[simp] theorem State.put_exprs (s : State) (d : Reg) (v : Word) : (s.put d v).exprs = s.exprs := rfl
@[simp] theorem State.put_locks (s : State) (d : Reg) (v : Word) : (s.put d v).locks = s.locks := rfl
@[simp] theorem State.put_berr (s : State) (d : Reg) (v : Word) : (s.put d v).berr = s.berr := rfl
@[simp] theorem State.put_refreshes (s : State) (d : Reg) (v : Word) : (s.put d v).refreshes = s.refreshes := rfl
@[simp] theorem State.put_late (s : State) (d : Reg) (v : Word) : (s.put d v).late = s.late := rfl
@[simp] theorem State.put_sas (s : State) (d : Reg) (v : Word) : (s.put d v).sas = s.sas := rfl
@[simp] theorem State.put_adds (s : State) (d : Reg) (v : Word) : (s.put d v).adds = s.adds := rfl
@[simp] theorem State.put_cores (s : State) (d : Reg) (v : Word) : (s.put d v).cores = s.cores := rfl
@[simp] theorem State.put_watch (s : State) (d : Reg) (v : Word) : (s.put d v).watch = s.watch := rfl
@[simp] theorem State.put_held (s : State) (d : Reg) (v : Word) : (s.put d v).held = s.held := rfl
@[simp] theorem State.put_launches (s : State) (d : Reg) (v : Word) : (s.put d v).launches = s.launches := rfl
@[simp] theorem State.put_handles (s : State) (d : Reg) (v : Word) : (s.put d v).handles = s.handles := rfl
@[simp] theorem State.put_queues (s : State) (d : Reg) (v : Word) : (s.put d v).queues = s.queues := rfl
@[simp] theorem State.put_gangrdy (s : State) (d : Reg) (v : Word) : (s.put d v).gangrdy = s.gangrdy := rfl
@[simp] theorem State.put_served (s : State) (d : Reg) (v : Word) : (s.put d v).served = s.served := rfl
@[simp] theorem State.put_evbase (s : State) (d : Reg) (v : Word) : (s.put d v).evbase = s.evbase := rfl
@[simp] theorem State.put_evhead (s : State) (d : Reg) (v : Word) : (s.put d v).evhead = s.evhead := rfl
@[simp] theorem State.put_evtail (s : State) (d : Reg) (v : Word) : (s.put d v).evtail = s.evtail := rfl
@[simp] theorem State.put_evseq (s : State) (d : Reg) (v : Word) : (s.put d v).evseq = s.evseq := rfl
@[simp] theorem State.put_waitswap (s : State) (d : Reg) (v : Word) : (s.put d v).waitswap = s.waitswap := rfl
@[simp] theorem State.put_ctxscope (s : State) (d : Reg) (v : Word) : (s.put d v).ctxscope = s.ctxscope := rfl
@[simp] theorem State.put_powermode (s : State) (d : Reg) (v : Word) : (s.put d v).powermode = s.powermode := rfl
@[simp] theorem State.put_railcmd (s : State) (d : Reg) (v : Word) : (s.put d v).railcmd = s.railcmd := rfl
@[simp] theorem State.put_hard (s : State) (d : Reg) (v : Word) : (s.put d v).hard = s.hard := rfl
@[simp] theorem State.put_limit (s : State) (d : Reg) (v : Word) : (s.put d v).limit = s.limit := rfl
@[simp] theorem State.put_clustersel (s : State) (d : Reg) (v : Word) : (s.put d v).clustersel = s.clustersel := rfl
@[simp] theorem State.put_clusters (s : State) (d : Reg) (v : Word) : (s.put d v).clusters = s.clusters := rfl
@[simp] theorem State.put_towers (s : State) (d : Reg) (v : Word) : (s.put d v).towers = s.towers := rfl
@[simp] theorem State.put_mons (s : State) (d : Reg) (v : Word) : (s.put d v).mons = s.mons := rfl
@[simp] theorem State.put_alarmcfg (s : State) (d : Reg) (v : Word) : (s.put d v).alarmcfg = s.alarmcfg := rfl
@[simp] theorem State.put_halted (s : State) (d : Reg) (v : Word) : (s.put d v).halted = s.halted := rfl
@[simp] theorem State.put_escrow (s : State) (d : Reg) (v : Word) : (s.put d v).escrow = s.escrow := rfl
@[simp] theorem State.put_boot (s : State) (d : Reg) (v : Word) : (s.put d v).boot = s.boot := rfl
@[simp] theorem State.put_time (s : State) (d : Reg) (v : Word) : (s.put d v).time = s.time := rfl
@[simp] theorem State.put_agenda (s : State) (d : Reg) (v : Word) : (s.put d v).agenda = s.agenda := rfl
@[simp] theorem State.put_turn (s : State) (d : Reg) (v : Word) : (s.put d v).turn = s.turn := rfl
@[simp] theorem State.put_reply (s : State) (d : Reg) (v : Word) : (s.put d v).reply = s.reply := rfl
@[simp] theorem State.put_fresh (s : State) (d : Reg) (v : Word) : (s.put d v).fresh = s.fresh := rfl
@[simp] theorem State.put_nextTask (s : State) (d : Reg) (v : Word) : (s.put d v).nextTask = s.nextTask := rfl
@[simp] theorem State.put_nextTeam (s : State) (d : Reg) (v : Word) : (s.put d v).nextTeam = s.nextTeam := rfl
@[simp] theorem State.put_nextLaunch (s : State) (d : Reg) (v : Word) : (s.put d v).nextLaunch = s.nextLaunch := rfl
@[simp] theorem State.put_nextCmd (s : State) (d : Reg) (v : Word) : (s.put d v).nextCmd = s.nextCmd := rfl
@[simp] theorem State.put_nextOrder (s : State) (d : Reg) (v : Word) : (s.put d v).nextOrder = s.nextOrder := rfl
@[simp] theorem State.put_nextTag (s : State) (d : Reg) (v : Word) : (s.put d v).nextTag = s.nextTag := rfl
@[simp] theorem State.put_nextWorld (s : State) (d : Reg) (v : Word) : (s.put d v).nextWorld = s.nextWorld := rfl
@[simp] theorem State.put_nextSide (s : State) (d : Reg) (v : Word) : (s.put d v).nextSide = s.nextSide := rfl

@[simp] theorem State.setWait_live (s : State) (w : Option Wait) : (s.setWait w).live = s.live := rfl
@[simp] theorem State.setWait_team (s : State) (w : Option Wait) : (s.setWait w).team = s.team := rfl
@[simp] theorem State.setWait_peers (s : State) (w : Option Wait) : (s.setWait w).peers = s.peers := rfl
@[simp] theorem State.setWait_parked (s : State) (w : Option Wait) : (s.setWait w).parked = s.parked := rfl
@[simp] theorem State.setWait_past (s : State) (w : Option Wait) : (s.setWait w).past = s.past := rfl
@[simp] theorem State.setWait_mem (s : State) (w : Option Wait) : (s.setWait w).mem = s.mem := rfl
@[simp] theorem State.setWait_under (s : State) (w : Option Wait) : (s.setWait w).under = s.under := rfl
@[simp] theorem State.setWait_ver (s : State) (w : Option Wait) : (s.setWait w).ver = s.ver := rfl
@[simp] theorem State.setWait_ue (s : State) (w : Option Wait) : (s.setWait w).ue = s.ue := rfl
@[simp] theorem State.setWait_ce (s : State) (w : Option Wait) : (s.setWait w).ce = s.ce := rfl
@[simp] theorem State.setWait_verUe (s : State) (w : Option Wait) : (s.setWait w).verUe = s.verUe := rfl
@[simp] theorem State.setWait_rowPoison (s : State) (w : Option Wait) : (s.setWait w).rowPoison = s.rowPoison := rfl
@[simp] theorem State.setWait_raws (s : State) (w : Option Wait) : (s.setWait w).raws = s.raws := rfl
@[simp] theorem State.setWait_worlds (s : State) (w : Option Wait) : (s.setWait w).worlds = s.worlds := rfl
@[simp] theorem State.setWait_forks (s : State) (w : Option Wait) : (s.setWait w).forks = s.forks := rfl
@[simp] theorem State.setWait_crows (s : State) (w : Option Wait) : (s.setWait w).crows = s.crows := rfl
@[simp] theorem State.setWait_tlb (s : State) (w : Option Wait) : (s.setWait w).tlb = s.tlb := rfl
@[simp] theorem State.setWait_ptroots (s : State) (w : Option Wait) : (s.setWait w).ptroots = s.ptroots := rfl
@[simp] theorem State.setWait_ptsel (s : State) (w : Option Wait) : (s.setWait w).ptsel = s.ptsel := rfl
@[simp] theorem State.setWait_code (s : State) (w : Option Wait) : (s.setWait w).code = s.code := rfl
@[simp] theorem State.setWait_l1 (s : State) (w : Option Wait) : (s.setWait w).l1 = s.l1 := rfl
@[simp] theorem State.setWait_unowned (s : State) (w : Option Wait) : (s.setWait w).unowned = s.unowned := rfl
@[simp] theorem State.setWait_routes (s : State) (w : Option Wait) : (s.setWait w).routes = s.routes := rfl
@[simp] theorem State.setWait_leases (s : State) (w : Option Wait) : (s.setWait w).leases = s.leases := rfl
@[simp] theorem State.setWait_poolOut (s : State) (w : Option Wait) : (s.setWait w).poolOut = s.poolOut := rfl
@[simp] theorem State.setWait_pctl (s : State) (w : Option Wait) : (s.setWait w).pctl = s.pctl := rfl
@[simp] theorem State.setWait_side (s : State) (w : Option Wait) : (s.setWait w).side = s.side := rfl
@[simp] theorem State.setWait_refusals (s : State) (w : Option Wait) : (s.setWait w).refusals = s.refusals := rfl
@[simp] theorem State.setWait_cmds (s : State) (w : Option Wait) : (s.setWait w).cmds = s.cmds := rfl
@[simp] theorem State.setWait_runs (s : State) (w : Option Wait) : (s.setWait w).runs = s.runs := rfl
@[simp] theorem State.setWait_exprs (s : State) (w : Option Wait) : (s.setWait w).exprs = s.exprs := rfl
@[simp] theorem State.setWait_locks (s : State) (w : Option Wait) : (s.setWait w).locks = s.locks := rfl
@[simp] theorem State.setWait_berr (s : State) (w : Option Wait) : (s.setWait w).berr = s.berr := rfl
@[simp] theorem State.setWait_refreshes (s : State) (w : Option Wait) : (s.setWait w).refreshes = s.refreshes := rfl
@[simp] theorem State.setWait_late (s : State) (w : Option Wait) : (s.setWait w).late = s.late := rfl
@[simp] theorem State.setWait_sas (s : State) (w : Option Wait) : (s.setWait w).sas = s.sas := rfl
@[simp] theorem State.setWait_adds (s : State) (w : Option Wait) : (s.setWait w).adds = s.adds := rfl
@[simp] theorem State.setWait_cores (s : State) (w : Option Wait) : (s.setWait w).cores = s.cores := rfl
@[simp] theorem State.setWait_watch (s : State) (w : Option Wait) : (s.setWait w).watch = s.watch := rfl
@[simp] theorem State.setWait_held (s : State) (w : Option Wait) : (s.setWait w).held = s.held := rfl
@[simp] theorem State.setWait_launches (s : State) (w : Option Wait) : (s.setWait w).launches = s.launches := rfl
@[simp] theorem State.setWait_handles (s : State) (w : Option Wait) : (s.setWait w).handles = s.handles := rfl
@[simp] theorem State.setWait_queues (s : State) (w : Option Wait) : (s.setWait w).queues = s.queues := rfl
@[simp] theorem State.setWait_gangrdy (s : State) (w : Option Wait) : (s.setWait w).gangrdy = s.gangrdy := rfl
@[simp] theorem State.setWait_served (s : State) (w : Option Wait) : (s.setWait w).served = s.served := rfl
@[simp] theorem State.setWait_evbase (s : State) (w : Option Wait) : (s.setWait w).evbase = s.evbase := rfl
@[simp] theorem State.setWait_evhead (s : State) (w : Option Wait) : (s.setWait w).evhead = s.evhead := rfl
@[simp] theorem State.setWait_evtail (s : State) (w : Option Wait) : (s.setWait w).evtail = s.evtail := rfl
@[simp] theorem State.setWait_evseq (s : State) (w : Option Wait) : (s.setWait w).evseq = s.evseq := rfl
@[simp] theorem State.setWait_waitswap (s : State) (w : Option Wait) : (s.setWait w).waitswap = s.waitswap := rfl
@[simp] theorem State.setWait_ctxscope (s : State) (w : Option Wait) : (s.setWait w).ctxscope = s.ctxscope := rfl
@[simp] theorem State.setWait_powermode (s : State) (w : Option Wait) : (s.setWait w).powermode = s.powermode := rfl
@[simp] theorem State.setWait_railcmd (s : State) (w : Option Wait) : (s.setWait w).railcmd = s.railcmd := rfl
@[simp] theorem State.setWait_hard (s : State) (w : Option Wait) : (s.setWait w).hard = s.hard := rfl
@[simp] theorem State.setWait_limit (s : State) (w : Option Wait) : (s.setWait w).limit = s.limit := rfl
@[simp] theorem State.setWait_clustersel (s : State) (w : Option Wait) : (s.setWait w).clustersel = s.clustersel := rfl
@[simp] theorem State.setWait_clusters (s : State) (w : Option Wait) : (s.setWait w).clusters = s.clusters := rfl
@[simp] theorem State.setWait_towers (s : State) (w : Option Wait) : (s.setWait w).towers = s.towers := rfl
@[simp] theorem State.setWait_mons (s : State) (w : Option Wait) : (s.setWait w).mons = s.mons := rfl
@[simp] theorem State.setWait_alarmcfg (s : State) (w : Option Wait) : (s.setWait w).alarmcfg = s.alarmcfg := rfl
@[simp] theorem State.setWait_halted (s : State) (w : Option Wait) : (s.setWait w).halted = s.halted := rfl
@[simp] theorem State.setWait_escrow (s : State) (w : Option Wait) : (s.setWait w).escrow = s.escrow := rfl
@[simp] theorem State.setWait_boot (s : State) (w : Option Wait) : (s.setWait w).boot = s.boot := rfl
@[simp] theorem State.setWait_time (s : State) (w : Option Wait) : (s.setWait w).time = s.time := rfl
@[simp] theorem State.setWait_agenda (s : State) (w : Option Wait) : (s.setWait w).agenda = s.agenda := rfl
@[simp] theorem State.setWait_turn (s : State) (w : Option Wait) : (s.setWait w).turn = s.turn := rfl
@[simp] theorem State.setWait_reply (s : State) (w : Option Wait) : (s.setWait w).reply = s.reply := rfl
@[simp] theorem State.setWait_fresh (s : State) (w : Option Wait) : (s.setWait w).fresh = s.fresh := rfl
@[simp] theorem State.setWait_nextTask (s : State) (w : Option Wait) : (s.setWait w).nextTask = s.nextTask := rfl
@[simp] theorem State.setWait_nextTeam (s : State) (w : Option Wait) : (s.setWait w).nextTeam = s.nextTeam := rfl
@[simp] theorem State.setWait_nextLaunch (s : State) (w : Option Wait) : (s.setWait w).nextLaunch = s.nextLaunch := rfl
@[simp] theorem State.setWait_nextCmd (s : State) (w : Option Wait) : (s.setWait w).nextCmd = s.nextCmd := rfl
@[simp] theorem State.setWait_nextOrder (s : State) (w : Option Wait) : (s.setWait w).nextOrder = s.nextOrder := rfl
@[simp] theorem State.setWait_nextTag (s : State) (w : Option Wait) : (s.setWait w).nextTag = s.nextTag := rfl
@[simp] theorem State.setWait_nextWorld (s : State) (w : Option Wait) : (s.setWait w).nextWorld = s.nextWorld := rfl
@[simp] theorem State.setWait_nextSide (s : State) (w : Option Wait) : (s.setWait w).nextSide = s.nextSide := rfl

@[simp] theorem State.settle_live (s : State) : (s.settle).live = s.live := rfl
@[simp] theorem State.settle_team (s : State) : (s.settle).team = s.team := rfl
@[simp] theorem State.settle_peers (s : State) : (s.settle).peers = s.peers := rfl
@[simp] theorem State.settle_parked (s : State) : (s.settle).parked = s.parked := rfl
@[simp] theorem State.settle_past (s : State) : (s.settle).past = s.past := rfl
@[simp] theorem State.settle_mem (s : State) : (s.settle).mem = s.mem := rfl
@[simp] theorem State.settle_under (s : State) : (s.settle).under = s.under := rfl
@[simp] theorem State.settle_ver (s : State) : (s.settle).ver = s.ver := rfl
@[simp] theorem State.settle_ue (s : State) : (s.settle).ue = s.ue := rfl
@[simp] theorem State.settle_ce (s : State) : (s.settle).ce = s.ce := rfl
@[simp] theorem State.settle_verUe (s : State) : (s.settle).verUe = s.verUe := rfl
@[simp] theorem State.settle_rowPoison (s : State) : (s.settle).rowPoison = s.rowPoison := rfl
@[simp] theorem State.settle_raws (s : State) : (s.settle).raws = s.raws := rfl
@[simp] theorem State.settle_worlds (s : State) : (s.settle).worlds = s.worlds := rfl
@[simp] theorem State.settle_forks (s : State) : (s.settle).forks = s.forks := rfl
@[simp] theorem State.settle_crows (s : State) : (s.settle).crows = s.crows := rfl
@[simp] theorem State.settle_tlb (s : State) : (s.settle).tlb = s.tlb := rfl
@[simp] theorem State.settle_ptroots (s : State) : (s.settle).ptroots = s.ptroots := rfl
@[simp] theorem State.settle_ptsel (s : State) : (s.settle).ptsel = s.ptsel := rfl
@[simp] theorem State.settle_code (s : State) : (s.settle).code = s.code := rfl
@[simp] theorem State.settle_l1 (s : State) : (s.settle).l1 = s.l1 := rfl
@[simp] theorem State.settle_unowned (s : State) : (s.settle).unowned = s.unowned := rfl
@[simp] theorem State.settle_routes (s : State) : (s.settle).routes = s.routes := rfl
@[simp] theorem State.settle_leases (s : State) : (s.settle).leases = s.leases := rfl
@[simp] theorem State.settle_poolOut (s : State) : (s.settle).poolOut = s.poolOut := rfl
@[simp] theorem State.settle_pctl (s : State) : (s.settle).pctl = s.pctl := rfl
@[simp] theorem State.settle_side (s : State) : (s.settle).side = s.side := rfl
@[simp] theorem State.settle_refusals (s : State) : (s.settle).refusals = s.refusals := rfl
@[simp] theorem State.settle_cmds (s : State) : (s.settle).cmds = s.cmds := rfl
@[simp] theorem State.settle_runs (s : State) : (s.settle).runs = s.runs := rfl
@[simp] theorem State.settle_exprs (s : State) : (s.settle).exprs = s.exprs := rfl
@[simp] theorem State.settle_locks (s : State) : (s.settle).locks = s.locks := rfl
@[simp] theorem State.settle_berr (s : State) : (s.settle).berr = s.berr := rfl
@[simp] theorem State.settle_refreshes (s : State) : (s.settle).refreshes = s.refreshes := rfl
@[simp] theorem State.settle_late (s : State) : (s.settle).late = s.late := rfl
@[simp] theorem State.settle_sas (s : State) : (s.settle).sas = s.sas := rfl
@[simp] theorem State.settle_adds (s : State) : (s.settle).adds = s.adds := rfl
@[simp] theorem State.settle_cores (s : State) : (s.settle).cores = s.cores := rfl
@[simp] theorem State.settle_watch (s : State) : (s.settle).watch = s.watch := rfl
@[simp] theorem State.settle_held (s : State) : (s.settle).held = s.held := rfl
@[simp] theorem State.settle_launches (s : State) : (s.settle).launches = s.launches := rfl
@[simp] theorem State.settle_handles (s : State) : (s.settle).handles = s.handles := rfl
@[simp] theorem State.settle_queues (s : State) : (s.settle).queues = s.queues := rfl
@[simp] theorem State.settle_gangrdy (s : State) : (s.settle).gangrdy = s.gangrdy := rfl
@[simp] theorem State.settle_served (s : State) : (s.settle).served = s.served := rfl
@[simp] theorem State.settle_evbase (s : State) : (s.settle).evbase = s.evbase := rfl
@[simp] theorem State.settle_evhead (s : State) : (s.settle).evhead = s.evhead := rfl
@[simp] theorem State.settle_evtail (s : State) : (s.settle).evtail = s.evtail := rfl
@[simp] theorem State.settle_evseq (s : State) : (s.settle).evseq = s.evseq := rfl
@[simp] theorem State.settle_waitswap (s : State) : (s.settle).waitswap = s.waitswap := rfl
@[simp] theorem State.settle_ctxscope (s : State) : (s.settle).ctxscope = s.ctxscope := rfl
@[simp] theorem State.settle_powermode (s : State) : (s.settle).powermode = s.powermode := rfl
@[simp] theorem State.settle_railcmd (s : State) : (s.settle).railcmd = s.railcmd := rfl
@[simp] theorem State.settle_hard (s : State) : (s.settle).hard = s.hard := rfl
@[simp] theorem State.settle_limit (s : State) : (s.settle).limit = s.limit := rfl
@[simp] theorem State.settle_clustersel (s : State) : (s.settle).clustersel = s.clustersel := rfl
@[simp] theorem State.settle_clusters (s : State) : (s.settle).clusters = s.clusters := rfl
@[simp] theorem State.settle_towers (s : State) : (s.settle).towers = s.towers := rfl
@[simp] theorem State.settle_mons (s : State) : (s.settle).mons = s.mons := rfl
@[simp] theorem State.settle_alarmcfg (s : State) : (s.settle).alarmcfg = s.alarmcfg := rfl
@[simp] theorem State.settle_halted (s : State) : (s.settle).halted = s.halted := rfl
@[simp] theorem State.settle_escrow (s : State) : (s.settle).escrow = s.escrow := rfl
@[simp] theorem State.settle_boot (s : State) : (s.settle).boot = s.boot := rfl
@[simp] theorem State.settle_time (s : State) : (s.settle).time = s.time := rfl
@[simp] theorem State.settle_agenda (s : State) : (s.settle).agenda = s.agenda := rfl
@[simp] theorem State.settle_turn (s : State) : (s.settle).turn = s.turn := rfl
@[simp] theorem State.settle_reply (s : State) : (s.settle).reply = s.reply := rfl
@[simp] theorem State.settle_fresh (s : State) : (s.settle).fresh = s.fresh := rfl
@[simp] theorem State.settle_nextTask (s : State) : (s.settle).nextTask = s.nextTask := rfl
@[simp] theorem State.settle_nextTeam (s : State) : (s.settle).nextTeam = s.nextTeam := rfl
@[simp] theorem State.settle_nextLaunch (s : State) : (s.settle).nextLaunch = s.nextLaunch := rfl
@[simp] theorem State.settle_nextCmd (s : State) : (s.settle).nextCmd = s.nextCmd := rfl
@[simp] theorem State.settle_nextOrder (s : State) : (s.settle).nextOrder = s.nextOrder := rfl
@[simp] theorem State.settle_nextTag (s : State) : (s.settle).nextTag = s.nextTag := rfl
@[simp] theorem State.settle_nextWorld (s : State) : (s.settle).nextWorld = s.nextWorld := rfl
@[simp] theorem State.settle_nextSide (s : State) : (s.settle).nextSide = s.nextSide := rfl

@[simp] theorem State.setX_me_idx (s : State) (d : Reg) (v : Word) : (s.setX d v).me.idx = s.me.idx := Hart.setReg_idx ..
@[simp] theorem State.setX_me_alive (s : State) (d : Reg) (v : Word) : (s.setX d v).me.alive = s.me.alive := Hart.setReg_alive ..
@[simp] theorem State.setX_me_pc (s : State) (d : Reg) (v : Word) : (s.setX d v).me.pc = s.me.pc := Hart.setReg_pc ..
@[simp] theorem State.setX_me_vtype (s : State) (d : Reg) (v : Word) : (s.setX d v).me.vtype = s.me.vtype := Hart.setReg_vtype ..
@[simp] theorem State.setX_me_vl (s : State) (d : Reg) (v : Word) : (s.setX d v).me.vl = s.me.vl := Hart.setReg_vl ..
@[simp] theorem State.setX_me_fcsr (s : State) (d : Reg) (v : Word) : (s.setX d v).me.fcsr = s.me.fcsr := Hart.setReg_fcsr ..
@[simp] theorem State.setX_me_sperr (s : State) (d : Reg) (v : Word) : (s.setX d v).me.sperr = s.me.sperr := Hart.setReg_sperr ..
@[simp] theorem State.setX_me_lqOvf (s : State) (d : Reg) (v : Word) : (s.setX d v).me.lqOvf = s.me.lqOvf := Hart.setReg_lqOvf ..
@[simp] theorem State.setX_me_lqUnd (s : State) (d : Reg) (v : Word) : (s.setX d v).me.lqUnd = s.me.lqUnd := Hart.setReg_lqUnd ..
@[simp] theorem State.setX_me_lq (s : State) (d : Reg) (v : Word) : (s.setX d v).me.lq = s.me.lq := Hart.setReg_lq ..
@[simp] theorem State.setX_me_depth (s : State) (d : Reg) (v : Word) : (s.setX d v).me.depth = s.me.depth := Hart.setReg_depth ..
@[simp] theorem State.setX_me_stk (s : State) (d : Reg) (v : Word) : (s.setX d v).me.stk = s.me.stk := Hart.setReg_stk ..
@[simp] theorem State.setX_me_lskew (s : State) (d : Reg) (v : Word) : (s.setX d v).me.lskew = s.me.lskew := Hart.setReg_lskew ..
@[simp] theorem State.setX_me_tepc (s : State) (d : Reg) (v : Word) : (s.setX d v).me.tepc = s.me.tepc := Hart.setReg_tepc ..
@[simp] theorem State.setX_me_tcause (s : State) (d : Reg) (v : Word) : (s.setX d v).me.tcause = s.me.tcause := Hart.setReg_tcause ..
@[simp] theorem State.setX_me_tval (s : State) (d : Reg) (v : Word) : (s.setX d v).me.tval = s.me.tval := Hart.setReg_tval ..
@[simp] theorem State.setX_me_tstat (s : State) (d : Reg) (v : Word) : (s.setX d v).me.tstat = s.me.tstat := Hart.setReg_tstat ..
@[simp] theorem State.setX_me_pixV (s : State) (d : Reg) (v : Word) : (s.setX d v).me.pixV = s.me.pixV := Hart.setReg_pixV ..
@[simp] theorem State.setX_me_pixT (s : State) (d : Reg) (v : Word) : (s.setX d v).me.pixT = s.me.pixT := Hart.setReg_pixT ..
@[simp] theorem State.setX_me_pixW (s : State) (d : Reg) (v : Word) : (s.setX d v).me.pixW = s.me.pixW := Hart.setReg_pixW ..
@[simp] theorem State.setX_me_v (s : State) (d : Reg) (v : Word) : (s.setX d v).me.v = s.me.v := Hart.setReg_v ..
@[simp] theorem State.setX_me_vmark (s : State) (d : Reg) (v : Word) : (s.setX d v).me.vmark = s.me.vmark := Hart.setReg_vmark ..
@[simp] theorem State.setX_me_m (s : State) (d : Reg) (v : Word) : (s.setX d v).me.m = s.me.m := Hart.setReg_m ..
@[simp] theorem State.setX_me_mmark (s : State) (d : Reg) (v : Word) : (s.setX d v).me.mmark = s.me.mmark := Hart.setReg_mmark ..
@[simp] theorem State.setX_me_ctxs (s : State) (d : Reg) (v : Word) : (s.setX d v).me.ctxs = s.me.ctxs := Hart.setReg_ctxs ..
@[simp] theorem State.setX_me_blk (s : State) (d : Reg) (v : Word) : (s.setX d v).me.blk = s.me.blk := Hart.setReg_blk ..
@[simp] theorem State.setX_me_unf (s : State) (d : Reg) (v : Word) : (s.setX d v).me.unf = s.me.unf := Hart.setReg_unf ..
@[simp] theorem State.setX_me_wait (s : State) (d : Reg) (v : Word) : (s.setX d v).me.wait = s.me.wait := Hart.setReg_wait ..
@[simp] theorem State.setX_me_blkFault (s : State) (d : Reg) (v : Word) : (s.setX d v).me.blkFault = s.me.blkFault := Hart.setReg_blkFault ..
@[simp] theorem State.setX_me_blkNext (s : State) (d : Reg) (v : Word) : (s.setX d v).me.blkNext = s.me.blkNext := Hart.setReg_blkNext ..
@[simp] theorem State.setX_me_sideFault (s : State) (d : Reg) (v : Word) : (s.setX d v).me.sideFault = s.me.sideFault := Hart.setReg_sideFault ..
@[simp] theorem State.setX_me_pending (s : State) (d : Reg) (v : Word) : (s.setX d v).me.pending = s.me.pending := Hart.setReg_pending ..
@[simp] theorem State.setX_me_entry (s : State) (d : Reg) (v : Word) : (s.setX d v).me.entry = s.me.entry := Hart.setReg_entry ..
@[simp] theorem State.setX_me_answers (s : State) (d : Reg) (v : Word) : (s.setX d v).me.answers = s.me.answers := Hart.setReg_answers ..
@[simp] theorem State.setX_me_poolRefused (s : State) (d : Reg) (v : Word) : (s.setX d v).me.poolRefused = s.me.poolRefused := Hart.setReg_poolRefused ..
@[simp] theorem State.setX_me_replay (s : State) (d : Reg) (v : Word) : (s.setX d v).me.replay = s.me.replay := Hart.setReg_replay ..
@[simp] theorem State.setX_me_forkArgs (s : State) (d : Reg) (v : Word) : (s.setX d v).me.forkArgs = s.me.forkArgs := Hart.setReg_forkArgs ..
@[simp] theorem State.setX_me_seed (s : State) (d : Reg) (v : Word) : (s.setX d v).me.seed = s.me.seed := Hart.setReg_seed ..
@[simp] theorem State.setPc_me_idx (s : State) (p : Word) : (s.setPc p).me.idx = s.me.idx := rfl
@[simp] theorem State.setPc_me_alive (s : State) (p : Word) : (s.setPc p).me.alive = s.me.alive := rfl
@[simp] theorem State.setPc_me_x (s : State) (p : Word) : (s.setPc p).me.x = s.me.x := rfl
@[simp] theorem State.setPc_me_pc (s : State) (p : Word) : (s.setPc p).me.pc = p := rfl
@[simp] theorem State.setPc_me_vtype (s : State) (p : Word) : (s.setPc p).me.vtype = s.me.vtype := rfl
@[simp] theorem State.setPc_me_vl (s : State) (p : Word) : (s.setPc p).me.vl = s.me.vl := rfl
@[simp] theorem State.setPc_me_fcsr (s : State) (p : Word) : (s.setPc p).me.fcsr = s.me.fcsr := rfl
@[simp] theorem State.setPc_me_sperr (s : State) (p : Word) : (s.setPc p).me.sperr = s.me.sperr := rfl
@[simp] theorem State.setPc_me_lqOvf (s : State) (p : Word) : (s.setPc p).me.lqOvf = s.me.lqOvf := rfl
@[simp] theorem State.setPc_me_lqUnd (s : State) (p : Word) : (s.setPc p).me.lqUnd = s.me.lqUnd := rfl
@[simp] theorem State.setPc_me_lq (s : State) (p : Word) : (s.setPc p).me.lq = s.me.lq := rfl
@[simp] theorem State.setPc_me_depth (s : State) (p : Word) : (s.setPc p).me.depth = s.me.depth := rfl
@[simp] theorem State.setPc_me_stk (s : State) (p : Word) : (s.setPc p).me.stk = s.me.stk := rfl
@[simp] theorem State.setPc_me_lskew (s : State) (p : Word) : (s.setPc p).me.lskew = s.me.lskew := rfl
@[simp] theorem State.setPc_me_tepc (s : State) (p : Word) : (s.setPc p).me.tepc = s.me.tepc := rfl
@[simp] theorem State.setPc_me_tcause (s : State) (p : Word) : (s.setPc p).me.tcause = s.me.tcause := rfl
@[simp] theorem State.setPc_me_tval (s : State) (p : Word) : (s.setPc p).me.tval = s.me.tval := rfl
@[simp] theorem State.setPc_me_tstat (s : State) (p : Word) : (s.setPc p).me.tstat = s.me.tstat := rfl
@[simp] theorem State.setPc_me_pixV (s : State) (p : Word) : (s.setPc p).me.pixV = s.me.pixV := rfl
@[simp] theorem State.setPc_me_pixT (s : State) (p : Word) : (s.setPc p).me.pixT = s.me.pixT := rfl
@[simp] theorem State.setPc_me_pixW (s : State) (p : Word) : (s.setPc p).me.pixW = s.me.pixW := rfl
@[simp] theorem State.setPc_me_v (s : State) (p : Word) : (s.setPc p).me.v = s.me.v := rfl
@[simp] theorem State.setPc_me_vmark (s : State) (p : Word) : (s.setPc p).me.vmark = s.me.vmark := rfl
@[simp] theorem State.setPc_me_m (s : State) (p : Word) : (s.setPc p).me.m = s.me.m := rfl
@[simp] theorem State.setPc_me_mmark (s : State) (p : Word) : (s.setPc p).me.mmark = s.me.mmark := rfl
@[simp] theorem State.setPc_me_ctxs (s : State) (p : Word) : (s.setPc p).me.ctxs = s.me.ctxs := rfl
@[simp] theorem State.setPc_me_blk (s : State) (p : Word) : (s.setPc p).me.blk = s.me.blk := rfl
@[simp] theorem State.setPc_me_unf (s : State) (p : Word) : (s.setPc p).me.unf = s.me.unf := rfl
@[simp] theorem State.setPc_me_wait (s : State) (p : Word) : (s.setPc p).me.wait = s.me.wait := rfl
@[simp] theorem State.setPc_me_blkFault (s : State) (p : Word) : (s.setPc p).me.blkFault = s.me.blkFault := rfl
@[simp] theorem State.setPc_me_blkNext (s : State) (p : Word) : (s.setPc p).me.blkNext = s.me.blkNext := rfl
@[simp] theorem State.setPc_me_sideFault (s : State) (p : Word) : (s.setPc p).me.sideFault = s.me.sideFault := rfl
@[simp] theorem State.setPc_me_pending (s : State) (p : Word) : (s.setPc p).me.pending = s.me.pending := rfl
@[simp] theorem State.setPc_me_entry (s : State) (p : Word) : (s.setPc p).me.entry = s.me.entry := rfl
@[simp] theorem State.setPc_me_answers (s : State) (p : Word) : (s.setPc p).me.answers = s.me.answers := rfl
@[simp] theorem State.setPc_me_poolRefused (s : State) (p : Word) : (s.setPc p).me.poolRefused = s.me.poolRefused := rfl
@[simp] theorem State.setPc_me_replay (s : State) (p : Word) : (s.setPc p).me.replay = s.me.replay := rfl
@[simp] theorem State.setPc_me_forkArgs (s : State) (p : Word) : (s.setPc p).me.forkArgs = s.me.forkArgs := rfl
@[simp] theorem State.setPc_me_seed (s : State) (p : Word) : (s.setPc p).me.seed = s.me.seed := rfl
@[simp] theorem State.next_me_idx (s : State) : (s.next).me.idx = s.me.idx := rfl
@[simp] theorem State.next_me_alive (s : State) : (s.next).me.alive = s.me.alive := rfl
@[simp] theorem State.next_me_x (s : State) : (s.next).me.x = s.me.x := rfl
@[simp] theorem State.next_me_pc (s : State) : (s.next).me.pc = s.me.pc + 4 := rfl
@[simp] theorem State.next_me_vtype (s : State) : (s.next).me.vtype = s.me.vtype := rfl
@[simp] theorem State.next_me_vl (s : State) : (s.next).me.vl = s.me.vl := rfl
@[simp] theorem State.next_me_fcsr (s : State) : (s.next).me.fcsr = s.me.fcsr := rfl
@[simp] theorem State.next_me_sperr (s : State) : (s.next).me.sperr = s.me.sperr := rfl
@[simp] theorem State.next_me_lqOvf (s : State) : (s.next).me.lqOvf = s.me.lqOvf := rfl
@[simp] theorem State.next_me_lqUnd (s : State) : (s.next).me.lqUnd = s.me.lqUnd := rfl
@[simp] theorem State.next_me_lq (s : State) : (s.next).me.lq = s.me.lq := rfl
@[simp] theorem State.next_me_depth (s : State) : (s.next).me.depth = s.me.depth := rfl
@[simp] theorem State.next_me_stk (s : State) : (s.next).me.stk = s.me.stk := rfl
@[simp] theorem State.next_me_lskew (s : State) : (s.next).me.lskew = s.me.lskew := rfl
@[simp] theorem State.next_me_tepc (s : State) : (s.next).me.tepc = s.me.tepc := rfl
@[simp] theorem State.next_me_tcause (s : State) : (s.next).me.tcause = s.me.tcause := rfl
@[simp] theorem State.next_me_tval (s : State) : (s.next).me.tval = s.me.tval := rfl
@[simp] theorem State.next_me_tstat (s : State) : (s.next).me.tstat = s.me.tstat := rfl
@[simp] theorem State.next_me_pixV (s : State) : (s.next).me.pixV = s.me.pixV := rfl
@[simp] theorem State.next_me_pixT (s : State) : (s.next).me.pixT = s.me.pixT := rfl
@[simp] theorem State.next_me_pixW (s : State) : (s.next).me.pixW = s.me.pixW := rfl
@[simp] theorem State.next_me_v (s : State) : (s.next).me.v = s.me.v := rfl
@[simp] theorem State.next_me_vmark (s : State) : (s.next).me.vmark = s.me.vmark := rfl
@[simp] theorem State.next_me_m (s : State) : (s.next).me.m = s.me.m := rfl
@[simp] theorem State.next_me_mmark (s : State) : (s.next).me.mmark = s.me.mmark := rfl
@[simp] theorem State.next_me_ctxs (s : State) : (s.next).me.ctxs = s.me.ctxs := rfl
@[simp] theorem State.next_me_blk (s : State) : (s.next).me.blk = s.me.blk := rfl
@[simp] theorem State.next_me_unf (s : State) : (s.next).me.unf = s.me.unf := rfl
@[simp] theorem State.next_me_wait (s : State) : (s.next).me.wait = s.me.wait := rfl
@[simp] theorem State.next_me_blkFault (s : State) : (s.next).me.blkFault = s.me.blkFault := rfl
@[simp] theorem State.next_me_blkNext (s : State) : (s.next).me.blkNext = s.me.blkNext := rfl
@[simp] theorem State.next_me_sideFault (s : State) : (s.next).me.sideFault = s.me.sideFault := rfl
@[simp] theorem State.next_me_pending (s : State) : (s.next).me.pending = s.me.pending := rfl
@[simp] theorem State.next_me_entry (s : State) : (s.next).me.entry = s.me.entry := rfl
@[simp] theorem State.next_me_answers (s : State) : (s.next).me.answers = s.me.answers := rfl
@[simp] theorem State.next_me_poolRefused (s : State) : (s.next).me.poolRefused = s.me.poolRefused := rfl
@[simp] theorem State.next_me_replay (s : State) : (s.next).me.replay = s.me.replay := rfl
@[simp] theorem State.next_me_forkArgs (s : State) : (s.next).me.forkArgs = s.me.forkArgs := rfl
@[simp] theorem State.next_me_seed (s : State) : (s.next).me.seed = s.me.seed := rfl
@[simp] theorem State.put_me_idx (s : State) (d : Reg) (v : Word) : (s.put d v).me.idx = s.me.idx := Hart.setReg_idx ..
@[simp] theorem State.put_me_alive (s : State) (d : Reg) (v : Word) : (s.put d v).me.alive = s.me.alive := Hart.setReg_alive ..
@[simp] theorem State.put_me_pc (s : State) (d : Reg) (v : Word) : (s.put d v).me.pc = s.me.pc + 4 := congrArg (· + 4) (Hart.setReg_pc ..)
@[simp] theorem State.put_me_vtype (s : State) (d : Reg) (v : Word) : (s.put d v).me.vtype = s.me.vtype := Hart.setReg_vtype ..
@[simp] theorem State.put_me_vl (s : State) (d : Reg) (v : Word) : (s.put d v).me.vl = s.me.vl := Hart.setReg_vl ..
@[simp] theorem State.put_me_fcsr (s : State) (d : Reg) (v : Word) : (s.put d v).me.fcsr = s.me.fcsr := Hart.setReg_fcsr ..
@[simp] theorem State.put_me_sperr (s : State) (d : Reg) (v : Word) : (s.put d v).me.sperr = s.me.sperr := Hart.setReg_sperr ..
@[simp] theorem State.put_me_lqOvf (s : State) (d : Reg) (v : Word) : (s.put d v).me.lqOvf = s.me.lqOvf := Hart.setReg_lqOvf ..
@[simp] theorem State.put_me_lqUnd (s : State) (d : Reg) (v : Word) : (s.put d v).me.lqUnd = s.me.lqUnd := Hart.setReg_lqUnd ..
@[simp] theorem State.put_me_lq (s : State) (d : Reg) (v : Word) : (s.put d v).me.lq = s.me.lq := Hart.setReg_lq ..
@[simp] theorem State.put_me_depth (s : State) (d : Reg) (v : Word) : (s.put d v).me.depth = s.me.depth := Hart.setReg_depth ..
@[simp] theorem State.put_me_stk (s : State) (d : Reg) (v : Word) : (s.put d v).me.stk = s.me.stk := Hart.setReg_stk ..
@[simp] theorem State.put_me_lskew (s : State) (d : Reg) (v : Word) : (s.put d v).me.lskew = s.me.lskew := Hart.setReg_lskew ..
@[simp] theorem State.put_me_tepc (s : State) (d : Reg) (v : Word) : (s.put d v).me.tepc = s.me.tepc := Hart.setReg_tepc ..
@[simp] theorem State.put_me_tcause (s : State) (d : Reg) (v : Word) : (s.put d v).me.tcause = s.me.tcause := Hart.setReg_tcause ..
@[simp] theorem State.put_me_tval (s : State) (d : Reg) (v : Word) : (s.put d v).me.tval = s.me.tval := Hart.setReg_tval ..
@[simp] theorem State.put_me_tstat (s : State) (d : Reg) (v : Word) : (s.put d v).me.tstat = s.me.tstat := Hart.setReg_tstat ..
@[simp] theorem State.put_me_pixV (s : State) (d : Reg) (v : Word) : (s.put d v).me.pixV = s.me.pixV := Hart.setReg_pixV ..
@[simp] theorem State.put_me_pixT (s : State) (d : Reg) (v : Word) : (s.put d v).me.pixT = s.me.pixT := Hart.setReg_pixT ..
@[simp] theorem State.put_me_pixW (s : State) (d : Reg) (v : Word) : (s.put d v).me.pixW = s.me.pixW := Hart.setReg_pixW ..
@[simp] theorem State.put_me_v (s : State) (d : Reg) (v : Word) : (s.put d v).me.v = s.me.v := Hart.setReg_v ..
@[simp] theorem State.put_me_vmark (s : State) (d : Reg) (v : Word) : (s.put d v).me.vmark = s.me.vmark := Hart.setReg_vmark ..
@[simp] theorem State.put_me_m (s : State) (d : Reg) (v : Word) : (s.put d v).me.m = s.me.m := Hart.setReg_m ..
@[simp] theorem State.put_me_mmark (s : State) (d : Reg) (v : Word) : (s.put d v).me.mmark = s.me.mmark := Hart.setReg_mmark ..
@[simp] theorem State.put_me_ctxs (s : State) (d : Reg) (v : Word) : (s.put d v).me.ctxs = s.me.ctxs := Hart.setReg_ctxs ..
@[simp] theorem State.put_me_blk (s : State) (d : Reg) (v : Word) : (s.put d v).me.blk = s.me.blk := Hart.setReg_blk ..
@[simp] theorem State.put_me_unf (s : State) (d : Reg) (v : Word) : (s.put d v).me.unf = s.me.unf := Hart.setReg_unf ..
@[simp] theorem State.put_me_wait (s : State) (d : Reg) (v : Word) : (s.put d v).me.wait = s.me.wait := Hart.setReg_wait ..
@[simp] theorem State.put_me_blkFault (s : State) (d : Reg) (v : Word) : (s.put d v).me.blkFault = s.me.blkFault := Hart.setReg_blkFault ..
@[simp] theorem State.put_me_blkNext (s : State) (d : Reg) (v : Word) : (s.put d v).me.blkNext = s.me.blkNext := Hart.setReg_blkNext ..
@[simp] theorem State.put_me_sideFault (s : State) (d : Reg) (v : Word) : (s.put d v).me.sideFault = s.me.sideFault := Hart.setReg_sideFault ..
@[simp] theorem State.put_me_pending (s : State) (d : Reg) (v : Word) : (s.put d v).me.pending = s.me.pending := Hart.setReg_pending ..
@[simp] theorem State.put_me_entry (s : State) (d : Reg) (v : Word) : (s.put d v).me.entry = s.me.entry := Hart.setReg_entry ..
@[simp] theorem State.put_me_answers (s : State) (d : Reg) (v : Word) : (s.put d v).me.answers = s.me.answers := Hart.setReg_answers ..
@[simp] theorem State.put_me_poolRefused (s : State) (d : Reg) (v : Word) : (s.put d v).me.poolRefused = s.me.poolRefused := Hart.setReg_poolRefused ..
@[simp] theorem State.put_me_replay (s : State) (d : Reg) (v : Word) : (s.put d v).me.replay = s.me.replay := Hart.setReg_replay ..
@[simp] theorem State.put_me_forkArgs (s : State) (d : Reg) (v : Word) : (s.put d v).me.forkArgs = s.me.forkArgs := Hart.setReg_forkArgs ..
@[simp] theorem State.put_me_seed (s : State) (d : Reg) (v : Word) : (s.put d v).me.seed = s.me.seed := Hart.setReg_seed ..
@[simp] theorem State.setWait_me_idx (s : State) (w : Option Wait) : (s.setWait w).me.idx = s.me.idx := rfl
@[simp] theorem State.setWait_me_alive (s : State) (w : Option Wait) : (s.setWait w).me.alive = s.me.alive := rfl
@[simp] theorem State.setWait_me_x (s : State) (w : Option Wait) : (s.setWait w).me.x = s.me.x := rfl
@[simp] theorem State.setWait_me_pc (s : State) (w : Option Wait) : (s.setWait w).me.pc = s.me.pc := rfl
@[simp] theorem State.setWait_me_vtype (s : State) (w : Option Wait) : (s.setWait w).me.vtype = s.me.vtype := rfl
@[simp] theorem State.setWait_me_vl (s : State) (w : Option Wait) : (s.setWait w).me.vl = s.me.vl := rfl
@[simp] theorem State.setWait_me_fcsr (s : State) (w : Option Wait) : (s.setWait w).me.fcsr = s.me.fcsr := rfl
@[simp] theorem State.setWait_me_sperr (s : State) (w : Option Wait) : (s.setWait w).me.sperr = s.me.sperr := rfl
@[simp] theorem State.setWait_me_lqOvf (s : State) (w : Option Wait) : (s.setWait w).me.lqOvf = s.me.lqOvf := rfl
@[simp] theorem State.setWait_me_lqUnd (s : State) (w : Option Wait) : (s.setWait w).me.lqUnd = s.me.lqUnd := rfl
@[simp] theorem State.setWait_me_lq (s : State) (w : Option Wait) : (s.setWait w).me.lq = s.me.lq := rfl
@[simp] theorem State.setWait_me_depth (s : State) (w : Option Wait) : (s.setWait w).me.depth = s.me.depth := rfl
@[simp] theorem State.setWait_me_stk (s : State) (w : Option Wait) : (s.setWait w).me.stk = s.me.stk := rfl
@[simp] theorem State.setWait_me_lskew (s : State) (w : Option Wait) : (s.setWait w).me.lskew = s.me.lskew := rfl
@[simp] theorem State.setWait_me_tepc (s : State) (w : Option Wait) : (s.setWait w).me.tepc = s.me.tepc := rfl
@[simp] theorem State.setWait_me_tcause (s : State) (w : Option Wait) : (s.setWait w).me.tcause = s.me.tcause := rfl
@[simp] theorem State.setWait_me_tval (s : State) (w : Option Wait) : (s.setWait w).me.tval = s.me.tval := rfl
@[simp] theorem State.setWait_me_tstat (s : State) (w : Option Wait) : (s.setWait w).me.tstat = s.me.tstat := rfl
@[simp] theorem State.setWait_me_pixV (s : State) (w : Option Wait) : (s.setWait w).me.pixV = s.me.pixV := rfl
@[simp] theorem State.setWait_me_pixT (s : State) (w : Option Wait) : (s.setWait w).me.pixT = s.me.pixT := rfl
@[simp] theorem State.setWait_me_pixW (s : State) (w : Option Wait) : (s.setWait w).me.pixW = s.me.pixW := rfl
@[simp] theorem State.setWait_me_v (s : State) (w : Option Wait) : (s.setWait w).me.v = s.me.v := rfl
@[simp] theorem State.setWait_me_vmark (s : State) (w : Option Wait) : (s.setWait w).me.vmark = s.me.vmark := rfl
@[simp] theorem State.setWait_me_m (s : State) (w : Option Wait) : (s.setWait w).me.m = s.me.m := rfl
@[simp] theorem State.setWait_me_mmark (s : State) (w : Option Wait) : (s.setWait w).me.mmark = s.me.mmark := rfl
@[simp] theorem State.setWait_me_ctxs (s : State) (w : Option Wait) : (s.setWait w).me.ctxs = s.me.ctxs := rfl
@[simp] theorem State.setWait_me_blk (s : State) (w : Option Wait) : (s.setWait w).me.blk = s.me.blk := rfl
@[simp] theorem State.setWait_me_unf (s : State) (w : Option Wait) : (s.setWait w).me.unf = s.me.unf := rfl
@[simp] theorem State.setWait_me_wait (s : State) (w : Option Wait) : (s.setWait w).me.wait = w := rfl
@[simp] theorem State.setWait_me_blkFault (s : State) (w : Option Wait) : (s.setWait w).me.blkFault = s.me.blkFault := rfl
@[simp] theorem State.setWait_me_blkNext (s : State) (w : Option Wait) : (s.setWait w).me.blkNext = s.me.blkNext := rfl
@[simp] theorem State.setWait_me_sideFault (s : State) (w : Option Wait) : (s.setWait w).me.sideFault = s.me.sideFault := rfl
@[simp] theorem State.setWait_me_pending (s : State) (w : Option Wait) : (s.setWait w).me.pending = s.me.pending := rfl
@[simp] theorem State.setWait_me_entry (s : State) (w : Option Wait) : (s.setWait w).me.entry = s.me.entry := rfl
@[simp] theorem State.setWait_me_answers (s : State) (w : Option Wait) : (s.setWait w).me.answers = s.me.answers := rfl
@[simp] theorem State.setWait_me_poolRefused (s : State) (w : Option Wait) : (s.setWait w).me.poolRefused = s.me.poolRefused := rfl
@[simp] theorem State.setWait_me_replay (s : State) (w : Option Wait) : (s.setWait w).me.replay = s.me.replay := rfl
@[simp] theorem State.setWait_me_forkArgs (s : State) (w : Option Wait) : (s.setWait w).me.forkArgs = s.me.forkArgs := rfl
@[simp] theorem State.setWait_me_seed (s : State) (w : Option Wait) : (s.setWait w).me.seed = s.me.seed := rfl
@[simp] theorem State.settle_me_idx (s : State) : (s.settle).me.idx = s.me.idx := rfl
@[simp] theorem State.settle_me_alive (s : State) : (s.settle).me.alive = s.me.alive := rfl
@[simp] theorem State.settle_me_x (s : State) : (s.settle).me.x = s.me.x := rfl
@[simp] theorem State.settle_me_pc (s : State) : (s.settle).me.pc = s.me.pc := rfl
@[simp] theorem State.settle_me_vtype (s : State) : (s.settle).me.vtype = s.me.vtype := rfl
@[simp] theorem State.settle_me_vl (s : State) : (s.settle).me.vl = s.me.vl := rfl
@[simp] theorem State.settle_me_fcsr (s : State) : (s.settle).me.fcsr = s.me.fcsr := rfl
@[simp] theorem State.settle_me_sperr (s : State) : (s.settle).me.sperr = s.me.sperr := rfl
@[simp] theorem State.settle_me_lqOvf (s : State) : (s.settle).me.lqOvf = s.me.lqOvf := rfl
@[simp] theorem State.settle_me_lqUnd (s : State) : (s.settle).me.lqUnd = s.me.lqUnd := rfl
@[simp] theorem State.settle_me_lq (s : State) : (s.settle).me.lq = s.me.lq := rfl
@[simp] theorem State.settle_me_depth (s : State) : (s.settle).me.depth = s.me.depth := rfl
@[simp] theorem State.settle_me_stk (s : State) : (s.settle).me.stk = s.me.stk := rfl
@[simp] theorem State.settle_me_lskew (s : State) : (s.settle).me.lskew = s.me.lskew := rfl
@[simp] theorem State.settle_me_tepc (s : State) : (s.settle).me.tepc = s.me.tepc := rfl
@[simp] theorem State.settle_me_tcause (s : State) : (s.settle).me.tcause = s.me.tcause := rfl
@[simp] theorem State.settle_me_tval (s : State) : (s.settle).me.tval = s.me.tval := rfl
@[simp] theorem State.settle_me_tstat (s : State) : (s.settle).me.tstat = s.me.tstat := rfl
@[simp] theorem State.settle_me_pixV (s : State) : (s.settle).me.pixV = s.me.pixV := rfl
@[simp] theorem State.settle_me_pixT (s : State) : (s.settle).me.pixT = s.me.pixT := rfl
@[simp] theorem State.settle_me_pixW (s : State) : (s.settle).me.pixW = s.me.pixW := rfl
@[simp] theorem State.settle_me_v (s : State) : (s.settle).me.v = s.me.v := rfl
@[simp] theorem State.settle_me_vmark (s : State) : (s.settle).me.vmark = s.me.vmark := rfl
@[simp] theorem State.settle_me_m (s : State) : (s.settle).me.m = s.me.m := rfl
@[simp] theorem State.settle_me_mmark (s : State) : (s.settle).me.mmark = s.me.mmark := rfl
@[simp] theorem State.settle_me_ctxs (s : State) : (s.settle).me.ctxs = s.me.ctxs := rfl
@[simp] theorem State.settle_me_blk (s : State) : (s.settle).me.blk = s.me.blk := rfl
@[simp] theorem State.settle_me_unf (s : State) : (s.settle).me.unf = s.me.unf := rfl
@[simp] theorem State.settle_me_wait (s : State) : (s.settle).me.wait = none := rfl
@[simp] theorem State.settle_me_blkFault (s : State) : (s.settle).me.blkFault = s.me.blkFault := rfl
@[simp] theorem State.settle_me_blkNext (s : State) : (s.settle).me.blkNext = s.me.blkNext := rfl
@[simp] theorem State.settle_me_sideFault (s : State) : (s.settle).me.sideFault = s.me.sideFault := rfl
@[simp] theorem State.settle_me_pending (s : State) : (s.settle).me.pending = s.me.pending := rfl
@[simp] theorem State.settle_me_entry (s : State) : (s.settle).me.entry = s.me.entry := rfl
@[simp] theorem State.settle_me_answers (s : State) : (s.settle).me.answers = [] := rfl
@[simp] theorem State.settle_me_poolRefused (s : State) : (s.settle).me.poolRefused = s.me.poolRefused := rfl
@[simp] theorem State.settle_me_replay (s : State) : (s.settle).me.replay = s.me.replay := rfl
@[simp] theorem State.settle_me_forkArgs (s : State) : (s.settle).me.forkArgs = s.me.forkArgs := rfl
@[simp] theorem State.settle_me_seed (s : State) : (s.settle).me.seed = s.me.seed := rfl

@[simp] theorem State.x_zero (s : State) : s.x 0 = 0 := rfl
theorem State.x_setX (s : State) (d r : Reg) (v : Word) : (s.setX d v).x r = if r = d ∧ d ≠ 0 then v else s.x r :=
  Hart.reg_setReg ..
theorem State.x_put (s : State) (d r : Reg) (v : Word) : (s.put d v).x r = if r = d ∧ d ≠ 0 then v else s.x r :=
  Hart.reg_setReg ..
@[simp] theorem State.x_setPc (s : State) (p : Word) (r : Reg) : (s.setPc p).x r = s.x r := rfl
@[simp] theorem State.x_next (s : State) (r : Reg) : s.next.x r = s.x r := rfl
@[simp] theorem State.x_setWait (s : State) (w : Option Wait) (r : Reg) : (s.setWait w).x r = s.x r := rfl
@[simp] theorem State.x_settle (s : State) (r : Reg) : s.settle.x r = s.x r := rfl

/-- A hart whose register file is its own one is itself after a write of x0, and any write keeps all but the file. -/
theorem Hart.setReg_eq (h : Hart) (d : Reg) (v : Word) : h.setReg d v = { h with x := (h.setReg d v).x } := by
  unfold Hart.setReg; split <;> rfl

end Sys2Proof.Machine
end

