-- ==== Sys2Proof/Laws/Action.lean ====
section
/-! SUPPORT. How actions run: what each primitive answers, what a sequence answers, and what State.word makes of the end
of an action (R89, R296). Proofs about meanings rewrite with these and never unfold the monad. -/

namespace Sys2Proof.Machine

/-! ### Primitives -/

theorem M.bind_run {α β : Type} (x : M α) (f : α → M β) (s : State) :
    (x >>= f) s = match x s with
      | .ok a s1 => f a s1
      | .error e s1 => .error e s1 := by
  show EStateM.bind x f s = _
  unfold EStateM.bind; split <;> simp_all

/-- The first action ends: the second runs in the state that it leaves. -/
theorem M.bind_ok {α β : Type} {x : M α} {f : α → M β} {s s1 : State} {a : α} (h : x s = .ok a s1) :
    (x >>= f) s = f a s1 := by rw [M.bind_run, h]

/-- The first action stops: so does the sequence. -/
theorem M.bind_error {α β : Type} {x : M α} {f : α → M β} {s s1 : State} {e : Stop} (h : x s = .error e s1) :
    (x >>= f) s = .error e s1 := by rw [M.bind_run, h]

@[simp] theorem M.pure_run {α : Type} (a : α) (s : State) : (pure a : M α) s = .ok a s := rfl
@[simp] theorem M.now_run (s : State) : now s = .ok s s := rfl
@[simp] theorem M.change_run (f : State → State) (s : State) : change f s = .ok () (f s) := rfl
@[simp] theorem M.reg_run (r : Reg) (s : State) : Sys2Proof.Machine.reg r s = .ok (s.x r) s := rfl
@[simp] theorem M.stop_run {α : Type} (x : Stop) (s : State) : (stop x : M α) s = .error x s := rfl
@[simp] theorem M.need_true (x : Stop) (s : State) : need true x s = .ok () s := rfl
@[simp] theorem M.need_false (x : Stop) (s : State) : need false x s = .error x s := rfl
@[simp] theorem M.trapIf_none (s : State) : trapIf none s = .ok () s := rfl
@[simp] theorem M.trapIf_some (t : Trap) (s : State) : trapIf (some t) s = .error (.trap t) s := rfl

theorem M.need_run (c : Bool) (x : Stop) (s : State) : need c x s = if c then .ok () s else .error x s := rfl

theorem M.ite_run {α : Type} (c : Prop) [Decidable c] (x y : M α) (s : State) :
    (if c then x else y) s = if c then x s else y s := by split <;> rfl

/-! ### A bind after each primitive -/

@[simp] theorem M.bind_pure {α β : Type} (a : α) (f : α → M β) (s : State) : ((pure a : M α) >>= f) s = f a s := rfl
@[simp] theorem M.bind_now {β : Type} (f : State → M β) (s : State) : (now >>= f) s = f s s := rfl
@[simp] theorem M.bind_change {β : Type} (g : State → State) (f : Unit → M β) (s : State) :
    (change g >>= f) s = f () (g s) := rfl
@[simp] theorem M.bind_need_true {β : Type} (x : Stop) (f : Unit → M β) (s : State) : (need true x >>= f) s = f () s := rfl
@[simp] theorem M.bind_need_false {β : Type} (x : Stop) (f : Unit → M β) (s : State) :
    (need false x >>= f) s = .error x s := rfl
@[simp] theorem M.bind_trapIf_none {β : Type} (f : Unit → M β) (s : State) : (trapIf none >>= f) s = f () s := rfl
@[simp] theorem M.bind_trapIf_some {β : Type} (t : Trap) (f : Unit → M β) (s : State) :
    (trapIf (some t) >>= f) s = .error (.trap t) s := rfl

/-! ### The end of a scalar word -/

theorem State.word_ok {act : M Unit} {s s1 : State} (h : act s = .ok () s1) : s.word act = s1.settle.next := by
  simp only [State.word, h]
theorem State.word_trap {act : M Unit} {s s1 : State} {t : Trap} (h : act s = .error (.trap t) s1) :
    s.word act = s1.settle.takeTrap t s1.me.pc true := by
  simp only [State.word, h]
theorem State.word_after {act : M Unit} {s s1 : State} {t : Trap} (h : act s = .error (.after t) s1) :
    s.word act = s1.settle.takeTrap t (s1.me.pc + 4) true := by
  simp only [State.word, h]
theorem State.word_wait {act : M Unit} {s s1 : State} {w : Wait} (h : act s = .error (.wait w) s1) :
    s.word act = s1.setWait (some w) := by
  simp only [State.word, h]
theorem State.word_done {act : M Unit} {s s1 : State} (h : act s = .error .done s1) : s.word act = s1 := by
  simp only [State.word, h]

/-- Everything that a scalar word can come to. -/
theorem State.word_cases (s : State) (act : M Unit) :
    (∃ s1, act s = .ok () s1 ∧ s.word act = s1.settle.next) ∨
    (∃ t s1, act s = .error (.trap t) s1 ∧ s.word act = s1.settle.takeTrap t s1.me.pc true) ∨
    (∃ t s1, act s = .error (.after t) s1 ∧ s.word act = s1.settle.takeTrap t (s1.me.pc + 4) true) ∨
    (∃ w s1, act s = .error (.wait w) s1 ∧ s.word act = s1.setWait (some w)) ∨
    (∃ s1, act s = .error .done s1 ∧ s.word act = s1) := by
  match h : act s with
  | .ok () s1 => exact .inl ⟨s1, rfl, State.word_ok h⟩
  | .error (.trap t) s1 => exact .inr (.inl ⟨t, s1, rfl, State.word_trap h⟩)
  | .error (.after t) s1 => exact .inr (.inr (.inl ⟨t, s1, rfl, State.word_after h⟩))
  | .error (.wait w) s1 => exact .inr (.inr (.inr (.inl ⟨w, s1, rfl, State.word_wait h⟩)))
  | .error .done s1 => exact .inr (.inr (.inr (.inr ⟨s1, rfl, State.word_done h⟩)))

/-! ### Ordering actions: they stop or leave the state as it is, but for a fabric release -/

theorem afterBlock_cases (s : State) : afterBlock s = .ok () s ∨ afterBlock s = .error (.wait .hold) s := by
  unfold afterBlock; split <;> simp
@[simp] theorem afterBlock_idle {s : State} (h : s.me.blk = none) : afterBlock s = .ok () s := by
  simp [afterBlock, h]
theorem drained_cases (s : State) : drained s = .ok () s ∨ drained s = .error (.wait .block) s := by
  unfold drained blockOver; split <;> simp
@[simp] theorem drained_idle {s : State} (h : s.me.blk = none) : drained s = .ok () s := by
  simp [drained, blockOver, Hart.inFlight, h]
theorem State.l1Acquire_frame (s : State) (core : Nat) (sc : Scope) :
    s.l1Acquire core sc = { s with l1 := (s.l1Acquire core sc).l1 } := by
  unfold State.l1Acquire; split <;> rfl
/-- An acquire changes the L1 of the hart's core alone, and at core scope nothing (R168). -/
theorem acquire_idle {s : State} (sc : Scope) (h : s.me.blk = none) :
    acquire sc s = .ok () (s.l1Acquire s.team.core sc) := by
  rw [acquire, M.bind_ok (afterBlock_idle h)]; rfl
@[simp] theorem State.l1Acquire_core (s : State) (core : Nat) : s.l1Acquire core .core = s := rfl
/-- A release below fabric scope with nothing of the hart in a side log. -/
theorem release_idle {s : State} {sc : Scope} (hb : s.me.blk = none) (ha : s.anyHeld = false) (hs : sc ≠ .fabric) :
    release sc s = .ok () s := by
  rw [release, M.bind_ok (afterBlock_idle hb)]
  simp [releaseHeld, ha, hs]

end Sys2Proof.Machine
end

