-- ==== Sys2Proof/Laws/Memory.lean ====
section
/-! SUPPORT. The one canonical form of memory (log entry 3): every operation keeps it, and a byte read after a write is
the byte written or the byte before. -/

namespace Sys2Proof.Machine

/-! ### The canonical form -/

theorem Memory.wfFrom_mono {lo lo' : Nat} (m : List Host.Cell) (h : lo' ≤ lo) (hm : Memory.wfFrom lo m = true) :
    Memory.wfFrom lo' m = true := by
  cases m with
  | nil => rfl
  | cons e rest =>
    obtain ⟨a, b⟩ := e
    simp only [Memory.wfFrom, Bool.and_eq_true, decide_eq_true_eq] at hm ⊢
    exact ⟨⟨by omega, hm.1.2⟩, hm.2⟩

theorem Memory.wfFrom_cell {lo k : Nat} {b : Byte} {rest : List Host.Cell} (hk : lo ≤ k)
    (hr : Memory.wfFrom (k + 1) rest = true) : Memory.wfFrom lo (Memory.cell k b rest) = true := by
  unfold Memory.cell
  split
  · exact Memory.wfFrom_mono rest (by omega) hr
  · next hb => simp [Memory.wfFrom, hk, hb, hr]

/-- A write of one byte keeps the form from any lower bound of its address. -/
theorem Memory.wfFrom_write {lo : Nat} (m : List Host.Cell) (k : Nat) (b : Byte) (hk : lo ≤ k)
    (hm : Memory.wfFrom lo m = true) : Memory.wfFrom lo (Memory.write m k b) = true := by
  induction m generalizing lo with
  | nil => exact Memory.wfFrom_cell hk rfl
  | cons e rest ih =>
    obtain ⟨a, c⟩ := e
    simp only [Memory.wfFrom, Bool.and_eq_true, decide_eq_true_eq] at hm
    simp only [Memory.write]
    split
    · next h => exact Memory.wfFrom_cell hk (by simp only [Memory.wfFrom, Bool.and_eq_true, decide_eq_true_eq]; exact ⟨⟨h, hm.1.2⟩, hm.2⟩)
    · split
      · next h => subst h; exact Memory.wfFrom_cell hk hm.2
      · simp only [Memory.wfFrom, Bool.and_eq_true, decide_eq_true_eq]
        exact ⟨hm.1, ih (by omega) hm.2⟩

theorem Memory.wf_write {m : List Host.Cell} (k : Nat) (b : Byte) (hm : Memory.wf m = true) :
    Memory.wf (Memory.write m k b) = true := Memory.wfFrom_write m k b (Nat.zero_le _) hm

theorem Memory.wf_writeBytes {m : List Host.Cell} (k : Nat) (bs : List Byte) (hm : Memory.wf m = true) :
    Memory.wf (Memory.writeBytes m k bs) = true := by
  induction bs generalizing m k with
  | nil => exact hm
  | cons b bs ih => exact ih (k + 1) (Memory.wf_write k b hm)

/-- Dropping cells keeps the form (State.loseVaults drops those of a tower's vaults). -/
theorem Memory.wfFrom_filter {lo : Nat} (m : List Host.Cell) (p : Host.Cell → Bool) (hm : Memory.wfFrom lo m = true) :
    Memory.wfFrom lo (m.filter p) = true := by
  induction m generalizing lo with
  | nil => exact hm
  | cons e rest ih =>
    obtain ⟨a, b⟩ := e
    simp only [Memory.wfFrom, Bool.and_eq_true, decide_eq_true_eq] at hm
    rw [List.filter_cons]
    split
    · simp only [Memory.wfFrom, Bool.and_eq_true, decide_eq_true_eq]
      exact ⟨hm.1, ih hm.2⟩
    · exact Memory.wfFrom_mono _ (by omega) (ih hm.2)

theorem Memory.wf_filter {m : List Host.Cell} (p : Host.Cell → Bool) (hm : Memory.wf m = true) :
    Memory.wf (m.filter p) = true := Memory.wfFrom_filter m p hm

/-! ### Reading after writing -/

/-- Below the lowest address of a memory every byte reads blank. -/
theorem Memory.read_below {lo k : Nat} {m : List Host.Cell} (h : k < lo) (hm : Memory.wfFrom lo m = true) :
    Memory.read m k = Memory.blank := by
  cases m with
  | nil => rfl
  | cons e rest =>
    obtain ⟨a, b⟩ := e
    simp only [Memory.wfFrom, Bool.and_eq_true, decide_eq_true_eq] at hm
    simp only [Memory.read, if_pos (show k < a by omega)]

theorem Memory.read_cell {lo k j : Nat} {b : Byte} {rest : List Host.Cell} (hlo : k + 1 ≤ lo)
    (hr : Memory.wfFrom lo rest = true) :
    Memory.read (Memory.cell k b rest) j = if j = k then b else Memory.read rest j := by
  unfold Memory.cell
  by_cases hb : b = Memory.blank
  · by_cases hj : j = k
    · rw [if_pos hb, if_pos hj, hb]
      exact Memory.read_below (by omega) hr
    · rw [if_pos hb, if_neg hj]
  · rw [if_neg hb]
    simp only [Memory.read]
    by_cases hlt : j < k
    · rw [if_pos hlt, if_neg (by omega), Memory.read_below (by omega) hr]
    · rw [if_neg hlt]
      by_cases hj : j = k
      · rw [if_pos hj.symm, if_pos hj]
      · rw [if_neg (fun e => hj e.symm), if_neg hj]

theorem Memory.read_writeFrom {lo : Nat} (m : List Host.Cell) (k j : Nat) (b : Byte) (hm : Memory.wfFrom lo m = true) :
    Memory.read (Memory.write m k b) j = if j = k then b else Memory.read m j := by
  induction m generalizing lo with
  | nil => exact Memory.read_cell (Nat.le_refl _) rfl
  | cons e rest ih =>
    obtain ⟨a, c⟩ := e
    simp only [Memory.wfFrom, Bool.and_eq_true, decide_eq_true_eq] at hm
    simp only [Memory.write]
    split
    · next h =>
      exact Memory.read_cell (lo := a) h (by simp [Memory.wfFrom, hm.1.2, hm.2])
    · next hka =>
      split
      · next h =>
        subst h
        rw [Memory.read_cell (Nat.le_refl _) hm.2]
        by_cases hj : j = a
        · simp [hj]
        · simp only [Memory.read, if_neg hj, if_neg (Ne.symm hj)]
          split
          · exact Memory.read_below (by omega) hm.2
          · rfl
      · next hak =>
        simp only [Memory.read, ih hm.2]
        by_cases hja : j < a
        · rw [if_pos hja, if_pos hja, if_neg (by omega)]
        · rw [if_neg hja, if_neg hja]
          by_cases haj : a = j
          · rw [if_pos haj, if_pos haj, if_neg (by omega)]
          · rw [if_neg haj, if_neg haj]

end Sys2Proof.Machine
end

