-- ==== Sys2Proof/Laws/Views.lean ====
section
/-! SUPPORT. What a world sees of a byte after a write of one: the byte written, and every other byte as before (R257,
R258); the same for consecutive bytes, and what the marks of an access change (R141, R145). -/

namespace Sys2Proof.Machine

/-! ### Versions -/

theorem verWrite_find (l : List (Nat × Nat × Byte)) (w k w' k' : Nat) (b : Byte) :
    ((verWrite l w k b).find? fun e => e.1 == w' && e.2.1 == k') =
      if w' = w ∧ k' = k then some (w, k, b) else l.find? fun e => e.1 == w' && e.2.1 == k' := by
  induction l with
  | nil =>
    by_cases h : w' = w ∧ k' = k
    · simp [verWrite, h]
    · simp only [verWrite, List.find?_cons, List.find?_nil, if_neg h]
      have : (w == w' && k == k') = false := by
        simp only [Bool.and_eq_false_iff, beq_eq_false_iff_ne]
        by_cases e : w' = w
        · exact .inr fun x => h ⟨e, x.symm⟩
        · exact .inl fun x => e x.symm
      simp [this]
  | cons e rest ih =>
    simp only [verWrite]
    split
    · by_cases h : w' = w ∧ k' = k
      · simp [h]
      · rw [if_neg h]
        have : (w == w' && k == k') = false := by
          simp only [Bool.and_eq_false_iff, beq_eq_false_iff_ne]
          by_cases e : w' = w
          · exact .inr fun x => h ⟨e, x.symm⟩
          · exact .inl fun x => e x.symm
        simp [this]
    · split
      · next he =>
        obtain ⟨h1, h2⟩ := he
        by_cases h : w' = w ∧ k' = k
        · simp [h]
        · rw [if_neg h]
          have hf : ∀ (x y : Nat), x = w → y = k → (x == w' && y == k') = false := by
            intro x y hx hy
            subst hx hy
            simp only [Bool.and_eq_false_iff, beq_eq_false_iff_ne]
            by_cases e : w' = x
            · exact .inr fun z => h ⟨e, z.symm⟩
            · exact .inl fun z => e z.symm
          simp [hf w k rfl rfl, hf _ _ h1 h2]
      · next he =>
        simp only [List.find?_cons, ih]
        by_cases h : w' = w ∧ k' = k
        · have : (e.1 == w' && e.2.1 == k') = false := by
            simp only [Bool.and_eq_false_iff, beq_eq_false_iff_ne]
            by_cases x : e.1 = w'
            · exact .inr fun z => he ⟨x.trans h.1, z.trans h.2⟩
            · exact .inl x
          rw [this, if_pos h]
        · rw [if_neg h, if_neg h]

theorem State.verByte_setByte (s : State) (w k w' k' : Nat) (b : Byte) :
    (s.setByte w k b).verByte w' k' =
      if (w ≠ 0 ∧ isOrdinary k = true) ∧ w' = w ∧ k' = k then some b else s.verByte w' k' := by
  unfold State.setByte State.verByte
  by_cases h : w ≠ 0 ∧ isOrdinary k = true
  · simp only [if_pos h, verWrite_find]
    by_cases h' : w' = w ∧ k' = k
    · simp [h, h']
    · simp [h']
  · rw [if_neg h, if_neg (fun x => h x.1)]

@[simp] theorem State.parentOf_setByte (s : State) (w k : Nat) (b : Byte) (x : Nat) :
    (s.setByte w k b).parentOf x = s.parentOf x := by
  have : (s.setByte w k b).worlds = s.worlds := by unfold State.setByte; split <;> rfl
  simp only [State.parentOf, this]

/-- A byte elsewhere has the same holder. -/
theorem State.holder_setByte_ne (s : State) (w k k' : Nat) (b : Byte) (h : k' ≠ k) (n x : Nat) :
    (s.setByte w k b).holder k' n x = s.holder k' n x := by
  induction n generalizing x with
  | zero => rfl
  | succ n ih => simp [State.holder, State.verByte_setByte, h, ih]

theorem State.read_setByte (s : State) (w k k' : Nat) (b : Byte) (hm : Memory.wf s.mem = true) :
    Memory.read (s.setByte w k b).mem k' =
      if ¬ (w ≠ 0 ∧ isOrdinary k = true) ∧ k' = k then b else Memory.read s.mem k' := by
  unfold State.setByte
  by_cases h : w ≠ 0 ∧ isOrdinary k = true
  · rw [if_pos h, if_neg (fun x => x.1 h)]
  · rw [if_neg h, Memory.read_writeFrom s.mem k k' b hm]
    by_cases e : k' = k
    · rw [if_pos e, if_pos ⟨h, e⟩]
    · rw [if_neg e, if_neg (fun x => e x.2)]

/-- A write of a byte: its writer sees it there, and every other byte as before. -/
theorem State.byteIn_setByte (s : State) (w k k' : Nat) (b : Byte) (hm : Memory.wf s.mem = true) :
    (s.setByte w k b).byteIn w k' = if k' = k then b else s.byteIn w k' := by
  by_cases e : k' = k
  · subst e
    rw [if_pos rfl]
    unfold State.byteIn
    by_cases h : w ≠ 0 ∧ isOrdinary k' = true
    · have : (s.setByte w k' b).holder k' 5 w = w := by
        simp [State.holder, State.verByte_setByte, h.1, h.2]
      simp [this, h.1, State.verByte_setByte, h.2]
    · have : (s.setByte w k' b).holder k' 5 w = 0 := by
        by_cases h0 : w = 0
        · simp [State.holder, h0]
        · have : isOrdinary k' = false := by
            cases x : isOrdinary k'
            · rfl
            · exact absurd ⟨h0, x⟩ h
          simp [State.holder, this]
      simp only [this, if_true, State.read_setByte s w k' k' b hm]
      rw [if_pos ⟨h, trivial⟩]
  · rw [if_neg e]
    unfold State.byteIn
    simp only [State.holder_setByte_ne s w k k' b e, State.read_setByte s w k k' b hm, State.verByte_setByte, e,
      and_false, if_false]

theorem State.wf_setByte (s : State) (w k : Nat) (b : Byte) (hm : Memory.wf s.mem = true) :
    Memory.wf (s.setByte w k b).mem = true := by
  unfold State.setByte; split
  · exact hm
  · exact Memory.wf_write k b hm

/-- A write of consecutive bytes. -/
theorem State.byteIn_setBytesAt (s : State) (w k j : Nat) (bs : List Byte) (hm : Memory.wf s.mem = true) :
    (s.setBytesAt w k bs).byteIn w j =
      if h : k ≤ j ∧ j - k < bs.length then bs[j - k]'h.2 else s.byteIn w j := by
  induction bs generalizing s k with
  | nil => simp [State.setBytesAt]
  | cons b bs ih =>
    rw [State.setBytesAt, ih _ _ (s.wf_setByte w k b hm)]
    by_cases h1 : k + 1 ≤ j ∧ j - (k + 1) < bs.length
    · have h2 : k ≤ j ∧ j - k < (b :: bs).length := by simp only [List.length_cons]; omega
      rw [dif_pos h1, dif_pos h2]
      have : j - k = (j - (k + 1)) + 1 := by omega
      simp [this]
    · rw [dif_neg h1, State.byteIn_setByte s w k j b hm]
      by_cases e : j = k
      · subst e; simp
      · have h2 : ¬ (k ≤ j ∧ j - k < (b :: bs).length) := by simp only [List.length_cons]; omega
        rw [if_neg e, dif_neg h2]

theorem State.wf_setBytesAt (s : State) (w k : Nat) (bs : List Byte) (hm : Memory.wf s.mem = true) :
    Memory.wf (s.setBytesAt w k bs).mem = true := by
  induction bs generalizing s k with
  | nil => exact hm
  | cons b bs ih => exact ih _ _ (s.wf_setByte w k b hm)

/-- A write of bytes leaves everything but memory and versions. -/
theorem State.setBytesAt_frame (s : State) (w k : Nat) (bs : List Byte) :
    s.setBytesAt w k bs = { s with mem := (s.setBytesAt w k bs).mem, ver := (s.setBytesAt w k bs).ver } := by
  induction bs generalizing s k with
  | nil => rfl
  | cons b bs ih =>
    rw [State.setBytesAt, ih]
    unfold State.setByte
    split <;> rfl

/-! ### Stores -/

theorem State.clearSegs_frame (s : State) (w k n : Nat) :
    s.clearSegs w k n = { s with ue := (s.clearSegs w k n).ue, verUe := (s.clearSegs w k n).verUe,
                                 rowPoison := (s.clearSegs w k n).rowPoison } := by
  unfold State.clearSegs; split
  · rfl
  · split <;> rfl

/-- A dirty line changes only what the DRAM holds under the caches. -/
theorem State.keepUnder_frame (s : State) (w k n : Nat) :
    s.keepUnder w k n = { s with under := (s.keepUnder w k n).under } := by
  induction n with
  | zero => rfl
  | succ n ih =>
    unfold State.keepUnder
    dsimp only
    split
    · exact ih
    · split <;> rw [ih]

/-- Errors that a partial store keeps are all that changes. -/
theorem State.keepBad_frame (s : State) (w k n : Nat) : s.keepBad w k n = { s with verUe := (s.keepBad w k n).verUe } := by
  unfold State.keepBad; split <;> rfl

theorem State.dropCe_frame (s : State) (w k n : Nat) : s.dropCe w k n = { s with ce := (s.dropCe w k n).ce } := by
  unfold State.dropCe; split <;> rfl

theorem State.dropRaws_frame (s : State) (k n : Nat) : s.dropRaws k n = { s with raws := (s.dropRaws k n).raws } := by
  unfold State.dropRaws; split <;> rfl

/-- What a store changes: memory or versions, errors that it covers, and what the DRAM holds under the caches. -/
theorem State.storeAt_frame (s : State) (w k : Nat) (bs : List Byte) :
    s.storeAt w k bs = { s with mem := (s.storeAt w k bs).mem, under := (s.storeAt w k bs).under,
                                ver := (s.storeAt w k bs).ver, ue := (s.storeAt w k bs).ue,
                                ce := (s.storeAt w k bs).ce, verUe := (s.storeAt w k bs).verUe,
                                rowPoison := (s.storeAt w k bs).rowPoison, raws := (s.storeAt w k bs).raws } := by
  unfold State.storeAt
  generalize hz : s.keepBad w k bs.length = z
  have h0 : z = { s with verUe := z.verUe } := by rw [← hz]; exact s.keepBad_frame w k bs.length
  generalize ha : z.keepUnder w k bs.length = a
  have h1 : a = { z with under := a.under } := by rw [← ha]; exact z.keepUnder_frame w k bs.length
  generalize hb : a.setBytesAt w k bs = b
  have h2 : b = { a with mem := b.mem, ver := b.ver } := by rw [← hb]; exact a.setBytesAt_frame w k bs
  generalize hc : b.clearSegs w k bs.length = c
  have h3 : c = { b with ue := c.ue, verUe := c.verUe, rowPoison := c.rowPoison } := by
    rw [← hc]; exact b.clearSegs_frame w k bs.length
  rw [State.dropCe_frame, State.dropRaws_frame, h3, h2, h1, h0]

theorem State.byteIn_congr {s t : State} (hm : t.mem = s.mem) (hv : t.ver = s.ver) (hw : t.worlds = s.worlds)
    (w k : Nat) : t.byteIn w k = s.byteIn w k := by
  have hp : ∀ x, t.parentOf x = s.parentOf x := fun x => by simp [State.parentOf, hw]
  have hb : ∀ w k, t.verByte w k = s.verByte w k := fun w k => by simp [State.verByte, hv]
  have hh : ∀ n x, t.holder k n x = s.holder k n x := by
    intro n
    induction n with
    | zero => intro x; rfl
    | succ n ih => intro x; simp [State.holder, hp, hb, ih]
  simp [State.byteIn, hh, hb, hm]

/-- A store: its writer sees the bytes written, and every other byte as before. -/
theorem State.byteIn_storeAt (s : State) (w k j : Nat) (bs : List Byte) (hm : Memory.wf s.mem = true) :
    (s.storeAt w k bs).byteIn w j =
      if h : k ≤ j ∧ j - k < bs.length then bs[j - k]'h.2 else s.byteIn w j := by
  have hz := s.keepBad_frame w k bs.length
  have hk := (s.keepBad w k bs.length).keepUnder_frame w k bs.length
  have e0 : s.byteIn w j = ((s.keepBad w k bs.length).keepUnder w k bs.length).byteIn w j := by rw [hk, hz]; rfl
  rw [e0, ← State.byteIn_setBytesAt ((s.keepBad w k bs.length).keepUnder w k bs.length) w k j bs (by rw [hk, hz]; exact hm)]
  unfold State.storeAt
  refine State.byteIn_congr ?_ ?_ ?_ w j <;> rw [State.dropCe_frame, State.dropRaws_frame, State.clearSegs_frame]

theorem State.wf_storeAt (s : State) (w k : Nat) (bs : List Byte) (hm : Memory.wf s.mem = true) :
    Memory.wf (s.storeAt w k bs).mem = true := by
  have hz := s.keepBad_frame w k bs.length
  have hk := (s.keepBad w k bs.length).keepUnder_frame w k bs.length
  unfold State.storeAt
  rw [State.dropCe_frame, State.dropRaws_frame, State.clearSegs_frame]
  exact State.wf_setBytesAt _ w k bs (by rw [hk, hz]; exact hm)

/-! ### The marks of an access -/

theorem State.noteOwner_frame (s : State) (e : TlbEntry) (agent : Option Nat) :
    s.noteOwner e agent = { s with unowned := (s.noteOwner e agent).unowned } := by
  unfold State.noteOwner
  split <;> split <;> rfl

theorem State.sharePage_frame (s : State) (e : TlbEntry) (p : Word) : s.sharePage e p = { s with l1 := (s.sharePage e p).l1 } := by
  unfold State.sharePage; split <;> rfl

theorem State.markPage_frame (s : State) (e : TlbEntry) (agent : Option Nat) (wr : Bool) :
    s.markPage e agent wr = { s with mem := (s.markPage e agent wr).mem, tlb := (s.markPage e agent wr).tlb,
                                     unowned := (s.markPage e agent wr).unowned, l1 := (s.markPage e agent wr).l1 } := by
  unfold State.markPage
  dsimp only
  rw [State.sharePage_frame, State.noteOwner_frame]
  split <;> split <;> rfl

theorem State.wf_markPage (s : State) (e : TlbEntry) (agent : Option Nat) (wr : Bool) (hm : Memory.wf s.mem = true) :
    Memory.wf (s.markPage e agent wr).mem = true := by
  unfold State.markPage
  dsimp only
  rw [State.sharePage_frame, State.noteOwner_frame]
  dsimp only
  split <;> split <;> first | exact hm | exact Memory.wf_writeBytes _ _ hm

theorem Memory.read_writeBytes_out (m : List Host.Cell) (k j : Nat) (bs : List Byte) (hm : Memory.wf m = true)
    (h : j < k ∨ k + bs.length ≤ j) : Memory.read (Memory.writeBytes m k bs) j = Memory.read m j := by
  induction bs generalizing m k with
  | nil => rfl
  | cons b bs ih =>
    simp only [List.length_cons] at h
    rw [Memory.writeBytes, ih _ _ (Memory.wf_write k b hm) (by omega), Memory.read_writeFrom m k j b hm,
      if_neg (by omega)]

/-- The marks of an access change only the eight bytes of the entry. -/
theorem State.read_markPage (s : State) (e : TlbEntry) (agent : Option Nat) (wr : Bool) (j : Nat)
    (hm : Memory.wf s.mem = true) (h : j < e.slot ∨ e.slot + 8 ≤ j) :
    Memory.read (s.markPage e agent wr).mem j = Memory.read s.mem j := by
  have hl : ∀ v, (leBytes 8 v).length = 8 := fun v => by simp [leBytes, bytesLE]
  unfold State.markPage
  dsimp only
  rw [State.sharePage_frame, State.noteOwner_frame]
  dsimp only
  split <;> split <;>
    first | rfl | exact Memory.read_writeBytes_out _ _ _ _ hm (by rw [hl]; exact h)

theorem State.byteIn_markPage (s : State) (e : TlbEntry) (agent : Option Nat) (wr : Bool) (w j : Nat)
    (hm : Memory.wf s.mem = true) (h : j < e.slot ∨ e.slot + 8 ≤ j) :
    (s.markPage e agent wr).byteIn w j = s.byteIn w j := by
  have hf := s.markPage_frame e agent wr
  have h1 : ∀ x y, (s.markPage e agent wr).holder x y w = s.holder x y w := by
    intro x y
    rw [hf]
    generalize w = w
    induction y generalizing w with
    | zero => rfl
    | succ n ih => simp only [State.holder, State.verByte, State.parentOf] at ih ⊢; simp [ih]
  unfold State.byteIn
  simp only [h1, State.read_markPage s e agent wr j hm h]
  have h2 : ∀ x, (s.markPage e agent wr).verByte x j = s.verByte x j := fun x => by rw [hf]; rfl
  simp only [h2]

/-! ### Little-endian values -/

@[simp] theorem leBytes_length (n v : Nat) : (leBytes n v).length = n := by simp [leBytes, bytesLE]

theorem leBytes_get (n v i : Nat) (h : i < (leBytes n v).length) : (leBytes n v)[i] = BitVec.ofNat 8 (v >>> (8 * i)) := by
  simp [leBytes, bytesLE]

/-- Bit k of a little-endian value is bit k mod 8 of byte k div 8. -/
theorem leVal_testBit (bs : List Byte) (k : Nat) : (leVal bs).testBit k = (bs.getD (k / 8) 0).getLsbD (k % 8) := by
  induction bs generalizing k with
  | nil => simp [leVal, natLE]
  | cons b bs ih =>
    have e : leVal (b :: bs) = b.toNat + 256 * leVal bs := rfl
    have h256 : (256 : Nat) = 2 ^ 8 := rfl
    rw [e, h256, Nat.add_comm, Nat.mul_comm]
    by_cases h : k < 8
    · rw [Nat.mul_comm, Nat.testBit_two_pow_mul_add _ b.isLt]
      have : k / 8 = 0 := by omega
      have h' : k % 8 = k := by omega
      simp [h, this, h', BitVec.getLsbD]
    · rw [Nat.mul_comm, Nat.testBit_two_pow_mul_add _ b.isLt, if_neg h, ih]
      have : k / 8 = (k - 8) / 8 + 1 := by omega
      have h' : k % 8 = (k - 8) % 8 := by omega
      simp [this, h']

end Sys2Proof.Machine
end

