-- ==== Sys2Proof/Laws/Access.lean ====
section
/-! SUPPORT. What an access of the focused hart comes to when nothing holds it: where its bytes lie, what a load reads at the point of
coherence or through the L1, what a store and an atomic change (R131, R139, R145, R149, R150, R334). -/

namespace Sys2Proof.Machine

/-! ### Marks leave what the checks read -/

theorem State.markPage_byteBad (s : State) (e : TlbEntry) (ag : Option Nat) (wr : Bool) (w k : Nat) :
    (s.markPage e ag wr).byteBad w k = s.byteBad w k := by
  have h1 : ∀ x y, (s.markPage e ag wr).holder x y w = s.holder x y w := by
    intro x y
    rw [s.markPage_frame]
    generalize w = w
    induction y generalizing w with
    | zero => rfl
    | succ n ih => simp only [State.holder, State.verByte, State.parentOf] at ih ⊢; simp [ih]
  unfold State.byteBad
  simp only [h1]
  rw [s.markPage_frame]

theorem State.markPage_placeable (s : State) (e : TlbEntry) (ag : Option Nat) (wr : Bool) (w k : Nat) :
    (s.markPage e ag wr).placeable w k = s.placeable w k := by
  rw [s.markPage_frame]; rfl

/-! ### Finding bytes -/

theorem findBytes_mapped {s : State} {a : Acc} {va : Word} {n k cls : Nat} {e : TlbEntry} (h : Mapped s a va n k cls e) :
    findBytes a va n s = .ok k (s.markPage e (some s.team.core) a.wr) := by
  have h1 : (a.wr && s.team.world != 0 && cls == 2) = false := by
    cases hw : a.wr
    · rfl
    · by_cases hz : s.team.world = 0
      · simp [hz]
      · simp [h.inView hw hz]
  unfold findBytes
  rw [h.found]
  simp [h1, h.free]

theorem checkPoison_clean {s : State} {va : Word} {k n : Nat} (h : Clean s k n) : checkPoison va k n s = .ok () s := by
  unfold checkPoison
  have : ((List.range n).find? fun i => s.byteBad s.team.world (k + i)) = none := by
    simp only [List.find?_eq_none, List.mem_range]
    intro i hi
    simp [h i hi]
  rw [this]

theorem checkRoom_placeable {s : State} {va : Word} {k n : Nat} (h : Placeable s k n) : checkRoom va k n s = .ok () s := by
  have : s.unplaced s.team.world k n = none := by
    unfold State.unplaced
    split
    · rfl
    · simp only [List.find?_eq_none, List.mem_range]
      intro i hi
      simp [h i hi]
  unfold checkRoom
  rw [this]

theorem loadTrap_mapped {s : State} {va : Word} {n k cls : Nat} {e : TlbEntry} (h : Mapped s .load va n k cls e) :
    s.loadTrap va n = none := by
  unfold State.loadTrap; rw [h.found]

theorem loadHold_idle {s : State} {stream : Nat} {va : Word} {n : Nat} (h : s.side = []) :
    loadHold stream va n s = .ok () s := by
  simp [loadHold, h]

/-- A load that nothing holds reads its bytes after the marks of the access, as read says. -/
theorem loadVia_mapped {s : State} {va : Word} {n k cls : Nat} {e : TlbEntry} (read : Word → Nat → Nat → M (List Byte))
    (stream : Nat) (h : Mapped s .load va n k cls e) :
    loadVia read stream va n s = read va k n (s.markPage e (some s.team.core) false) := by
  unfold loadVia
  rw [if_neg (by simp [h.ordinary])]
  have h1 : straddle va n = none := by simp [straddle, h.oneRange]
  rw [h1, M.bind_trapIf_none, M.bind_now, loadTrap_mapped h, M.bind_trapIf_none, M.bind_ok (loadHold_idle h.noSide),
    M.bind_ok (findBytes_mapped h)]
  rfl

theorem State.poolSeen_frame (s : State) (k n : Nat) (mine : PoolWrite → Bool) :
    s.poolSeen k n mine = { s with poolOut := (s.poolSeen k n mine).poolOut } := by
  unfold State.poolSeen; split <;> rfl

/-- Bytes read at the point of coherence. -/
theorem readHere_clean {s : State} {va : Word} {k n : Nat} (h : Clean s k n) :
    readHere va k n s = .ok (s.bytesIn s.team.world k n) (s.poolSeen k n s.coreWrote) := by
  rw [readHere, M.bind_ok (checkPoison_clean h), M.bind_now]
  rfl

/-- A read of the point of coherence that nothing holds has the bytes of the hart's view, after the marks of the access. -/
theorem loadBytes_mapped {s : State} {va : Word} {n k cls : Nat} {e : TlbEntry} (stream : Nat)
    (h : Mapped s .load va n k cls e) (hc : Clean s k n) :
    loadBytes stream va n s = .ok ((Seen s e k n).bytesIn s.team.world k n) (Seen s e k n) := by
  have ht : (s.markPage e (some s.team.core) false).team = s.team := by rw [s.markPage_frame]
  have hc' : Clean (s.markPage e (some s.team.core) false) k n := fun i hi => by
    rw [ht, State.markPage_byteBad]; exact hc i hi
  have hm : (s.markPage e (some s.team.core) false).coreWrote = s.coreWrote := by
    funext p; simp only [State.coreWrote, ht]
  rw [loadBytes, loadVia_mapped _ _ h, readHere_clean hc', ht, hm]
  unfold Seen
  congr 1
  exact (congrArg (fun t : State => t.bytesIn s.team.world k n) (State.poolSeen_frame _ k n s.coreWrote)).symm

theorem storeTrap_mapped {s : State} {va : Word} {n k cls : Nat} {e : TlbEntry} (h : Mapped s .store va n k cls e) :
    s.storeTrap va n = none := by
  unfold State.storeTrap
  rw [h.found]
  by_cases hz : s.team.world = 0
  · simp [hz]
  · simp [h.inView rfl hz]

/-! ### Loads through the L1 (R139, R143) -/

theorem State.l1Pick_frame (s : State) (core w : Nat) (asid : BitVec 16) (key : Nat) :
    (s.l1Pick core w asid key).2 = { s with l1 := (s.l1Pick core w asid key).2.l1, fresh := (s.l1Pick core w asid key).2.fresh } := by
  unfold State.l1Pick
  split
  · rfl
  · split <;> rfl

theorem State.l1Pick_sub (s : State) (core w : Nat) (asid : BitVec 16) (key : Nat) (l : L1Line)
    (h : l ∈ (s.l1Pick core w asid key).2.l1) : l ∈ s.l1 := by
  unfold State.l1Pick at h
  split at h
  · exact h
  · split at h
    · exact (List.mem_filter.1 h).1
    · exact h

/-- What a load takes from the L1 is a copy that is older than the point of coherence. -/
theorem State.l1Pick_some {s : State} {core w : Nat} {asid : BitVec 16} {key : Nat} {bs : List Byte}
    (h : (s.l1Pick core w asid key).1 = some bs) :
    ∃ l, l ∈ s.l1Older core w asid key ∧ bs = s.viaCopy w l.world key l.bytes := by
  unfold State.l1Pick at h
  split at h
  · cases h
  · split at h
    · next l hl =>
      exact ⟨l, List.mem_of_getElem? hl, (Option.some.inj h).symm⟩
    · cases h

theorem State.l1Fill_frame (s : State) (l : L1Line) : s.l1Fill l = { s with l1 := (s.l1Fill l).l1 } := by
  unfold State.l1Fill; dsimp only; split <;> rfl

/-- The fill of a line adds it and no other. -/
theorem State.l1Fill_sub (s : State) (l x : L1Line) (h : x ∈ (s.l1Fill l).l1) : x = l ∨ x ∈ s.l1 := by
  unfold State.l1Fill at h
  dsimp only at h
  split at h
  · exact .inr (List.mem_filter.1 h).1
  · rcases List.mem_append.1 h with h | h
    · refine .inr ?_
      split at h
      · exact (List.mem_filter.1 (List.mem_of_mem_eraseP h)).1
      · exact (List.mem_filter.1 h).1
    · exact .inl (List.mem_singleton.1 h)

theorem State.poolSeen_sub (s : State) (k n : Nat) (mine : PoolWrite → Bool) (p : PoolWrite)
    (h : p ∈ (s.poolSeen k n mine).poolOut) : p ∈ s.poolOut := by
  unfold State.poolSeen at h
  dsimp only at h
  split at h
  · exact h
  · obtain ⟨x, hx, rfl⟩ := List.mem_map.1 h
    exact List.fst_mem_of_mem_zipIdx (List.mem_filter.1 hx).1

/-- Everything that a read of clean bytes of one line through the L1 comes to: the bytes of the point of coherence, or of an older
copy; only the L1 of the core, the free values and the pool writes that it observes change. -/
theorem readLine_clean {s : State} (kind : L1Kind) (n : Nat) (line : Word) {key lo hi : Nat} (hb : hi ≤ 64)
    (hc : Clean s (key + lo) (hi - lo)) :
    ∃ bs s1, readLine kind n line key lo hi s = .ok bs s1 ∧ bs.length ≤ hi - lo ∧
      s1 = { s with l1 := s1.l1, fresh := s1.fresh, poolOut := s1.poolOut } ∧
      ((∀ i, i < hi - lo → bs.getD i 0 = s.byteIn s.team.world (key + lo + i)) ∨
        ∃ l, l ∈ s.l1Older s.team.core s.team.world s.team.asid key ∧
          ∀ i, i < hi - lo → bs.getD i 0 = (s.viaCopy s.team.world l.world key l.bytes).getD (lo + i) 0) ∧
      (∀ l, l ∈ s1.l1 → l.core ≠ s.team.core → l ∈ s.l1) ∧ ∀ p, p ∈ s1.poolOut → p ∈ s.poolOut := by
  have cut : ∀ (bs : List Byte) (i : Nat), i < hi - lo → ((bs.drop lo).take (hi - lo)).getD i 0 = bs.getD (lo + i) 0 := by
    intro bs i h
    simp [List.getD, h]
  have hf := s.l1Pick_frame s.team.core s.team.world s.team.asid key
  have hsub := s.l1Pick_sub s.team.core s.team.world s.team.asid key
  have hsome := @State.l1Pick_some s s.team.core s.team.world s.team.asid key
  unfold readLine
  generalize s.l1Pick s.team.core s.team.world s.team.asid key = pk at hf hsub hsome ⊢
  obtain ⟨got, s1⟩ := pk
  dsimp only at hf hsub hsome
  match got with
  | some bs =>
    obtain ⟨l, hl, e⟩ := hsome rfl
    refine ⟨_, _, rfl, by simp <;> omega, ?_, .inr ⟨l, hl, fun i hi => ?_⟩, fun l hl _ => hsub l hl, ?_⟩
    · rw [hf]
    · rw [cut _ _ hi, e]
    · rw [hf]; exact fun p h => h
  | none =>
    have ht : s1.team = s.team := by rw [hf]
    have hby : ∀ w k, s1.byteIn w k = s.byteIn w k := fun w k =>
      State.byteIn_congr (by rw [hf]) (by rw [hf]) (by rw [hf]) w k
    have hbad : ∀ w k, s1.byteBad w k = s.byteBad w k := fun w k => by rw [hf]; rfl
    have hnone : ((List.range (hi - lo)).find? fun i => s1.byteBad s1.team.world (key + lo + i)) = none := by
      simp only [List.find?_eq_none, List.mem_range]
      intro i h
      rw [ht, hbad, hc i h]; decide
    dsimp only
    rw [hnone]
    refine ⟨_, _, rfl, by simp <;> omega, ?_, .inl fun i h => ?_, fun l hl hne => ?_, fun p hp => ?_⟩
    · rw [State.l1Fill_frame, State.poolSeen_frame, hf]
    · rw [cut _ _ h]
      simp only [State.bytesIn, lineBytes, List.getD]
      rw [List.getElem?_map, List.getElem?_range (by omega)]
      simp [hby, ht, Nat.add_assoc]
    · rcases State.l1Fill_sub _ _ _ hl with e | e
      · subst e; exact absurd (by rw [ht]) hne
      · rw [State.poolSeen_frame] at e; exact hsub l e
    · rw [State.l1Fill_frame] at hp
      have := State.poolSeen_sub _ _ _ _ p hp
      rw [hf] at this; exact this

/-- A read of clean bytes of one line as an ordinary load makes it. -/
theorem readCached_clean {s : State} {va : Word} {k n : Nat} (h0 : 0 < n) (h1 : va.toNat % 64 + n ≤ 64)
    (hk : va.toNat % 64 ≤ k) (hc : Clean s k n) :
    ∃ bs s1, readCached va k n s = .ok bs s1 ∧ bs.length ≤ n ∧
      s1 = { s with l1 := s1.l1, fresh := s1.fresh, poolOut := s1.poolOut } ∧
      ((∀ i, i < n → bs.getD i 0 = s.byteIn s.team.world (k + i)) ∨
        ∃ l, l ∈ s.l1Older s.team.core s.team.world s.team.asid (k - va.toNat % 64) ∧
          ∀ i, i < n → bs.getD i 0 = (s.viaCopy s.team.world l.world (k - va.toNat % 64) l.bytes).getD (va.toNat % 64 + i) 0) ∧
      (∀ l, l ∈ s1.l1 → l.core ≠ s.team.core → l ∈ s.l1) ∧ ∀ p, p ∈ s1.poolOut → p ∈ s.poolOut := by
  unfold readCached
  split
  · refine ⟨_, _, readHere_clean hc, by simp [State.bytesIn], by rw [State.poolSeen_frame], .inl fun i hi => ?_, ?_, ?_⟩
    · simp [State.bytesIn, List.getD, hi]
    · intro l hl _
      rw [State.poolSeen_frame] at hl; exact hl
    · exact State.poolSeen_sub s k n _
  · next kind _ =>
    have hl : linesOf va n = [(0, va.toNat % 64, va.toNat % 64 + n)] := by
      have e : (va.toNat % 64 + n + 63) / 64 = 1 := by omega
      simp [linesOf, lineBytes, e, Nat.min_eq_right h1, List.range_succ]
    have hkey : k - va.toNat % 64 + va.toNat % 64 = k := by omega
    have hn : va.toNat % 64 + n - va.toNat % 64 = n := by omega
    obtain ⟨bs, s1, hr, hlen, hf, hv, h2, h3⟩ := readLine_clean (s := s) kind n (lineOf va + BitVec.ofNat 64 0)
      (key := k - va.toNat % 64) (lo := va.toNat % 64) (hi := va.toNat % 64 + n) h1 (by rw [hkey, hn]; exact hc)
    rw [hn] at hlen
    rw [hn, hkey] at hv
    refine ⟨bs, s1, ?_, hlen, hf, hv, h2, h3⟩
    rw [hl]
    have one : (do
        let r ← readLine kind n (lineOf va + BitVec.ofNat 64 0) (k - va.toNat % 64) (va.toNat % 64) (va.toNat % 64 + n)
        pure [r] : M (List (List Byte))) s = .ok [bs] s1 := by rw [M.bind_ok hr]; rfl
    have all : [bs].flatten = bs := by simp
    refine (M.bind_ok one).trans ?_
    rw [all]; rfl

theorem deniedTrap_mapped {s : State} {va : Word} {n k cls : Nat} {e : TlbEntry} (h : Mapped s .store va n k cls e) :
    s.deniedTrap va n = none := by
  unfold State.deniedTrap; rw [h.found]

/-- A store that nothing holds writes its bytes in the hart's view, through its core's L1. -/
theorem storeBytes_mapped {s : State} {va : Word} {bs : List Byte} {k cls : Nat} {e : TlbEntry} (stream : Nat)
    {rel : Bool} (h : Mapped s .store va bs.length k cls e) (hp : Placeable s k bs.length) :
    storeBytes stream va bs rel s = .ok () (((s.markPage e (some s.team.core) true).notePool s.team.no s.me.idx va k
      bs.length).storeOwn va k bs) := by
  have ht : (s.markPage e (some s.team.core) true).team = s.team := by rw [s.markPage_frame]
  have hp' : Placeable (s.markPage e (some s.team.core) true) k bs.length := fun i hi => by
    rw [ht, State.markPage_placeable]; exact hp i hi
  have hm : (s.markPage e (some s.team.core) true).me = s.me := by rw [s.markPage_frame]
  have hh : s.storeHeld stream va bs.length = false := by simp [State.storeHeld, State.streamHeld, h.noSide]
  have h1 : straddle va bs.length = none := by simp [straddle, h.oneRange]
  unfold storeBytes
  dsimp only
  rw [if_neg (by simp [h.ordinary]), h1, M.bind_trapIf_none, M.bind_now, storeTrap_mapped h, M.bind_trapIf_none,
    deniedTrap_mapped h, M.bind_trapIf_none, if_neg (by simp [hh]), h.found]
  show (findBytes .store va bs.length >>= _) s = _
  rw [M.bind_ok (findBytes_mapped h)]
  show (checkRoom va k bs.length >>= _) (s.markPage e (some s.team.core) true) = _
  rw [M.bind_ok (checkRoom_placeable hp'), M.change_run, ht, hm]

theorem loadBytes_reaches {s : State} {va : Word} {n k cls : Nat} {e : TlbEntry} (stream : Nat)
    (h : Reaches s .load va n k cls e) (hc : Clean s k n) :
    loadBytes stream va n s = .ok ((Seen s e k n).bytesIn s.team.world k n) (Seen s e k n) :=
  loadBytes_mapped stream h.toMapped hc

theorem storeBytes_reaches {s : State} {va : Word} {bs : List Byte} {k cls : Nat} {e : TlbEntry} (stream : Nat)
    {rel : Bool} (h : Reaches s .store va bs.length k cls e) (hp : Placeable s k bs.length) :
    storeBytes stream va bs rel s = .ok () (((s.markPage e (some s.team.core) true).notePool s.team.no s.me.idx va k
      bs.length).storeOwn va k bs) := storeBytes_mapped stream h.toMapped hp

theorem State.notePool_frame (s : State) (team h : Nat) (va : Word) (k n : Nat) (who : PoolBy) :
    s.notePool team h va k n who = { s with poolOut := (s.notePool team h va k n who).poolOut } := by
  unfold State.notePool; split <;> rfl

/-! ### What a store of the hart changes (R139, R258) -/

theorem State.l1Store_frame (s : State) (core w : Nat) (asid : BitVec 16) (va : Word) (bs : List Byte) :
    s.l1Store core w asid va bs = { s with l1 := (s.l1Store core w asid va bs).l1 } := by
  unfold State.l1Store; split <;> rfl

/-- A store changes no line of another core's L1. -/
theorem State.l1Store_other {s : State} {core w : Nat} {asid : BitVec 16} {va : Word} {bs : List Byte} {l : L1Line}
    (h : l ∈ (s.l1Store core w asid va bs).l1) (hc : l.core ≠ core) : l ∈ s.l1 := by
  unfold State.l1Store at h
  split at h
  · exact h
  · obtain ⟨x, hx, e⟩ := List.mem_map.1 h
    split at e
    · next hm =>
      simp only [Bool.and_eq_true, beq_iff_eq] at hm
      exact absurd (by rw [← e]; exact hm.1.1) hc
    · rw [← e]; exact hx

/-- The mark of an access adds no line. -/
theorem State.markPage_l1 {s : State} {e : TlbEntry} {agent : Option Nat} {wr : Bool} {l : L1Line}
    (h : l ∈ (s.markPage e agent wr).l1) : l ∈ s.l1 := by
  have key : ∀ (t : State) p, l ∈ (t.sharePage e p).l1 → l ∈ t.l1 := by
    intro t p h
    unfold State.sharePage at h
    split at h
    · exact (List.mem_filter.1 h).1
    · exact h
  unfold State.markPage at h
  have := key _ _ h
  rw [State.noteOwner_frame] at this
  dsimp only at this
  split at this <;> split at this <;> exact this

theorem State.storeOwn_frame (s : State) (va : Word) (k : Nat) (bs : List Byte) :
    s.storeOwn va k bs = { s with mem := (s.storeOwn va k bs).mem, under := (s.storeOwn va k bs).under,
                                  ver := (s.storeOwn va k bs).ver, ue := (s.storeOwn va k bs).ue, ce := (s.storeOwn va k bs).ce,
                                  verUe := (s.storeOwn va k bs).verUe, rowPoison := (s.storeOwn va k bs).rowPoison,
                                  raws := (s.storeOwn va k bs).raws, l1 := (s.storeOwn va k bs).l1 } := by
  unfold State.storeOwn
  generalize hb : s.storeAt s.team.world k bs = b
  have h1 := s.storeAt_frame s.team.world k bs
  rw [hb] at h1
  rw [State.l1Store_frame, h1]

theorem State.storeOwn_other {s : State} {va : Word} {k : Nat} {bs : List Byte} {l : L1Line}
    (h : l ∈ (s.storeOwn va k bs).l1) (hc : l.core ≠ s.team.core) : l ∈ s.l1 := by
  have := State.l1Store_other h hc
  rw [State.storeAt_frame] at this; exact this

/-- A store in the hart's view: the bytes written, and every other byte as before. -/
theorem State.byteIn_storeOwn (s : State) (va : Word) (k j : Nat) (bs : List Byte) (hm : Memory.wf s.mem = true) :
    (s.storeOwn va k bs).byteIn s.team.world j =
      if h : k ≤ j ∧ j - k < bs.length then bs[j - k]'h.2 else s.byteIn s.team.world j := by
  rw [← s.byteIn_storeAt s.team.world k j bs hm]
  unfold State.storeOwn
  exact State.byteIn_congr (by rw [State.l1Store_frame]) (by rw [State.l1Store_frame]) (by rw [State.l1Store_frame]) _ j

theorem State.wf_storeOwn (s : State) (va : Word) (k : Nat) (bs : List Byte) (hm : Memory.wf s.mem = true) :
    Memory.wf (s.storeOwn va k bs).mem = true := by
  unfold State.storeOwn
  rw [State.l1Store_frame]; exact s.wf_storeAt s.team.world k bs hm

/-! ### Releases -/

theorem release_free {s : State} {sc : Scope} (h : ReleaseFree s sc) :
    release sc s = .ok () { s with poolOut := if sc = .fabric then
      (s.poolOut.filter fun p => !(p.team == s.team.no && p.hart == s.me.idx && p.by_ == .hart)) else s.poolOut } := by
  have ha : s.anyHeld = false := by simp [State.anyHeld, h.noSide]
  rw [release, M.bind_ok (afterBlock_idle h.noBlock)]
  unfold releaseHeld
  by_cases hs : sc = .fabric
  · simp [ha, hs, h.poolOk hs]
  · simp [ha, hs]

end Sys2Proof.Machine
end

