-- ==== Sys2Proof/Laws/Elements.lean ====
section
/-! SUPPORT. Elements of a register group (R27, R192): an element read after a write of one is the value written or the
value before, and the same for a list of elements. -/

namespace Sys2Proof.Machine

/-- Widths of elements divide 64, and a register holds whole doublewords, at most 6,144 bytes (R26, R51). -/
structure Fits (vlen w : Nat) : Prop where
  width : w ∣ 64
  some_w : 0 < w
  some_len : 0 < vlen
  whole : 64 ∣ 8 * vlen
  inside : 8 * vlen ≤ 49152

theorem vlenOf_fits (size k : Nat) (hk : k < 7) : Fits (vlenOf size) (2 ^ k) := by
  have hs : vlenOf size = 6144 ∨ vlenOf size = 3072 ∨ vlenOf size = 1536 ∨ vlenOf size = 768 := by
    unfold vlenOf hartsOf
    have : size % 4 < 4 := Nat.mod_lt _ (by decide)
    generalize size % 4 = x at this
    match x, this with
    | 0, _ => exact .inl rfl
    | 1, _ => exact .inr (.inl rfl)
    | 2, _ => exact .inr (.inr (.inl rfl))
    | 3, _ => exact .inr (.inr (.inr rfl))
  refine ⟨?_, Nat.two_pow_pos k, ?_, ?_, ?_⟩
  · exact Nat.pow_dvd_pow 2 (show k ≤ 6 by omega)
  all_goals rcases hs with h | h | h | h <;> rw [h] <;> decide

/-! ### Fields of a wide register -/

theorem putField_bit {n : Nat} (x : BitVec n) (b w v k : Nat) (hk : k < n) (hb : b + w ≤ n) :
    (putField x b w v).getLsbD k = if b ≤ k ∧ k < b + w then v.testBit (k - b) else x.getLsbD k := by
  unfold putField
  simp only [BitVec.getLsbD_or, BitVec.getLsbD_and, BitVec.getLsbD_not, BitVec.getLsbD_shiftLeft, BitVec.getLsbD_ofNat,
    hk, decide_true, Bool.true_and, Nat.testBit_two_pow_sub_one, Nat.testBit_mod_two_pow]
  by_cases h1 : k < b
  · have : ¬ (b ≤ k ∧ k < b + w) := by omega
    simp [h1, this]
  · by_cases h2 : k < b + w
    · have h3 : b ≤ k ∧ k < b + w := by omega
      have h4 : k - b < w := by omega
      have h5 : k - b < n := by omega
      simp [h1, h3, h4, h5]
    · have h3 : ¬ (b ≤ k ∧ k < b + w) := by omega
      have h4 : ¬ (k - b < w) := by omega
      simp [h3, h4]

theorem Hart.elem_bit (h : Hart) (vlen n w i k : Nat) :
    (h.elem vlen n w i).testBit k = (decide (k < w) &&
      (h.v[(n + i * w / (8 * vlen)) % 32]'(Nat.mod_lt _ (by decide))).getLsbD (i * w % (8 * vlen) + k)) := by
  unfold Hart.elem
  rw [Nat.testBit_mod_two_pow]
  congr 1
  simp [BitVec.getLsbD, Nat.testBit_shiftRight]

theorem Hart.elem_lt (h : Hart) (vlen n w i : Nat) : h.elem vlen n w i < 2 ^ w := Nat.mod_lt _ (Nat.two_pow_pos w)

/-! ### Reading after writing -/

theorem offset_room {vlen w i : Nat} (hf : Fits vlen w) : i * w % (8 * vlen) + w ≤ 8 * vlen := by
  obtain ⟨c, hc⟩ := Nat.dvd_trans hf.width hf.whole
  have hw := hf.some_w
  rw [hc, Nat.mul_comm i w, Nat.mul_mod_mul_left]
  have hc0 : 0 < c := by
    rcases Nat.eq_zero_or_pos c with h | h
    · have := hf.some_len; rw [h, Nat.mul_zero] at hc; omega
    · exact h
  have := Nat.mod_lt i hc0
  calc w * (i % c) + w = w * (i % c + 1) := by rw [Nat.mul_add, Nat.mul_one]
    _ ≤ w * c := Nat.mul_le_mul_left _ this

theorem Hart.elem_setElem (h : Hart) (vlen n w i j v : Nat) (hf : Fits vlen w) (hi : i * w < 32 * (8 * vlen))
    (hj : j * w < 32 * (8 * vlen)) :
    (h.setElem vlen n w i v).elem vlen n w j = if j = i then v % 2 ^ w else h.elem vlen n w j := by
  have hlen : 0 < 8 * vlen := by have := hf.some_len; omega
  have hri : i * w / (8 * vlen) < 32 := (Nat.div_lt_iff_lt_mul hlen).2 hi
  have hrj : j * w / (8 * vlen) < 32 := (Nat.div_lt_iff_lt_mul hlen).2 hj
  have room := @offset_room vlen w i hf
  have roomj := @offset_room vlen w j hf
  apply Nat.eq_of_testBit_eq
  intro k
  rw [Hart.elem_bit]
  by_cases hk : k < w
  · simp only [hk, decide_true, Bool.true_and]
    simp only [Hart.setElem]
    by_cases hr : (n + i * w / (8 * vlen)) % 32 = (n + j * w / (8 * vlen)) % 32
    · have hq : i * w / (8 * vlen) = j * w / (8 * vlen) := by
        clear room roomj
        generalize i * w / (8 * vlen) = x at *
        generalize j * w / (8 * vlen) = y at *
        omega
      simp only [hr, Vector.getElem_set_self]
      rw [putField_bit _ _ _ _ _ (by have := hf.inside; omega) (by have := hf.inside; omega)]
      have ei := Nat.div_add_mod (i * w) (8 * vlen)
      have ej := Nat.div_add_mod (j * w) (8 * vlen)
      by_cases hij : j = i
      · subst hij
        rw [if_pos (by omega), if_pos rfl, Nat.testBit_mod_two_pow]
        simp only [hk, decide_true, Bool.true_and]
        congr 1; omega
      · rw [if_neg hij, Hart.elem_bit]
        simp only [hk, decide_true, Bool.true_and]
        rw [if_neg]
        intro hx
        rw [hq] at ei
        have h1 : i * w < j * w + w := by omega
        have h2 : j * w < i * w + w := by omega
        have h3 : i < j + 1 := Nat.lt_of_mul_lt_mul_right (a := w) (by rw [Nat.add_mul, Nat.one_mul]; exact h1)
        have h4 : j < i + 1 := Nat.lt_of_mul_lt_mul_right (a := w) (by rw [Nat.add_mul, Nat.one_mul]; exact h2)
        omega
    · have hij : j ≠ i := fun e => hr (by rw [e])
      rw [if_neg hij, Hart.elem_bit]
      simp only [hk, decide_true, Bool.true_and]
      rw [Vector.getElem_set_ne _ _ hr]
  · split
    · rw [Nat.testBit_mod_two_pow]; simp [hk]
    · rw [Hart.elem_bit]; simp [hk]

/-- A list of elements with different indices: each reads as written, the others as before. -/
theorem Hart.elem_setElems (h : Hart) (vlen n w j : Nat) (xs : List (Nat × Nat)) (hf : Fits vlen w)
    (hx : ∀ x, x ∈ xs → x.1 * w < 32 * (8 * vlen)) (hj : j * w < 32 * (8 * vlen)) (hd : (xs.map (·.1)).Nodup) :
    (h.setElems vlen n w xs).elem vlen n w j =
      match xs.find? (·.1 == j) with
      | some x => x.2 % 2 ^ w
      | none => h.elem vlen n w j := by
  induction xs generalizing h with
  | nil => rfl
  | cons x xs ih =>
    have e : h.setElems vlen n w (x :: xs) = (h.setElem vlen n w x.1 x.2).setElems vlen n w xs := rfl
    rw [e, ih _ (fun y hy => hx y (List.mem_cons_of_mem _ hy)) (List.nodup_cons.1 hd).2,
      Hart.elem_setElem _ _ _ _ _ _ _ hf (hx x List.mem_cons_self) hj, List.find?_cons]
    by_cases hxj : x.1 = j
    · have hnone : xs.find? (·.1 == j) = none := by
        rw [List.find?_eq_none]
        intro y hy hyj
        have : y.1 = x.1 := by rw [hxj]; simpa using hyj
        exact (List.nodup_cons.1 hd).1 (List.mem_map.2 ⟨y, hy, this⟩)
      simp [hxj, hnone]
    · have h1 : (x.1 == j) = false := by simpa using hxj
      rw [h1, if_neg (Ne.symm hxj)]

/-- Writes of elements change registers and marks alone. -/
theorem Hart.setElems_frame (h : Hart) (vlen n w : Nat) (xs : List (Nat × Nat)) :
    h.setElems vlen n w xs = { h with v := (h.setElems vlen n w xs).v, vmark := (h.setElems vlen n w xs).vmark } := by
  induction xs generalizing h with
  | nil => rfl
  | cons x xs ih =>
    have e : h.setElems vlen n w (x :: xs) = (h.setElem vlen n w x.1 x.2).setElems vlen n w xs := rfl
    rw [e, ih]; rfl

end Sys2Proof.Machine
end

