-- ==== Sys2Proof/Laws/Encoding.lean ====
section
/-! SUPPORT. The fields of words: what the extraction of bits gives of a concatenation, of the three scalar formats
(R91), of a vector word (R101) and of a row word (R106, R107), and that each code goes back to its name. -/

namespace Sys2Proof

/-! ### Bits of a concatenation -/

theorem bits_low {m n k lo : Nat} (x : BitVec m) (y : BitVec n) (h : lo + k ≤ n) :
    bits (w := no_index (m + n)) (HAppend.hAppend (γ := no_index (BitVec (m + n))) x y) lo k = bits y lo k := by
  apply BitVec.eq_of_getLsbD_eq
  intro i hi
  have : lo + i < n := by omega
  simp [bits, BitVec.getLsbD_append, this]

theorem bits_high {m n k lo : Nat} (x : BitVec m) (y : BitVec n) (h : n ≤ lo) :
    bits (w := no_index (m + n)) (HAppend.hAppend (γ := no_index (BitVec (m + n))) x y) lo k
      = bits x (lo - n) k := by
  apply BitVec.eq_of_getLsbD_eq
  intro i hi
  have : ¬ lo + i < n := by omega
  have h2 : lo + i - n = lo - n + i := by omega
  simp [bits, BitVec.getLsbD_append, this, h2]

theorem bits_all {n : Nat} (x : BitVec n) : bits x 0 n = x := by
  apply BitVec.eq_of_getLsbD_eq
  intro i hi
  simp [bits, hi]

theorem bits_zero {n k lo : Nat} : bits (0#n) lo k = 0#k := by
  apply BitVec.eq_of_getLsbD_eq
  intro i hi
  simp [bits]

/-! ### Codes -/

@[simp] theorem regOf_regBits (r : Reg) : regOf (regBits r) = r := rfl
@[simp] theorem regBits_regOf (b : BitVec 5) : regBits (regOf b) = b := rfl
@[simp] theorem flagOf_flagBits (b : Bool) : flagOf (flagBits b) = b := by cases b <;> rfl
@[simp] theorem scopeOf_scopeBits (c : Scope) : scopeOf (scopeBits c) = some c := by cases c <;> rfl
@[simp] theorem orderOf_orderBits (c : AmoOrder) : orderOf (orderBits c) = c := by cases c <;> rfl
@[simp] theorem hintOf_hintBits (c : Hint) : hintOf (hintBits c) = c := by cases c <;> rfl
@[simp] theorem sizeOf_sizeBits (c : Size) : sizeOf' (sizeBits c) = c := by cases c <;> rfl
@[simp] theorem kindOf_kindBits (c : FenceKind) : kindOf (kindBits c) = some c := by cases c <;> rfl
@[simp] theorem flOf_flBits (c : Fl) : flOf (flBits c) = some c := by cases c <;> rfl
@[simp] theorem icondOf_icondBits (c : ICond) : icondOf (icondBits c) = some c := by cases c <;> rfl
@[simp] theorem fcondOf_fcondBits (c : FCond) : fcondOf (fcondBits c) = some c := by cases c <;> rfl
@[simp] theorem redOf_redBits (c : RedOp) : redOf (redBits c) = some c := by cases c <;> rfl
@[simp] theorem low3_reg3 (b : BitVec 3) : low3 (reg3 b) = b := by
  simp [low3, reg3, bits_low]
@[simp] theorem low2_reg2 (b : BitVec 2) : bits (regBits (reg2 b)) 0 2 = b := by
  simp [reg2, bits_low]

/-! ### Scalar formats -/

theorem SFields.of_encSR (op : BitVec 6) (d a b : BitVec 5) (fn : BitVec 11) :
    SFields.of (encSR op d a b fn) = ⟨op, regOf d, regOf a, regOf b, fn⟩ := by
  simp [SFields.of, encSR, bits_low, bits_high]

theorem SFields.of_encSI (op : BitVec 6) (d a : BitVec 5) (i : BitVec 16) :
    SFields.of (encSI op d a i) = ⟨op, regOf d, regOf a, regOf (bits i 11 5), bits i 0 11⟩ := by
  simp [SFields.of, encSI, bits_low, bits_high]

theorem low16_encSI (op : BitVec 6) (d a : BitVec 5) (i : BitVec 16) : bits (encSI op d a i) 0 16 = i := by
  simp [encSI, bits_low]

theorem op_of_encSJ (op : BitVec 6) (o : BitVec 26) : (SFields.of (encSJ op o)).op = op := by
  simp [SFields.of, encSJ, bits_high]

theorem low26_encSJ (op : BitVec 6) (o : BitVec 26) : bits (encSJ op o) 0 26 = o := by
  simp [encSJ, bits_low]

theorem bits_amoFn (sc : Scope) (o : AmoOrder) (w : Bool) (op : BitVec 5) :
    bits (amoFn sc o w op) 8 3 = scopeBits sc ∧ bits (amoFn sc o w op) 6 2 = orderBits o ∧
      bits (amoFn sc o w op) 5 1 = flagBits w ∧ bits (amoFn sc o w op) 0 5 = op := by
  simp [amoFn, bits_low, bits_high]

theorem bits_smBits (s : BitVec 3) (h : Hint) (z : Size) (n : Bool) (o : BitVec 8) :
    bits (smBits s h z n o) 13 3 = s ∧ bits (smBits s h z n o) 11 2 = hintBits h ∧
      bits (smBits s h z n o) 9 2 = sizeBits z ∧ bits (smBits s h z n o) 8 1 = flagBits n ∧
      bits (smBits s h z n o) 0 8 = o := by
  simp [smBits, bits_low, bits_high]

/-- The low half of a 64-bit shift word (R94). -/
theorem bits_shift6 (c : BitVec 3) (n : BitVec 6) :
    bits (c ++ 0#7 ++ n) 6 7 = 0#7 ∧ bits (c ++ 0#7 ++ n) 13 3 = c ∧ bits (c ++ 0#7 ++ n) 0 6 = n := by
  simp [bits_low, bits_high]

/-- The low half of a 32-bit shift word (R94). -/
theorem bits_shift5 (c : BitVec 3) (n : BitVec 5) :
    bits (c ++ 0#8 ++ n) 6 7 = 0#7 ∧ bits (c ++ 0#8 ++ n) 13 3 = c ∧ bits (c ++ 0#8 ++ n) 5 1 = 0#1 ∧
      bits (c ++ 0#8 ++ n) 0 5 = n := by
  simp [bits_low, bits_high]

theorem saOf_ofNat (n : Fin 16) : saOf (regOf (BitVec.ofNat 5 n.val)) = n ∧ (regOf (BitVec.ofNat 5 n.val)).val < 16 := by
  revert n; decide

/-! ### Vector words -/

theorem VFields.of_word (g : VFields) : VFields.of g.word = g := by
  cases g
  simp [VFields.of, VFields.word, bits_low, bits_high]

/-- The fn6 field of VCMP (R416): the condition, and I in bit 0. -/
theorem icond_fn6 (c : ICond) :
    icondOf (bits (0#2 ++ icondBits c ++ 0#1) 1 3) = some c ∧ (0#2 ++ icondBits c ++ 0#1).getLsbD 0 = false ∧
      icondOf (bits ((0#2 ++ icondBits c ++ 0#1) ||| 1#6) 1 3) = some c ∧
      ((0#2 ++ icondBits c ++ 0#1) ||| 1#6).getLsbD 0 = true := by
  cases c <;> decide

/-- A vector word decodes to a well-formed instruction that has these fields. -/
theorem decodeVector_word {g : VFields} {fl : Fl} {i : Instr} (h : flOf g.fl = some fl)
    (hs : vectorShape g fl = .ok i) (hw : i.wf = true) (he : encodeVFields i = some g) :
    decodeVector g.word = .ok i := by
  simp [decodeVector, VFields.of_word, h, hs, hw, he, VFields.exact, accept]

/-! ### Row words -/

theorem rowOf_rowBits (r : RowRef) : rowOf (rowBits r) = some r := by
  cases r with
  | comp n => revert n; decide
  | data j o =>
    have h : bits (rowBits (.data j o)) 8 3 = BitVec.ofNat 3 (j.val + 1) ∧ bits (rowBits (.data j o)) 0 8 = o := by
      simp [rowBits, bits_low, bits_high]
    have hj : (BitVec.ofNat 3 (j.val + 1)).toNat = j.val + 1 := by
      simp only [BitVec.toNat_ofNat]; omega
    simp [rowOf, h, hj]

theorem bits_tra (k : BitVec 2) :
    bits (2#4 ++ k ++ 0#26) 28 4 = 2#4 ∧ bits (2#4 ++ k ++ 0#26) 26 2 = k ∧ bits (2#4 ++ k ++ 0#26) 0 26 = 0#26 := by
  simp [bits_low, bits_high]

theorem bits_loopw (c : BitVec 5) (m : BitVec 7) :
    bits (6#4 ++ c ++ m ++ 0#16) 28 4 = 6#4 ∧ bits (6#4 ++ c ++ m ++ 0#16) 23 5 = c ∧
      bits (6#4 ++ c ++ m ++ 0#16) 16 7 = m ∧ bits (6#4 ++ c ++ m ++ 0#16) 0 16 = 0#16 := by
  simp [bits_low, bits_high]

/-- The second byte of E.CVT (R110). -/
theorem bits_cvt (k : BitVec 4) (p : BitVec 3) :
    (k ++ 0#1 ++ p).getLsbD 3 = false ∧ bits (k ++ 0#1 ++ p) 4 4 = k ∧ bits (k ++ 0#1 ++ p) 0 3 = p := by
  revert k p; decide

/-- The second byte of E.LDK (R110). -/
theorem bits_ldk (k : BitVec 2) : (0#6 ++ k).toNat < 4 ∧ bits (0#6 ++ k) 0 2 = k := by
  revert k; decide

theorem bits_encRow2 (rop : BitVec 4) (s d : RowRef) :
    bits (encRow2 rop s d) 28 4 = rop ∧ bits (encRow2 rop s d) 17 11 = rowBits s ∧
      bits (encRow2 rop s d) 6 11 = rowBits d ∧ bits (encRow2 rop s d) 0 6 = 0#6 := by
  simp [encRow2, bits_low, bits_high]

end Sys2Proof
end

