-- ==== Sys2Proof/Laws/LoadStore.lean ====
section
/-! SUPPORT. Addresses, alignment and the values of loads and atomics (R334, R372, R399). -/

namespace Sys2Proof.Machine

/-- The address of LD and ST: the base plus the signed offset in units of the access (R95). -/
theorem memAddr_eq (x : Word) (z : Size) (o : BitVec 8) : memAddr x z o = x + BitVec.ofInt 64 (o.toInt * Size.bytes z) := by
  unfold memAddr
  congr 1
  apply BitVec.eq_of_toInt_eq
  rw [BitVec.toInt_mul, BitVec.toInt_signExtend_of_le (by decide), BitVec.toInt_ofInt]
  have : (BitVec.ofNat 64 (Size.bytes z)).toInt = Size.bytes z := by cases z <;> rfl
  rw [this]

theorem aligned_run {va : Word} {n : Nat} (s : State) (h : va.toNat % n = 0) : needAligned va n s = .ok () s := by
  simp [needAligned, aligned, h, M.need_run]

theorem misaligned_run {va : Word} {n : Nat} (s : State) (h : va.toNat % n ≠ 0) :
    needAligned va n s = .error (.trap (.sized cMISALIGN va n)) s := by
  simp [needAligned, aligned, h, M.need_run]

/-- Each bit of a loaded value (R372). -/
theorem extendLoad_bit (z : Size) (n : Bool) (bs : List Byte) (hl : bs.length ≤ Size.bytes z) (i : Nat) (hi : i < 64) :
    (extendLoad z n bs).getLsbD i = if i < 8 * Size.bytes z then (bs.getD (i / 8) 0).getLsbD (i % 8)
      else !n && (bs.getD (Size.bytes z - 1) 0).getLsbD 7 := by
  have hz : ∀ j, 8 * Size.bytes z ≤ j → (leVal bs).testBit j = false := by
    intro j hj
    rw [leVal_testBit]
    have : bs.length ≤ j / 8 := by omega
    simp [List.getD, this]
  have e7 : ∀ b, 0 < b → (8 * b - 1) / 8 = b - 1 ∧ (8 * b - 1) % 8 = 7 := by intro b hb; omega
  unfold extendLoad
  dsimp only
  cases n
  · simp only [Bool.not_false, Bool.true_and, Bool.false_eq_true, if_false]
    cases z <;> simp only [Size.bytes] at hz hl ⊢ <;>
      simp only [BitVec.getLsbD_signExtend, BitVec.getLsbD_ofNat, hi, decide_true, Bool.true_and, BitVec.msb_eq_getLsbD_last] <;> simp only [leVal_testBit]
    · by_cases h : i < 8 <;> simp [h]
    · by_cases h : i < 16 <;> simp [h]
    · by_cases h : i < 32 <;> simp [h]
    · simp
  · simp only [Bool.not_true, Bool.false_and, if_true]
    rw [BitVec.getLsbD_ofNat, leVal_testBit]
    simp only [hi, decide_true, Bool.true_and]
    split
    · rfl
    · next h => have := hz i (by omega); rw [leVal_testBit] at this; exact this

theorem bytesIn_getD (s : State) (w k n i : Nat) (h : i < n) : (s.bytesIn w k n).getD i 0 = s.byteIn w (k + i) := by
  simp [State.bytesIn, List.getD, h]

theorem leVal_leBytes (n v : Nat) : leVal (leBytes n v) = v % 2 ^ (8 * n) := by
  apply Nat.eq_of_testBit_eq
  intro k
  rw [leVal_testBit, Nat.testBit_mod_two_pow]
  by_cases h : k < 8 * n
  · have h1 : k / 8 < n := by omega
    have h2 : k % 8 < 8 := Nat.mod_lt _ (by decide)
    simp only [List.getD, leBytes, bytesLE, List.getElem?_map, List.getElem?_range h1, Option.map_some,
      Option.getD_some, BitVec.getLsbD_ofNat, h2, decide_true, Bool.true_and, h, Nat.testBit_shiftRight]
    rw [Nat.div_add_mod]
  · have h1 : n ≤ k / 8 := by omega
    simp [List.getD, leBytes, bytesLE, h1, h]

theorem leVal_lt (bs : List Byte) : leVal bs < 2 ^ (8 * bs.length) := by
  induction bs with
  | nil => simp [leVal, natLE]
  | cons b bs ih =>
    have e : leVal (b :: bs) = b.toNat + 256 * leVal bs := rfl
    have hb := b.isLt
    have h3 : 2 ^ (8 * (b :: bs).length) = 256 * 2 ^ (8 * bs.length) := by
      rw [List.length_cons, Nat.mul_add, Nat.pow_add, Nat.mul_comm]
    rw [e, h3]; omega

/-! ### Lines and ranges of addresses -/

theorem ownNotWindow {va : Word} (h : isOwn va = true) : isWindow va = false := by
  simp only [isOwn, isWindow, windowNode, beq_iff_eq] at *
  simp [h]

theorem nodeOf_eq (va : Word) : nodeOf va = va.toNat / 2 ^ 46 := by
  unfold nodeOf
  have := va.isLt
  simp only [bits, BitVec.extractLsb'_toNat, Nat.shiftRight_eq_div_pow]
  omega

/-- An aligned scalar access of this device ends outside the windows. -/
theorem aligned_noStraddle {va : Word} {z : Size} (ho : isOwn va = true) (hal : va.toNat % Size.bytes z = 0) : straddle va (Size.bytes z) = none := by
  have h0 : va.toNat < 2 ^ 46 := by
    simp only [isOwn, beq_iff_eq, nodeOf_eq] at ho
    omega
  have : isWindow (va + BitVec.ofNat 64 (Size.bytes z - 1)) = false := by
    simp only [isWindow, nodeOf_eq, windowNode, beq_eq_false_iff_ne]
    rw [BitVec.toNat_add, BitVec.toNat_ofNat]
    cases z <;> simp only [Size.bytes] at hal ⊢ <;> omega
  unfold straddle; rw [this]; rfl

theorem line_eq (x : Word) : x &&& ~~~63#64 = (x >>> 6) <<< 6 := by
  have h : ∀ i, i < 64 → (~~~63#64).getLsbD i = decide (6 ≤ i) := by decide
  apply BitVec.eq_of_getLsbD_eq
  intro i hi
  rw [BitVec.getLsbD_and, h i hi, BitVec.getLsbD_shiftLeft]
  by_cases h6 : 6 ≤ i
  · have : ¬ i < 6 := by omega
    simp [h6, this, hi]
  · have : i < 6 := by omega
    simp [h6, this]

/-- Bytes of one line have one line address. -/
theorem line_same {va : Word} {i : Nat} (h : va.toNat % 64 + i < 64) : (va + BitVec.ofNat 64 i) &&& ~~~63#64 = va &&& ~~~63#64 := by
  have hv := va.isLt
  rw [line_eq, line_eq]
  congr 1
  apply BitVec.eq_of_toNat_eq
  simp only [BitVec.toNat_ushiftRight, BitVec.toNat_add, BitVec.toNat_ofNat, Nat.shiftRight_eq_div_pow]
  omega

/-- A store that stays in one line is one part. -/
theorem lineParts_one {va : Word} (bs : List Byte) (h0 : bs ≠ []) (h : va.toNat % 64 + bs.length ≤ 64) :
    ∃ l p, lineParts va (bs.zipIdx.map fun (b, i) => (i, b)) = [(l, p)] ∧ p.map (·.2) = bs := by
  have hpos : 0 < bs.length := List.length_pos_iff.2 h0
  have hmap : ((bs.zipIdx.map fun (b, i) => (i, b)).map fun b => (va + BitVec.ofNat 64 b.1) &&& ~~~63#64) =
      List.replicate bs.length (va &&& ~~~63#64) := by
    apply List.ext_getElem
    · simp
    · intro n h1 h2
      simp only [List.length_map, List.length_zipIdx] at h1
      simp only [List.getElem_map, List.getElem_zipIdx, List.getElem_replicate, Nat.zero_add]
      exact line_same (by omega)
  have hdup : ∀ n (x : Word), 0 < n → (List.replicate n x).eraseDups = [x] := by
    intro n x hn
    obtain ⟨m, rfl⟩ : ∃ m, n = m + 1 := ⟨n - 1, by omega⟩
    rw [List.replicate_succ, List.eraseDups_cons]
    congr 1
    have : List.filter (fun b => !b == x) (List.replicate m x) = [] := by simp
    rw [this]; rfl
  have hfil : (bs.zipIdx.map fun (b, i) => (i, b)).filter (fun b => ((va + BitVec.ofNat 64 b.1) &&& ~~~63#64) == va &&& ~~~63#64) =
      bs.zipIdx.map fun (b, i) => (i, b) := by
    rw [List.filter_eq_self]
    intro p hp
    obtain ⟨⟨b, i⟩, hm, rfl⟩ := List.mem_map.1 hp
    have := (List.mem_zipIdx hm).2.1
    simp only [beq_iff_eq]
    exact line_same (by omega)
  unfold lineParts
  dsimp only
  rw [hmap, hdup _ _ hpos]
  refine ⟨_, _, rfl, ?_⟩
  rw [hfil, List.map_map, List.map_map]
  apply List.ext_getElem
  · simp
  · intro n h1 h2
    simp

/-- An aligned scalar access of a scratchpad window has no window fault. -/
theorem aligned_window {va : Word} {z : Size} (hw : isWindow va = true) (hal : va.toNat % Size.bytes z = 0) (hc : towerOf va < 3) :
    windowFault va (Size.bytes z) true = none ∧ windowFault va (Size.bytes z) false = none := by
  have hv := va.isLt
  have ht : ∀ x : Word, towerOf x = x.toNat / 2 ^ 43 % 8 := by
    intro x; simp [towerOf, bits, Nat.shiftRight_eq_div_pow]
  have hlast : (va + BitVec.ofNat 64 (Size.bytes z - 1)).toNat / 2 ^ 43 = va.toNat / 2 ^ 43 := by
    simp only [isWindow, nodeOf_eq, windowNode, beq_iff_eq] at hw
    rw [BitVec.toNat_add, BitVec.toNat_ofNat]
    cases z <;> simp only [Size.bytes] at hal ⊢ <;> omega
  have h1 : isWindow (va + BitVec.ofNat 64 (Size.bytes z - 1)) = true := by
    simp only [isWindow, nodeOf_eq, windowNode, beq_iff_eq] at hw ⊢
    omega
  have h2 : towerOf (va + BitVec.ofNat 64 (Size.bytes z - 1)) = towerOf va := by
    rw [ht, ht, hlast]
  unfold windowFault
  dsimp only
  rw [h1, h2]
  simp only [Bool.not_true, bne_self_eq_false, Bool.or_self, Bool.false_eq_true, if_false]
  rw [if_neg (by omega), if_neg (by omega), if_neg (by omega), if_neg (by omega), if_neg (by omega), if_neg (by omega)]
  exact ⟨rfl, rfl⟩

theorem mask46 (x : Word) : x &&& 0x3FFFFFFFFFFF#64 = BitVec.ofNat 64 (x.toNat % 2 ^ 46) := by
  apply BitVec.eq_of_toNat_eq
  rw [BitVec.toNat_and]
  have : (0x3FFFFFFFFFFF#64).toNat = 2 ^ 46 - 1 := rfl
  rw [this, Nat.and_two_pow_sub_one_eq_mod, BitVec.toNat_ofNat, Nat.mod_eq_of_lt (a := x.toNat % 2^46)]
  omega

/-! ### Values of atomics -/

theorem bytesIn_congr {s t : State} {w k n : Nat} (h : ∀ i, i < n → s.byteIn w (k+i) = t.byteIn w (k+i)) : s.bytesIn w k n = t.bytesIn w k n := by
  unfold State.bytesIn
  apply List.map_congr_left
  intro i hi
  exact h i (List.mem_range.1 hi)

theorem signedLow_eq (n x : Nat) (hn : 0 < n) (hx : x < 2 ^ n) : signedLow n x = (BitVec.ofNat n x).toInt := by
  unfold signedLow
  rw [BitVec.toInt_eq_toNat_cond]
  have e : 2 ^ n = 2 * 2 ^ (n-1) := by
    obtain ⟨m, rfl⟩ : ∃ m, n = m + 1 := ⟨n-1, by omega⟩
    simp [Nat.pow_succ, Nat.mul_comm]
  simp only [BitVec.toNat_ofNat, Nat.mod_eq_of_lt hx]
  by_cases h : x < 2 ^ (n-1)
  · rw [if_pos h, if_pos (by omega)]
  · rw [if_neg h, if_neg (by omega)]; push_cast; rfl

theorem amoNew_lt (op : BitVec 5) (n old v e x : Nat) (ho : old < 2 ^ n) (h : amoNew op n old v e = some x) : x < 2 ^ n := by
  have hv : v % 2 ^ n < 2 ^ n := Nat.mod_lt _ (Nat.two_pow_pos n)
  unfold amoNew at h
  split at h
  · cases h; exact hv
  · cases h; exact Nat.mod_lt _ (Nat.two_pow_pos n)
  · cases h; exact Nat.lt_of_le_of_lt Nat.and_le_left ho
  · cases h; exact Nat.or_lt_two_pow ho hv
  · cases h; exact Nat.xor_lt_two_pow ho hv
  · cases h; split <;> assumption
  · cases h; split <;> assumption
  · cases h; exact Nat.lt_of_le_of_lt (Nat.min_le_left _ _) ho
  · cases h; exact Nat.max_lt.2 ⟨ho, hv⟩
  · split at h
    · cases h; exact hv
    · cases h

theorem amoResult_eq (z old : Nat) (h : z = 4 ∨ z = 8) (ho : old < 2 ^ (8*z)) : amoResult z old = (BitVec.ofNat (8 * z) old).signExtend 64 := by
  rcases h with rfl | rfl
  · rfl
  · simp [amoResult, BitVec.signExtend_eq]

/-! ### Checks and atomics that nothing stops -/

theorem storeCheck_reaches {s : State} {va : Word} {n k cls : Nat} {e : TlbEntry} (h : Reaches s .store va n k cls e) :
    storeCheck va n s = .ok () s := by
  have h1 : straddle va n = none := by simp [straddle, h.oneRange]
  unfold storeCheck
  rw [if_neg (by simp [h.ordinary]), h1, M.bind_trapIf_none, M.bind_now, storeTrap_mapped h.toMapped]
  rfl

/-- The scope of a hint form on a mapped page of this device (R171, R440). -/
theorem hintScope_at {s : State} {a : Acc} {va : Word} {k cls : Nat} {e : TlbEntry} (h : s.xlate s.team.asid a va = .at_ k cls e) :
    s.hintScope va = if cls = 2 then .fabric else .package := by
  unfold State.xlate at h
  unfold State.hintScope
  split at h
  · next ho =>
    rw [if_neg (by simp [ownNotWindow ho]), if_pos ho]
    split at h
    · cases h
    · split at h
      · cases h
      cases hl : s.lookup s.team.asid (towerOf va) (offsetOf va) with
      | none => simp [hl] at h
      | some p =>
        simp only [hl] at h
        split at h
        · cases h; rfl
        · cases h
  · split at h <;> cases h

theorem worldAtomic_reaches {s : State} {va : Word} {n k cls : Nat} {e : TlbEntry} {fabric : Bool}
    (h : Reaches s .atomic va n k cls e) (hc : cls ≠ 2) (hf : fabric = true → s.team.world = 0) :
    worldAtomic va n fabric s = .ok () s := by
  have h2 : (s.team.world != 0 && (fabric || s.hintScope va == .fabric)) = false := by
    rw [hintScope_at h.found, if_neg hc]
    cases hb : fabric
    · simp
    · simp [hf hb]
  unfold worldAtomic
  rw [if_neg (by simp [h2])]

theorem atomicTrap_reaches {s : State} {va : Word} {n k cls : Nat} {e : TlbEntry} (h : Reaches s .atomic va n k cls e)
    (hc : cls ≠ 2) : s.atomicTrap va n = none := by
  unfold State.atomicTrap
  rw [h.found]
  split <;> simp_all

theorem atomicCheck_reaches {s : State} {va : Word} {n k cls : Nat} {e : TlbEntry} {fabric dest : Bool}
    (h : Reaches s .atomic va n k cls e) (hc : cls ≠ 2) (hf : fabric = true → s.team.world = 0) :
    atomicCheck va n fabric dest s = .ok () s := by
  unfold atomicCheck
  rw [M.bind_ok (worldAtomic_reaches h hc hf), if_neg (by simp [h.ordinary]), M.bind_now, atomicTrap_reaches h hc,
    M.bind_trapIf_none, h.found]
  rfl

/-- The bytes of an atomic after it: the new value, or the old one where nothing is written. -/
theorem atomicAt_run {s : State} {va : Word} {k z : Nat} {f : Nat → Option Nat} (hp : Placeable s k z) :
    atomicAt va k z f s = .ok (leVal (s.bytesIn s.team.world k z))
      (match f (leVal (s.bytesIn s.team.world k z)) with
        | some v => s.storeOwn va k (leBytes z v)
        | none => s) := by
  unfold atomicAt
  rw [M.bind_now]
  dsimp only
  cases hf : f (leVal (s.bytesIn s.team.world k z)) with
  | none => rfl
  | some v =>
    show (checkRoom va k z >>= _) s = _
    rw [M.bind_ok (checkRoom_placeable hp)]
    rfl

theorem atomic_reaches {s : State} {va : Word} {z k cls : Nat} {e : TlbEntry} {fabric dest chk : Bool}
    {entry : BitVec 5 × Nat × Word × Word} {f : Nat → Option Nat} {stream : Nat}
    (h : Reaches s .atomic va z k cls e) (hc : cls ≠ 2) (hf : fabric = true → s.team.world = 0)
    (hk : chk = true → Clean s k z) :
    atomic va z fabric dest chk entry f stream s =
      atomicAt va k z f (s.markPage e (some s.team.core) true) := by
  have ht : (s.markPage e (some s.team.core) true).team = s.team := by rw [s.markPage_frame]
  have hs : s.storeHeld stream va z = false := by simp [State.storeHeld, State.streamHeld, h.noSide]
  unfold atomic
  rw [M.bind_ok (worldAtomic_reaches h hc hf), if_neg (by simp [h.ordinary]), M.bind_now, atomicTrap_reaches h hc,
    M.bind_trapIf_none]
  have hcp : (if chk = true then checkPoison va k z else pure () : M Unit) (s.markPage e (some s.team.core) true) =
      .ok () (s.markPage e (some s.team.core) true) := by
    split
    · next hb => exact checkPoison_clean fun i hi => by rw [ht, State.markPage_byteBad]; exact hk hb i hi
    · rfl
  have hx : (s.xlate s.team.asid .atomic va == .missing) = false := by rw [h.found]; rfl
  have tail : (do
      let k ← findBytes .atomic va z
      if chk then checkPoison va k z
      atomicAt va k z f : M Nat) s = atomicAt va k z f (s.markPage e (some s.team.core) true) := by
    rw [M.bind_ok (findBytes_mapped h.toMapped)]
    cases chk
    · rfl
    · exact M.bind_ok hcp
  cases dest
  · simp only [hs, hx, Bool.and_false, Bool.false_eq_true, if_false]
    exact tail
  · simp only [Bool.not_true, Bool.false_and, Bool.false_eq_true, if_false, if_true]
    exact (M.bind_ok (loadHold_idle h.noSide)).trans tail

end Sys2Proof.Machine
end

