-- ==== Sys2Proof/Laws/Units.lean ====
section
/-! SUPPORT. Tables of the device: reading after writing, and one lemma for each field of the state under each setter of
a unit. -/

namespace Sys2Proof.Machine

/-! ### Tables keyed by number -/

/-- The keys of a table rise strictly, from lo up. -/
def tableSorted {α : Type} (lo : Nat) : List (Nat × α) → Bool
  | [] => true
  | (a, _) :: rest => decide (lo ≤ a) && tableSorted (a + 1) rest

theorem tableGet_tableSet {α : Type} (t : List (Nat × α)) (k j : Nat) (v dflt : α) :
    tableGet (tableSet t k v) j dflt = if j = k then v else tableGet t j dflt := by
  induction t with
  | nil => simp only [tableSet, tableGet, eq_comm (a := k)]
  | cons e rest ih =>
    obtain ⟨a, x⟩ := e
    simp only [tableSet]
    by_cases hak : a = k
    · subst hak
      by_cases h : j = a
      · simp [tableGet, h]
      · simp [tableGet, h, Ne.symm h]
    · by_cases hlt : k < a
      · by_cases h : j = k
        · simp [tableGet, hak, hlt, h]
        · simp [tableGet, hak, hlt, h, Ne.symm h]
      · simp only [hak, hlt, if_false, tableGet, ih]
        by_cases h : a = j
        · have : ¬ (j = k) := fun e => hak (h.trans e)
          simp [h, this]
        · simp [h]

theorem tableSet_sorted {α : Type} (t : List (Nat × α)) (lo k : Nat) (v : α) (hk : lo ≤ k)
    (h : tableSorted lo t = true) : tableSorted lo (tableSet t k v) = true := by
  induction t generalizing lo with
  | nil => simpa [tableSet, tableSorted] using hk
  | cons e rest ih =>
    obtain ⟨a, x⟩ := e
    simp only [tableSorted, Bool.and_eq_true, decide_eq_true_eq] at h
    simp only [tableSet]
    split
    · simp [tableSorted, h]
    · split
      · simp [tableSorted, h.2]; omega
      · simp only [tableSorted, Bool.and_eq_true, decide_eq_true_eq]
        exact ⟨h.1, ih (a + 1) (by omega) h.2⟩

/-! ### Setters -/

@[simp] theorem State.setCore_live (s : State) (k : Nat) (c : CoreSt) : (s.setCore k c).live = s.live := rfl
@[simp] theorem State.setCore_me (s : State) (k : Nat) (c : CoreSt) : (s.setCore k c).me = s.me := rfl
@[simp] theorem State.setCore_team (s : State) (k : Nat) (c : CoreSt) : (s.setCore k c).team = s.team := rfl
@[simp] theorem State.setCore_peers (s : State) (k : Nat) (c : CoreSt) : (s.setCore k c).peers = s.peers := rfl
@[simp] theorem State.setCore_parked (s : State) (k : Nat) (c : CoreSt) : (s.setCore k c).parked = s.parked := rfl
@[simp] theorem State.setCore_past (s : State) (k : Nat) (c : CoreSt) : (s.setCore k c).past = s.past := rfl
@[simp] theorem State.setCore_mem (s : State) (k : Nat) (c : CoreSt) : (s.setCore k c).mem = s.mem := rfl
@[simp] theorem State.setCore_under (s : State) (k : Nat) (c : CoreSt) : (s.setCore k c).under = s.under := rfl
@[simp] theorem State.setCore_ver (s : State) (k : Nat) (c : CoreSt) : (s.setCore k c).ver = s.ver := rfl
@[simp] theorem State.setCore_ue (s : State) (k : Nat) (c : CoreSt) : (s.setCore k c).ue = s.ue := rfl
@[simp] theorem State.setCore_ce (s : State) (k : Nat) (c : CoreSt) : (s.setCore k c).ce = s.ce := rfl
@[simp] theorem State.setCore_verUe (s : State) (k : Nat) (c : CoreSt) : (s.setCore k c).verUe = s.verUe := rfl
@[simp] theorem State.setCore_rowPoison (s : State) (k : Nat) (c : CoreSt) : (s.setCore k c).rowPoison = s.rowPoison := rfl
@[simp] theorem State.setCore_raws (s : State) (k : Nat) (c : CoreSt) : (s.setCore k c).raws = s.raws := rfl
@[simp] theorem State.setCore_worlds (s : State) (k : Nat) (c : CoreSt) : (s.setCore k c).worlds = s.worlds := rfl
@[simp] theorem State.setCore_forks (s : State) (k : Nat) (c : CoreSt) : (s.setCore k c).forks = s.forks := rfl
@[simp] theorem State.setCore_crows (s : State) (k : Nat) (c : CoreSt) : (s.setCore k c).crows = s.crows := rfl
@[simp] theorem State.setCore_tlb (s : State) (k : Nat) (c : CoreSt) : (s.setCore k c).tlb = s.tlb := rfl
@[simp] theorem State.setCore_ptroots (s : State) (k : Nat) (c : CoreSt) : (s.setCore k c).ptroots = s.ptroots := rfl
@[simp] theorem State.setCore_ptsel (s : State) (k : Nat) (c : CoreSt) : (s.setCore k c).ptsel = s.ptsel := rfl
@[simp] theorem State.setCore_code (s : State) (k : Nat) (c : CoreSt) : (s.setCore k c).code = s.code := rfl
@[simp] theorem State.setCore_l1 (s : State) (k : Nat) (c : CoreSt) : (s.setCore k c).l1 = s.l1 := rfl
@[simp] theorem State.setCore_unowned (s : State) (k : Nat) (c : CoreSt) : (s.setCore k c).unowned = s.unowned := rfl
@[simp] theorem State.setCore_routes (s : State) (k : Nat) (c : CoreSt) : (s.setCore k c).routes = s.routes := rfl
@[simp] theorem State.setCore_leases (s : State) (k : Nat) (c : CoreSt) : (s.setCore k c).leases = s.leases := rfl
@[simp] theorem State.setCore_poolOut (s : State) (k : Nat) (c : CoreSt) : (s.setCore k c).poolOut = s.poolOut := rfl
@[simp] theorem State.setCore_pctl (s : State) (k : Nat) (c : CoreSt) : (s.setCore k c).pctl = s.pctl := rfl
@[simp] theorem State.setCore_side (s : State) (k : Nat) (c : CoreSt) : (s.setCore k c).side = s.side := rfl
@[simp] theorem State.setCore_refusals (s : State) (k : Nat) (c : CoreSt) : (s.setCore k c).refusals = s.refusals := rfl
@[simp] theorem State.setCore_cmds (s : State) (k : Nat) (c : CoreSt) : (s.setCore k c).cmds = s.cmds := rfl
@[simp] theorem State.setCore_runs (s : State) (k : Nat) (c : CoreSt) : (s.setCore k c).runs = s.runs := rfl
@[simp] theorem State.setCore_exprs (s : State) (k : Nat) (c : CoreSt) : (s.setCore k c).exprs = s.exprs := rfl
@[simp] theorem State.setCore_locks (s : State) (k : Nat) (c : CoreSt) : (s.setCore k c).locks = s.locks := rfl
@[simp] theorem State.setCore_berr (s : State) (k : Nat) (c : CoreSt) : (s.setCore k c).berr = s.berr := rfl
@[simp] theorem State.setCore_refreshes (s : State) (k : Nat) (c : CoreSt) : (s.setCore k c).refreshes = s.refreshes := rfl
@[simp] theorem State.setCore_late (s : State) (k : Nat) (c : CoreSt) : (s.setCore k c).late = s.late := rfl
@[simp] theorem State.setCore_sas (s : State) (k : Nat) (c : CoreSt) : (s.setCore k c).sas = s.sas := rfl
@[simp] theorem State.setCore_adds (s : State) (k : Nat) (c : CoreSt) : (s.setCore k c).adds = s.adds := rfl
@[simp] theorem State.setCore_watch (s : State) (k : Nat) (c : CoreSt) : (s.setCore k c).watch = s.watch := rfl
@[simp] theorem State.setCore_held (s : State) (k : Nat) (c : CoreSt) : (s.setCore k c).held = s.held := rfl
@[simp] theorem State.setCore_launches (s : State) (k : Nat) (c : CoreSt) : (s.setCore k c).launches = s.launches := rfl
@[simp] theorem State.setCore_handles (s : State) (k : Nat) (c : CoreSt) : (s.setCore k c).handles = s.handles := rfl
@[simp] theorem State.setCore_queues (s : State) (k : Nat) (c : CoreSt) : (s.setCore k c).queues = s.queues := rfl
@[simp] theorem State.setCore_gangrdy (s : State) (k : Nat) (c : CoreSt) : (s.setCore k c).gangrdy = s.gangrdy := rfl
@[simp] theorem State.setCore_served (s : State) (k : Nat) (c : CoreSt) : (s.setCore k c).served = s.served := rfl
@[simp] theorem State.setCore_evbase (s : State) (k : Nat) (c : CoreSt) : (s.setCore k c).evbase = s.evbase := rfl
@[simp] theorem State.setCore_evhead (s : State) (k : Nat) (c : CoreSt) : (s.setCore k c).evhead = s.evhead := rfl
@[simp] theorem State.setCore_evtail (s : State) (k : Nat) (c : CoreSt) : (s.setCore k c).evtail = s.evtail := rfl
@[simp] theorem State.setCore_evseq (s : State) (k : Nat) (c : CoreSt) : (s.setCore k c).evseq = s.evseq := rfl
@[simp] theorem State.setCore_waitswap (s : State) (k : Nat) (c : CoreSt) : (s.setCore k c).waitswap = s.waitswap := rfl
@[simp] theorem State.setCore_ctxscope (s : State) (k : Nat) (c : CoreSt) : (s.setCore k c).ctxscope = s.ctxscope := rfl
@[simp] theorem State.setCore_powermode (s : State) (k : Nat) (c : CoreSt) : (s.setCore k c).powermode = s.powermode := rfl
@[simp] theorem State.setCore_railcmd (s : State) (k : Nat) (c : CoreSt) : (s.setCore k c).railcmd = s.railcmd := rfl
@[simp] theorem State.setCore_hard (s : State) (k : Nat) (c : CoreSt) : (s.setCore k c).hard = s.hard := rfl
@[simp] theorem State.setCore_limit (s : State) (k : Nat) (c : CoreSt) : (s.setCore k c).limit = s.limit := rfl
@[simp] theorem State.setCore_clustersel (s : State) (k : Nat) (c : CoreSt) : (s.setCore k c).clustersel = s.clustersel := rfl
@[simp] theorem State.setCore_clusters (s : State) (k : Nat) (c : CoreSt) : (s.setCore k c).clusters = s.clusters := rfl
@[simp] theorem State.setCore_towers (s : State) (k : Nat) (c : CoreSt) : (s.setCore k c).towers = s.towers := rfl
@[simp] theorem State.setCore_mons (s : State) (k : Nat) (c : CoreSt) : (s.setCore k c).mons = s.mons := rfl
@[simp] theorem State.setCore_alarmcfg (s : State) (k : Nat) (c : CoreSt) : (s.setCore k c).alarmcfg = s.alarmcfg := rfl
@[simp] theorem State.setCore_halted (s : State) (k : Nat) (c : CoreSt) : (s.setCore k c).halted = s.halted := rfl
@[simp] theorem State.setCore_escrow (s : State) (k : Nat) (c : CoreSt) : (s.setCore k c).escrow = s.escrow := rfl
@[simp] theorem State.setCore_boot (s : State) (k : Nat) (c : CoreSt) : (s.setCore k c).boot = s.boot := rfl
@[simp] theorem State.setCore_time (s : State) (k : Nat) (c : CoreSt) : (s.setCore k c).time = s.time := rfl
@[simp] theorem State.setCore_agenda (s : State) (k : Nat) (c : CoreSt) : (s.setCore k c).agenda = s.agenda := rfl
@[simp] theorem State.setCore_turn (s : State) (k : Nat) (c : CoreSt) : (s.setCore k c).turn = s.turn := rfl
@[simp] theorem State.setCore_reply (s : State) (k : Nat) (c : CoreSt) : (s.setCore k c).reply = s.reply := rfl
@[simp] theorem State.setCore_fresh (s : State) (k : Nat) (c : CoreSt) : (s.setCore k c).fresh = s.fresh := rfl
@[simp] theorem State.setCore_nextTask (s : State) (k : Nat) (c : CoreSt) : (s.setCore k c).nextTask = s.nextTask := rfl
@[simp] theorem State.setCore_nextTeam (s : State) (k : Nat) (c : CoreSt) : (s.setCore k c).nextTeam = s.nextTeam := rfl
@[simp] theorem State.setCore_nextLaunch (s : State) (k : Nat) (c : CoreSt) : (s.setCore k c).nextLaunch = s.nextLaunch := rfl
@[simp] theorem State.setCore_nextCmd (s : State) (k : Nat) (c : CoreSt) : (s.setCore k c).nextCmd = s.nextCmd := rfl
@[simp] theorem State.setCore_nextOrder (s : State) (k : Nat) (c : CoreSt) : (s.setCore k c).nextOrder = s.nextOrder := rfl
@[simp] theorem State.setCore_nextTag (s : State) (k : Nat) (c : CoreSt) : (s.setCore k c).nextTag = s.nextTag := rfl
@[simp] theorem State.setCore_nextWorld (s : State) (k : Nat) (c : CoreSt) : (s.setCore k c).nextWorld = s.nextWorld := rfl
@[simp] theorem State.setCore_nextSide (s : State) (k : Nat) (c : CoreSt) : (s.setCore k c).nextSide = s.nextSide := rfl

@[simp] theorem State.setCluster_live (s : State) (k : Nat) (c : Cluster) : (s.setCluster k c).live = s.live := rfl
@[simp] theorem State.setCluster_me (s : State) (k : Nat) (c : Cluster) : (s.setCluster k c).me = s.me := rfl
@[simp] theorem State.setCluster_team (s : State) (k : Nat) (c : Cluster) : (s.setCluster k c).team = s.team := rfl
@[simp] theorem State.setCluster_peers (s : State) (k : Nat) (c : Cluster) : (s.setCluster k c).peers = s.peers := rfl
@[simp] theorem State.setCluster_parked (s : State) (k : Nat) (c : Cluster) : (s.setCluster k c).parked = s.parked := rfl
@[simp] theorem State.setCluster_past (s : State) (k : Nat) (c : Cluster) : (s.setCluster k c).past = s.past := rfl
@[simp] theorem State.setCluster_mem (s : State) (k : Nat) (c : Cluster) : (s.setCluster k c).mem = s.mem := rfl
@[simp] theorem State.setCluster_under (s : State) (k : Nat) (c : Cluster) : (s.setCluster k c).under = s.under := rfl
@[simp] theorem State.setCluster_ver (s : State) (k : Nat) (c : Cluster) : (s.setCluster k c).ver = s.ver := rfl
@[simp] theorem State.setCluster_ue (s : State) (k : Nat) (c : Cluster) : (s.setCluster k c).ue = s.ue := rfl
@[simp] theorem State.setCluster_ce (s : State) (k : Nat) (c : Cluster) : (s.setCluster k c).ce = s.ce := rfl
@[simp] theorem State.setCluster_verUe (s : State) (k : Nat) (c : Cluster) : (s.setCluster k c).verUe = s.verUe := rfl
@[simp] theorem State.setCluster_rowPoison (s : State) (k : Nat) (c : Cluster) : (s.setCluster k c).rowPoison = s.rowPoison := rfl
@[simp] theorem State.setCluster_raws (s : State) (k : Nat) (c : Cluster) : (s.setCluster k c).raws = s.raws := rfl
@[simp] theorem State.setCluster_worlds (s : State) (k : Nat) (c : Cluster) : (s.setCluster k c).worlds = s.worlds := rfl
@[simp] theorem State.setCluster_forks (s : State) (k : Nat) (c : Cluster) : (s.setCluster k c).forks = s.forks := rfl
@[simp] theorem State.setCluster_crows (s : State) (k : Nat) (c : Cluster) : (s.setCluster k c).crows = s.crows := rfl
@[simp] theorem State.setCluster_tlb (s : State) (k : Nat) (c : Cluster) : (s.setCluster k c).tlb = s.tlb := rfl
@[simp] theorem State.setCluster_ptroots (s : State) (k : Nat) (c : Cluster) : (s.setCluster k c).ptroots = s.ptroots := rfl
@[simp] theorem State.setCluster_ptsel (s : State) (k : Nat) (c : Cluster) : (s.setCluster k c).ptsel = s.ptsel := rfl
@[simp] theorem State.setCluster_code (s : State) (k : Nat) (c : Cluster) : (s.setCluster k c).code = s.code := rfl
@[simp] theorem State.setCluster_l1 (s : State) (k : Nat) (c : Cluster) : (s.setCluster k c).l1 = s.l1 := rfl
@[simp] theorem State.setCluster_unowned (s : State) (k : Nat) (c : Cluster) : (s.setCluster k c).unowned = s.unowned := rfl
@[simp] theorem State.setCluster_routes (s : State) (k : Nat) (c : Cluster) : (s.setCluster k c).routes = s.routes := rfl
@[simp] theorem State.setCluster_leases (s : State) (k : Nat) (c : Cluster) : (s.setCluster k c).leases = s.leases := rfl
@[simp] theorem State.setCluster_poolOut (s : State) (k : Nat) (c : Cluster) : (s.setCluster k c).poolOut = s.poolOut := rfl
@[simp] theorem State.setCluster_pctl (s : State) (k : Nat) (c : Cluster) : (s.setCluster k c).pctl = s.pctl := rfl
@[simp] theorem State.setCluster_side (s : State) (k : Nat) (c : Cluster) : (s.setCluster k c).side = s.side := rfl
@[simp] theorem State.setCluster_refusals (s : State) (k : Nat) (c : Cluster) : (s.setCluster k c).refusals = s.refusals := rfl
@[simp] theorem State.setCluster_cmds (s : State) (k : Nat) (c : Cluster) : (s.setCluster k c).cmds = s.cmds := rfl
@[simp] theorem State.setCluster_runs (s : State) (k : Nat) (c : Cluster) : (s.setCluster k c).runs = s.runs := rfl
@[simp] theorem State.setCluster_exprs (s : State) (k : Nat) (c : Cluster) : (s.setCluster k c).exprs = s.exprs := rfl
@[simp] theorem State.setCluster_locks (s : State) (k : Nat) (c : Cluster) : (s.setCluster k c).locks = s.locks := rfl
@[simp] theorem State.setCluster_berr (s : State) (k : Nat) (c : Cluster) : (s.setCluster k c).berr = s.berr := rfl
@[simp] theorem State.setCluster_refreshes (s : State) (k : Nat) (c : Cluster) : (s.setCluster k c).refreshes = s.refreshes := rfl
@[simp] theorem State.setCluster_late (s : State) (k : Nat) (c : Cluster) : (s.setCluster k c).late = s.late := rfl
@[simp] theorem State.setCluster_sas (s : State) (k : Nat) (c : Cluster) : (s.setCluster k c).sas = s.sas := rfl
@[simp] theorem State.setCluster_adds (s : State) (k : Nat) (c : Cluster) : (s.setCluster k c).adds = s.adds := rfl
@[simp] theorem State.setCluster_cores (s : State) (k : Nat) (c : Cluster) : (s.setCluster k c).cores = s.cores := rfl
@[simp] theorem State.setCluster_watch (s : State) (k : Nat) (c : Cluster) : (s.setCluster k c).watch = s.watch := rfl
@[simp] theorem State.setCluster_held (s : State) (k : Nat) (c : Cluster) : (s.setCluster k c).held = s.held := rfl
@[simp] theorem State.setCluster_launches (s : State) (k : Nat) (c : Cluster) : (s.setCluster k c).launches = s.launches := rfl
@[simp] theorem State.setCluster_handles (s : State) (k : Nat) (c : Cluster) : (s.setCluster k c).handles = s.handles := rfl
@[simp] theorem State.setCluster_queues (s : State) (k : Nat) (c : Cluster) : (s.setCluster k c).queues = s.queues := rfl
@[simp] theorem State.setCluster_gangrdy (s : State) (k : Nat) (c : Cluster) : (s.setCluster k c).gangrdy = s.gangrdy := rfl
@[simp] theorem State.setCluster_served (s : State) (k : Nat) (c : Cluster) : (s.setCluster k c).served = s.served := rfl
@[simp] theorem State.setCluster_evbase (s : State) (k : Nat) (c : Cluster) : (s.setCluster k c).evbase = s.evbase := rfl
@[simp] theorem State.setCluster_evhead (s : State) (k : Nat) (c : Cluster) : (s.setCluster k c).evhead = s.evhead := rfl
@[simp] theorem State.setCluster_evtail (s : State) (k : Nat) (c : Cluster) : (s.setCluster k c).evtail = s.evtail := rfl
@[simp] theorem State.setCluster_evseq (s : State) (k : Nat) (c : Cluster) : (s.setCluster k c).evseq = s.evseq := rfl
@[simp] theorem State.setCluster_waitswap (s : State) (k : Nat) (c : Cluster) : (s.setCluster k c).waitswap = s.waitswap := rfl
@[simp] theorem State.setCluster_ctxscope (s : State) (k : Nat) (c : Cluster) : (s.setCluster k c).ctxscope = s.ctxscope := rfl
@[simp] theorem State.setCluster_powermode (s : State) (k : Nat) (c : Cluster) : (s.setCluster k c).powermode = s.powermode := rfl
@[simp] theorem State.setCluster_railcmd (s : State) (k : Nat) (c : Cluster) : (s.setCluster k c).railcmd = s.railcmd := rfl
@[simp] theorem State.setCluster_hard (s : State) (k : Nat) (c : Cluster) : (s.setCluster k c).hard = s.hard := rfl
@[simp] theorem State.setCluster_limit (s : State) (k : Nat) (c : Cluster) : (s.setCluster k c).limit = s.limit := rfl
@[simp] theorem State.setCluster_clustersel (s : State) (k : Nat) (c : Cluster) : (s.setCluster k c).clustersel = s.clustersel := rfl
@[simp] theorem State.setCluster_towers (s : State) (k : Nat) (c : Cluster) : (s.setCluster k c).towers = s.towers := rfl
@[simp] theorem State.setCluster_mons (s : State) (k : Nat) (c : Cluster) : (s.setCluster k c).mons = s.mons := rfl
@[simp] theorem State.setCluster_alarmcfg (s : State) (k : Nat) (c : Cluster) : (s.setCluster k c).alarmcfg = s.alarmcfg := rfl
@[simp] theorem State.setCluster_halted (s : State) (k : Nat) (c : Cluster) : (s.setCluster k c).halted = s.halted := rfl
@[simp] theorem State.setCluster_escrow (s : State) (k : Nat) (c : Cluster) : (s.setCluster k c).escrow = s.escrow := rfl
@[simp] theorem State.setCluster_boot (s : State) (k : Nat) (c : Cluster) : (s.setCluster k c).boot = s.boot := rfl
@[simp] theorem State.setCluster_time (s : State) (k : Nat) (c : Cluster) : (s.setCluster k c).time = s.time := rfl
@[simp] theorem State.setCluster_agenda (s : State) (k : Nat) (c : Cluster) : (s.setCluster k c).agenda = s.agenda := rfl
@[simp] theorem State.setCluster_turn (s : State) (k : Nat) (c : Cluster) : (s.setCluster k c).turn = s.turn := rfl
@[simp] theorem State.setCluster_reply (s : State) (k : Nat) (c : Cluster) : (s.setCluster k c).reply = s.reply := rfl
@[simp] theorem State.setCluster_fresh (s : State) (k : Nat) (c : Cluster) : (s.setCluster k c).fresh = s.fresh := rfl
@[simp] theorem State.setCluster_nextTask (s : State) (k : Nat) (c : Cluster) : (s.setCluster k c).nextTask = s.nextTask := rfl
@[simp] theorem State.setCluster_nextTeam (s : State) (k : Nat) (c : Cluster) : (s.setCluster k c).nextTeam = s.nextTeam := rfl
@[simp] theorem State.setCluster_nextLaunch (s : State) (k : Nat) (c : Cluster) : (s.setCluster k c).nextLaunch = s.nextLaunch := rfl
@[simp] theorem State.setCluster_nextCmd (s : State) (k : Nat) (c : Cluster) : (s.setCluster k c).nextCmd = s.nextCmd := rfl
@[simp] theorem State.setCluster_nextOrder (s : State) (k : Nat) (c : Cluster) : (s.setCluster k c).nextOrder = s.nextOrder := rfl
@[simp] theorem State.setCluster_nextTag (s : State) (k : Nat) (c : Cluster) : (s.setCluster k c).nextTag = s.nextTag := rfl
@[simp] theorem State.setCluster_nextWorld (s : State) (k : Nat) (c : Cluster) : (s.setCluster k c).nextWorld = s.nextWorld := rfl
@[simp] theorem State.setCluster_nextSide (s : State) (k : Nat) (c : Cluster) : (s.setCluster k c).nextSide = s.nextSide := rfl

@[simp] theorem State.setQueue_live (s : State) (q : Nat) (c : Queue) : (s.setQueue q c).live = s.live := rfl
@[simp] theorem State.setQueue_me (s : State) (q : Nat) (c : Queue) : (s.setQueue q c).me = s.me := rfl
@[simp] theorem State.setQueue_team (s : State) (q : Nat) (c : Queue) : (s.setQueue q c).team = s.team := rfl
@[simp] theorem State.setQueue_peers (s : State) (q : Nat) (c : Queue) : (s.setQueue q c).peers = s.peers := rfl
@[simp] theorem State.setQueue_parked (s : State) (q : Nat) (c : Queue) : (s.setQueue q c).parked = s.parked := rfl
@[simp] theorem State.setQueue_past (s : State) (q : Nat) (c : Queue) : (s.setQueue q c).past = s.past := rfl
@[simp] theorem State.setQueue_mem (s : State) (q : Nat) (c : Queue) : (s.setQueue q c).mem = s.mem := rfl
@[simp] theorem State.setQueue_under (s : State) (q : Nat) (c : Queue) : (s.setQueue q c).under = s.under := rfl
@[simp] theorem State.setQueue_ver (s : State) (q : Nat) (c : Queue) : (s.setQueue q c).ver = s.ver := rfl
@[simp] theorem State.setQueue_ue (s : State) (q : Nat) (c : Queue) : (s.setQueue q c).ue = s.ue := rfl
@[simp] theorem State.setQueue_ce (s : State) (q : Nat) (c : Queue) : (s.setQueue q c).ce = s.ce := rfl
@[simp] theorem State.setQueue_verUe (s : State) (q : Nat) (c : Queue) : (s.setQueue q c).verUe = s.verUe := rfl
@[simp] theorem State.setQueue_rowPoison (s : State) (q : Nat) (c : Queue) : (s.setQueue q c).rowPoison = s.rowPoison := rfl
@[simp] theorem State.setQueue_raws (s : State) (q : Nat) (c : Queue) : (s.setQueue q c).raws = s.raws := rfl
@[simp] theorem State.setQueue_worlds (s : State) (q : Nat) (c : Queue) : (s.setQueue q c).worlds = s.worlds := rfl
@[simp] theorem State.setQueue_forks (s : State) (q : Nat) (c : Queue) : (s.setQueue q c).forks = s.forks := rfl
@[simp] theorem State.setQueue_crows (s : State) (q : Nat) (c : Queue) : (s.setQueue q c).crows = s.crows := rfl
@[simp] theorem State.setQueue_tlb (s : State) (q : Nat) (c : Queue) : (s.setQueue q c).tlb = s.tlb := rfl
@[simp] theorem State.setQueue_ptroots (s : State) (q : Nat) (c : Queue) : (s.setQueue q c).ptroots = s.ptroots := rfl
@[simp] theorem State.setQueue_ptsel (s : State) (q : Nat) (c : Queue) : (s.setQueue q c).ptsel = s.ptsel := rfl
@[simp] theorem State.setQueue_code (s : State) (q : Nat) (c : Queue) : (s.setQueue q c).code = s.code := rfl
@[simp] theorem State.setQueue_l1 (s : State) (q : Nat) (c : Queue) : (s.setQueue q c).l1 = s.l1 := rfl
@[simp] theorem State.setQueue_unowned (s : State) (q : Nat) (c : Queue) : (s.setQueue q c).unowned = s.unowned := rfl
@[simp] theorem State.setQueue_routes (s : State) (q : Nat) (c : Queue) : (s.setQueue q c).routes = s.routes := rfl
@[simp] theorem State.setQueue_leases (s : State) (q : Nat) (c : Queue) : (s.setQueue q c).leases = s.leases := rfl
@[simp] theorem State.setQueue_poolOut (s : State) (q : Nat) (c : Queue) : (s.setQueue q c).poolOut = s.poolOut := rfl
@[simp] theorem State.setQueue_pctl (s : State) (q : Nat) (c : Queue) : (s.setQueue q c).pctl = s.pctl := rfl
@[simp] theorem State.setQueue_side (s : State) (q : Nat) (c : Queue) : (s.setQueue q c).side = s.side := rfl
@[simp] theorem State.setQueue_refusals (s : State) (q : Nat) (c : Queue) : (s.setQueue q c).refusals = s.refusals := rfl
@[simp] theorem State.setQueue_cmds (s : State) (q : Nat) (c : Queue) : (s.setQueue q c).cmds = s.cmds := rfl
@[simp] theorem State.setQueue_runs (s : State) (q : Nat) (c : Queue) : (s.setQueue q c).runs = s.runs := rfl
@[simp] theorem State.setQueue_exprs (s : State) (q : Nat) (c : Queue) : (s.setQueue q c).exprs = s.exprs := rfl
@[simp] theorem State.setQueue_locks (s : State) (q : Nat) (c : Queue) : (s.setQueue q c).locks = s.locks := rfl
@[simp] theorem State.setQueue_berr (s : State) (q : Nat) (c : Queue) : (s.setQueue q c).berr = s.berr := rfl
@[simp] theorem State.setQueue_refreshes (s : State) (q : Nat) (c : Queue) : (s.setQueue q c).refreshes = s.refreshes := rfl
@[simp] theorem State.setQueue_late (s : State) (q : Nat) (c : Queue) : (s.setQueue q c).late = s.late := rfl
@[simp] theorem State.setQueue_sas (s : State) (q : Nat) (c : Queue) : (s.setQueue q c).sas = s.sas := rfl
@[simp] theorem State.setQueue_adds (s : State) (q : Nat) (c : Queue) : (s.setQueue q c).adds = s.adds := rfl
@[simp] theorem State.setQueue_cores (s : State) (q : Nat) (c : Queue) : (s.setQueue q c).cores = s.cores := rfl
@[simp] theorem State.setQueue_watch (s : State) (q : Nat) (c : Queue) : (s.setQueue q c).watch = s.watch := rfl
@[simp] theorem State.setQueue_held (s : State) (q : Nat) (c : Queue) : (s.setQueue q c).held = s.held := rfl
@[simp] theorem State.setQueue_launches (s : State) (q : Nat) (c : Queue) : (s.setQueue q c).launches = s.launches := rfl
@[simp] theorem State.setQueue_handles (s : State) (q : Nat) (c : Queue) : (s.setQueue q c).handles = s.handles := rfl
@[simp] theorem State.setQueue_gangrdy (s : State) (q : Nat) (c : Queue) : (s.setQueue q c).gangrdy = s.gangrdy := rfl
@[simp] theorem State.setQueue_served (s : State) (q : Nat) (c : Queue) : (s.setQueue q c).served = s.served := rfl
@[simp] theorem State.setQueue_evbase (s : State) (q : Nat) (c : Queue) : (s.setQueue q c).evbase = s.evbase := rfl
@[simp] theorem State.setQueue_evhead (s : State) (q : Nat) (c : Queue) : (s.setQueue q c).evhead = s.evhead := rfl
@[simp] theorem State.setQueue_evtail (s : State) (q : Nat) (c : Queue) : (s.setQueue q c).evtail = s.evtail := rfl
@[simp] theorem State.setQueue_evseq (s : State) (q : Nat) (c : Queue) : (s.setQueue q c).evseq = s.evseq := rfl
@[simp] theorem State.setQueue_waitswap (s : State) (q : Nat) (c : Queue) : (s.setQueue q c).waitswap = s.waitswap := rfl
@[simp] theorem State.setQueue_ctxscope (s : State) (q : Nat) (c : Queue) : (s.setQueue q c).ctxscope = s.ctxscope := rfl
@[simp] theorem State.setQueue_powermode (s : State) (q : Nat) (c : Queue) : (s.setQueue q c).powermode = s.powermode := rfl
@[simp] theorem State.setQueue_railcmd (s : State) (q : Nat) (c : Queue) : (s.setQueue q c).railcmd = s.railcmd := rfl
@[simp] theorem State.setQueue_hard (s : State) (q : Nat) (c : Queue) : (s.setQueue q c).hard = s.hard := rfl
@[simp] theorem State.setQueue_limit (s : State) (q : Nat) (c : Queue) : (s.setQueue q c).limit = s.limit := rfl
@[simp] theorem State.setQueue_clustersel (s : State) (q : Nat) (c : Queue) : (s.setQueue q c).clustersel = s.clustersel := rfl
@[simp] theorem State.setQueue_clusters (s : State) (q : Nat) (c : Queue) : (s.setQueue q c).clusters = s.clusters := rfl
@[simp] theorem State.setQueue_towers (s : State) (q : Nat) (c : Queue) : (s.setQueue q c).towers = s.towers := rfl
@[simp] theorem State.setQueue_mons (s : State) (q : Nat) (c : Queue) : (s.setQueue q c).mons = s.mons := rfl
@[simp] theorem State.setQueue_alarmcfg (s : State) (q : Nat) (c : Queue) : (s.setQueue q c).alarmcfg = s.alarmcfg := rfl
@[simp] theorem State.setQueue_halted (s : State) (q : Nat) (c : Queue) : (s.setQueue q c).halted = s.halted := rfl
@[simp] theorem State.setQueue_escrow (s : State) (q : Nat) (c : Queue) : (s.setQueue q c).escrow = s.escrow := rfl
@[simp] theorem State.setQueue_boot (s : State) (q : Nat) (c : Queue) : (s.setQueue q c).boot = s.boot := rfl
@[simp] theorem State.setQueue_time (s : State) (q : Nat) (c : Queue) : (s.setQueue q c).time = s.time := rfl
@[simp] theorem State.setQueue_agenda (s : State) (q : Nat) (c : Queue) : (s.setQueue q c).agenda = s.agenda := rfl
@[simp] theorem State.setQueue_turn (s : State) (q : Nat) (c : Queue) : (s.setQueue q c).turn = s.turn := rfl
@[simp] theorem State.setQueue_reply (s : State) (q : Nat) (c : Queue) : (s.setQueue q c).reply = s.reply := rfl
@[simp] theorem State.setQueue_fresh (s : State) (q : Nat) (c : Queue) : (s.setQueue q c).fresh = s.fresh := rfl
@[simp] theorem State.setQueue_nextTask (s : State) (q : Nat) (c : Queue) : (s.setQueue q c).nextTask = s.nextTask := rfl
@[simp] theorem State.setQueue_nextTeam (s : State) (q : Nat) (c : Queue) : (s.setQueue q c).nextTeam = s.nextTeam := rfl
@[simp] theorem State.setQueue_nextLaunch (s : State) (q : Nat) (c : Queue) : (s.setQueue q c).nextLaunch = s.nextLaunch := rfl
@[simp] theorem State.setQueue_nextCmd (s : State) (q : Nat) (c : Queue) : (s.setQueue q c).nextCmd = s.nextCmd := rfl
@[simp] theorem State.setQueue_nextOrder (s : State) (q : Nat) (c : Queue) : (s.setQueue q c).nextOrder = s.nextOrder := rfl
@[simp] theorem State.setQueue_nextTag (s : State) (q : Nat) (c : Queue) : (s.setQueue q c).nextTag = s.nextTag := rfl
@[simp] theorem State.setQueue_nextWorld (s : State) (q : Nat) (c : Queue) : (s.setQueue q c).nextWorld = s.nextWorld := rfl
@[simp] theorem State.setQueue_nextSide (s : State) (q : Nat) (c : Queue) : (s.setQueue q c).nextSide = s.nextSide := rfl

@[simp] theorem State.setTower_live (s : State) (t : Nat) (v : Tower) : (s.setTower t v).live = s.live := rfl
@[simp] theorem State.setTower_me (s : State) (t : Nat) (v : Tower) : (s.setTower t v).me = s.me := rfl
@[simp] theorem State.setTower_team (s : State) (t : Nat) (v : Tower) : (s.setTower t v).team = s.team := rfl
@[simp] theorem State.setTower_peers (s : State) (t : Nat) (v : Tower) : (s.setTower t v).peers = s.peers := rfl
@[simp] theorem State.setTower_parked (s : State) (t : Nat) (v : Tower) : (s.setTower t v).parked = s.parked := rfl
@[simp] theorem State.setTower_past (s : State) (t : Nat) (v : Tower) : (s.setTower t v).past = s.past := rfl
@[simp] theorem State.setTower_mem (s : State) (t : Nat) (v : Tower) : (s.setTower t v).mem = s.mem := rfl
@[simp] theorem State.setTower_under (s : State) (t : Nat) (v : Tower) : (s.setTower t v).under = s.under := rfl
@[simp] theorem State.setTower_ver (s : State) (t : Nat) (v : Tower) : (s.setTower t v).ver = s.ver := rfl
@[simp] theorem State.setTower_ue (s : State) (t : Nat) (v : Tower) : (s.setTower t v).ue = s.ue := rfl
@[simp] theorem State.setTower_ce (s : State) (t : Nat) (v : Tower) : (s.setTower t v).ce = s.ce := rfl
@[simp] theorem State.setTower_verUe (s : State) (t : Nat) (v : Tower) : (s.setTower t v).verUe = s.verUe := rfl
@[simp] theorem State.setTower_rowPoison (s : State) (t : Nat) (v : Tower) : (s.setTower t v).rowPoison = s.rowPoison := rfl
@[simp] theorem State.setTower_raws (s : State) (t : Nat) (v : Tower) : (s.setTower t v).raws = s.raws := rfl
@[simp] theorem State.setTower_worlds (s : State) (t : Nat) (v : Tower) : (s.setTower t v).worlds = s.worlds := rfl
@[simp] theorem State.setTower_forks (s : State) (t : Nat) (v : Tower) : (s.setTower t v).forks = s.forks := rfl
@[simp] theorem State.setTower_crows (s : State) (t : Nat) (v : Tower) : (s.setTower t v).crows = s.crows := rfl
@[simp] theorem State.setTower_tlb (s : State) (t : Nat) (v : Tower) : (s.setTower t v).tlb = s.tlb := rfl
@[simp] theorem State.setTower_ptroots (s : State) (t : Nat) (v : Tower) : (s.setTower t v).ptroots = s.ptroots := rfl
@[simp] theorem State.setTower_ptsel (s : State) (t : Nat) (v : Tower) : (s.setTower t v).ptsel = s.ptsel := rfl
@[simp] theorem State.setTower_code (s : State) (t : Nat) (v : Tower) : (s.setTower t v).code = s.code := rfl
@[simp] theorem State.setTower_l1 (s : State) (t : Nat) (v : Tower) : (s.setTower t v).l1 = s.l1 := rfl
@[simp] theorem State.setTower_unowned (s : State) (t : Nat) (v : Tower) : (s.setTower t v).unowned = s.unowned := rfl
@[simp] theorem State.setTower_routes (s : State) (t : Nat) (v : Tower) : (s.setTower t v).routes = s.routes := rfl
@[simp] theorem State.setTower_leases (s : State) (t : Nat) (v : Tower) : (s.setTower t v).leases = s.leases := rfl
@[simp] theorem State.setTower_poolOut (s : State) (t : Nat) (v : Tower) : (s.setTower t v).poolOut = s.poolOut := rfl
@[simp] theorem State.setTower_pctl (s : State) (t : Nat) (v : Tower) : (s.setTower t v).pctl = s.pctl := rfl
@[simp] theorem State.setTower_side (s : State) (t : Nat) (v : Tower) : (s.setTower t v).side = s.side := rfl
@[simp] theorem State.setTower_refusals (s : State) (t : Nat) (v : Tower) : (s.setTower t v).refusals = s.refusals := rfl
@[simp] theorem State.setTower_cmds (s : State) (t : Nat) (v : Tower) : (s.setTower t v).cmds = s.cmds := rfl
@[simp] theorem State.setTower_runs (s : State) (t : Nat) (v : Tower) : (s.setTower t v).runs = s.runs := rfl
@[simp] theorem State.setTower_exprs (s : State) (t : Nat) (v : Tower) : (s.setTower t v).exprs = s.exprs := rfl
@[simp] theorem State.setTower_locks (s : State) (t : Nat) (v : Tower) : (s.setTower t v).locks = s.locks := rfl
@[simp] theorem State.setTower_berr (s : State) (t : Nat) (v : Tower) : (s.setTower t v).berr = s.berr := rfl
@[simp] theorem State.setTower_refreshes (s : State) (t : Nat) (v : Tower) : (s.setTower t v).refreshes = s.refreshes := rfl
@[simp] theorem State.setTower_late (s : State) (t : Nat) (v : Tower) : (s.setTower t v).late = s.late := rfl
@[simp] theorem State.setTower_sas (s : State) (t : Nat) (v : Tower) : (s.setTower t v).sas = s.sas := rfl
@[simp] theorem State.setTower_adds (s : State) (t : Nat) (v : Tower) : (s.setTower t v).adds = s.adds := rfl
@[simp] theorem State.setTower_cores (s : State) (t : Nat) (v : Tower) : (s.setTower t v).cores = s.cores := rfl
@[simp] theorem State.setTower_watch (s : State) (t : Nat) (v : Tower) : (s.setTower t v).watch = s.watch := rfl
@[simp] theorem State.setTower_held (s : State) (t : Nat) (v : Tower) : (s.setTower t v).held = s.held := rfl
@[simp] theorem State.setTower_launches (s : State) (t : Nat) (v : Tower) : (s.setTower t v).launches = s.launches := rfl
@[simp] theorem State.setTower_handles (s : State) (t : Nat) (v : Tower) : (s.setTower t v).handles = s.handles := rfl
@[simp] theorem State.setTower_queues (s : State) (t : Nat) (v : Tower) : (s.setTower t v).queues = s.queues := rfl
@[simp] theorem State.setTower_gangrdy (s : State) (t : Nat) (v : Tower) : (s.setTower t v).gangrdy = s.gangrdy := rfl
@[simp] theorem State.setTower_served (s : State) (t : Nat) (v : Tower) : (s.setTower t v).served = s.served := rfl
@[simp] theorem State.setTower_evbase (s : State) (t : Nat) (v : Tower) : (s.setTower t v).evbase = s.evbase := rfl
@[simp] theorem State.setTower_evhead (s : State) (t : Nat) (v : Tower) : (s.setTower t v).evhead = s.evhead := rfl
@[simp] theorem State.setTower_evtail (s : State) (t : Nat) (v : Tower) : (s.setTower t v).evtail = s.evtail := rfl
@[simp] theorem State.setTower_evseq (s : State) (t : Nat) (v : Tower) : (s.setTower t v).evseq = s.evseq := rfl
@[simp] theorem State.setTower_waitswap (s : State) (t : Nat) (v : Tower) : (s.setTower t v).waitswap = s.waitswap := rfl
@[simp] theorem State.setTower_ctxscope (s : State) (t : Nat) (v : Tower) : (s.setTower t v).ctxscope = s.ctxscope := rfl
@[simp] theorem State.setTower_powermode (s : State) (t : Nat) (v : Tower) : (s.setTower t v).powermode = s.powermode := rfl
@[simp] theorem State.setTower_railcmd (s : State) (t : Nat) (v : Tower) : (s.setTower t v).railcmd = s.railcmd := rfl
@[simp] theorem State.setTower_hard (s : State) (t : Nat) (v : Tower) : (s.setTower t v).hard = s.hard := rfl
@[simp] theorem State.setTower_limit (s : State) (t : Nat) (v : Tower) : (s.setTower t v).limit = s.limit := rfl
@[simp] theorem State.setTower_clustersel (s : State) (t : Nat) (v : Tower) : (s.setTower t v).clustersel = s.clustersel := rfl
@[simp] theorem State.setTower_clusters (s : State) (t : Nat) (v : Tower) : (s.setTower t v).clusters = s.clusters := rfl
@[simp] theorem State.setTower_mons (s : State) (t : Nat) (v : Tower) : (s.setTower t v).mons = s.mons := rfl
@[simp] theorem State.setTower_alarmcfg (s : State) (t : Nat) (v : Tower) : (s.setTower t v).alarmcfg = s.alarmcfg := rfl
@[simp] theorem State.setTower_halted (s : State) (t : Nat) (v : Tower) : (s.setTower t v).halted = s.halted := rfl
@[simp] theorem State.setTower_escrow (s : State) (t : Nat) (v : Tower) : (s.setTower t v).escrow = s.escrow := rfl
@[simp] theorem State.setTower_boot (s : State) (t : Nat) (v : Tower) : (s.setTower t v).boot = s.boot := rfl
@[simp] theorem State.setTower_time (s : State) (t : Nat) (v : Tower) : (s.setTower t v).time = s.time := rfl
@[simp] theorem State.setTower_agenda (s : State) (t : Nat) (v : Tower) : (s.setTower t v).agenda = s.agenda := rfl
@[simp] theorem State.setTower_turn (s : State) (t : Nat) (v : Tower) : (s.setTower t v).turn = s.turn := rfl
@[simp] theorem State.setTower_reply (s : State) (t : Nat) (v : Tower) : (s.setTower t v).reply = s.reply := rfl
@[simp] theorem State.setTower_fresh (s : State) (t : Nat) (v : Tower) : (s.setTower t v).fresh = s.fresh := rfl
@[simp] theorem State.setTower_nextTask (s : State) (t : Nat) (v : Tower) : (s.setTower t v).nextTask = s.nextTask := rfl
@[simp] theorem State.setTower_nextTeam (s : State) (t : Nat) (v : Tower) : (s.setTower t v).nextTeam = s.nextTeam := rfl
@[simp] theorem State.setTower_nextLaunch (s : State) (t : Nat) (v : Tower) : (s.setTower t v).nextLaunch = s.nextLaunch := rfl
@[simp] theorem State.setTower_nextCmd (s : State) (t : Nat) (v : Tower) : (s.setTower t v).nextCmd = s.nextCmd := rfl
@[simp] theorem State.setTower_nextOrder (s : State) (t : Nat) (v : Tower) : (s.setTower t v).nextOrder = s.nextOrder := rfl
@[simp] theorem State.setTower_nextTag (s : State) (t : Nat) (v : Tower) : (s.setTower t v).nextTag = s.nextTag := rfl
@[simp] theorem State.setTower_nextWorld (s : State) (t : Nat) (v : Tower) : (s.setTower t v).nextWorld = s.nextWorld := rfl
@[simp] theorem State.setTower_nextSide (s : State) (t : Nat) (v : Tower) : (s.setTower t v).nextSide = s.nextSide := rfl

@[simp] theorem State.setPctl_live (s : State) (t : Nat) (v : PageCtl) : (s.setPctl t v).live = s.live := rfl
@[simp] theorem State.setPctl_me (s : State) (t : Nat) (v : PageCtl) : (s.setPctl t v).me = s.me := rfl
@[simp] theorem State.setPctl_team (s : State) (t : Nat) (v : PageCtl) : (s.setPctl t v).team = s.team := rfl
@[simp] theorem State.setPctl_peers (s : State) (t : Nat) (v : PageCtl) : (s.setPctl t v).peers = s.peers := rfl
@[simp] theorem State.setPctl_parked (s : State) (t : Nat) (v : PageCtl) : (s.setPctl t v).parked = s.parked := rfl
@[simp] theorem State.setPctl_past (s : State) (t : Nat) (v : PageCtl) : (s.setPctl t v).past = s.past := rfl
@[simp] theorem State.setPctl_mem (s : State) (t : Nat) (v : PageCtl) : (s.setPctl t v).mem = s.mem := rfl
@[simp] theorem State.setPctl_under (s : State) (t : Nat) (v : PageCtl) : (s.setPctl t v).under = s.under := rfl
@[simp] theorem State.setPctl_ver (s : State) (t : Nat) (v : PageCtl) : (s.setPctl t v).ver = s.ver := rfl
@[simp] theorem State.setPctl_ue (s : State) (t : Nat) (v : PageCtl) : (s.setPctl t v).ue = s.ue := rfl
@[simp] theorem State.setPctl_ce (s : State) (t : Nat) (v : PageCtl) : (s.setPctl t v).ce = s.ce := rfl
@[simp] theorem State.setPctl_verUe (s : State) (t : Nat) (v : PageCtl) : (s.setPctl t v).verUe = s.verUe := rfl
@[simp] theorem State.setPctl_rowPoison (s : State) (t : Nat) (v : PageCtl) : (s.setPctl t v).rowPoison = s.rowPoison := rfl
@[simp] theorem State.setPctl_raws (s : State) (t : Nat) (v : PageCtl) : (s.setPctl t v).raws = s.raws := rfl
@[simp] theorem State.setPctl_worlds (s : State) (t : Nat) (v : PageCtl) : (s.setPctl t v).worlds = s.worlds := rfl
@[simp] theorem State.setPctl_forks (s : State) (t : Nat) (v : PageCtl) : (s.setPctl t v).forks = s.forks := rfl
@[simp] theorem State.setPctl_crows (s : State) (t : Nat) (v : PageCtl) : (s.setPctl t v).crows = s.crows := rfl
@[simp] theorem State.setPctl_tlb (s : State) (t : Nat) (v : PageCtl) : (s.setPctl t v).tlb = s.tlb := rfl
@[simp] theorem State.setPctl_ptroots (s : State) (t : Nat) (v : PageCtl) : (s.setPctl t v).ptroots = s.ptroots := rfl
@[simp] theorem State.setPctl_ptsel (s : State) (t : Nat) (v : PageCtl) : (s.setPctl t v).ptsel = s.ptsel := rfl
@[simp] theorem State.setPctl_code (s : State) (t : Nat) (v : PageCtl) : (s.setPctl t v).code = s.code := rfl
@[simp] theorem State.setPctl_l1 (s : State) (t : Nat) (v : PageCtl) : (s.setPctl t v).l1 = s.l1 := rfl
@[simp] theorem State.setPctl_unowned (s : State) (t : Nat) (v : PageCtl) : (s.setPctl t v).unowned = s.unowned := rfl
@[simp] theorem State.setPctl_routes (s : State) (t : Nat) (v : PageCtl) : (s.setPctl t v).routes = s.routes := rfl
@[simp] theorem State.setPctl_leases (s : State) (t : Nat) (v : PageCtl) : (s.setPctl t v).leases = s.leases := rfl
@[simp] theorem State.setPctl_poolOut (s : State) (t : Nat) (v : PageCtl) : (s.setPctl t v).poolOut = s.poolOut := rfl
@[simp] theorem State.setPctl_side (s : State) (t : Nat) (v : PageCtl) : (s.setPctl t v).side = s.side := rfl
@[simp] theorem State.setPctl_refusals (s : State) (t : Nat) (v : PageCtl) : (s.setPctl t v).refusals = s.refusals := rfl
@[simp] theorem State.setPctl_cmds (s : State) (t : Nat) (v : PageCtl) : (s.setPctl t v).cmds = s.cmds := rfl
@[simp] theorem State.setPctl_runs (s : State) (t : Nat) (v : PageCtl) : (s.setPctl t v).runs = s.runs := rfl
@[simp] theorem State.setPctl_exprs (s : State) (t : Nat) (v : PageCtl) : (s.setPctl t v).exprs = s.exprs := rfl
@[simp] theorem State.setPctl_locks (s : State) (t : Nat) (v : PageCtl) : (s.setPctl t v).locks = s.locks := rfl
@[simp] theorem State.setPctl_berr (s : State) (t : Nat) (v : PageCtl) : (s.setPctl t v).berr = s.berr := rfl
@[simp] theorem State.setPctl_refreshes (s : State) (t : Nat) (v : PageCtl) : (s.setPctl t v).refreshes = s.refreshes := rfl
@[simp] theorem State.setPctl_late (s : State) (t : Nat) (v : PageCtl) : (s.setPctl t v).late = s.late := rfl
@[simp] theorem State.setPctl_sas (s : State) (t : Nat) (v : PageCtl) : (s.setPctl t v).sas = s.sas := rfl
@[simp] theorem State.setPctl_adds (s : State) (t : Nat) (v : PageCtl) : (s.setPctl t v).adds = s.adds := rfl
@[simp] theorem State.setPctl_cores (s : State) (t : Nat) (v : PageCtl) : (s.setPctl t v).cores = s.cores := rfl
@[simp] theorem State.setPctl_watch (s : State) (t : Nat) (v : PageCtl) : (s.setPctl t v).watch = s.watch := rfl
@[simp] theorem State.setPctl_held (s : State) (t : Nat) (v : PageCtl) : (s.setPctl t v).held = s.held := rfl
@[simp] theorem State.setPctl_launches (s : State) (t : Nat) (v : PageCtl) : (s.setPctl t v).launches = s.launches := rfl
@[simp] theorem State.setPctl_handles (s : State) (t : Nat) (v : PageCtl) : (s.setPctl t v).handles = s.handles := rfl
@[simp] theorem State.setPctl_queues (s : State) (t : Nat) (v : PageCtl) : (s.setPctl t v).queues = s.queues := rfl
@[simp] theorem State.setPctl_gangrdy (s : State) (t : Nat) (v : PageCtl) : (s.setPctl t v).gangrdy = s.gangrdy := rfl
@[simp] theorem State.setPctl_served (s : State) (t : Nat) (v : PageCtl) : (s.setPctl t v).served = s.served := rfl
@[simp] theorem State.setPctl_evbase (s : State) (t : Nat) (v : PageCtl) : (s.setPctl t v).evbase = s.evbase := rfl
@[simp] theorem State.setPctl_evhead (s : State) (t : Nat) (v : PageCtl) : (s.setPctl t v).evhead = s.evhead := rfl
@[simp] theorem State.setPctl_evtail (s : State) (t : Nat) (v : PageCtl) : (s.setPctl t v).evtail = s.evtail := rfl
@[simp] theorem State.setPctl_evseq (s : State) (t : Nat) (v : PageCtl) : (s.setPctl t v).evseq = s.evseq := rfl
@[simp] theorem State.setPctl_waitswap (s : State) (t : Nat) (v : PageCtl) : (s.setPctl t v).waitswap = s.waitswap := rfl
@[simp] theorem State.setPctl_ctxscope (s : State) (t : Nat) (v : PageCtl) : (s.setPctl t v).ctxscope = s.ctxscope := rfl
@[simp] theorem State.setPctl_powermode (s : State) (t : Nat) (v : PageCtl) : (s.setPctl t v).powermode = s.powermode := rfl
@[simp] theorem State.setPctl_railcmd (s : State) (t : Nat) (v : PageCtl) : (s.setPctl t v).railcmd = s.railcmd := rfl
@[simp] theorem State.setPctl_hard (s : State) (t : Nat) (v : PageCtl) : (s.setPctl t v).hard = s.hard := rfl
@[simp] theorem State.setPctl_limit (s : State) (t : Nat) (v : PageCtl) : (s.setPctl t v).limit = s.limit := rfl
@[simp] theorem State.setPctl_clustersel (s : State) (t : Nat) (v : PageCtl) : (s.setPctl t v).clustersel = s.clustersel := rfl
@[simp] theorem State.setPctl_clusters (s : State) (t : Nat) (v : PageCtl) : (s.setPctl t v).clusters = s.clusters := rfl
@[simp] theorem State.setPctl_towers (s : State) (t : Nat) (v : PageCtl) : (s.setPctl t v).towers = s.towers := rfl
@[simp] theorem State.setPctl_mons (s : State) (t : Nat) (v : PageCtl) : (s.setPctl t v).mons = s.mons := rfl
@[simp] theorem State.setPctl_alarmcfg (s : State) (t : Nat) (v : PageCtl) : (s.setPctl t v).alarmcfg = s.alarmcfg := rfl
@[simp] theorem State.setPctl_halted (s : State) (t : Nat) (v : PageCtl) : (s.setPctl t v).halted = s.halted := rfl
@[simp] theorem State.setPctl_escrow (s : State) (t : Nat) (v : PageCtl) : (s.setPctl t v).escrow = s.escrow := rfl
@[simp] theorem State.setPctl_boot (s : State) (t : Nat) (v : PageCtl) : (s.setPctl t v).boot = s.boot := rfl
@[simp] theorem State.setPctl_time (s : State) (t : Nat) (v : PageCtl) : (s.setPctl t v).time = s.time := rfl
@[simp] theorem State.setPctl_agenda (s : State) (t : Nat) (v : PageCtl) : (s.setPctl t v).agenda = s.agenda := rfl
@[simp] theorem State.setPctl_turn (s : State) (t : Nat) (v : PageCtl) : (s.setPctl t v).turn = s.turn := rfl
@[simp] theorem State.setPctl_reply (s : State) (t : Nat) (v : PageCtl) : (s.setPctl t v).reply = s.reply := rfl
@[simp] theorem State.setPctl_fresh (s : State) (t : Nat) (v : PageCtl) : (s.setPctl t v).fresh = s.fresh := rfl
@[simp] theorem State.setPctl_nextTask (s : State) (t : Nat) (v : PageCtl) : (s.setPctl t v).nextTask = s.nextTask := rfl
@[simp] theorem State.setPctl_nextTeam (s : State) (t : Nat) (v : PageCtl) : (s.setPctl t v).nextTeam = s.nextTeam := rfl
@[simp] theorem State.setPctl_nextLaunch (s : State) (t : Nat) (v : PageCtl) : (s.setPctl t v).nextLaunch = s.nextLaunch := rfl
@[simp] theorem State.setPctl_nextCmd (s : State) (t : Nat) (v : PageCtl) : (s.setPctl t v).nextCmd = s.nextCmd := rfl
@[simp] theorem State.setPctl_nextOrder (s : State) (t : Nat) (v : PageCtl) : (s.setPctl t v).nextOrder = s.nextOrder := rfl
@[simp] theorem State.setPctl_nextTag (s : State) (t : Nat) (v : PageCtl) : (s.setPctl t v).nextTag = s.nextTag := rfl
@[simp] theorem State.setPctl_nextWorld (s : State) (t : Nat) (v : PageCtl) : (s.setPctl t v).nextWorld = s.nextWorld := rfl
@[simp] theorem State.setPctl_nextSide (s : State) (t : Nat) (v : PageCtl) : (s.setPctl t v).nextSide = s.nextSide := rfl

@[simp] theorem State.setLaunch_live (s : State) (l : Launch) : (s.setLaunch l).live = s.live := rfl
@[simp] theorem State.setLaunch_me (s : State) (l : Launch) : (s.setLaunch l).me = s.me := rfl
@[simp] theorem State.setLaunch_team (s : State) (l : Launch) : (s.setLaunch l).team = s.team := rfl
@[simp] theorem State.setLaunch_peers (s : State) (l : Launch) : (s.setLaunch l).peers = s.peers := rfl
@[simp] theorem State.setLaunch_parked (s : State) (l : Launch) : (s.setLaunch l).parked = s.parked := rfl
@[simp] theorem State.setLaunch_past (s : State) (l : Launch) : (s.setLaunch l).past = s.past := rfl
@[simp] theorem State.setLaunch_mem (s : State) (l : Launch) : (s.setLaunch l).mem = s.mem := rfl
@[simp] theorem State.setLaunch_under (s : State) (l : Launch) : (s.setLaunch l).under = s.under := rfl
@[simp] theorem State.setLaunch_ver (s : State) (l : Launch) : (s.setLaunch l).ver = s.ver := rfl
@[simp] theorem State.setLaunch_ue (s : State) (l : Launch) : (s.setLaunch l).ue = s.ue := rfl
@[simp] theorem State.setLaunch_ce (s : State) (l : Launch) : (s.setLaunch l).ce = s.ce := rfl
@[simp] theorem State.setLaunch_verUe (s : State) (l : Launch) : (s.setLaunch l).verUe = s.verUe := rfl
@[simp] theorem State.setLaunch_rowPoison (s : State) (l : Launch) : (s.setLaunch l).rowPoison = s.rowPoison := rfl
@[simp] theorem State.setLaunch_raws (s : State) (l : Launch) : (s.setLaunch l).raws = s.raws := rfl
@[simp] theorem State.setLaunch_worlds (s : State) (l : Launch) : (s.setLaunch l).worlds = s.worlds := rfl
@[simp] theorem State.setLaunch_forks (s : State) (l : Launch) : (s.setLaunch l).forks = s.forks := rfl
@[simp] theorem State.setLaunch_crows (s : State) (l : Launch) : (s.setLaunch l).crows = s.crows := rfl
@[simp] theorem State.setLaunch_tlb (s : State) (l : Launch) : (s.setLaunch l).tlb = s.tlb := rfl
@[simp] theorem State.setLaunch_ptroots (s : State) (l : Launch) : (s.setLaunch l).ptroots = s.ptroots := rfl
@[simp] theorem State.setLaunch_ptsel (s : State) (l : Launch) : (s.setLaunch l).ptsel = s.ptsel := rfl
@[simp] theorem State.setLaunch_code (s : State) (l : Launch) : (s.setLaunch l).code = s.code := rfl
@[simp] theorem State.setLaunch_l1 (s : State) (l : Launch) : (s.setLaunch l).l1 = s.l1 := rfl
@[simp] theorem State.setLaunch_unowned (s : State) (l : Launch) : (s.setLaunch l).unowned = s.unowned := rfl
@[simp] theorem State.setLaunch_routes (s : State) (l : Launch) : (s.setLaunch l).routes = s.routes := rfl
@[simp] theorem State.setLaunch_leases (s : State) (l : Launch) : (s.setLaunch l).leases = s.leases := rfl
@[simp] theorem State.setLaunch_poolOut (s : State) (l : Launch) : (s.setLaunch l).poolOut = s.poolOut := rfl
@[simp] theorem State.setLaunch_pctl (s : State) (l : Launch) : (s.setLaunch l).pctl = s.pctl := rfl
@[simp] theorem State.setLaunch_side (s : State) (l : Launch) : (s.setLaunch l).side = s.side := rfl
@[simp] theorem State.setLaunch_refusals (s : State) (l : Launch) : (s.setLaunch l).refusals = s.refusals := rfl
@[simp] theorem State.setLaunch_cmds (s : State) (l : Launch) : (s.setLaunch l).cmds = s.cmds := rfl
@[simp] theorem State.setLaunch_runs (s : State) (l : Launch) : (s.setLaunch l).runs = s.runs := rfl
@[simp] theorem State.setLaunch_exprs (s : State) (l : Launch) : (s.setLaunch l).exprs = s.exprs := rfl
@[simp] theorem State.setLaunch_locks (s : State) (l : Launch) : (s.setLaunch l).locks = s.locks := rfl
@[simp] theorem State.setLaunch_berr (s : State) (l : Launch) : (s.setLaunch l).berr = s.berr := rfl
@[simp] theorem State.setLaunch_refreshes (s : State) (l : Launch) : (s.setLaunch l).refreshes = s.refreshes := rfl
@[simp] theorem State.setLaunch_late (s : State) (l : Launch) : (s.setLaunch l).late = s.late := rfl
@[simp] theorem State.setLaunch_sas (s : State) (l : Launch) : (s.setLaunch l).sas = s.sas := rfl
@[simp] theorem State.setLaunch_adds (s : State) (l : Launch) : (s.setLaunch l).adds = s.adds := rfl
@[simp] theorem State.setLaunch_cores (s : State) (l : Launch) : (s.setLaunch l).cores = s.cores := rfl
@[simp] theorem State.setLaunch_watch (s : State) (l : Launch) : (s.setLaunch l).watch = s.watch := rfl
@[simp] theorem State.setLaunch_held (s : State) (l : Launch) : (s.setLaunch l).held = s.held := rfl
@[simp] theorem State.setLaunch_handles (s : State) (l : Launch) : (s.setLaunch l).handles = s.handles := rfl
@[simp] theorem State.setLaunch_queues (s : State) (l : Launch) : (s.setLaunch l).queues = s.queues := rfl
@[simp] theorem State.setLaunch_gangrdy (s : State) (l : Launch) : (s.setLaunch l).gangrdy = s.gangrdy := rfl
@[simp] theorem State.setLaunch_served (s : State) (l : Launch) : (s.setLaunch l).served = s.served := rfl
@[simp] theorem State.setLaunch_evbase (s : State) (l : Launch) : (s.setLaunch l).evbase = s.evbase := rfl
@[simp] theorem State.setLaunch_evhead (s : State) (l : Launch) : (s.setLaunch l).evhead = s.evhead := rfl
@[simp] theorem State.setLaunch_evtail (s : State) (l : Launch) : (s.setLaunch l).evtail = s.evtail := rfl
@[simp] theorem State.setLaunch_evseq (s : State) (l : Launch) : (s.setLaunch l).evseq = s.evseq := rfl
@[simp] theorem State.setLaunch_waitswap (s : State) (l : Launch) : (s.setLaunch l).waitswap = s.waitswap := rfl
@[simp] theorem State.setLaunch_ctxscope (s : State) (l : Launch) : (s.setLaunch l).ctxscope = s.ctxscope := rfl
@[simp] theorem State.setLaunch_powermode (s : State) (l : Launch) : (s.setLaunch l).powermode = s.powermode := rfl
@[simp] theorem State.setLaunch_railcmd (s : State) (l : Launch) : (s.setLaunch l).railcmd = s.railcmd := rfl
@[simp] theorem State.setLaunch_hard (s : State) (l : Launch) : (s.setLaunch l).hard = s.hard := rfl
@[simp] theorem State.setLaunch_limit (s : State) (l : Launch) : (s.setLaunch l).limit = s.limit := rfl
@[simp] theorem State.setLaunch_clustersel (s : State) (l : Launch) : (s.setLaunch l).clustersel = s.clustersel := rfl
@[simp] theorem State.setLaunch_clusters (s : State) (l : Launch) : (s.setLaunch l).clusters = s.clusters := rfl
@[simp] theorem State.setLaunch_towers (s : State) (l : Launch) : (s.setLaunch l).towers = s.towers := rfl
@[simp] theorem State.setLaunch_mons (s : State) (l : Launch) : (s.setLaunch l).mons = s.mons := rfl
@[simp] theorem State.setLaunch_alarmcfg (s : State) (l : Launch) : (s.setLaunch l).alarmcfg = s.alarmcfg := rfl
@[simp] theorem State.setLaunch_halted (s : State) (l : Launch) : (s.setLaunch l).halted = s.halted := rfl
@[simp] theorem State.setLaunch_escrow (s : State) (l : Launch) : (s.setLaunch l).escrow = s.escrow := rfl
@[simp] theorem State.setLaunch_boot (s : State) (l : Launch) : (s.setLaunch l).boot = s.boot := rfl
@[simp] theorem State.setLaunch_time (s : State) (l : Launch) : (s.setLaunch l).time = s.time := rfl
@[simp] theorem State.setLaunch_agenda (s : State) (l : Launch) : (s.setLaunch l).agenda = s.agenda := rfl
@[simp] theorem State.setLaunch_turn (s : State) (l : Launch) : (s.setLaunch l).turn = s.turn := rfl
@[simp] theorem State.setLaunch_reply (s : State) (l : Launch) : (s.setLaunch l).reply = s.reply := rfl
@[simp] theorem State.setLaunch_fresh (s : State) (l : Launch) : (s.setLaunch l).fresh = s.fresh := rfl
@[simp] theorem State.setLaunch_nextTask (s : State) (l : Launch) : (s.setLaunch l).nextTask = s.nextTask := rfl
@[simp] theorem State.setLaunch_nextTeam (s : State) (l : Launch) : (s.setLaunch l).nextTeam = s.nextTeam := rfl
@[simp] theorem State.setLaunch_nextLaunch (s : State) (l : Launch) : (s.setLaunch l).nextLaunch = s.nextLaunch := rfl
@[simp] theorem State.setLaunch_nextCmd (s : State) (l : Launch) : (s.setLaunch l).nextCmd = s.nextCmd := rfl
@[simp] theorem State.setLaunch_nextOrder (s : State) (l : Launch) : (s.setLaunch l).nextOrder = s.nextOrder := rfl
@[simp] theorem State.setLaunch_nextTag (s : State) (l : Launch) : (s.setLaunch l).nextTag = s.nextTag := rfl
@[simp] theorem State.setLaunch_nextWorld (s : State) (l : Launch) : (s.setLaunch l).nextWorld = s.nextWorld := rfl
@[simp] theorem State.setLaunch_nextSide (s : State) (l : Launch) : (s.setLaunch l).nextSide = s.nextSide := rfl

@[simp] theorem State.setWorld_live (s : State) (w : World) : (s.setWorld w).live = s.live := rfl
@[simp] theorem State.setWorld_me (s : State) (w : World) : (s.setWorld w).me = s.me := rfl
@[simp] theorem State.setWorld_team (s : State) (w : World) : (s.setWorld w).team = s.team := rfl
@[simp] theorem State.setWorld_peers (s : State) (w : World) : (s.setWorld w).peers = s.peers := rfl
@[simp] theorem State.setWorld_parked (s : State) (w : World) : (s.setWorld w).parked = s.parked := rfl
@[simp] theorem State.setWorld_past (s : State) (w : World) : (s.setWorld w).past = s.past := rfl
@[simp] theorem State.setWorld_mem (s : State) (w : World) : (s.setWorld w).mem = s.mem := rfl
@[simp] theorem State.setWorld_under (s : State) (w : World) : (s.setWorld w).under = s.under := rfl
@[simp] theorem State.setWorld_ver (s : State) (w : World) : (s.setWorld w).ver = s.ver := rfl
@[simp] theorem State.setWorld_ue (s : State) (w : World) : (s.setWorld w).ue = s.ue := rfl
@[simp] theorem State.setWorld_ce (s : State) (w : World) : (s.setWorld w).ce = s.ce := rfl
@[simp] theorem State.setWorld_verUe (s : State) (w : World) : (s.setWorld w).verUe = s.verUe := rfl
@[simp] theorem State.setWorld_rowPoison (s : State) (w : World) : (s.setWorld w).rowPoison = s.rowPoison := rfl
@[simp] theorem State.setWorld_raws (s : State) (w : World) : (s.setWorld w).raws = s.raws := rfl
@[simp] theorem State.setWorld_forks (s : State) (w : World) : (s.setWorld w).forks = s.forks := rfl
@[simp] theorem State.setWorld_crows (s : State) (w : World) : (s.setWorld w).crows = s.crows := rfl
@[simp] theorem State.setWorld_tlb (s : State) (w : World) : (s.setWorld w).tlb = s.tlb := rfl
@[simp] theorem State.setWorld_ptroots (s : State) (w : World) : (s.setWorld w).ptroots = s.ptroots := rfl
@[simp] theorem State.setWorld_ptsel (s : State) (w : World) : (s.setWorld w).ptsel = s.ptsel := rfl
@[simp] theorem State.setWorld_code (s : State) (w : World) : (s.setWorld w).code = s.code := rfl
@[simp] theorem State.setWorld_l1 (s : State) (w : World) : (s.setWorld w).l1 = s.l1 := rfl
@[simp] theorem State.setWorld_unowned (s : State) (w : World) : (s.setWorld w).unowned = s.unowned := rfl
@[simp] theorem State.setWorld_routes (s : State) (w : World) : (s.setWorld w).routes = s.routes := rfl
@[simp] theorem State.setWorld_leases (s : State) (w : World) : (s.setWorld w).leases = s.leases := rfl
@[simp] theorem State.setWorld_poolOut (s : State) (w : World) : (s.setWorld w).poolOut = s.poolOut := rfl
@[simp] theorem State.setWorld_pctl (s : State) (w : World) : (s.setWorld w).pctl = s.pctl := rfl
@[simp] theorem State.setWorld_side (s : State) (w : World) : (s.setWorld w).side = s.side := rfl
@[simp] theorem State.setWorld_refusals (s : State) (w : World) : (s.setWorld w).refusals = s.refusals := rfl
@[simp] theorem State.setWorld_cmds (s : State) (w : World) : (s.setWorld w).cmds = s.cmds := rfl
@[simp] theorem State.setWorld_runs (s : State) (w : World) : (s.setWorld w).runs = s.runs := rfl
@[simp] theorem State.setWorld_exprs (s : State) (w : World) : (s.setWorld w).exprs = s.exprs := rfl
@[simp] theorem State.setWorld_locks (s : State) (w : World) : (s.setWorld w).locks = s.locks := rfl
@[simp] theorem State.setWorld_berr (s : State) (w : World) : (s.setWorld w).berr = s.berr := rfl
@[simp] theorem State.setWorld_refreshes (s : State) (w : World) : (s.setWorld w).refreshes = s.refreshes := rfl
@[simp] theorem State.setWorld_late (s : State) (w : World) : (s.setWorld w).late = s.late := rfl
@[simp] theorem State.setWorld_sas (s : State) (w : World) : (s.setWorld w).sas = s.sas := rfl
@[simp] theorem State.setWorld_adds (s : State) (w : World) : (s.setWorld w).adds = s.adds := rfl
@[simp] theorem State.setWorld_cores (s : State) (w : World) : (s.setWorld w).cores = s.cores := rfl
@[simp] theorem State.setWorld_watch (s : State) (w : World) : (s.setWorld w).watch = s.watch := rfl
@[simp] theorem State.setWorld_held (s : State) (w : World) : (s.setWorld w).held = s.held := rfl
@[simp] theorem State.setWorld_launches (s : State) (w : World) : (s.setWorld w).launches = s.launches := rfl
@[simp] theorem State.setWorld_handles (s : State) (w : World) : (s.setWorld w).handles = s.handles := rfl
@[simp] theorem State.setWorld_queues (s : State) (w : World) : (s.setWorld w).queues = s.queues := rfl
@[simp] theorem State.setWorld_gangrdy (s : State) (w : World) : (s.setWorld w).gangrdy = s.gangrdy := rfl
@[simp] theorem State.setWorld_served (s : State) (w : World) : (s.setWorld w).served = s.served := rfl
@[simp] theorem State.setWorld_evbase (s : State) (w : World) : (s.setWorld w).evbase = s.evbase := rfl
@[simp] theorem State.setWorld_evhead (s : State) (w : World) : (s.setWorld w).evhead = s.evhead := rfl
@[simp] theorem State.setWorld_evtail (s : State) (w : World) : (s.setWorld w).evtail = s.evtail := rfl
@[simp] theorem State.setWorld_evseq (s : State) (w : World) : (s.setWorld w).evseq = s.evseq := rfl
@[simp] theorem State.setWorld_waitswap (s : State) (w : World) : (s.setWorld w).waitswap = s.waitswap := rfl
@[simp] theorem State.setWorld_ctxscope (s : State) (w : World) : (s.setWorld w).ctxscope = s.ctxscope := rfl
@[simp] theorem State.setWorld_powermode (s : State) (w : World) : (s.setWorld w).powermode = s.powermode := rfl
@[simp] theorem State.setWorld_railcmd (s : State) (w : World) : (s.setWorld w).railcmd = s.railcmd := rfl
@[simp] theorem State.setWorld_hard (s : State) (w : World) : (s.setWorld w).hard = s.hard := rfl
@[simp] theorem State.setWorld_limit (s : State) (w : World) : (s.setWorld w).limit = s.limit := rfl
@[simp] theorem State.setWorld_clustersel (s : State) (w : World) : (s.setWorld w).clustersel = s.clustersel := rfl
@[simp] theorem State.setWorld_clusters (s : State) (w : World) : (s.setWorld w).clusters = s.clusters := rfl
@[simp] theorem State.setWorld_towers (s : State) (w : World) : (s.setWorld w).towers = s.towers := rfl
@[simp] theorem State.setWorld_mons (s : State) (w : World) : (s.setWorld w).mons = s.mons := rfl
@[simp] theorem State.setWorld_alarmcfg (s : State) (w : World) : (s.setWorld w).alarmcfg = s.alarmcfg := rfl
@[simp] theorem State.setWorld_halted (s : State) (w : World) : (s.setWorld w).halted = s.halted := rfl
@[simp] theorem State.setWorld_escrow (s : State) (w : World) : (s.setWorld w).escrow = s.escrow := rfl
@[simp] theorem State.setWorld_boot (s : State) (w : World) : (s.setWorld w).boot = s.boot := rfl
@[simp] theorem State.setWorld_time (s : State) (w : World) : (s.setWorld w).time = s.time := rfl
@[simp] theorem State.setWorld_agenda (s : State) (w : World) : (s.setWorld w).agenda = s.agenda := rfl
@[simp] theorem State.setWorld_turn (s : State) (w : World) : (s.setWorld w).turn = s.turn := rfl
@[simp] theorem State.setWorld_reply (s : State) (w : World) : (s.setWorld w).reply = s.reply := rfl
@[simp] theorem State.setWorld_fresh (s : State) (w : World) : (s.setWorld w).fresh = s.fresh := rfl
@[simp] theorem State.setWorld_nextTask (s : State) (w : World) : (s.setWorld w).nextTask = s.nextTask := rfl
@[simp] theorem State.setWorld_nextTeam (s : State) (w : World) : (s.setWorld w).nextTeam = s.nextTeam := rfl
@[simp] theorem State.setWorld_nextLaunch (s : State) (w : World) : (s.setWorld w).nextLaunch = s.nextLaunch := rfl
@[simp] theorem State.setWorld_nextCmd (s : State) (w : World) : (s.setWorld w).nextCmd = s.nextCmd := rfl
@[simp] theorem State.setWorld_nextOrder (s : State) (w : World) : (s.setWorld w).nextOrder = s.nextOrder := rfl
@[simp] theorem State.setWorld_nextTag (s : State) (w : World) : (s.setWorld w).nextTag = s.nextTag := rfl
@[simp] theorem State.setWorld_nextWorld (s : State) (w : World) : (s.setWorld w).nextWorld = s.nextWorld := rfl
@[simp] theorem State.setWorld_nextSide (s : State) (w : World) : (s.setWorld w).nextSide = s.nextSide := rfl

/-! ### Reading a unit after setting one -/

@[simp] theorem State.coreAt_setCore (s : State) (k j : Nat) (c : CoreSt) :
    (s.setCore k c).coreAt j = if j = k then c else s.coreAt j := tableGet_tableSet ..
@[simp] theorem State.clusterAt_setCluster (s : State) (k j : Nat) (c : Cluster) :
    (s.setCluster k c).clusterAt j = if j = k then c else s.clusterAt j := tableGet_tableSet ..
@[simp] theorem State.queueAt_setQueue (s : State) (q j : Nat) (c : Queue) :
    (s.setQueue q c).queueAt j = if j = q then c else s.queueAt j := tableGet_tableSet ..
@[simp] theorem State.towerAt_setTower (s : State) (t j : Nat) (v : Tower) :
    (s.setTower t v).towerAt j = if j % 8 = t % 8 then v else s.towerAt j := by
  unfold State.towerAt State.setTower
  by_cases h : j % 8 = t % 8
  · simp [h]
  · simp [h, Vector.getElem_set_ne, Ne.symm h]
@[simp] theorem State.pctlAt_setPctl (s : State) (t j : Nat) (v : PageCtl) :
    (s.setPctl t v).pctlAt j = if j % 8 = t % 8 then v else s.pctlAt j := by
  unfold State.pctlAt State.setPctl
  by_cases h : j % 8 = t % 8
  · simp [h]
  · simp [h, Vector.getElem_set_ne, Ne.symm h]

end Sys2Proof.Machine
end

