-- ==== Sys2Proof/Laws/Pages.lean ====
section
/-! SUPPORT. What holding an access on a page changes (R149, R152, R304, R305). -/

namespace Sys2Proof.Machine

/-- Posting requests changes the ring in memory and the controller alone. -/
theorem drainRing_only (n : Nat) (s : State) (t : Nat) : ∃ m p, s.drainRing t n = { s with mem := m, pctl := p } := by
  induction n generalizing s with
  | zero => exact ⟨s.mem, s.pctl, rfl⟩
  | succ n ih =>
    unfold State.drainRing
    dsimp only
    split
    · split
      · exact ⟨s.mem, s.pctl, rfl⟩
      · generalize Memory.writeBytes s.mem _ _ = m'
        generalize hx : State.setPctl _ _ _ = s1
        obtain ⟨m, p, h⟩ := ih s1
        refine ⟨m, p, ?_⟩
        rw [h, ← hx]; rfl
    · exact ⟨s.mem, s.pctl, rfl⟩

/-- A request in a controller stays there, posted or not. -/
theorem drainRing_keeps (n : Nat) (s : State) (t : Nat) (q : PageReq) (h : q ∈ (s.pctlAt t).reqs) :
    ∃ q', q' ∈ ((s.drainRing t n).pctlAt t).reqs ∧ q'.tag = q.tag ∧ q'.page = q.page ∧ q'.asid = q.asid ∧ q'.rd = q.rd ∧ q'.wr = q.wr := by
  induction n generalizing s q with
  | zero => exact ⟨q, h, rfl, rfl, rfl, rfl, rfl⟩
  | succ n ih =>
    unfold State.drainRing
    dsimp only
    split
    · split
      · exact ⟨q, h, rfl, rfl, rfl, rfl, rfl⟩
      · next size r hs hr hf =>
        refine (ih (q := if q.tag == r.tag then { q with posted := true } else q) _ ?_).imp fun q' h' => ⟨h'.1, ?_⟩
        · simp only [State.pctlAt_setPctl, if_true]
          exact List.mem_map.2 ⟨q, h, rfl⟩
        · obtain ⟨-, h1, h2, h3, h4, h5⟩ := h'
          split at h1 <;> split at h2 <;> split at h3 <;> split at h4 <;> split at h5 <;> exact ⟨h1, h2, h3, h4, h5⟩
    · exact ⟨q, h, rfl, rfl, rfl, rfl, rfl⟩

/-- A held access has a request with its page: only the controllers, their rings and the tag counter change. -/
theorem postPage_spec (s : State) (asid : BitVec 16) (a : Acc) (va : Word) (h : (s.pctlAt (towerOf va)).reqs.length < 1024) :
    ∃ g m p t, s.postPage asid a va = (some g, { s with mem := m, pctl := p, nextTag := t }) ∧
      ∃ q, q ∈ ((s.postPage asid a va).2.pctlAt (towerOf va)).reqs ∧ q.tag = g ∧ q.page = pageOf va ∧ q.asid = asid ∧
        (a.rd = true → a.wr = false → q.rd = true) ∧ (a.wr = true → q.wr = true) := by
  unfold State.postPage
  dsimp only
  split
  · next r hf =>
    have hm := List.mem_of_find?_eq_some hf
    have hp := List.find?_some hf
    simp only [Bool.and_eq_true, beq_iff_eq] at hp
    refine ⟨r.tag, s.mem, _, s.nextTag, rfl, { r with waiters := r.waiters + 1, rd := r.rd || (a.rd && !a.wr), wr := r.wr || a.wr, fx := r.fx || a.fx }, ?_, rfl, hp.1, hp.2, ?_, ?_⟩
    · simp only [State.pctlAt_setPctl, if_true]
      exact List.mem_map.2 ⟨r, hm, by simp⟩
    · intro h h'; simp [h, h']
    · intro h; simp [h]
  · rw [if_neg (by omega)]
    obtain ⟨r, hr⟩ : ∃ r : PageReq, r = { tag := BitVec.ofNat 64 s.nextTag, page := pageOf va, asid := asid, waiters := 1, rd := a.rd && !a.wr, wr := a.wr, fx := a.fx, posted := false } := ⟨_, rfl⟩
    rw [← hr]
    obtain ⟨s1, hs1⟩ : ∃ s1, s1 = ({ s with nextTag := s.nextTag + 1 } : State).setPctl (towerOf va) { s.pctlAt (towerOf va) with reqs := (s.pctlAt (towerOf va)).reqs ++ [r] } := ⟨_, rfl⟩
    have hq : r ∈ (s1.pctlAt (towerOf va)).reqs := by
      rw [hs1]; simp only [State.pctlAt_setPctl, if_true]
      exact List.mem_append_right _ (List.mem_singleton.2 rfl)
    obtain ⟨m, p, hf⟩ := drainRing_only 1024 s1 (towerOf va)
    obtain ⟨q', h1, h2, h3, h4, h5, h6⟩ := drainRing_keeps 1024 s1 (towerOf va) r hq
    refine ⟨BitVec.ofNat 64 s.nextTag, m, p, s.nextTag + 1, ?_, q', by rw [← hs1]; exact h1, by rw [h2, hr], by rw [h3, hr], by rw [h4, hr], fun h h' => by rw [h5, hr]; simp [h, h'], fun h => by rw [h6, hr]; exact h⟩
    rw [← hs1, hf, hs1]
    rfl

end Sys2Proof.Machine
end

