-- ==== Sys2Proof/Laws/PerInstr.lean ====
section
/-! SUPPORT. Statements made per instruction. RoundTrip: decoding what an instruction encodes to gives it back (R90 to
R110); an instruction without a word satisfies it as it stands. -/

namespace Sys2Proof.Laws.RoundTrip

set_option linter.unusedSimpArgs false
set_option Elab.async false

/-- The statement about one instruction. -/
def Statement (i : Instr) : Prop := RoundTrips i

/-- A scalar word. -/
theorem of_scalar {i : Instr} {w : BitVec 32} (he : encodeScalar i = some w)
    (hv : encodeVector i = none) (hr : encodeRow i = none) (hx : encodeExpr i = none)
    (h : i.wf = true → decodeScalar w = .ok i) : Statement i := by
  intro hw
  refine ⟨fun w' e => ?_, fun _ e => ?_, fun _ e => ?_, fun _ _ e => ?_⟩
  · rw [he] at e; cases e; exact h hw
  all_goals simp_all

/-- A shift word is read from its low half (R94). -/
theorem decodeScalar_shift (d a : Reg) (i : BitVec 16) :
    decodeScalar (encSI 0x05#6 (regBits d) (regBits a) i) = decodeShi d a i := by
  simp only [decodeScalar, SFields.of_encSI, low16_encSI, regOf_regBits]

/-- A vector word. -/
theorem of_vector {i : Instr} {g : VFields} {fl : Fl} (hs : encodeScalar i = none)
    (he : encodeVFields i = some g) (hr : encodeRow i = none) (hx : encodeExpr i = none)
    (hf : flOf g.fl = some fl) (h : vectorShape g fl = .ok i) : Statement i := by
  intro hw
  refine ⟨fun _ e => ?_, fun w' e => ?_, fun _ e => ?_, fun _ _ e => ?_⟩
  · simp_all
  · simp only [encodeVector, he, Option.map_some] at e
    cases e
    exact decodeVector_word hf h hw he
  all_goals simp_all

/-- A row-program word. -/
theorem of_row {i : Instr} {w : BitVec 32} (hs : encodeScalar i = none) (hv : encodeVector i = none)
    (he : encodeRow i = some w) (hx : encodeExpr i = none)
    (h : i.wf = true → decodeRow w = .ok i) : Statement i := by
  intro hw
  refine ⟨fun _ e => ?_, fun _ e => ?_, fun w' e => ?_, fun _ _ e => ?_⟩
  · simp_all
  · simp_all
  · rw [he] at e; cases e; exact h hw
  · simp_all

/-- An operator of an expression. -/
theorem of_expr {i : Instr} {bs : List Byte} (hs : encodeScalar i = none) (hv : encodeVector i = none)
    (hr : encodeRow i = none) (he : encodeExpr i = some bs)
    (h : i.wf = true → ∀ rest, decodeExpr (bs ++ rest) = .ok (i, rest)) : Statement i := by
  intro hw
  refine ⟨fun _ e => ?_, fun _ e => ?_, fun _ e => ?_, fun w' rest e => ?_⟩
  · simp_all
  · simp_all
  · simp_all
  · rw [he] at e; cases e; exact h hw rest

/-- An instruction that has no word. -/
theorem of_none {i : Instr} (hs : encodeScalar i = none) (hv : encodeVector i = none)
    (hr : encodeRow i = none) (hx : encodeExpr i = none) : Statement i := by
  intro _
  refine ⟨fun _ e => ?_, fun _ e => ?_, fun _ e => ?_, fun _ _ e => ?_⟩ <;> simp_all

theorem add (d : Reg) (a : Reg) (b : Reg) : Statement (.add d a b) :=
  of_scalar rfl rfl rfl rfl fun hw => by
    simp only [decodeScalar, SFields.of_encSR]; rfl
theorem addw (d : Reg) (a : Reg) (b : Reg) : Statement (.addw d a b) :=
  of_scalar rfl rfl rfl rfl fun hw => by
    simp only [decodeScalar, SFields.of_encSR]; rfl
theorem sub (d : Reg) (a : Reg) (b : Reg) : Statement (.sub d a b) :=
  of_scalar rfl rfl rfl rfl fun hw => by
    simp only [decodeScalar, SFields.of_encSR]; rfl
theorem subw (d : Reg) (a : Reg) (b : Reg) : Statement (.subw d a b) :=
  of_scalar rfl rfl rfl rfl fun hw => by
    simp only [decodeScalar, SFields.of_encSR]; rfl
theorem and (d : Reg) (a : Reg) (b : Reg) : Statement (.and d a b) :=
  of_scalar rfl rfl rfl rfl fun hw => by
    simp only [decodeScalar, SFields.of_encSR]; rfl
theorem or (d : Reg) (a : Reg) (b : Reg) : Statement (.or d a b) :=
  of_scalar rfl rfl rfl rfl fun hw => by
    simp only [decodeScalar, SFields.of_encSR]; rfl
theorem xor (d : Reg) (a : Reg) (b : Reg) : Statement (.xor d a b) :=
  of_scalar rfl rfl rfl rfl fun hw => by
    simp only [decodeScalar, SFields.of_encSR]; rfl
theorem sll (d : Reg) (a : Reg) (b : Reg) : Statement (.sll d a b) :=
  of_scalar rfl rfl rfl rfl fun hw => by
    simp only [decodeScalar, SFields.of_encSR]; rfl
theorem sllw (d : Reg) (a : Reg) (b : Reg) : Statement (.sllw d a b) :=
  of_scalar rfl rfl rfl rfl fun hw => by
    simp only [decodeScalar, SFields.of_encSR]; rfl
theorem srl (d : Reg) (a : Reg) (b : Reg) : Statement (.srl d a b) :=
  of_scalar rfl rfl rfl rfl fun hw => by
    simp only [decodeScalar, SFields.of_encSR]; rfl
theorem srlw (d : Reg) (a : Reg) (b : Reg) : Statement (.srlw d a b) :=
  of_scalar rfl rfl rfl rfl fun hw => by
    simp only [decodeScalar, SFields.of_encSR]; rfl
theorem sra (d : Reg) (a : Reg) (b : Reg) : Statement (.sra d a b) :=
  of_scalar rfl rfl rfl rfl fun hw => by
    simp only [decodeScalar, SFields.of_encSR]; rfl
theorem sraw (d : Reg) (a : Reg) (b : Reg) : Statement (.sraw d a b) :=
  of_scalar rfl rfl rfl rfl fun hw => by
    simp only [decodeScalar, SFields.of_encSR]; rfl
theorem slt (d : Reg) (a : Reg) (b : Reg) : Statement (.slt d a b) :=
  of_scalar rfl rfl rfl rfl fun hw => by
    simp only [decodeScalar, SFields.of_encSR]; rfl
theorem sltu (d : Reg) (a : Reg) (b : Reg) : Statement (.sltu d a b) :=
  of_scalar rfl rfl rfl rfl fun hw => by
    simp only [decodeScalar, SFields.of_encSR]; rfl
theorem min (d : Reg) (a : Reg) (b : Reg) : Statement (.min d a b) :=
  of_scalar rfl rfl rfl rfl fun hw => by
    simp only [decodeScalar, SFields.of_encSR]; rfl
theorem max (d : Reg) (a : Reg) (b : Reg) : Statement (.max d a b) :=
  of_scalar rfl rfl rfl rfl fun hw => by
    simp only [decodeScalar, SFields.of_encSR]; rfl
theorem minu (d : Reg) (a : Reg) (b : Reg) : Statement (.minu d a b) :=
  of_scalar rfl rfl rfl rfl fun hw => by
    simp only [decodeScalar, SFields.of_encSR]; rfl
theorem maxu (d : Reg) (a : Reg) (b : Reg) : Statement (.maxu d a b) :=
  of_scalar rfl rfl rfl rfl fun hw => by
    simp only [decodeScalar, SFields.of_encSR]; rfl
theorem clz (d : Reg) (a : Reg) : Statement (.clz d a) :=
  of_scalar rfl rfl rfl rfl fun hw => by
    simp only [decodeScalar, SFields.of_encSR]; rfl
theorem clzw (d : Reg) (a : Reg) : Statement (.clzw d a) :=
  of_scalar rfl rfl rfl rfl fun hw => by
    simp only [decodeScalar, SFields.of_encSR]; rfl
theorem popc (d : Reg) (a : Reg) : Statement (.popc d a) :=
  of_scalar rfl rfl rfl rfl fun hw => by
    simp only [decodeScalar, SFields.of_encSR]; rfl
theorem popcw (d : Reg) (a : Reg) : Statement (.popcw d a) :=
  of_scalar rfl rfl rfl rfl fun hw => by
    simp only [decodeScalar, SFields.of_encSR]; rfl
theorem sext (d : Reg) (a : Reg) (z : ExtSize) : Statement (.sext d a z) :=
  of_scalar rfl rfl rfl rfl fun _ => by
    simp only [decodeScalar, SFields.of_encSR]; cases z <;> rfl
theorem mul (d : Reg) (a : Reg) (b : Reg) : Statement (.mul d a b) :=
  of_scalar rfl rfl rfl rfl fun hw => by
    simp only [decodeScalar, SFields.of_encSR]; rfl
theorem mulw (d : Reg) (a : Reg) (b : Reg) : Statement (.mulw d a b) :=
  of_scalar rfl rfl rfl rfl fun hw => by
    simp only [decodeScalar, SFields.of_encSR]; rfl
theorem mulh (d : Reg) (a : Reg) (b : Reg) : Statement (.mulh d a b) :=
  of_scalar rfl rfl rfl rfl fun hw => by
    simp only [decodeScalar, SFields.of_encSR]; rfl
theorem mulhu (d : Reg) (a : Reg) (b : Reg) : Statement (.mulhu d a b) :=
  of_scalar rfl rfl rfl rfl fun hw => by
    simp only [decodeScalar, SFields.of_encSR]; rfl
theorem div (d : Reg) (a : Reg) (b : Reg) : Statement (.div d a b) :=
  of_scalar rfl rfl rfl rfl fun hw => by
    simp only [decodeScalar, SFields.of_encSR]; rfl
theorem divw (d : Reg) (a : Reg) (b : Reg) : Statement (.divw d a b) :=
  of_scalar rfl rfl rfl rfl fun hw => by
    simp only [decodeScalar, SFields.of_encSR]; rfl
theorem divu (d : Reg) (a : Reg) (b : Reg) : Statement (.divu d a b) :=
  of_scalar rfl rfl rfl rfl fun hw => by
    simp only [decodeScalar, SFields.of_encSR]; rfl
theorem divuw (d : Reg) (a : Reg) (b : Reg) : Statement (.divuw d a b) :=
  of_scalar rfl rfl rfl rfl fun hw => by
    simp only [decodeScalar, SFields.of_encSR]; rfl
theorem rem (d : Reg) (a : Reg) (b : Reg) : Statement (.rem d a b) :=
  of_scalar rfl rfl rfl rfl fun hw => by
    simp only [decodeScalar, SFields.of_encSR]; rfl
theorem remw (d : Reg) (a : Reg) (b : Reg) : Statement (.remw d a b) :=
  of_scalar rfl rfl rfl rfl fun hw => by
    simp only [decodeScalar, SFields.of_encSR]; rfl
theorem remu (d : Reg) (a : Reg) (b : Reg) : Statement (.remu d a b) :=
  of_scalar rfl rfl rfl rfl fun hw => by
    simp only [decodeScalar, SFields.of_encSR]; rfl
theorem remuw (d : Reg) (a : Reg) (b : Reg) : Statement (.remuw d a b) :=
  of_scalar rfl rfl rfl rfl fun hw => by
    simp only [decodeScalar, SFields.of_encSR]; rfl
theorem addi (d : Reg) (a : Reg) (i : BitVec 16) : Statement (.addi d a i) :=
  of_scalar rfl rfl rfl rfl fun hw => by
    simp only [decodeScalar, SFields.of_encSI, low16_encSI]; rfl
theorem andi (d : Reg) (a : Reg) (i : BitVec 16) : Statement (.andi d a i) :=
  of_scalar rfl rfl rfl rfl fun hw => by
    simp only [decodeScalar, SFields.of_encSI, low16_encSI]; rfl
theorem ori (d : Reg) (a : Reg) (i : BitVec 16) : Statement (.ori d a i) :=
  of_scalar rfl rfl rfl rfl fun hw => by
    simp only [decodeScalar, SFields.of_encSI, low16_encSI]; rfl
theorem xori (d : Reg) (a : Reg) (i : BitVec 16) : Statement (.xori d a i) :=
  of_scalar rfl rfl rfl rfl fun hw => by
    simp only [decodeScalar, SFields.of_encSI, low16_encSI]; rfl
theorem slti (d : Reg) (a : Reg) (i : BitVec 16) : Statement (.slti d a i) :=
  of_scalar rfl rfl rfl rfl fun hw => by
    simp only [decodeScalar, SFields.of_encSI, low16_encSI]; rfl
theorem slli (d : Reg) (a : Reg) (n : BitVec 6) : Statement (.slli d a n) :=
  of_scalar rfl rfl rfl rfl fun _ => (decodeScalar_shift d a _).trans (by
    have h := bits_shift6 0#3 n
    rw [decodeShi, h.1, h.2.1, h.2.2]; simp)
theorem srli (d : Reg) (a : Reg) (n : BitVec 6) : Statement (.srli d a n) :=
  of_scalar rfl rfl rfl rfl fun _ => (decodeScalar_shift d a _).trans (by
    have h := bits_shift6 2#3 n
    rw [decodeShi, h.1, h.2.1, h.2.2]; simp)
theorem srai (d : Reg) (a : Reg) (n : BitVec 6) : Statement (.srai d a n) :=
  of_scalar rfl rfl rfl rfl fun _ => (decodeScalar_shift d a _).trans (by
    have h := bits_shift6 4#3 n
    rw [decodeShi, h.1, h.2.1, h.2.2]; simp)
theorem slliw (d : Reg) (a : Reg) (n : BitVec 5) : Statement (.slliw d a n) :=
  of_scalar rfl rfl rfl rfl fun _ => (decodeScalar_shift d a _).trans (by
    have h := bits_shift5 1#3 n
    rw [decodeShi, h.1, h.2.1, h.2.2.1, h.2.2.2]; simp [accept])
theorem srliw (d : Reg) (a : Reg) (n : BitVec 5) : Statement (.srliw d a n) :=
  of_scalar rfl rfl rfl rfl fun _ => (decodeScalar_shift d a _).trans (by
    have h := bits_shift5 3#3 n
    rw [decodeShi, h.1, h.2.1, h.2.2.1, h.2.2.2]; simp [accept])
theorem sraiw (d : Reg) (a : Reg) (n : BitVec 5) : Statement (.sraiw d a n) :=
  of_scalar rfl rfl rfl rfl fun _ => (decodeScalar_shift d a _).trans (by
    have h := bits_shift5 5#3 n
    rw [decodeShi, h.1, h.2.1, h.2.2.1, h.2.2.2]; simp [accept])
theorem lui (d : Reg) (i : BitVec 16) : Statement (.lui d i) :=
  of_scalar rfl rfl rfl rfl fun hw => by
    simp only [decodeScalar, SFields.of_encSI, low16_encSI]; rfl
theorem auipc (d : Reg) (i : BitVec 16) : Statement (.auipc d i) :=
  of_scalar rfl rfl rfl rfl fun hw => by
    simp only [decodeScalar, SFields.of_encSI, low16_encSI]; rfl
theorem ld (d : Reg) (a : Reg) (s : BitVec 3) (h : Hint) (z : Size) (n : Bool) (o : BitVec 8) : Statement (.ld d a s h z n o) :=
  of_scalar rfl rfl rfl rfl fun hw => by
    have hw' : (!(n && z == .dword)) = true := hw
    simp only [decodeScalar, SFields.of_encSI, low16_encSI, decodeLd, bits_smBits, sizeOf_sizeBits, flagOf_flagBits,
      hintOf_hintBits, accept, hw', regOf_regBits, if_true]
theorem st (d : Reg) (a : Reg) (s : BitVec 3) (h : Hint) (z : Size) (o : BitVec 8) : Statement (.st d a s h z o) :=
  of_scalar rfl rfl rfl rfl fun _ => by
    simp [decodeScalar, SFields.of_encSI, low16_encSI, decodeSt, bits_smBits, flagBits, accept]
theorem amoswap (d : Reg) (a : Reg) (b : Reg) (sc : Scope) (o : AmoOrder) (w : Bool) : Statement (.amoswap d a b sc o w) :=
  of_scalar rfl rfl rfl rfl fun _ => by
    simp only [decodeScalar, decodeAmo, SFields.of_encSR, bits_amoFn, scopeOf_scopeBits, orderOf_orderBits,
      flagOf_flagBits, regOf_regBits]
theorem amoadd (d : Reg) (a : Reg) (b : Reg) (sc : Scope) (o : AmoOrder) (w : Bool) : Statement (.amoadd d a b sc o w) :=
  of_scalar rfl rfl rfl rfl fun _ => by
    simp only [decodeScalar, decodeAmo, SFields.of_encSR, bits_amoFn, scopeOf_scopeBits, orderOf_orderBits,
      flagOf_flagBits, regOf_regBits]
theorem amoand (d : Reg) (a : Reg) (b : Reg) (sc : Scope) (o : AmoOrder) (w : Bool) : Statement (.amoand d a b sc o w) :=
  of_scalar rfl rfl rfl rfl fun _ => by
    simp only [decodeScalar, decodeAmo, SFields.of_encSR, bits_amoFn, scopeOf_scopeBits, orderOf_orderBits,
      flagOf_flagBits, regOf_regBits]
theorem amoor (d : Reg) (a : Reg) (b : Reg) (sc : Scope) (o : AmoOrder) (w : Bool) : Statement (.amoor d a b sc o w) :=
  of_scalar rfl rfl rfl rfl fun _ => by
    simp only [decodeScalar, decodeAmo, SFields.of_encSR, bits_amoFn, scopeOf_scopeBits, orderOf_orderBits,
      flagOf_flagBits, regOf_regBits]
theorem amoxor (d : Reg) (a : Reg) (b : Reg) (sc : Scope) (o : AmoOrder) (w : Bool) : Statement (.amoxor d a b sc o w) :=
  of_scalar rfl rfl rfl rfl fun _ => by
    simp only [decodeScalar, decodeAmo, SFields.of_encSR, bits_amoFn, scopeOf_scopeBits, orderOf_orderBits,
      flagOf_flagBits, regOf_regBits]
theorem amomin (d : Reg) (a : Reg) (b : Reg) (sc : Scope) (o : AmoOrder) (w : Bool) : Statement (.amomin d a b sc o w) :=
  of_scalar rfl rfl rfl rfl fun _ => by
    simp only [decodeScalar, decodeAmo, SFields.of_encSR, bits_amoFn, scopeOf_scopeBits, orderOf_orderBits,
      flagOf_flagBits, regOf_regBits]
theorem amomax (d : Reg) (a : Reg) (b : Reg) (sc : Scope) (o : AmoOrder) (w : Bool) : Statement (.amomax d a b sc o w) :=
  of_scalar rfl rfl rfl rfl fun _ => by
    simp only [decodeScalar, decodeAmo, SFields.of_encSR, bits_amoFn, scopeOf_scopeBits, orderOf_orderBits,
      flagOf_flagBits, regOf_regBits]
theorem amominu (d : Reg) (a : Reg) (b : Reg) (sc : Scope) (o : AmoOrder) (w : Bool) : Statement (.amominu d a b sc o w) :=
  of_scalar rfl rfl rfl rfl fun _ => by
    simp only [decodeScalar, decodeAmo, SFields.of_encSR, bits_amoFn, scopeOf_scopeBits, orderOf_orderBits,
      flagOf_flagBits, regOf_regBits]
theorem amomaxu (d : Reg) (a : Reg) (b : Reg) (sc : Scope) (o : AmoOrder) (w : Bool) : Statement (.amomaxu d a b sc o w) :=
  of_scalar rfl rfl rfl rfl fun _ => by
    simp only [decodeScalar, decodeAmo, SFields.of_encSR, bits_amoFn, scopeOf_scopeBits, orderOf_orderBits,
      flagOf_flagBits, regOf_regBits]
theorem amocas (d : Reg) (a : Reg) (b : Reg) (sc : Scope) (o : AmoOrder) (w : Bool) : Statement (.amocas d a b sc o w) :=
  of_scalar rfl rfl rfl rfl fun _ => by
    simp only [decodeScalar, decodeAmo, SFields.of_encSR, bits_amoFn, scopeOf_scopeBits, orderOf_orderBits,
      flagOf_flagBits, regOf_regBits]
theorem beq (a : Reg) (b : Reg) (o : BitVec 13) : Statement (.beq a b o) :=
  of_scalar rfl rfl rfl rfl fun _ => by
    simp [decodeScalar, SFields.of_encSI, low16_encSI, decodeBcc, bits_low, bits_high]
theorem bne (a : Reg) (b : Reg) (o : BitVec 13) : Statement (.bne a b o) :=
  of_scalar rfl rfl rfl rfl fun _ => by
    simp [decodeScalar, SFields.of_encSI, low16_encSI, decodeBcc, bits_low, bits_high]
theorem blt (a : Reg) (b : Reg) (o : BitVec 13) : Statement (.blt a b o) :=
  of_scalar rfl rfl rfl rfl fun _ => by
    simp [decodeScalar, SFields.of_encSI, low16_encSI, decodeBcc, bits_low, bits_high]
theorem bge (a : Reg) (b : Reg) (o : BitVec 13) : Statement (.bge a b o) :=
  of_scalar rfl rfl rfl rfl fun _ => by
    simp [decodeScalar, SFields.of_encSI, low16_encSI, decodeBcc, bits_low, bits_high]
theorem bltu (a : Reg) (b : Reg) (o : BitVec 13) : Statement (.bltu a b o) :=
  of_scalar rfl rfl rfl rfl fun _ => by
    simp [decodeScalar, SFields.of_encSI, low16_encSI, decodeBcc, bits_low, bits_high]
theorem bgeu (a : Reg) (b : Reg) (o : BitVec 13) : Statement (.bgeu a b o) :=
  of_scalar rfl rfl rfl rfl fun _ => by
    simp [decodeScalar, SFields.of_encSI, low16_encSI, decodeBcc, bits_low, bits_high]
theorem j (o : BitVec 26) : Statement (.j o) :=
  of_scalar rfl rfl rfl rfl fun _ => by simp only [decodeScalar, op_of_encSJ, low26_encSJ]
theorem jal (o : BitVec 26) : Statement (.jal o) :=
  of_scalar rfl rfl rfl rfl fun _ => by simp only [decodeScalar, op_of_encSJ, low26_encSJ]
theorem jalr (d : Reg) (a : Reg) (i : BitVec 16) : Statement (.jalr d a i) :=
  of_scalar rfl rfl rfl rfl fun hw => by
    simp only [decodeScalar, SFields.of_encSI, low16_encSI]; rfl
theorem bmz (o : BitVec 26) : Statement (.bmz o) :=
  of_scalar rfl rfl rfl rfl fun _ => by simp only [decodeScalar, op_of_encSJ, low26_encSJ]
theorem fence (eng : Bool) (sa : Bool) (k : FenceKind) (sc : Scope) : Statement (.fence eng sa k sc) :=
  of_scalar rfl rfl rfl rfl fun _ => by
    simp [decodeScalar, SFields.of_encSR, decodeSync, bits_low, bits_high, accept, regOf]
theorem sbar (m : BitVec 8) : Statement (.sbar m) :=
  of_scalar rfl rfl rfl rfl fun hw => by
    have hm : m ≠ 0#8 := by simpa [Instr.wf] using hw
    simp [decodeScalar, SFields.of_encSR, decodeSync, bits_low, bits_high, accept, regOf, hm]
theorem ifence (d : Reg) (a : Reg) : Statement (.ifence d a) :=
  of_scalar rfl rfl rfl rfl fun hw => by
    simp only [decodeScalar, SFields.of_encSR]; rfl
theorem tbar : Statement (.tbar) :=
  of_scalar rfl rfl rfl rfl fun hw => by
    simp only [decodeScalar, SFields.of_encSR]; rfl
theorem tlwait (a : Reg) (b : Reg) (sc : Scope) : Statement (.tlwait a b sc) :=
  of_scalar rfl rfl rfl rfl fun _ => by
    simp [decodeScalar, SFields.of_encSR, decodeTl, bits_low, bits_high, accept, regOf_regBits]; rfl
theorem tlpoll (d : Reg) (a : Reg) (sc : Scope) : Statement (.tlpoll d a sc) :=
  of_scalar rfl rfl rfl rfl fun _ => by
    simp [decodeScalar, SFields.of_encSR, decodeTl, bits_low, bits_high, accept, regOf_regBits]; rfl
theorem tlsig (a : Reg) (b : Reg) (sc : Scope) : Statement (.tlsig a b sc) :=
  of_scalar rfl rfl rfl rfl fun _ => by
    simp [decodeScalar, SFields.of_encSR, decodeTl, bits_low, bits_high, accept, regOf_regBits]; rfl
theorem cpy (d : Reg) (a : Reg) (c : BitVec 3) : Statement (.cpy d a c) :=
  of_scalar rfl rfl rfl rfl fun hw => by
    have ha : engArgsOk a 1 = true := hw
    simp [decodeScalar, SFields.of_encSR, decodeEng, bits_low, bits_high, accept, ha]; rfl
theorem gthr (d : Reg) (a : Reg) (c : BitVec 3) : Statement (.gthr d a c) :=
  of_scalar rfl rfl rfl rfl fun hw => by
    have ha : engArgsOk a 5 = true := hw
    simp [decodeScalar, SFields.of_encSR, decodeEng, bits_low, bits_high, accept, ha]; rfl
theorem sctr (d : Reg) (a : Reg) (c : BitVec 3) : Statement (.sctr d a c) :=
  of_scalar rfl rfl rfl rfl fun hw => by
    have ha : engArgsOk a 5 = true := hw
    simp [decodeScalar, SFields.of_encSR, decodeEng, bits_low, bits_high, accept, ha]; rfl
theorem rpl (d : Reg) (a : Reg) (c : BitVec 3) : Statement (.rpl d a c) :=
  of_scalar rfl rfl rfl rfl fun hw => by
    have ha : engArgsOk a 4 = true := hw
    simp [decodeScalar, SFields.of_encSR, decodeEng, bits_low, bits_high, accept, ha]; rfl
theorem bxl (d : Reg) (a : Reg) (c : BitVec 3) : Statement (.bxl d a c) :=
  of_scalar rfl rfl rfl rfl fun hw => by
    have ha : engArgsOk a 6 = true := hw
    simp [decodeScalar, SFields.of_encSR, decodeEng, bits_low, bits_high, accept, ha]; rfl
theorem rlock (a : Reg) (b : Reg) : Statement (.rlock a b) :=
  of_scalar rfl rfl rfl rfl fun hw => by
    simp only [decodeScalar, SFields.of_encSR]; rfl
theorem runlock (a : Reg) (b : Reg) : Statement (.runlock a b) :=
  of_scalar rfl rfl rfl rfl fun hw => by
    simp only [decodeScalar, SFields.of_encSR]; rfl
theorem rfence (a : Reg) (b : Reg) : Statement (.rfence a b) :=
  of_scalar rfl rfl rfl rfl fun hw => by
    simp only [decodeScalar, SFields.of_encSR]; rfl
theorem spawn (d : Reg) (a : Reg) : Statement (.spawn d a) :=
  of_scalar rfl rfl rfl rfl fun hw => by
    simp only [decodeScalar, SFields.of_encSR]; rfl
theorem join (d : Reg) (a : Reg) : Statement (.join d a) :=
  of_scalar rfl rfl rfl rfl fun hw => by
    simp only [decodeScalar, SFields.of_encSR]; rfl
theorem tend : Statement (.tend) :=
  of_scalar rfl rfl rfl rfl fun hw => by
    simp only [decodeScalar, SFields.of_encSR]; rfl
theorem forkw (d : Reg) (a : Reg) (b : Reg) : Statement (.forkw d a b) :=
  of_scalar rfl rfl rfl rfl fun hw => by
    simp only [decodeScalar, SFields.of_encSR]; rfl
theorem wend (a : Reg) : Statement (.wend a) :=
  of_scalar rfl rfl rfl rfl fun hw => by
    simp only [decodeScalar, SFields.of_encSR]; rfl
theorem choose (a : Reg) : Statement (.choose a) :=
  of_scalar rfl rfl rfl rfl fun hw => by
    simp only [decodeScalar, SFields.of_encSR]; rfl
theorem chooseSelf : Statement (.chooseSelf) :=
  of_scalar rfl rfl rfl rfl fun hw => by
    simp only [decodeScalar, SFields.of_encSR]; rfl
theorem wabort : Statement (.wabort) :=
  of_scalar rfl rfl rfl rfl fun hw => by
    simp only [decodeScalar, SFields.of_encSR]; rfl
theorem wquery (d : Reg) (a : Reg) : Statement (.wquery d a) :=
  of_scalar rfl rfl rfl rfl fun hw => by
    simp only [decodeScalar, SFields.of_encSR]; rfl
theorem vfetch (d : Reg) (a : Reg) (b : Reg) : Statement (.vfetch d a b) :=
  of_scalar rfl rfl rfl rfl fun hw => by
    have hd : decide (d.val ≤ 28) = true := hw
    simp only [decodeScalar, SFields.of_encSR, decodeVctl, accept, regOf_regBits, hd, if_true]
theorem vsett (d : Reg) (a : Reg) : Statement (.vsett d a) :=
  of_scalar rfl rfl rfl rfl fun hw => by
    simp only [decodeScalar, SFields.of_encSR]; rfl
theorem vsetl (d : Reg) (a : Reg) : Statement (.vsetl d a) :=
  of_scalar rfl rfl rfl rfl fun hw => by
    simp only [decodeScalar, SFields.of_encSR]; rfl
theorem vsetlLq (d : Reg) : Statement (.vsetlLq d) :=
  of_scalar rfl rfl rfl rfl fun hw => by
    simp only [decodeScalar, SFields.of_encSR]; rfl
theorem tcfg (a : Reg) : Statement (.tcfg a) :=
  of_scalar rfl rfl rfl rfl fun hw => by
    simp only [decodeScalar, SFields.of_encSR]; rfl
theorem vdrain : Statement (.vdrain) :=
  of_scalar rfl rfl rfl rfl fun hw => by
    simp only [decodeScalar, SFields.of_encSR]; rfl
theorem unfs (a : Reg) : Statement (.unfs a) :=
  of_scalar rfl rfl rfl rfl fun hw => by
    simp only [decodeScalar, SFields.of_encSR]; rfl
theorem sacfg (n : Fin 16) (a : Reg) : Statement (.sacfg n a) :=
  of_scalar rfl rfl rfl rfl fun _ => by
    revert n; simp only [decodeScalar, SFields.of_encSR]; intro n
    have h := saOf_ofNat n
    simp [decodeSactl, h.1, Nat.not_le.mpr h.2]; intro _; rfl
theorem sasave (n : Fin 16) (a : Reg) : Statement (.sasave n a) :=
  of_scalar rfl rfl rfl rfl fun _ => by
    revert n; simp only [decodeScalar, SFields.of_encSR]; intro n
    have h := saOf_ofNat n
    simp [decodeSactl, h.1, Nat.not_le.mpr h.2]; intro _; rfl
theorem saload (n : Fin 16) (a : Reg) : Statement (.saload n a) :=
  of_scalar rfl rfl rfl rfl fun _ => by
    revert n; simp only [decodeScalar, SFields.of_encSR]; intro n
    have h := saOf_ofNat n
    simp [decodeSactl, h.1, Nat.not_le.mpr h.2]; intro _; rfl
theorem csrr (d : Reg) (s : BitVec 11) : Statement (.csrr d s) :=
  of_scalar rfl rfl rfl rfl fun hw => by
    simp only [decodeScalar, SFields.of_encSR]; rfl
theorem csrw (d : Reg) (a : Reg) (s : BitVec 11) : Statement (.csrw d a s) :=
  of_scalar rfl rfl rfl rfl fun hw => by
    simp only [decodeScalar, SFields.of_encSR]; rfl
theorem csrs (d : Reg) (a : Reg) (s : BitVec 11) : Statement (.csrs d a s) :=
  of_scalar rfl rfl rfl rfl fun hw => by
    simp only [decodeScalar, SFields.of_encSR]; rfl
theorem csrc (d : Reg) (a : Reg) (s : BitVec 11) : Statement (.csrc d a s) :=
  of_scalar rfl rfl rfl rfl fun hw => by
    simp only [decodeScalar, SFields.of_encSR]; rfl
theorem trap (c : BitVec 11) : Statement (.trap c) :=
  of_scalar rfl rfl rfl rfl fun hw => by
    simp only [decodeScalar, SFields.of_encSR]; rfl
theorem eret : Statement (.eret) :=
  of_scalar rfl rfl rfl rfl fun hw => by
    simp only [decodeScalar, SFields.of_encSR]; rfl
theorem railsel (d : Reg) (a : Reg) : Statement (.railsel d a) :=
  of_scalar rfl rfl rfl rfl fun hw => by
    simp only [decodeScalar, SFields.of_encSR]; rfl
theorem clipq (d : Reg) (a : Reg) : Statement (.clipq d a) :=
  of_scalar rfl rfl rfl rfl fun hw => by
    simp only [decodeScalar, SFields.of_encSR]; rfl
theorem vstop : Statement (.vstop) := of_vector rfl rfl rfl rfl (flOf_flBits .always) rfl
theorem vskz (n : BitVec 16) (fl : Fl) : Statement (.vskz n fl) :=
  of_vector rfl rfl rfl rfl (flOf_flBits fl) rfl
theorem vadd (vd : Reg) (va : Reg) (b : VSrc) (q : VMod) : Statement (.vadd vd va b q) :=
  of_vector rfl rfl rfl rfl (flOf_flBits q.fl) (by cases b <;> simp [vectorShape, VMod.put, VSrc.put, VFields.zero, vsrcOf])
theorem vsub (vd : Reg) (va : Reg) (b : VSrc) (q : VMod) : Statement (.vsub vd va b q) :=
  of_vector rfl rfl rfl rfl (flOf_flBits q.fl) (by cases b <;> simp [vectorShape, VMod.put, VSrc.put, VFields.zero, vsrcOf])
theorem vadds (vd : Reg) (va : Reg) (b : VSrc) (q : VMod) : Statement (.vadds vd va b q) :=
  of_vector rfl rfl rfl rfl (flOf_flBits q.fl) (by cases b <;> simp [vectorShape, VMod.put, VSrc.put, VFields.zero, vsrcOf])
theorem vsubs (vd : Reg) (va : Reg) (b : VSrc) (q : VMod) : Statement (.vsubs vd va b q) :=
  of_vector rfl rfl rfl rfl (flOf_flBits q.fl) (by cases b <;> simp [vectorShape, VMod.put, VSrc.put, VFields.zero, vsrcOf])
theorem vmul (vd : Reg) (va : Reg) (b : VSrc) (q : VMod) : Statement (.vmul vd va b q) :=
  of_vector rfl rfl rfl rfl (flOf_flBits q.fl) (by cases b <;> simp [vectorShape, VMod.put, VSrc.put, VFields.zero, vsrcOf])
theorem vmulh (vd : Reg) (va : Reg) (b : VSrc) (q : VMod) : Statement (.vmulh vd va b q) :=
  of_vector rfl rfl rfl rfl (flOf_flBits q.fl) (by cases b <;> simp [vectorShape, VMod.put, VSrc.put, VFields.zero, vsrcOf])
theorem vmin (vd : Reg) (va : Reg) (b : VSrc) (q : VMod) : Statement (.vmin vd va b q) :=
  of_vector rfl rfl rfl rfl (flOf_flBits q.fl) (by cases b <;> simp [vectorShape, VMod.put, VSrc.put, VFields.zero, vsrcOf])
theorem vmax (vd : Reg) (va : Reg) (b : VSrc) (q : VMod) : Statement (.vmax vd va b q) :=
  of_vector rfl rfl rfl rfl (flOf_flBits q.fl) (by cases b <;> simp [vectorShape, VMod.put, VSrc.put, VFields.zero, vsrcOf])
theorem vand (vd : Reg) (va : Reg) (b : VSrc) (q : VMod) : Statement (.vand vd va b q) :=
  of_vector rfl rfl rfl rfl (flOf_flBits q.fl) (by cases b <;> simp [vectorShape, VMod.put, VSrc.put, VFields.zero, vsrcOf])
theorem vor (vd : Reg) (va : Reg) (b : VSrc) (q : VMod) : Statement (.vor vd va b q) :=
  of_vector rfl rfl rfl rfl (flOf_flBits q.fl) (by cases b <;> simp [vectorShape, VMod.put, VSrc.put, VFields.zero, vsrcOf])
theorem vxor (vd : Reg) (va : Reg) (b : VSrc) (q : VMod) : Statement (.vxor vd va b q) :=
  of_vector rfl rfl rfl rfl (flOf_flBits q.fl) (by cases b <;> simp [vectorShape, VMod.put, VSrc.put, VFields.zero, vsrcOf])
theorem vsll (vd : Reg) (va : Reg) (b : VSrc) (q : VMod) : Statement (.vsll vd va b q) :=
  of_vector rfl rfl rfl rfl (flOf_flBits q.fl) (by cases b <;> simp [vectorShape, VMod.put, VSrc.put, VFields.zero, vsrcOf])
theorem vsrl (vd : Reg) (va : Reg) (b : VSrc) (q : VMod) : Statement (.vsrl vd va b q) :=
  of_vector rfl rfl rfl rfl (flOf_flBits q.fl) (by cases b <;> simp [vectorShape, VMod.put, VSrc.put, VFields.zero, vsrcOf])
theorem vsra (vd : Reg) (va : Reg) (b : VSrc) (q : VMod) : Statement (.vsra vd va b q) :=
  of_vector rfl rfl rfl rfl (flOf_flBits q.fl) (by cases b <;> simp [vectorShape, VMod.put, VSrc.put, VFields.zero, vsrcOf])
theorem vcmp (c : ICond) (md : Reg) (va : Reg) (b : VSrc) (q : VMod) : Statement (.vcmp c md va b q) :=
  of_vector rfl rfl rfl rfl (flOf_flBits q.fl) (by
    have h := icond_fn6 c
    cases b <;> simp only [vectorShape, VMod.put, VSrc.put, VFields.zero, vsrcOf, h] <;> rfl)
theorem vsel (vd : Reg) (va : Reg) (b : VSrc) (ms : BitVec 3) (q : VMod) : Statement (.vsel vd va b ms q) :=
  of_vector rfl rfl rfl rfl (flOf_flBits q.fl) (by cases b <;> simp [vectorShape, VMod.put, VSrc.put, VFields.zero, vsrcOf])
theorem vfadd (vd : Reg) (va : Reg) (vb : Reg) (rm : BitVec 3) (q : VMod) : Statement (.vfadd vd va vb rm q) :=
  of_vector rfl rfl rfl rfl (flOf_flBits q.fl) rfl
theorem vfsub (vd : Reg) (va : Reg) (vb : Reg) (rm : BitVec 3) (q : VMod) : Statement (.vfsub vd va vb rm q) :=
  of_vector rfl rfl rfl rfl (flOf_flBits q.fl) rfl
theorem vfmul (vd : Reg) (va : Reg) (vb : Reg) (rm : BitVec 3) (q : VMod) : Statement (.vfmul vd va vb rm q) :=
  of_vector rfl rfl rfl rfl (flOf_flBits q.fl) rfl
theorem vfma (vd : Reg) (va : Reg) (vb : Reg) (vc : Reg) (rm : BitVec 3) (q : VMod) : Statement (.vfma vd va vb vc rm q) :=
  of_vector rfl rfl rfl rfl (flOf_flBits q.fl) rfl
theorem vfmin (vd : Reg) (va : Reg) (vb : Reg) (rm : BitVec 3) (q : VMod) : Statement (.vfmin vd va vb rm q) :=
  of_vector rfl rfl rfl rfl (flOf_flBits q.fl) rfl
theorem vfmax (vd : Reg) (va : Reg) (vb : Reg) (rm : BitVec 3) (q : VMod) : Statement (.vfmax vd va vb rm q) :=
  of_vector rfl rfl rfl rfl (flOf_flBits q.fl) rfl
theorem vfdiv (vd : Reg) (va : Reg) (vb : Reg) (rm : BitVec 3) (q : VMod) : Statement (.vfdiv vd va vb rm q) :=
  of_vector rfl rfl rfl rfl (flOf_flBits q.fl) rfl
theorem vfsqrt (vd : Reg) (va : Reg) (rm : BitVec 3) (q : VMod) : Statement (.vfsqrt vd va rm q) :=
  of_vector rfl rfl rfl rfl (flOf_flBits q.fl) rfl
theorem vfrsq (vd : Reg) (va : Reg) (rm : BitVec 3) (q : VMod) : Statement (.vfrsq vd va rm q) :=
  of_vector rfl rfl rfl rfl (flOf_flBits q.fl) rfl
theorem vfexp2 (vd : Reg) (va : Reg) (rm : BitVec 3) (q : VMod) : Statement (.vfexp2 vd va rm q) :=
  of_vector rfl rfl rfl rfl (flOf_flBits q.fl) rfl
theorem vfcmp (c : FCond) (md : Reg) (va : Reg) (vb : Reg) (rm : BitVec 3) (q : VMod) : Statement (.vfcmp c md va vb rm q) :=
  of_vector rfl rfl rfl rfl (flOf_flBits q.fl) (by
    simp [vectorShape, VMod.put, VFields.zero, VFields.tileMove, VFields.outer, bits_low, bits_high])
theorem vfcvt (vd : Reg) (va : Reg) (rm : BitVec 3) (p : BitVec 3) (w : BitVec 3) (f : BitVec 5) (k : BitVec 4) (q : VMod) : Statement (.vfcvt vd va rm p w f k q) :=
  of_vector rfl rfl rfl rfl (flOf_flBits q.fl) (by
    simp [vectorShape, VMod.put, VFields.zero, VFields.tileMove, VFields.outer, bits_low, bits_high])
theorem vred (op : RedOp) (vd : Reg) (va : Reg) (rm : BitVec 3) (q : VMod) : Statement (.vred op vd va rm q) :=
  of_vector rfl rfl rfl rfl (flOf_flBits q.fl) (by
    simp [vectorShape, VMod.put, VFields.zero, VFields.tileMove, VFields.outer, bits_low, bits_high])
theorem vxch (vd : Reg) (va : Reg) (d : BitVec 16) (q : VMod) : Statement (.vxch vd va d q) :=
  of_vector rfl rfl rfl rfl (flOf_flBits q.fl) rfl
theorem vperm (vd : Reg) (va : Reg) (vb : Reg) (q : VMod) : Statement (.vperm vd va vb q) :=
  of_vector rfl rfl rfl rfl (flOf_flBits q.fl) rfl
theorem vslide (vd : Reg) (va : Reg) (n : BitVec 16) (q : VMod) : Statement (.vslide vd va n q) :=
  of_vector rfl rfl rfl rfl (flOf_flBits q.fl) rfl
theorem vpopc (ms : BitVec 3) (fl : Fl) : Statement (.vpopc ms fl) :=
  of_vector rfl rfl rfl rfl (flOf_flBits fl) (by
    simp [vectorShape, VMod.put, VFields.zero, VFields.tileMove, VFields.outer, bits_low, bits_high])
theorem mpush (ms : BitVec 3) (fl : Fl) : Statement (.mpush ms fl) :=
  of_vector rfl rfl rfl rfl (flOf_flBits fl) (by
    simp [vectorShape, VMod.put, VFields.zero, VFields.tileMove, VFields.outer, bits_low, bits_high])
theorem minv (fl : Fl) : Statement (.minv fl) := of_vector rfl rfl rfl rfl (flOf_flBits fl) rfl
theorem mpop (fl : Fl) : Statement (.mpop fl) := of_vector rfl rfl rfl rfl (flOf_flBits fl) rfl
theorem mmov (md : BitVec 3) (ms : BitVec 3) (fl : Fl) : Statement (.mmov md ms fl) :=
  of_vector rfl rfl rfl rfl (flOf_flBits fl) (by
    simp [vectorShape, VMod.put, VFields.zero, VFields.tileMove, VFields.outer, bits_low, bits_high])
theorem vld (vd : Reg) (a : BitVec 2) (o : BitVec 16) (s : BitVec 3) (h : Hint) (q : VMod) : Statement (.vld vd a o s h q) :=
  of_vector rfl rfl rfl rfl (flOf_flBits q.fl) (by
    simp [vectorShape, VMod.put, VFields.zero, VFields.tileMove, VFields.outer, bits_low, bits_high])
theorem vst (vd : Reg) (a : BitVec 2) (o : BitVec 16) (s : BitVec 3) (h : Hint) (q : VMod) : Statement (.vst vd a o s h q) :=
  of_vector rfl rfl rfl rfl (flOf_flBits q.fl) (by
    simp [vectorShape, VMod.put, VFields.zero, VFields.tileMove, VFields.outer, bits_low, bits_high])
theorem vldx (vd : Reg) (a : BitVec 2) (vb : Reg) (s : BitVec 3) (h : Hint) (x64 : Bool) (q : VMod) : Statement (.vldx vd a vb s h x64 q) :=
  of_vector rfl rfl rfl rfl (flOf_flBits q.fl) (by
    simp [vectorShape, VMod.put, VFields.zero, VFields.tileMove, VFields.outer, bits_low, bits_high])
theorem vstx (vd : Reg) (a : BitVec 2) (vb : Reg) (s : BitVec 3) (h : Hint) (x64 : Bool) (q : VMod) : Statement (.vstx vd a vb s h x64 q) :=
  of_vector rfl rfl rfl rfl (flOf_flBits q.fl) (by
    simp [vectorShape, VMod.put, VFields.zero, VFields.tileMove, VFields.outer, bits_low, bits_high])
theorem tzero (t : BitVec 3) (fl : Fl) : Statement (.tzero t fl) :=
  of_vector rfl rfl rfl rfl (flOf_flBits fl) (by
    simp [vectorShape, VMod.put, VFields.zero, VFields.tileMove, VFields.outer, bits_low, bits_high])
theorem troww (t : BitVec 3) (vs : Reg) (i : BitVec 4) (ix : Bool) (msel : BitVec 3) (fl : Fl) : Statement (.troww t vs i ix msel fl) :=
  of_vector rfl rfl rfl rfl (flOf_flBits fl) (by
    simp [vectorShape, VMod.put, VFields.zero, VFields.tileMove, VFields.outer, bits_low, bits_high])
theorem trowr (vd : Reg) (t : BitVec 3) (i : BitVec 4) (ix : Bool) (msel : BitVec 3) (fl : Fl) : Statement (.trowr vd t i ix msel fl) :=
  of_vector rfl rfl rfl rfl (flOf_flBits fl) (by
    simp [vectorShape, VMod.put, VFields.zero, VFields.tileMove, VFields.outer, bits_low, bits_high])
theorem tcolw (t : BitVec 3) (vs : Reg) (i : BitVec 4) (ix : Bool) (msel : BitVec 3) (fl : Fl) : Statement (.tcolw t vs i ix msel fl) :=
  of_vector rfl rfl rfl rfl (flOf_flBits fl) (by
    simp [vectorShape, VMod.put, VFields.zero, VFields.tileMove, VFields.outer, bits_low, bits_high])
theorem tcolr (vd : Reg) (t : BitVec 3) (i : BitVec 4) (ix : Bool) (msel : BitVec 3) (fl : Fl) : Statement (.tcolr vd t i ix msel fl) :=
  of_vector rfl rfl rfl rfl (flOf_flBits fl) (by
    simp [vectorShape, VMod.put, VFields.zero, VFields.tileMove, VFields.outer, bits_low, bits_high])
theorem opa (t : BitVec 3) (va : Reg) (vb : Reg) (rm : BitVec 3) (u : Bool) (cs : Bool) (k : BitVec 8) (fl : Fl) : Statement (.opa t va vb rm u cs k fl) :=
  of_vector rfl rfl rfl rfl (flOf_flBits fl) (by
    simp [vectorShape, VMod.put, VFields.zero, VFields.tileMove, VFields.outer, bits_low, bits_high])
theorem opag (t : BitVec 3) (va : Reg) (vb : Reg) (vc : Reg) (rm : BitVec 3) (u : Bool) (cs : Bool) (pairs : BitVec 8) (k : BitVec 8) (fl : Fl) : Statement (.opag t va vb vc rm u cs pairs k fl) :=
  of_vector rfl rfl rfl rfl (flOf_flBits fl) (by
    simp [vectorShape, VMod.put, VFields.zero, VFields.tileMove, VFields.outer, bits_low, bits_high])
theorem saadd (vs : Reg) (a : BitVec 2) (o : BitVec 16) (s : BitVec 3) (q : VMod) : Statement (.saadd vs a o s q) :=
  of_vector rfl rfl rfl rfl (flOf_flBits q.fl) (by
    simp [vectorShape, VMod.put, VFields.zero, VFields.tileMove, VFields.outer, bits_low, bits_high])
theorem sanrm (vd : Reg) (a : BitVec 2) (o : BitVec 16) (s : BitVec 3) (rm : BitVec 3) (q : VMod) : Statement (.sanrm vd a o s rm q) :=
  of_vector rfl rfl rfl rfl (flOf_flBits q.fl) (by
    simp [vectorShape, VMod.put, VFields.zero, VFields.tileMove, VFields.outer, bits_low, bits_high])
theorem aap (s : RowRef) (d : RowRef) : Statement (.aap s d) :=
  of_row rfl rfl rfl rfl fun hw => by
    have hd : rowDestOk d = true := hw
    simp [decodeRow, decodeRow2, bits_encRow2, rowOf_rowBits, accept, hd]
theorem tra (k : BitVec 2) : Statement (.tra k) :=
  of_row rfl rfl rfl rfl fun _ => by
    simp [decodeRow, bits_tra, accept]
theorem dnot (s : RowRef) (d : RowRef) : Statement (.dnot s d) :=
  of_row rfl rfl rfl rfl fun hw => by
    have hd : rowDestOk d = true := hw
    simp [decodeRow, decodeRow2, bits_encRow2, rowOf_rowBits, accept, hd]
theorem lshf (s : RowRef) (d : RowRef) : Statement (.lshf s d) :=
  of_row rfl rfl rfl rfl fun hw => by
    have hd : rowDestOk d = true := hw
    simp [decodeRow, decodeRow2, bits_encRow2, rowOf_rowBits, accept, hd]
theorem rshf (s : RowRef) (d : RowRef) : Statement (.rshf s d) :=
  of_row rfl rfl rfl rfl fun hw => by
    have hd : rowDestOk d = true := hw
    simp [decodeRow, decodeRow2, bits_encRow2, rowOf_rowBits, accept, hd]
theorem loopw (c : BitVec 5) (m : BitVec 7) : Statement (.loopw c m) :=
  of_row rfl rfl rfl rfl fun _ => by
    simp [decodeRow, bits_loopw, accept]
theorem eLdk (k : BitVec 2) : Statement (.eLdk k) :=
  of_expr rfl rfl rfl rfl fun _ _ => by
    simp [decodeExpr, bits_ldk]
theorem eCvt (k : BitVec 4) (p : BitVec 3) : Statement (.eCvt k p) :=
  of_expr rfl rfl rfl rfl fun hw rest => by
    have hk : cvtOk k p = true := hw
    have h := bits_cvt k p
    simp [decodeExpr, h, hk]; exact h.1
theorem qtailDoorbell (q : Nat) (tail : Word) : Statement (.qtailDoorbell q tail) := of_none rfl rfl rfl rfl
theorem nop (q : Nat) : Statement (.nop q) := of_none rfl rfl rfl rfl
theorem launch (q : Nat) (kernel : Word) (frame : Word) (counter : Word) (value : Word) : Statement (.launch q kernel frame counter value) :=
  of_none rfl rfl rfl rfl
theorem wait (q : Nat) (counter : Word) (value : Word) : Statement (.wait q counter value) :=
  of_none rfl rfl rfl rfl
theorem packetWaitDone (q : Nat) : Statement (.packetWaitDone q) := of_none rfl rfl rfl rfl
theorem signal (q : Nat) (counter : Word) (value : Word) : Statement (.signal q counter value) :=
  of_none rfl rfl rfl rfl
theorem copy (q : Nat) (desc : Word) : Statement (.copy q desc) := of_none rfl rfl rfl rfl
theorem bind (q : Nat) (table : Word) : Statement (.bind q table) := of_none rfl rfl rfl rfl
theorem configDeadline (q : Nat) (value : Word) : Statement (.configDeadline q value) :=
  of_none rfl rfl rfl rfl
theorem configGangTable (q : Nat) (table : Word) : Statement (.configGangTable q table) :=
  of_none rfl rfl rfl rfl
theorem queueRestart (q : Nat) : Statement (.queueRestart q) := of_none rfl rfl rfl rfl
theorem launchReady (l : Nat) : Statement (.launchReady l) := of_none rfl rfl rfl rfl
theorem periodStart (q : Nat) : Statement (.periodStart q) := of_none rfl rfl rfl rfl
theorem budgetOverrun (q : Nat) : Statement (.budgetOverrun q) := of_none rfl rfl rfl rfl
theorem preempt (core : Nat) : Statement (.preempt core) := of_none rfl rfl rfl rfl
theorem gangrdyWrite (q : Nat) (m : Nat) (p : Word) : Statement (.gangrdyWrite q m p) :=
  of_none rfl rfl rfl rfl
theorem gangSkew (q : Nat) : Statement (.gangSkew q) := of_none rfl rfl rfl rfl
theorem heldAcornPlace (k : Nat) : Statement (.heldAcornPlace k) := of_none rfl rfl rfl rfl
theorem watcherPush (k : Nat) : Statement (.watcherPush k) := of_none rfl rfl rfl rfl
theorem dequeSteal (thief : Nat) (victim : Nat) : Statement (.dequeSteal thief victim) :=
  of_none rfl rfl rfl rfl
theorem teamSwapOut (team : Nat) : Statement (.teamSwapOut team) := of_none rfl rfl rfl rfl
theorem teamRequeue (team : Nat) : Statement (.teamRequeue team) := of_none rfl rfl rfl rfl
theorem waitSatisfied (team : Nat) (hart : Nat) : Statement (.waitSatisfied team hart) :=
  of_none rfl rfl rfl rfl
theorem hwErrorRestart (core : Nat) : Statement (.hwErrorRestart core) := of_none rfl rfl rfl rfl
theorem forkContinuation (handle : Nat) : Statement (.forkContinuation handle) := of_none rfl rfl rfl rfl
theorem asyncFaultDelivery (team : Nat) (hart : Nat) : Statement (.asyncFaultDelivery team hart) :=
  of_none rfl rfl rfl rfl
theorem mapped (tower : Nat) (tag : Word) : Statement (.mapped tower tag) := of_none rfl rfl rfl rfl
theorem refuse (tower : Nat) (tag : Word) : Statement (.refuse tower tag) := of_none rfl rfl rfl rfl
theorem deny (tower : Nat) (tag : Word) : Statement (.deny tower tag) := of_none rfl rfl rfl rfl
theorem ptinvPage (va : Word) : Statement (.ptinvPage va) := of_none rfl rfl rfl rfl
theorem ptinvAsid : Statement (.ptinvAsid) := of_none rfl rfl rfl rfl
theorem ptinvAll : Statement (.ptinvAll) := of_none rfl rfl rfl rfl
theorem leaseExpiry (va : Word) : Statement (.leaseExpiry va) := of_none rfl rfl rfl rfl
theorem hostMemAccess (h : Nat) (acc : HostAcc) : Statement (.hostMemAccess h acc) := of_none rfl rfl rfl rfl
theorem linkRetry (port : Nat) : Statement (.linkRetry port) := of_none rfl rfl rfl rfl
theorem railSwitchDone (cluster : Nat) : Statement (.railSwitchDone cluster) := of_none rfl rfl rfl rfl
theorem learnedRow (cluster : Nat) (store : RowStore) (row : Nat) : Statement (.learnedRow cluster store row) :=
  of_none rfl rfl rfl rfl
theorem railcmdGo (cluster : Nat) (rail : Bool) : Statement (.railcmdGo cluster rail) :=
  of_none rfl rfl rfl rfl
theorem powermodeWrite (mode : BitVec 2) : Statement (.powermodeWrite mode) := of_none rfl rfl rfl rfl
theorem matrixWindow (core : Nat) : Statement (.matrixWindow core) := of_none rfl rfl rfl rfl
theorem thermalStep1 (tower : Nat) (temp : Nat) : Statement (.thermalStep1 tower temp) :=
  of_none rfl rfl rfl rfl
theorem thermalStep2 (tower : Nat) (temp : Nat) : Statement (.thermalStep2 tower temp) :=
  of_none rfl rfl rfl rfl
theorem thermalOffline (tower : Nat) (temp : Nat) : Statement (.thermalOffline tower temp) :=
  of_none rfl rfl rfl rfl
theorem thermalUnwind (tower : Nat) (temp : Nat) : Statement (.thermalUnwind tower temp) :=
  of_none rfl rfl rfl rfl
theorem towerReturn (mask : BitVec 8) : Statement (.towerReturn mask) := of_none rfl rfl rfl rfl
theorem monitorClr (u : MonUnit) : Statement (.monitorClr u) := of_none rfl rfl rfl rfl
theorem monitorSample (u : MonUnit) (event : Nat) (sample : Nat) : Statement (.monitorSample u event sample) :=
  of_none rfl rfl rfl rfl
theorem alarmcfgWrite (v : Word) : Statement (.alarmcfgWrite v) := of_none rfl rfl rfl rfl
theorem alarm (sources : BitVec 5) : Statement (.alarm sources) := of_none rfl rfl rfl rfl
theorem start (r : StartRun) : Statement (.start r) := of_none rfl rfl rfl rfl
theorem recover (image : List Byte) : Statement (.recover image) := of_none rfl rfl rfl rfl
theorem provision (chain : List Byte) : Statement (.provision chain) := of_none rfl rfl rfl rfl
theorem writefw (image : List Byte) : Statement (.writefw image) := of_none rfl rfl rfl rfl
theorem attestationReport (nonce : BitVec 384) : Statement (.attestationReport nonce) :=
  of_none rfl rfl rfl rfl
theorem refreshDue (bank : Nat) : Statement (.refreshDue bank) := of_none rfl rfl rfl rfl
theorem rowProgramStart (cid : Nat) : Statement (.rowProgramStart cid) := of_none rfl rfl rfl rfl
theorem waveAdmit (cid : Nat) : Statement (.waveAdmit cid) := of_none rfl rfl rfl rfl
theorem bxlStart (cid : Nat) : Statement (.bxlStart cid) := of_none rfl rfl rfl rfl
theorem copyStart (cid : Nat) : Statement (.copyStart cid) := of_none rfl rfl rfl rfl
theorem gatherStart (cid : Nat) : Statement (.gatherStart cid) := of_none rfl rfl rfl rfl
theorem scatterStart (cid : Nat) : Statement (.scatterStart cid) := of_none rfl rfl rfl rfl
theorem engineComplete (cid : Nat) : Statement (.engineComplete cid) := of_none rfl rfl rfl rfl
theorem saaddApply (k : Nat) : Statement (.saaddApply k) := of_none rfl rfl rfl rfl
theorem saEvict (launch : Nat) (cluster : Nat) : Statement (.saEvict launch cluster) := of_none rfl rfl rfl rfl
theorem saRestore (launch : Nat) (cluster : Nat) : Statement (.saRestore launch cluster) :=
  of_none rfl rfl rfl rfl
theorem registerWrite (r : MReg) (v : Word) : Statement (.registerWrite r v) := of_none rfl rfl rfl rfl
theorem illegal (w : BitVec 32) : Statement (.illegal w) := of_none rfl rfl rfl rfl
theorem fabricRequest (asid : BitVec 16) (va : Word) (acc : FabricAcc) : Statement (.fabricRequest asid va acc) :=
  of_none rfl rfl rfl rfl
theorem halt : Statement (.halt) := of_row rfl rfl rfl rfl fun _ => rfl
theorem endw : Statement (.endw) := of_row rfl rfl rfl rfl fun _ => rfl
theorem step : Statement (.step) := of_row rfl rfl rfl rfl fun _ => rfl
theorem eLda : Statement (.eLda) := of_expr rfl rfl rfl rfl fun _ _ => rfl
theorem eLdb : Statement (.eLdb) := of_expr rfl rfl rfl rfl fun _ _ => rfl
theorem eAdd : Statement (.eAdd) := of_expr rfl rfl rfl rfl fun _ _ => rfl
theorem eSub : Statement (.eSub) := of_expr rfl rfl rfl rfl fun _ _ => rfl
theorem eMul : Statement (.eMul) := of_expr rfl rfl rfl rfl fun _ _ => rfl
theorem eFma : Statement (.eFma) := of_expr rfl rfl rfl rfl fun _ _ => rfl
theorem eMin : Statement (.eMin) := of_expr rfl rfl rfl rfl fun _ _ => rfl
theorem eMax : Statement (.eMax) := of_expr rfl rfl rfl rfl fun _ _ => rfl
theorem eAbs : Statement (.eAbs) := of_expr rfl rfl rfl rfl fun _ _ => rfl
theorem eNeg : Statement (.eNeg) := of_expr rfl rfl rfl rfl fun _ _ => rfl
theorem eCmplt : Statement (.eCmplt) := of_expr rfl rfl rfl rfl fun _ _ => rfl
theorem eSel : Statement (.eSel) := of_expr rfl rfl rfl rfl fun _ _ => rfl
theorem eDup : Statement (.eDup) := of_expr rfl rfl rfl rfl fun _ _ => rfl
theorem eSwap : Statement (.eSwap) := of_expr rfl rfl rfl rfl fun _ _ => rfl
theorem eDrop : Statement (.eDrop) := of_expr rfl rfl rfl rfl fun _ _ => rfl
theorem eSumr : Statement (.eSumr) := of_expr rfl rfl rfl rfl fun _ _ => rfl
theorem eMaxr : Statement (.eMaxr) := of_expr rfl rfl rfl rfl fun _ _ => rfl
theorem eSto : Statement (.eSto) := of_expr rfl rfl rfl rfl fun _ _ => rfl
theorem pendingClear : Statement (.pendingClear) := of_none rfl rfl rfl rfl
theorem contractLoss : Statement (.contractLoss) := of_none rfl rfl rfl rfl
theorem contractHolds : Statement (.contractHolds) := of_none rfl rfl rfl rfl
theorem startTimeout : Statement (.startTimeout) := of_none rfl rfl rfl rfl
theorem report : Statement (.report) := of_none rfl rfl rfl rfl
theorem clear : Statement (.clear) := of_none rfl rfl rfl rfl
theorem reset : Statement (.reset) := of_none rfl rfl rfl rfl
theorem done : Statement (.done) := of_none rfl rfl rfl rfl

end Sys2Proof.Laws.RoundTrip
end

