-- ==== Sys2Proof/Laws/Vword.lean ====
section
/-! SUPPORT. How a vector word runs: what its action's end makes of the block (R104, R206, R207), the checks that pass,
and what the element-wise mould writes (R415). -/

namespace Sys2Proof.Machine

/-! ### The end of a word -/

theorem State.vword_skip {s : State} {fl : Fl} {act : M Unit} (h : s.me.runs fl = false) :
    s.vword fl act = { s with me := s.me.past 0 } := by
  simp [State.vword, h]

theorem State.vword_ok {s s1 : State} {fl : Fl} {act : M Unit} (hr : s.me.runs fl = true)
    (h : act { s with me := s.me.enterBlock } = .ok () s1) :
    s.vword fl act = { s1 with me := (s1.me.leaveBlock s.me none).past 0 } := by
  simp [State.vword, hr, h]

theorem State.vword_trap {s s1 : State} {fl : Fl} {act : M Unit} {t : Trap} (hr : s.me.runs fl = true)
    (h : act { s with me := s.me.enterBlock } = .error (.trap t) s1) :
    s.vword fl act = { s1 with me := (s1.me.leaveBlock s.me none).blockTrap t s.me.wordAddr } := by
  simp [State.vword, hr, h]

theorem State.vword_wait {s s1 : State} {fl : Fl} {act : M Unit} {w : Wait} (hr : s.me.runs fl = true)
    (h : act { s with me := s.me.enterBlock } = .error (.wait w) s1) :
    s.vword fl act = { s1 with me := s1.me.leaveBlock s.me (some w) } := by
  simp [State.vword, hr, h]

/-- A word that is complete and then traps for the enabled ones of the flags that it raised (R40). -/
theorem State.vword_fp {s s1 : State} {fl : Fl} {act : M Unit} {g : Flags} (hr : s.me.runs fl = true)
    (h : act { s with me := s.me.enterBlock } = if s.me.enabled g = 0 then .ok () s1
      else .error (.after (.of cFP ((s.me.enabled g).zeroExtend 64))) s1) :
    s.vword fl act = FpEnds s (s.vword fl fun _ => .ok () s1) g := by
  have he : g &&& s.me.fcsr.extractLsb' 16 6 = s.me.enabled g := rfl
  unfold FpEnds
  rw [he]
  dsimp only
  split <;> rename_i hz
  · rw [if_pos hz] at h; rw [State.vword_ok hr h, State.vword_ok (act := fun _ => .ok () s1) hr rfl]
  · rw [if_neg hz] at h
    rw [State.vword_ok (act := fun _ => .ok () s1) hr rfl]
    simp [State.vword, hr, h, Suspends, Hart.blockTrap, cFP]

/-- A word that ends with the hart as a change f of the one it found, which leaves the block alone. -/
theorem State.vword_change {s : State} {fl : Fl} {act : M Unit} {h1 : Hart} (hr : s.me.runs fl = true)
    (hb : h1.blk = s.me.blk) (h : act { s with me := s.me.enterBlock } = .ok () { s with me := h1 })
    (hw : s.me.blk = none → h1.answers = s.me.answers) :
    s.vword fl act = { s with me := { h1 with wait := s.me.wait, answers := s.me.answers, blk := PastWords s.me 0 } } := by
  rw [State.vword_ok hr h]
  congr 1
  unfold Hart.leaveBlock PastWords
  cases hk : s.me.blk with
  | none =>
    rw [hk] at hb
    simp only [hb, Hart.past]
    have := hw hk
    cases h1
    simp_all
  | some b =>
    rw [hk] at hb
    simp only [hb, Hart.past]
    cases h1
    simp_all

@[simp] theorem Hart.enterBlock_blk (h : Hart) : h.enterBlock.blk = h.blk := by
  unfold Hart.enterBlock; split <;> simp_all

theorem Hart.enterBlock_frame (h : Hart) :
    h.enterBlock = { h with wait := h.enterBlock.wait, answers := h.enterBlock.answers } := by
  unfold Hart.enterBlock; split <;> rfl

/-! ### The checks of a word -/

theorem wordType_run {s : State} {width : BitVec 3} {t : ETy} (ht : t = etyOf (vtWith s.me.vt width))
    (hl : typeOk t.fmt (vtW (vtWith s.me.vt width)) t.p = true) : wordType width s = .ok t s := by
  subst ht
  unfold wordType
  dsimp only
  rw [if_pos hl]

theorem needGroups_run {s : State} {rs : List Reg} (h : ∀ r, r ∈ rs → r.val % groupOf s.me.vt = 0) :
    needGroups rs s = .ok () s := by
  have : (rs.find? fun r => r.val % groupOf s.me.vt != 0) = none := by
    rw [List.find?_eq_none]
    intro r hr
    simp [h r hr]
  unfold needGroups
  rw [this]

theorem needFit_run {s : State} {w : Nat} (h : s.me.vlNow * w ≤ 8 * groupOf s.me.vt * s.vlen) :
    needFit w s = .ok () s := if_pos h

theorem needType_run {s : State} {width : BitVec 3} : needType width true s = .ok () s := rfl

/-! ### Active elements -/

theorem Hart.mem_active (h : Hart) (m : BitVec 3) (k n i : Nat) :
    i ∈ h.active m k n ↔ k ≤ i ∧ i < n ∧ (h.mask m).getLsbD i = true := by
  unfold Hart.active
  rw [List.mem_filter]
  constructor
  · rintro ⟨h1, h2⟩
    obtain ⟨j, hj, rfl⟩ := List.mem_iff_getElem.1 h1
    simp only [List.length_drop, List.length_range] at hj
    simp only [List.getElem_drop, List.getElem_range] at *
    exact ⟨by omega, by omega, h2⟩
  · rintro ⟨h1, h2, h3⟩
    refine ⟨?_, h3⟩
    rw [List.mem_iff_getElem]
    exact ⟨i - k, by simp; omega, by simp; omega⟩

theorem Hart.active_nodup (h : Hart) (m : BitVec 3) (k n : Nat) : (h.active m k n).Nodup :=
  ((List.nodup_range).sublist (List.drop_sublist _ _)).sublist List.filter_sublist

theorem find_map_active (l : List Nat) (f : Nat → Nat) (j : Nat) :
    ((l.map fun i => (i, f i)).find? (·.1 == j)) = if j ∈ l then some (j, f j) else none := by
  induction l with
  | nil => rfl
  | cons a l ih =>
    rw [List.map_cons, List.find?_cons]
    by_cases h : a = j
    · subst h; simp
    · have h1 : (a == j) = false := by simpa using h
      dsimp only
      rw [h1, ih]
      by_cases h2 : j ∈ l
      · simp [h2]
      · simp [h2, Ne.symm h]

/-- What writing a function of the index to the active elements comes to. -/
theorem Hart.elem_setActive (h : Hart) (vlen vd w : Nat) (m : BitVec 3) (k n j : Nat) (f : Nat → Nat) (hf : Fits vlen w)
    (hn : n * w ≤ 32 * (8 * vlen)) (hj : j * w < 32 * (8 * vlen)) :
    (h.setElems vlen vd w ((h.active m k n).map fun i => (i, f i))).elem vlen vd w j =
      if k ≤ j ∧ j < n ∧ (h.mask m).getLsbD j = true then f j % 2 ^ w else h.elem vlen vd w j := by
  rw [Hart.elem_setElems h vlen vd w j _ hf ?_ hj ?_, find_map_active]
  · by_cases hm : j ∈ h.active m k n
    · rw [if_pos hm, if_pos ((h.mem_active m k n j).1 hm)]
    · rw [if_neg hm, if_neg (fun x => hm ((h.mem_active m k n j).2 x))]
  · intro x hx
    obtain ⟨i, hi, rfl⟩ := List.mem_map.1 hx
    have := ((h.mem_active m k n i).1 hi).2.1
    calc i * w < n * w := Nat.mul_lt_mul_of_pos_right this hf.some_w
      _ ≤ _ := hn
  · rw [List.map_map]
    have : ((fun x : Nat × Nat => x.1) ∘ fun i => (i, f i)) = id := rfl
    rw [this, List.map_id]
    exact h.active_nodup m k n

/-! ### The element-wise mould -/

/-- The flags that a word raises: those of every element that it touches. -/
def flagsOf (h : Hart) (m : BitVec 3) (k n : Nat) (f : Nat → Flags) : Flags :=
  (h.active m k n).foldl (fun acc i => acc ||| f i) 0

theorem flagsOf_zero (h : Hart) (m : BitVec 3) (k n : Nat) {f : Nat → Flags} (hf : ∀ i, f i = 0) :
    flagsOf h m k n f = 0 := by
  unfold flagsOf
  generalize h.active m k n = l
  have : ∀ acc, l.foldl (fun acc i => acc ||| f i) acc = acc := by
    induction l with
    | nil => intro acc; rfl
    | cons a l ih => intro acc; rw [List.foldl_cons, ih, hf]; simp
  exact this 0

/-- The mould: it writes the elements, raises the flags and clears the progress index, and traps for the enabled ones. -/
theorem ewise_run (s : State) (vd : Reg) (w : Nat) (m : BitVec 3) (f : Hart → Nat → Nat × Flags) :
    let g := flagsOf s.me m (s.me.pix vd) s.me.vlNow fun i => (f s.me i).2
    let xs := (s.me.active m (s.me.pix vd) s.me.vlNow).map fun i => (i, (f s.me i).1)
    let s1 : State := { s with me := ((s.me.setElems s.vlen vd.val w xs).raise g).setPix vd 0 }
    ewise vd w m f s = if s.me.enabled g = 0 then .ok () s1
      else .error (.after (.of cFP ((s.me.enabled g).zeroExtend 64))) s1 := by
  have e1 : (((s.me.active m (s.me.pix vd) s.me.vlNow).map fun i => (i, f s.me i)).foldl
      (fun acc r => acc ||| r.2.2) (0 : Flags)) = flagsOf s.me m (s.me.pix vd) s.me.vlNow fun i => (f s.me i).2 := by
    rw [List.foldl_map]; rfl
  have e2 : (((s.me.active m (s.me.pix vd) s.me.vlNow).map fun i => (i, f s.me i)).map fun r => (r.1, r.2.1)) =
      (s.me.active m (s.me.pix vd) s.me.vlNow).map fun i => (i, (f s.me i).1) := by
    rw [List.map_map]; rfl
  unfold ewise
  rw [M.bind_now]
  simp only [e1, e2, M.bind_change]
  unfold fpTrap
  have e3 : ∀ (g : Flags), bits (s.me.fcsr ||| (g.zeroExtend 64 <<< 8)) 16 6 = bits s.me.fcsr 16 6 := by
    intro g
    apply BitVec.eq_of_getLsbD_eq
    intro i hi
    have h1 : ¬ 16 + i < 8 := by omega
    have h2 : 16 + i < 64 := by omega
    have h3 : g.getLsbD (16 + i - 8) = false := BitVec.getLsbD_of_ge _ _ (by omega)
    simp [bits, hi, h1, h3]
  have e4 : ∀ g : Flags, Hart.enabled (((s.me.setElems s.vlen vd.val w
      ((s.me.active m (s.me.pix vd) s.me.vlNow).map fun i => (i, (f s.me i).1))).raise g).setPix vd 0) g =
      s.me.enabled g := by
    intro g
    unfold Hart.enabled
    have : (((s.me.setElems s.vlen vd.val w
      ((s.me.active m (s.me.pix vd) s.me.vlNow).map fun i => (i, (f s.me i).1))).raise g).setPix vd 0).fcsr =
      s.me.fcsr ||| (g.zeroExtend 64 <<< 8) := by
      rw [Hart.setElems_frame]; rfl
    rw [this, e3]
  dsimp only
  rw [e4]

/-- A word in the mould sets its elements, and traps FP after that for an enabled flag. -/
theorem ewise_sets {s : State} {q : VMod} {t : ETy} {groups : List Reg} {vd : Reg} {w : Nat} {act : M Unit}
    {f : Hart → Nat → Nat × Flags} {g : Nat → Nat × Flags} (hr : WordRuns s q t groups) (hf : Fits s.vlen w)
    (hact : act { s with me := s.me.enterBlock } = ewise vd w q.msel f { s with me := s.me.enterBlock })
    (hg : ∀ i, f s.me.enterBlock i = g i) (hn : s.me.vlNow * w ≤ 32 * (8 * s.vlen)) :
    let fl := flagsOf s.me q.msel (s.me.pix vd) s.me.vlNow fun i => (g i).2
    ∃ u, s.vword q.fl act = FpEnds s u fl ∧
      SetsElements s u vd w (Touches s q.msel (s.me.pix vd)) (fun i => (g i).1 % 2 ^ w) fl := by
  intro fl0
  obtain ⟨h0, hh0⟩ : ∃ h0, h0 = s.me.enterBlock := ⟨_, rfl⟩
  have hfr : h0 = { s.me with wait := h0.wait, answers := h0.answers } := by rw [hh0]; exact s.me.enterBlock_frame
  have hact2 : ∀ m k n, h0.active m k n = s.me.active m k n := by intro m k n; rw [hfr]; rfl
  have hfl : flagsOf h0 q.msel (h0.pix vd) h0.vlNow (fun i => (f h0 i).2) =
      flagsOf s.me q.msel (s.me.pix vd) s.me.vlNow (fun i => (g i).2) := by
    have : (fun i => (f h0 i).2) = fun i => (g i).2 := by funext i; rw [hh0, hg]
    rw [this]; unfold flagsOf; rw [hact2]; rw [hfr]; rfl
  obtain ⟨fl, hF⟩ : ∃ fl, flagsOf s.me q.msel (s.me.pix vd) s.me.vlNow (fun i => (g i).2) = fl := ⟨_, rfl⟩
  rw [hF] at hfl
  have hfl0 : fl0 = fl := hF
  rw [hfl0]
  have hmap : ((h0.active q.msel (h0.pix vd) h0.vlNow).map fun i => (i, (f h0 i).1)) =
      (s.me.active q.msel (s.me.pix vd) s.me.vlNow).map fun i => (i, (g i).1) := by
    rw [hact2]
    have : (fun i => (i, (f h0 i).1)) = fun i => (i, (g i).1) := by funext i; rw [hh0, hg]
    rw [this, hfr]; rfl
  obtain ⟨h1, hh1⟩ : ∃ h1, h1 = s.me.setElems s.vlen vd.val w
    ((s.me.active q.msel (s.me.pix vd) s.me.vlNow).map fun i => (i, (g i).1)) := ⟨_, rfl⟩
  have hset : ∀ (xs : List (Nat × Nat)) (x : Hart) (a : Option Wait) (b : List (Word × Nat)),
      Hart.setElems { x with wait := a, answers := b } s.vlen vd.val w xs =
        { x.setElems s.vlen vd.val w xs with wait := a, answers := b } := by
    intro xs
    induction xs with
    | nil => intro x a b; rfl
    | cons y ys ih => intro x a b; exact ih (x.setElem s.vlen vd.val w y.1 y.2) a b
  obtain ⟨s1, hs1⟩ : ∃ s1 : State, s1 = { s with me :=
      (({ h1 with wait := h0.wait, answers := h0.answers } : Hart).raise fl).setPix vd 0 } := ⟨_, rfl⟩
  have hrun : act { s with me := s.me.enterBlock } = if s.me.enabled fl = 0 then .ok () s1
      else .error (.after (.of cFP ((s.me.enabled fl).zeroExtend 64))) s1 := by
    have hen : ∀ g, h0.enabled g = s.me.enabled g := by intro g; rw [hfr]; rfl
    have hme : (h0.setElems s.vlen vd.val w ((h0.active q.msel (h0.pix vd) h0.vlNow).map fun i => (i, (f h0 i).1))) =
        { h1 with wait := h0.wait, answers := h0.answers } := by
      rw [hmap, hfr, hset, ← hh1]
    rw [hact, ← hh0]
    have := ewise_run { s with me := h0 } vd w q.msel f
    dsimp only at this
    rw [this]
    show (if h0.enabled (flagsOf h0 q.msel (h0.pix vd) h0.vlNow fun i => (f h0 i).2) = 0 then _ else _) = _
    rw [hfl, hen, hs1]
    show (if _ then EStateM.Result.ok () { s with me := Hart.setPix (Hart.raise (h0.setElems s.vlen vd.val w _) _) vd 0 }
      else .error _ { s with me := Hart.setPix (Hart.raise (h0.setElems s.vlen vd.val w _) _) vd 0 }) = _
    rw [hme]
  have hf1 : h1 = { s.me with v := h1.v, vmark := h1.vmark } := by rw [hh1]; exact Hart.setElems_frame ..
  have hb1 : ((({ h1 with wait := h0.wait, answers := h0.answers } : Hart).raise fl).setPix vd 0).blk = s.me.blk := by
    show h1.blk = _; rw [hf1]
  refine ⟨_, State.vword_fp hr.runs hrun, ?_⟩
  have hw := State.vword_change (act := fun _ => .ok () s1) (fl := q.fl) hr.runs hb1 (by rw [hs1]) (by
    intro hb
    show h0.answers = _
    rw [hh0]; unfold Hart.enterBlock; rw [hb])
  rw [hw]
  obtain ⟨t0, ht0⟩ : ∃ t0, t0 = ({ s with me := { (({ h1 with wait := h0.wait, answers := h0.answers } : Hart).raise
    fl).setPix vd 0 with wait := s.me.wait, answers := s.me.answers, blk := PastWords s.me 0 } } : State) := ⟨_, rfl⟩
  have hv : t0.me.v = h1.v := by rw [ht0]; rfl
  have hp : t0.me.pixV = s.me.pixV.set vd.val 0 vd.isLt := by rw [ht0, hf1]; rfl
  have ht : t0 = { s with me := { s.me with v := t0.me.v, vmark := t0.me.vmark, pixV := t0.me.pixV, fcsr := s.me.fcsr ||| (fl.zeroExtend 64 <<< 8), blk := PastWords s.me 0 } } := by
    rw [ht0]
    rw [hf1]
    rfl
  rw [← ht0]
  refine ⟨ht, ?_, ?_⟩
  · intro r _
    rw [hp]
    obtain ⟨r, hr⟩ := r
    obtain ⟨d, hd⟩ := vd
    rw [Vector.getElem?_set]
    by_cases h : d = r
    · subst h; simp
    · rw [if_neg h, if_neg]
      intro h2; exact h (congrArg Fin.val h2).symm
  · intro i hi
    have he : t0.me.elem s.vlen vd.val w i = h1.elem s.vlen vd.val w i := by unfold Hart.elem; rw [hv]
    rw [he, hh1]
    have := Hart.elem_setActive s.me s.vlen vd.val w q.msel (s.me.pix vd) s.me.vlNow i (fun i => (g i).1) hf hn hi
    rw [this]
    simp [Touches, and_assoc]

end Sys2Proof.Machine
end

