-- ==== Sys2Proof/Tests/Slice0.lean ====
section
/-! SUPPORT. Tests: one step each on small states, with results worked out by hand from the manual; words written out from the
encoding tables; ill-formed terms; and for the hypotheses of every statement a state and operands that meet them. The theorems
named witness_ are the last kind. An image that is accepted (R321) rests on a signature, whose verification is
open (log entry 12): its witness says what follows where it succeeds. -/

open Sys2Proof Sys2Proof.Machine

namespace Sys2Proof.Tests

set_option Elab.async false
set_option maxRecDepth 100000
set_option linter.unusedVariables false

/-! ### Small states -/

/-- One team of one hart on core 0. -/
def team1 : State := State.reset.withTeam

/-- Page 0x10000 at the same place of tower 0's DRAM, with every mark set (R145). -/
def page1 : TlbEntry := { asid := 0, tower := 0, base := 0x10000, lg := 16, slot := 0x100000, pte := 0x1039F }

def paged : State := { team1 with tlb := [page1] }

/-- Registers of the focused hart. -/
def regs (s : State) (l : List (Reg × Word)) : State := l.foldl (fun s x => s.setX x.1 x.2) s

/-- Bytes in memory. -/
def put (s : State) (k : Nat) (bs : List Byte) : State := { s with mem := Memory.writeBytes s.mem k bs }

/-- A block of one word in flight. -/
def block1 (s : State) : State :=
  let b : Block :=
    { addr := 0x10000, words := [vstopWord, vstopWord], idx := 0, levels := [], index := [], bases := [0x10000, 0, 0, 0],
      vtype := s.me.vtype, vl := s.me.vl, frm := 0, suspended := false, wait := none, answers := [], word := 0 }
  { s with me := { s.me with blk := some b } }

/-- The outcome goes on, and to a state of which p holds. -/
def goesTo (o : Host.Outcome State Fault Refusal) (p : State → Bool) : Bool :=
  match o with
  | .next t => p t
  | _ => false


/-! ### Words -/

/-- Whether decoding gave an instruction. -/
def reads (x : Except Reject Instr) (i : Instr) : Bool :=
  match x with
  | .ok j => decide (j = i)
  | .error _ => false

theorem test_words_alu : ([
    (0x00A63800, .add 5 6 7),
    (0x00A63C00, .addw 5 6 7),
    (0x00A63801, .sub 5 6 7),
    (0x00A63C01, .subw 5 6 7),
    (0x00A63802, .and 5 6 7),
    (0x00A63803, .or 5 6 7),
    (0x00A63804, .xor 5 6 7),
    (0x00A63805, .sll 5 6 7),
    (0x00A63C05, .sllw 5 6 7),
    (0x00A63806, .srl 5 6 7),
    (0x00A63C06, .srlw 5 6 7),
    (0x00A63807, .sra 5 6 7),
    (0x00A63C07, .sraw 5 6 7),
    (0x00A63808, .slt 5 6 7),
    (0x00A63809, .sltu 5 6 7),
    (0x00A6380A, .min 5 6 7),
    (0x00A6380B, .max 5 6 7),
    (0x00A6380C, .minu 5 6 7),
    (0x00A6380D, .maxu 5 6 7),
    (0x00A63818, .mul 5 6 7),
    (0x00A63C18, .mulw 5 6 7),
    (0x00A63819, .mulh 5 6 7),
    (0x00A6381A, .mulhu 5 6 7),
    (0x00A6381C, .div 5 6 7)] : List (BitVec 32 × Instr)).all
    (fun x => reads (decodeScalar x.1) x.2) = true := by decide

theorem test_words_alu_2 : ([
    (0x00A63C1C, .divw 5 6 7),
    (0x00A6381D, .divu 5 6 7),
    (0x00A63C1D, .divuw 5 6 7),
    (0x00A6381E, .rem 5 6 7),
    (0x00A63C1E, .remw 5 6 7),
    (0x00A6381F, .remu 5 6 7),
    (0x00A63C1F, .remuw 5 6 7),
    (0x00A6000E, .clz 5 6),
    (0x00A6040E, .clzw 5 6),
    (0x00A6000F, .popc 5 6),
    (0x00A6040F, .popcw 5 6),
    (0x00A60090, .sext 5 6 .word)] : List (BitVec 32 × Instr)).all
    (fun x => reads (decodeScalar x.1) x.2) = true := by decide

theorem test_words_imm : ([
    (0x04A68001, .addi 5 6 0x8001),
    (0x08A68001, .andi 5 6 0x8001),
    (0x0CA68001, .ori 5 6 0x8001),
    (0x10A68001, .xori 5 6 0x8001),
    (0x18A68001, .slti 5 6 0x8001),
    (0x14A6002B, .slli 5 6 43),
    (0x14A6402B, .srli 5 6 43),
    (0x14A6802B, .srai 5 6 43),
    (0x14A62015, .slliw 5 6 21),
    (0x14A66015, .srliw 5 6 21),
    (0x14A6A015, .sraiw 5 6 21),
    (0x1CA08001, .lui 5 0x8001),
    (0x20A08001, .auipc 5 0x8001)] : List (BitVec 32 × Instr)).all
    (fun x => reads (decodeScalar x.1) x.2) = true := by decide

theorem test_words_mem : ([
    (0x24A6B381, .ld 5 6 5 .sync .half true 0x81),
    (0x28A6BC81, .st 5 6 5 .nonTemporal .word 0x81),
    (0x2CA63C60, .amoswap 5 6 7 .fabric .acq true),
    (0x2CA63C61, .amoadd 5 6 7 .fabric .acq true),
    (0x2CA63C62, .amoand 5 6 7 .fabric .acq true),
    (0x2CA63C63, .amoor 5 6 7 .fabric .acq true),
    (0x2CA63C64, .amoxor 5 6 7 .fabric .acq true),
    (0x2CA63C65, .amomin 5 6 7 .fabric .acq true),
    (0x2CA63C66, .amomax 5 6 7 .fabric .acq true),
    (0x2CA63C67, .amominu 5 6 7 .fabric .acq true),
    (0x2CA63C68, .amomaxu 5 6 7 .fabric .acq true),
    (0x2CA63C70, .amocas 5 6 7 .fabric .acq true)] : List (BitVec 32 × Instr)).all
    (fun x => reads (decodeScalar x.1) x.2) = true := by decide

theorem test_words_jump : ([
    (0x40C71003, .beq 6 7 0x1003),
    (0x40C73003, .bne 6 7 0x1003),
    (0x40C75003, .blt 6 7 0x1003),
    (0x40C77003, .bge 6 7 0x1003),
    (0x40C79003, .bltu 6 7 0x1003),
    (0x40C7B003, .bgeu 6 7 0x1003),
    (0x46000005, .j 0x2000005),
    (0x4A000005, .jal 0x2000005),
    (0x52000005, .bmz 0x2000005),
    (0x4CA68001, .jalr 5 6 0x8001)] : List (BitVec 32 × Instr)).all
    (fun x => reads (decodeScalar x.1) x.2) = true := by decide

theorem test_words_sync : ([
    (0x6000005A, .fence true false .full .tower),
    (0x60000881, .sbar 0x81),
    (0x60A61000, .ifence 5 6),
    (0x60001800, .tbar),
    (0x64063804, .tlwait 6 7 .cluster),
    (0x64A60009, .tlpoll 5 6 .tower),
    (0x64063812, .tlsig 6 7 .fabric),
    (0x68A60003, .cpy 5 6 3),
    (0x68A6000B, .gthr 5 6 3),
    (0x68A60013, .sctr 5 6 3),
    (0x68A6001B, .rpl 5 6 3),
    (0x68A60023, .bxl 5 6 3),
    (0x6C063800, .rlock 6 7),
    (0x6C063801, .runlock 6 7),
    (0x6C063802, .rfence 6 7)] : List (BitVec 32 × Instr)).all
    (fun x => reads (decodeScalar x.1) x.2) = true := by decide

theorem test_words_task : ([
    (0x70A60000, .spawn 5 6),
    (0x70A60001, .join 5 6),
    (0x70000002, .tend),
    (0x74A63800, .forkw 5 6 7),
    (0x74060001, .wend 6),
    (0x74060002, .choose 6),
    (0x74000022, .chooseSelf),
    (0x74000003, .wabort),
    (0x74A60004, .wquery 5 6)] : List (BitVec 32 × Instr)).all
    (fun x => reads (decodeScalar x.1) x.2) = true := by decide

theorem test_words_vctl : ([
    (0x78A63800, .vfetch 5 6 7),
    (0x78A60001, .vsett 5 6),
    (0x78A60002, .vsetl 5 6),
    (0x78A00022, .vsetlLq 5),
    (0x78060003, .tcfg 6),
    (0x78000004, .vdrain),
    (0x78060005, .unfs 6),
    (0x7D660000, .sacfg 11 6),
    (0x7D660001, .sasave 11 6),
    (0x7D660002, .saload 11 6)] : List (BitVec 32 × Instr)).all
    (fun x => reads (decodeScalar x.1) x.2) = true := by decide

theorem test_words_system : ([
    (0xFCA00403, .csrr 5 0x403),
    (0xFCA60C03, .csrw 5 6 0x403),
    (0xFCA61403, .csrs 5 6 0x403),
    (0xFCA61C03, .csrc 5 6 0x403),
    (0xFC002503, .trap 0x503),
    (0xFC002800, .eret),
    (0xFCA63000, .railsel 5 6),
    (0xFCA63800, .clipq 5 6)] : List (BitVec 32 × Instr)).all
    (fun x => reads (decodeScalar x.1) x.2) = true := by decide

theorem test_words_row : ([
    (0x00000000, .halt),
    (0x170A0240, .aap (.data 2 0x85) (.comp 9)),
    (0x370A0240, .dnot (.data 2 0x85) (.comp 9)),
    (0x470A0240, .lshf (.data 2 0x85) (.comp 9)),
    (0x570A0240, .rshf (.data 2 0x85) (.comp 9)),
    (0x1003C0C0, .aap (.comp 1) (.data 6 3)),
    (0x28000000, .tra 2),
    (0x6AC50000, .loopw 21 0x45),
    (0x70000000, .endw),
    (0x80000000, .step)] : List (BitVec 32 × Instr)).all
    (fun x => reads (decodeRow x.1) x.2) = true := by decide

theorem test_words_vector : ([
    (0x0100000000000000, .vstop),
    (0x0200000000010005, .vskz 5 .first)] : List (BitVec 64 × Instr)).all
    (fun x => reads (decodeVector x.1) x.2) = true := by decide

theorem test_words_vint : ([
    (0x104A960604020000, .vadd 9 10 (.reg 11) { msel := 3, width := 4, fl := .last }),
    (0x104A800604068001, .vadd 9 10 (.imm 0x8001) { msel := 3, width := 4, fl := .last }),
    (0x114A960604020000, .vsub 9 10 (.reg 11) { msel := 3, width := 4, fl := .last }),
    (0x124A960604020000, .vadds 9 10 (.reg 11) { msel := 3, width := 4, fl := .last }),
    (0x134A960604020000, .vsubs 9 10 (.reg 11) { msel := 3, width := 4, fl := .last }),
    (0x144A960604020000, .vmul 9 10 (.reg 11) { msel := 3, width := 4, fl := .last }),
    (0x154A960604020000, .vmulh 9 10 (.reg 11) { msel := 3, width := 4, fl := .last }),
    (0x154A800604068001, .vmulh 9 10 (.imm 0x8001) { msel := 3, width := 4, fl := .last }),
    (0x164A960604020000, .vmin 9 10 (.reg 11) { msel := 3, width := 4, fl := .last }),
    (0x174A960604020000, .vmax 9 10 (.reg 11) { msel := 3, width := 4, fl := .last }),
    (0x184A960604020000, .vand 9 10 (.reg 11) { msel := 3, width := 4, fl := .last }),
    (0x194A960604020000, .vor 9 10 (.reg 11) { msel := 3, width := 4, fl := .last }),
    (0x1A4A960604020000, .vxor 9 10 (.reg 11) { msel := 3, width := 4, fl := .last }),
    (0x1A4A800604068001, .vxor 9 10 (.imm 0x8001) { msel := 3, width := 4, fl := .last }),
    (0x1B4A960604020000, .vsll 9 10 (.reg 11) { msel := 3, width := 4, fl := .last }),
    (0x1C4A960604020000, .vsrl 9 10 (.reg 11) { msel := 3, width := 4, fl := .last }),
    (0x1D4A960604020000, .vsra 9 10 (.reg 11) { msel := 3, width := 4, fl := .last }),
    (0x1E32960604020000, .vcmp .eq 6 10 (.reg 11) { msel := 3, width := 4, fl := .last }),
    (0x1E329606040A0000, .vcmp .ne 6 10 (.reg 11) { msel := 3, width := 4, fl := .last }),
    (0x1E32960604120000, .vcmp .lt 6 10 (.reg 11) { msel := 3, width := 4, fl := .last }),
    (0x1E329606041A0000, .vcmp .ge 6 10 (.reg 11) { msel := 3, width := 4, fl := .last }),
    (0x1E32960604220000, .vcmp .le 6 10 (.reg 11) { msel := 3, width := 4, fl := .last }),
    (0x1E329606042A0000, .vcmp .gt 6 10 (.reg 11) { msel := 3, width := 4, fl := .last }),
    (0x1F4A965604020000, .vsel 9 10 (.reg 11) 5 { msel := 3, width := 4, fl := .last })] : List (BitVec 64 × Instr)).all
    (fun x => reads (decodeVector x.1) x.2) = true := by decide

theorem test_words_vfloat : ([
    (0x204A960614020000, .vfadd 9 10 11 2 { msel := 3, width := 4, fl := .last }),
    (0x214A960614020000, .vfsub 9 10 11 2 { msel := 3, width := 4, fl := .last }),
    (0x224A960614020000, .vfmul 9 10 11 2 { msel := 3, width := 4, fl := .last }),
    (0x244A960614020000, .vfmin 9 10 11 2 { msel := 3, width := 4, fl := .last }),
    (0x254A960614020000, .vfmax 9 10 11 2 { msel := 3, width := 4, fl := .last }),
    (0x264A960614020000, .vfdiv 9 10 11 2 { msel := 3, width := 4, fl := .last }),
    (0x234A96C614020000, .vfma 9 10 11 12 2 { msel := 3, width := 4, fl := .last }),
    (0x274A800614020000, .vfsqrt 9 10 2 { msel := 3, width := 4, fl := .last }),
    (0x284A800614020000, .vfrsq 9 10 2 { msel := 3, width := 4, fl := .last }),
    (0x294A800614020000, .vfexp2 9 10 2 { msel := 3, width := 4, fl := .last }),
    (0x2A32960614020000, .vfcmp .eq 6 10 11 2 { msel := 3, width := 4, fl := .last }),
    (0x2A32960614060000, .vfcmp .ne 6 10 11 2 { msel := 3, width := 4, fl := .last }),
    (0x2A329606140A0000, .vfcmp .lt 6 10 11 2 { msel := 3, width := 4, fl := .last }),
    (0x2A329606140E0000, .vfcmp .le 6 10 11 2 { msel := 3, width := 4, fl := .last }),
    (0x2A32960614120000, .vfcmp .gt 6 10 11 2 { msel := 3, width := 4, fl := .last }),
    (0x2A32960614160000, .vfcmp .ge 6 10 11 2 { msel := 3, width := 4, fl := .last }),
    (0x2A329606141A0000, .vfcmp .un 6 10 11 2 { msel := 3, width := 4, fl := .last }),
    (0x2B4A80061412660B, .vfcvt 9 10 2 4 3 6 0xB { msel := 3, width := 4, fl := .last })] : List (BitVec 64 × Instr)).all
    (fun x => reads (decodeVector x.1) x.2) = true := by decide

theorem test_words_vmove : ([
    (0x304A800614020000, .vred .sum 9 10 2 { msel := 3, width := 4, fl := .last }),
    (0x304A800614060000, .vred .min 9 10 2 { msel := 3, width := 4, fl := .last }),
    (0x304A8006140A0000, .vred .max 9 10 2 { msel := 3, width := 4, fl := .last }),
    (0x304A8006140E0000, .vred .sums 9 10 2 { msel := 3, width := 4, fl := .last }),
    (0x304A800614120000, .vred .and 9 10 2 { msel := 3, width := 4, fl := .last }),
    (0x304A800614160000, .vred .or 9 10 2 { msel := 3, width := 4, fl := .last }),
    (0x304A8006141A0000, .vred .xor 9 10 2 { msel := 3, width := 4, fl := .last }),
    (0x314A800604028001, .vxch 9 10 0x8001 { msel := 3, width := 4, fl := .last }),
    (0x324A960604020000, .vperm 9 10 11 { msel := 3, width := 4, fl := .last }),
    (0x334A800604028001, .vslide 9 10 0x8001 { msel := 3, width := 4, fl := .last }),
    (0x3401400000020000, .vpopc 5 .last),
    (0x3801400000020000, .mpush 5 .last),
    (0x3900000000020000, .minv .last),
    (0x3A00000000020000, .mpop .last),
    (0x3B31400000020000, .mmov 6 5 .last)] : List (BitVec 64 × Instr)).all
    (fun x => reads (decodeVector x.1) x.2) = true := by decide

theorem test_words_vmem : ([
    (0x40488007440A8001, .vld 9 2 0x8001 5 .sync { msel := 3, width := 4, fl := .last }),
    (0x41488007440E8001, .vst 9 2 0x8001 5 .nonTemporal { msel := 3, width := 4, fl := .last }),
    (0x4248960744160000, .vldx 9 2 11 5 .bypass true { msel := 3, width := 4, fl := .last }),
    (0x43489607440A0000, .vstx 9 2 11 5 .sync false { msel := 3, width := 4, fl := .last })] : List (BitVec 64 × Instr)).all
    (fun x => reads (decodeVector x.1) x.2) = true := by decide

theorem test_words_tile : ([
    (0x5028000000010000, .tzero 5 .first),
    (0x512A80060005000D, .troww 5 10 13 true 3 .first),
    (0x525140060001000D, .trowr 10 5 13 false 3 .first),
    (0x532A80060005000D, .tcolw 5 10 13 true 3 .first),
    (0x545140060001000D, .tcolr 10 5 13 false 3 .first),
    (0x552A9600100100BA, .opa 5 10 11 2 false false 0xBA .first),
    (0x55281600106100BA, .opa 5 0 11 2 true true 0xBA .first),
    (0x562A96C0100125BA, .opag 5 10 11 12 2 false false 0x25 0xBA .first),
    (0x5848800744028001, .saadd 9 2 0x8001 5 { msel := 3, width := 4, fl := .last }),
    (0x5948800754028001, .sanrm 9 2 0x8001 5 2 { msel := 3, width := 4, fl := .last })] : List (BitVec 64 × Instr)).all
    (fun x => reads (decodeVector x.1) x.2) = true := by decide

theorem test_operators : ([
    ([0x01], .eLda),
    ([0x02], .eLdb),
    ([0x04], .eAdd),
    ([0x05], .eSub),
    ([0x06], .eMul),
    ([0x07], .eFma),
    ([0x08], .eMin),
    ([0x09], .eMax),
    ([0x0A], .eAbs),
    ([0x0B], .eNeg),
    ([0x0C], .eCmplt),
    ([0x0D], .eSel),
    ([0x0F], .eDup),
    ([0x10], .eSwap),
    ([0x11], .eDrop),
    ([0x12], .eSumr),
    ([0x13], .eMaxr),
    ([0x14], .eSto),
    ([0x03, 0x02], .eLdk 2),
    ([0x0E, 0x75], .eCvt 7 5),
    ([0x0E, 0x20], .eCvt 2 0)] : List (List Byte × Instr)).all
    (fun x => (decodeExpr (x.1 ++ [0xFF])).toOption == some (x.2, [0xFF])) = true := by decide

/-! ### Statements about scalar words: what their hypotheses need can be had -/

theorem reaches_load : Reaches paged .load 0x10040 8 0x10040 0 page1 :=
  ⟨⟨rfl, by decide, by decide, by decide, by rfl, by decide, by decide⟩, rfl⟩
theorem reaches_store : Reaches paged .store 0x10040 8 0x10040 0 page1 :=
  ⟨⟨rfl, by decide, by decide, by decide, by rfl, by decide, by decide⟩, rfl⟩
theorem reaches_atomic : Reaches paged .atomic 0x10040 8 0x10040 0 page1 :=
  ⟨⟨rfl, by decide, by decide, by decide, by rfl, by decide, by decide⟩, rfl⟩
theorem clean_paged : Clean paged 0x10040 8 := by unfold Clean; decide
theorem placeable_paged : Placeable paged 0x10040 8 := by unfold Placeable; decide
theorem releaseFree_paged : ReleaseFree paged .package := ⟨rfl, rfl, fun h => nomatch h⟩
theorem memoryOk_paged : MemoryOk paged := rfl
theorem page1_apart : 0x10040 + 8 ≤ page1.slot ∨ page1.slot + 8 ≤ 0x10040 := by decide +kernel

theorem witness_BranchesAndJumps : (0x10#64 + BitVec.ofInt 64 (4#16).toInt).toNat % 4 = 0 ∧
    (0x10#64 + BitVec.ofInt 64 (2#16).toInt).toNat % 4 ≠ 0 ∧ team1.me.inFlight = false ∧
    (block1 team1).me.inFlight = true := by decide +kernel

theorem witness_MissingPage : (0x20000#64).toNat % 8 = 0 ∧ paged.me.blk = none ∧ isOwn 0x20000 = true ∧ paged.side = [] ∧
    paged.me.wait = none ∧ paged.me.answers = [] ∧ (paged.pctlAt 0).reqs.length < 1024 ∧
    paged.xlate 0 .load 0x20000 = .missing ∧ paged.xlate 0 .store 0x20000 = .missing := by decide +kernel

theorem witness_Scratchpad : (0xFFFFC00000000008#64).toNat % 8 = 0 ∧ isWindow 0xFFFFC00000000008 = true ∧
    towerOf 0xFFFFC00000000008 < 3 ∧ paged.ue = [] ∧
    paged.scratchKey paged.team 0xFFFFC00000000008 = none ∧ paged.side = [] ∧ paged.me.sperr.getLsbD 63 = false := by decide +kernel

theorem witness_Versions : isOrdinary 0x10040 = true ∧ MemoryOk paged ∧ paged.verByte 1 0x10040 = none ∧
    paged.parentOf (paged.parentOf (paged.parentOf (paged.parentOf 1))) = 0 ∧
    (paged.setByte 1 0x10040 7).verByte 1 0x10040 = some 7 := by unfold MemoryOk; decide

/-- A second hart of the team. -/
def team2 : State := { team1 with peers := [{ Hart.reset with idx := 1, alive := true }] }

theorem witness_Fences : ReleaseFree team1 .package ∧ team1.cmdsPending = false ∧
    team1.addsPending (BitVec.allOnes 8) = false ∧ (team1.withCmd kCPY [0]).cmdsPending = true ∧
    ReleaseFree (team1.withCmd kCPY [0]) .package :=
  ⟨⟨rfl, rfl, fun h => nomatch h⟩, rfl, rfl, by decide, ⟨rfl, rfl, fun h => nomatch h⟩⟩
theorem witness_Fences_fabric : ReleaseFree team1 .fabric ∧ team1.addsPending 0xFF = false :=
  ⟨⟨rfl, rfl, fun _ => rfl⟩, rfl⟩

theorem witness_TeamBarrier : team1.me.blk = none ∧ team1.side = [] ∧ team1.addsPending (BitVec.allOnes 8) = false ∧
    team1.peers = [] ∧ (∃ p, p ∈ team2.peers ∧ p.alive = true ∧ p.wait ≠ some .barrier) := by
  exact ⟨rfl, rfl, rfl, rfl, _, by simp [team2]; rfl, rfl, by decide⟩

theorem witness_EngineWords : ixOk kGTHR [0, 0, 0, 1, 0] = true ∧ ixOk kSCTR [0, 0, 0, 1, 0x1002] = true ∧
    bxlOk 1 0 = true ∧ team1.outstanding (fun k => k.queue.isNone) = 0 := by decide +kernel

theorem witness_Misaligned : (0x10001#64).toNat % Size.bytes .half ≠ 0 ∧ (0x10004#64).toNat % 8 ≠ 0 ∧
    (amoInstr 16 5 6 7 .package .acqrel true).isSome = true ∧ (0x10040#64).toNat % Size.bytes .dword = 0 := by decide
/-- In the codes 3 to 7 of the windows. -/
theorem witness_Windows : isWindow 0xFFFFE80000000000 = true ∧ 5 ≤ (0xFFFFE80000000000#64).toNat / 2 ^ 43 % 8 ∧
    isWindow 0xFFFFD80000000000 = true ∧ (0xFFFFD80000000000#64).toNat / 2 ^ 43 % 8 = 3 ∧ isWindow 0xFFFFE00000000000 = true ∧
    (0xFFFFE00000000000#64).toNat / 2 ^ 43 % 8 = 4 ∧ isWindow 0xFFFFE00100000000 = true ∧
    (0xFFFFE00100000000#64).toNat / 2 ^ 43 % 8 = 4 ∧ (0xFFFFE00100000000#64).toNat / 2 ^ 32 % 2 ^ 11 ≠ 0 ∧
    (0xFFFFE00100000000#64).toNat % 8 = 0 := by decide
/-! ### Statements about rows, tasks and worlds -/

/-- A row program of one member, subarray 0, that reads and writes rows 64 to 66 as b1+0 to b1+2, live. -/
def run1 : Run :=
  { cid := 1, order := 0, tower := 0, coords := [0], subs := [0], words := [0x12000240, 0], args := [64, 0, 0, 0, 0, 0, 0],
    wcount := 1, tx := false, chk := false, flushed := [(0, 0x100000)], reads := [64], writes := [65], live := true, lo := 0, hi := 1, pc := 0,
    bases := [64, 0, 0, 0, 0, 0, 0], loops := [], stale := [], shadow := [], checked := [], bad := [], atStep := false,
    halted := false }

/-- X[1] = 0x10000, X[2] = 1024: the range of row 64. -/
def ranged : State := regs paged [(1, 0x10000), (2, 1024)]

theorem witness_RowWords : ranged.team.world = 0 ∧ ranged.me.blk = none ∧ ranged.side = [] ∧ (ranged.x 2).toNat ≠ 0 ∧
    ranged.rowCmds = [] ∧ ranged.cmds = [] ∧ (ranged.locks.filter (·.tower == 0)).length < 64 := by decide +kernel
theorem witness_rangeRows : rangeRows (ranged.x 1) 1024 ranged = .ok [64] ranged := rfl

/-- A program of another team holds row 64: RLOCK waits; RFENCE waits for one of its own team too. -/
theorem witness_RowWords_busy : ({ ranged with runs := [run1] }).rowCmds.any
    (fun r => r.2.1 && ({ ranged with runs := [run1] }).teamOfCmd r.1 != 0 && r.2.2.any [64].contains) = true := by decide +kernel

/-- An acorn record at 0x10040: code 0x20000, frame 0x30000, no join record, flags, two readiness conditions. -/
def record1 (a1 v1 : Nat) : List Byte :=
  leBytes 8 0x20000 ++ leBytes 8 0x30000 ++ leBytes 8 0 ++ leBytes 8 0 ++ leBytes 8 a1 ++ leBytes 8 v1 ++ leBytes 16 0

/-- X[6] names the record; its condition on the doubleword at 0x10100 is met where it asks for 0. -/
def spawner (a1 v1 : Nat) : State := regs (put paged 0x10040 (record1 a1 v1)) [(6, 0x10040)]

theorem reaches_spawn : Reaches (spawner 0 0) .load 0x10040 64 0x10040 0 page1 ∧
    Reaches (spawner 0x10100 1) .load 0x10040 64 0x10040 0 page1 ∧ Reaches (spawner 4 0) .load 0x10040 64 0x10040 0 page1 :=
  ⟨⟨⟨rfl, by decide, by decide, by decide, by decide +kernel, fun _ h => absurd rfl h, by decide +kernel⟩, rfl⟩,
   ⟨⟨rfl, by decide, by decide, by decide, by decide +kernel, fun _ h => absurd rfl h, by decide +kernel⟩, rfl⟩,
   ⟨⟨rfl, by decide, by decide, by decide, by decide +kernel, fun _ h => absurd rfl h, by decide +kernel⟩, rfl⟩⟩

theorem witness_Spawn : (spawner 0 0).recordTrap ((spawner 0 0).bytesIn 0 0x10040 64) 0x10040 = none ∧
    (spawner 0 0).readyAcorn ((spawner 0 0).acornHere ((spawner 0 0).bytesIn 0 0x10040 64) 0x10040) = true ∧
    (spawner 0x10100 1).recordTrap ((spawner 0x10100 1).bytesIn 0 0x10040 64) 0x10040 = none ∧
    (spawner 0x10100 1).readyAcorn
      ((spawner 0x10100 1).acornHere ((spawner 0x10100 1).bytesIn 0 0x10040 64) 0x10040) = false ∧
    acornOk ((spawner 4 0).bytesIn 0 0x10040 64) = false ∧ (spawner 0 0).team.depth ≠ 4 ∧ (spawner 0 0).watchCount 0 = 0 ∧
    (spawner 4 0).recordTrap ((spawner 4 0).bytesIn 0 0x10040 64) 0x10040 = some (.of 0x16 0x10040) := by decide +kernel

/-- A versioned acorn's record at depth 4. -/
def deep (s : State) : State := { put s 0x10058 [4] with team := { s.team with depth := 4 } }
theorem witness_Spawn_deep : (deep (spawner 0 0)).team.depth = 4 ∧
    (deep (spawner 0 0)).recordTrap ((deep (spawner 0 0)).bytesIn 0 0x10040 64) 0x10040 = none ∧
    ((deep (spawner 0 0)).acornHere ((deep (spawner 0 0)).bytesIn 0 0x10040 64) 0x10040).versioned = true := by decide +kernel

theorem test_spawn : goesTo (exec (.spawn 5 6) (spawner 0 0))
    (fun t => t.x 5 == 1 && (t.coreAt 0).deque.length == 1 && t.me.pc == 4) = true := by decide +kernel

/-- A join record at 0x10080 with a count and a continuation record. -/
def joiner (n cont : Nat) : State := regs (put (spawner 0 0) 0x10080 (leBytes 8 n ++ leBytes 8 cont)) [(7, 0x10080)]

theorem witness_Join : (joiner 1 0x10040).markPage page1 (some 0) true = joiner 1 0x10040 ∧
    (joiner 1 0x10040).markPage page1 (some 0) false = joiner 1 0x10040 ∧ ((joiner 1 0x10040).coreAt 0).deque = [] ∧
    leVal ((joiner 1 0x10040).bytesIn 0 0x10080 8) = 1 ∧ leVal ((joiner 1 0x10040).bytesIn 0 0x10088 8) = 0x10040 ∧
    (joiner 1 0x10040).recordTrap ((joiner 1 0x10040).bytesIn 0 0x10040 64) 0x10040 = none ∧
    ((joiner 1 0x10040).acornHere ((joiner 1 0x10040).bytesIn 0 0x10040 64) 0x10040).versioned = false ∧
    ((joiner 1 0x10040).storeAt 0 0x10080 (leBytes 8 0)).readyAcorn
      ((joiner 1 0x10040).acornHere ((joiner 1 0x10040).bytesIn 0 0x10040 64) 0x10040) = true ∧
    leVal ((joiner 2 0).bytesIn 0 0x10080 8) = 2 ∧ leVal ((joiner 0 0).bytesIn 0 0x10080 8) = 0 := by decide +kernel
theorem witness_Join_reach : Reaches (joiner 1 0x10040) .atomic 0x10080 8 0x10080 0 page1 ∧
    Reaches (joiner 1 0x10040) .load 0x10088 8 0x10088 0 page1 ∧ Reaches (joiner 1 0x10040) .load 0x10040 64 0x10040 0 page1 ∧
    Clean (joiner 1 0x10040) 0x10040 64 ∧ Clean (joiner 1 0x10040) 0x10080 8 ∧ Placeable (joiner 1 0x10040) 0x10080 8 ∧
    leVal ((joiner 1 0x10041).bytesIn 0 0x10088 8) % 64 ≠ 0 :=
  ⟨⟨⟨rfl, by decide, by decide, by decide, by rfl, fun _ h => absurd rfl h, by rfl⟩, rfl⟩,
    ⟨⟨rfl, by decide, by decide, by decide, by rfl, (fun _ h => nomatch h), by rfl⟩, rfl⟩,
    ⟨⟨rfl, by decide, by decide, by decide, by rfl, (fun _ h => nomatch h), by rfl⟩, rfl⟩,
    by unfold Clean; decide +kernel, by unfold Clean; decide +kernel, by unfold Placeable; decide +kernel, by decide +kernel⟩

theorem test_join : goesTo (exec (.join 5 7) (joiner 2 0)) (fun t => t.x 5 == 1 && leVal (t.bytesIn 0 0x10080 8) == 1) = true ∧
    goesTo (exec (.join 5 7) (joiner 1 0x10040)) (fun t => t.x 5 == 0 && (t.coreAt 0).deque.length == 1) = true ∧
    goesTo (exec (.join 5 7) (joiner 1 0)) (fun t => t.x 5 == 0 && (t.coreAt 0).deque.length == 0) = true := by decide +kernel

/-- A team in rival 0 of fork 1, whose parent is world 0. -/
def forked : State :=
  let a : Acorn := acornOf (record1 0 0) 0x10040 0 0
  { team1 with
    team := { team1.team with world := 1, depth := 1 },
    worlds := [{ id := 1, parent := 0, depth := 1, fork := some (1, 0), trapx := false, merged := false, home := 0, log := [] }],
    forks := [{ handle := 1, parent := 0, rivals := [{ wid := 1, depth := 1, st := .running, score := none }],
                decided := false, cont := a, contAddr := 0x10040, core := 0, pushed := false }] }

/-- The same fork seen from its parent, its rival ended. -/
def chooser : State := regs { forked with
  team := { team1.team with world := 0 },
  forks := forked.forks.map fun f =>
    { f with rivals := [{ wid := 1, depth := 1, st := .ended, score := some 9 }] } } [(6, 1), (8, 0x100001), (9, 0x800001)]
/-- A team in a rival's world, page1 in the pool, and device 5 entered in the routing table. -/
def inPool : State := { forked with tlb := [{ page1 with pte := page1.pte ||| 2#64 <<< 5 }], routes := [(5, true)] }
theorem witness_Escapes : inPool.me.blk = none ∧ inPool.team.world ≠ 0 ∧
    (inPool.xlate 0 .store 0x10040 = .at_ 0x10040 2 { page1 with pte := page1.pte ||| 2#64 <<< 5 }) ∧
    inPool.hintScope 0x10040 = .fabric ∧ isOwn 0x0001400000010040 = false ∧ isWindow 0x0001400000010040 = false ∧
    (0x0001400000010040#64).toNat / 2 ^ 46 = 5 ∧ (∃ x, x ∈ inPool.routes ∧ x.1 = 5) ∧ (∀ x, x ∈ team1.routes → x.1 ≠ 5) ∧
    isWindow 0x10040 = false := by
  refine ⟨rfl, by decide, by rfl, by decide +kernel, by decide, by decide, by decide, ⟨_, List.mem_singleton_self _, rfl⟩, ?_, by decide⟩
  exact fun x h => nomatch h
theorem test_escape : goesTo (exec (.st 7 6 0 .normal .dword 0) (regs inPool [(6, 0x10040)])) (fun t => t.parked == [] && !t.live) = true := by decide +kernel

theorem witness_Ends : team1.me.blk = none ∧ team1.side = [] ∧ team1.me.replay = none ∧ team1.cmdsPending = false ∧
    team1.me.inHandler = false ∧ team2.peers.any (·.alive) = true ∧ team1.peers = [] ∧ team1.team.versioned = false ∧
    team1.forks = [] ∧ team1.worlds = [] ∧ team1.live = true ∧ team1.scored = none ∧ forked.scored = some (1, 0) ∧
    ({ forked with peers := team2.peers }).team.moved = [] ∧ team1.team.owed = none ∧ team1.team.carried = 0 ∧
    team1.team.joinrec = 0 ∧ team1.launches = [] ∧ team1.team.contOf = [] ∧
    (forked.forkAt 1).bind (fun f => f.rivals[0]?.bind (·.score)) = none := by decide +kernel

/-- A task whose join record at 0x10080 awaits two arrivals. -/
def owing : State := { put paged 0x10080 (leBytes 8 2) with team := { paged.team with joinrec := 0x10080 } }
theorem witness_Ends_join : isWindow owing.team.joinrec = false ∧ owing.xlate 0 .atomic 0x10080 = .at_ 0x10080 0 page1 ∧
    owing.accessHeld 0x10080 16 page1 none true = false ∧ owing.markPage page1 none true = owing ∧ Placeable owing 0x10080 8 ∧
    leVal (owing.bytesIn 0 0x10080 8) = 2 :=
  ⟨by decide, by rfl, by rfl, by decide +kernel, by unfold Placeable; decide, by decide⟩
/-- Join records at which an arrival is dropped: in a window, on a page without W, of a message-only device and of none. -/
theorem witness_Ends_dropped : isWindow 0xFFFFC00000000000 = true ∧
    ({ paged with tlb := [{ page1 with pte := 0x10001 }] }).xlate 0 .atomic 0x10080 = .denied 0 ∧
    ({ paged with routes := [(5, false)] }).xlate 0 .atomic 0x0001400000010080 = .message (remoteKey 0x0001400000010080) ∧
    paged.xlate 0 .atomic 0x0001400000010080 = .unrouted := ⟨by decide, by rfl, by rfl, by rfl⟩
/-- The last hart of the last task of a launch whose count is 0, or is not. -/
def lastOf (n : Nat) : State :=
  let s := put paged (joinKey 0 0) (leBytes 8 n)
  { s with launches := [{ newLaunch team1 0 0 0 0 with id := 0, joinrec := 0x40000000, started := true }] }
theorem witness_Ends_launch :
    ((lastOf 0).launches.filter fun l => l.started && !l.complete && (lastOf 0).dwordAt (joinKey l.id 0) == 0).length = 1 ∧
    (lastOf 0).launches.length = 1 ∧
    ((lastOf 1).launches.filter fun l => l.started && !l.complete && (lastOf 1).dwordAt (joinKey l.id 0) == 0) = [] := by decide +kernel
theorem test_tend_launch : goesTo (exec .tend (lastOf 0)) (fun t => !t.live && t.launches.all (·.complete)) = true ∧
    goesTo (exec .tend (lastOf 1)) (fun t => !t.live && t.launches.all (!·.complete)) = true := by decide +kernel

theorem test_tend : goesTo (exec .tend owing) (fun t => !t.live && leVal (t.bytesIn 0 0x10080 8) == 1) = true ∧
    goesTo (exec .tend team2) (fun t => !t.me.alive && t.live) = true ∧
    goesTo (exec .tend team1) (fun t => !t.live) = true ∧
    goesTo (exec (.wend 6) (regs { forked with peers := team2.peers } [(6, 5)]))
      (fun t => !t.me.alive && (t.forkAt 1).any fun f => (f.rivals[0]?).any fun r => r.score == some 5 && r.st == .ended)
      = true := by decide +kernel

/-- X[10] asks for two rivals; X[6] names the continuation record. -/
def forker : State := regs (spawner 0 0) [(10, 2), (11, 1)]

theorem witness_Forkw : forker.peers = [] ∧ forker.me.inHandler = false ∧ forker.me.blk = none ∧ forker.side = [] ∧
    forker.recordTrap (forker.bytesIn 0 0x10040 64) 0x10040 = none ∧ dwordOf (forker.bytesIn 0 0x10040 64) 16 = 0 ∧
    forker.team.depth ≠ 4 ∧ 2 ≤ forker.freeCount ∧ (forker.coreAt 0).deque.length + 1 ≤ 4096 ∧
    (forker.x 11).toNat % 16 < 2 := by decide +kernel
def inHandlerFork : State := { forker with me := { forker.me with tstat := 1 } }

/-- A second hart that has reached the same FORKW, or one of other operands, or none. -/
def forker2 (args : Option (Word × Word × Reg)) (n : Nat) : State :=
  regs { forker with peers := [{ Hart.reset with idx := 1, alive := true, wait := some .team, forkArgs := args }] } [(10, BitVec.ofNat 64 n)]
theorem witness_Forkw_team : ((forker2 (some (2, 0x10040, 5)) 2).peers.all fun p => p.atFork && !p.inFlight &&
      p.forkArgs.map (fun z => (z.1, z.2.1)) == some (2, 0x10040)) = true ∧
    ((forker2 none 2).peers.all fun p => p.alive && !p.atFork) = true ∧
    ((forker2 (some (3, 0x10040, 5)) 2).peers.all fun p => p.forkArgs.map (fun z => (z.1, z.2.1)) != some (2, 0x10040)) = true ∧
    (regs inHandlerFork [(10, 2)]).me.inHandler = true := by decide +kernel
theorem test_forkw_team : goesTo (exec (.forkw 5 10 6) (forker2 (some (2, 0x10040, 5)) 2))
      (fun t => t.team.world != 0 && t.peers.all fun p => p.pc == 4 && p.wait == none && p.forkArgs == none) = true ∧
    goesTo (exec (.forkw 5 10 6) (forker2 none 2)) (fun t => t.me.wait == some .team && t.me.pc == 0) = true ∧
    goesTo (exec (.forkw 5 10 6) (forker2 (some (3, 0x10040, 5)) 2))
      (fun t => t.peers.all fun p => p.entry.any fun e => e.1.tval == 3) = true := by decide +kernel

theorem witness_World : (forked.worldAt 1).bind (·.fork) = some (1, 0) ∧ forked.me.replay = none ∧
    forked.team.world ≠ 0 ∧ (forked.forkAt 1).map (·.decided) = some false ∧
    (forked.settleFork 1 (some 0)).1 = [] ∧ (forked.settleFork 1 (some 0)).2.me.blk = none ∧
    (chooser.forkAt 1).map (·.parent) = some chooser.team.world ∧ (chooser.settleFork 1 (some 0)).1 = [] ∧
    (chooser.settleFork 1 none).1 = [] ∧ team1.worldAt 0 = none := by decide +kernel
/-- A versioned task in its own world. -/
def ownWorld : State :=
  { team1 with team := { team1.team with world := 1, depth := 1, versioned := true },
               worlds := [{ id := 1, parent := 0, depth := 1, fork := none, trapx := false, merged := false, home := 0, log := [] }] }
theorem witness_World_apart : chooser.live = true ∧ chooser.me.replay = none ∧ chooser.me.blk = none ∧ chooser.side = [] ∧
    (∀ w, w ∈ chooser.worlds → w.log = []) ∧ chooser.team.world = 0 ∧ (chooser.x 6) &&& ~~~0x970FFF#64 = 0 ∧
    (chooser.x 6).getLsbD 20 = false ∧ (chooser.x 6).getLsbD 23 = false ∧
    (chooser.forkAt 1).all (fun f => f.rivals.all fun r => r.wid != 0 && !(chooser.below r.wid).contains 0) = true ∧
    (forked.forkAt 1).map (fun f => (f.parent, f.rivals.map (·.wid))) = some (0, [1]) ∧ 1 ∉ forked.below 1 ∧ 0 ∉ forked.below 1 ∧
    forked.live = true ∧ (∀ w, w ∈ forked.worlds → w.log = []) ∧ (ownWorld.worldAt 1).map (·.fork) = some none ∧
    ownWorld.team.joinrec = 0 ∧ ownWorld.team.owed = none := by decide +kernel

theorem test_worlds : goesTo (exec (.wquery 5 8) chooser) (fun t => t.x 5 == 9) = true ∧
    goesTo (exec (.wquery 5 6) chooser) (fun t => t.x 5 == 0x10010011) = true ∧
    goesTo (exec (.choose 6) chooser) (fun t => t.me.pc == 4 && (t.forkAt 1).all (·.decided)) = true ∧
    goesTo (exec (.choose 9) chooser) (fun t => t.me.pc == 4) = true ∧
    goesTo (exec .wabort forked) (fun t => !t.live) = true := by decide +kernel

/-! ### Statements about vector control, CSRs and traps -/

/-- A hart whose length queue holds 5. -/
def queued : State := { team1 with me := { team1.me with lq := [5] } }

theorem witness_VectorLength : vtypeLegal 0x25 = true ∧ vtypeLegal 0x40 = false ∧ queued.me.lq = [5] ∧ team1.me.lq = [] ∧
    team1.me.inFlight = false ∧ (block1 team1).me.inFlight = true ∧ (block1 team1).me.lq = [] := by decide +kernel

theorem test_vsetl : goesTo (exec (.vsetl 5 6) (regs team1 [(6, 100000)])) (fun t => t.x 5 == 1536 && t.me.vl == 1536) = true ∧
    goesTo (exec (.vsetlLq 5) queued) (fun t => t.x 5 == 5 && t.me.vl == 5 && t.me.lq == []) = true ∧
    goesTo (exec (.vsett 5 6) (regs team1 [(6, 0x23)])) (fun t => t.me.tcause == 8 || t.live == false) = true := by decide +kernel

/-- A block at 0x10040 that only stops, and one whose first word is no vector word. -/
def blockOf (w : Nat) : State := regs (put paged 0x10040 (leBytes 8 w ++ leBytes 8 vstopWord.toNat)) [(9, 0x10040)]

theorem witness_Vfetch : (blockOf 0).me.inHandler = false ∧ (blockOf 0).me.blk = none ∧ (blockOf 0).x 10 = 0 ∧
    (blockOf 0).temporal = [] ∧ blockFails (tilesOf 0) [vstopWord] = none ∧
    blockFails (tilesOf 0) [0x0F00000000000000, vstopWord] = some 0 := by decide +kernel
theorem witness_readBlock : ∃ s1, readBlock 512 0x10048 (blockOf 0) = .ok [vstopWord] s1 := ⟨_, rfl⟩
theorem witness_readBlock_ill : ∃ s1, readBlock 512 0x10040 (blockOf 0x0F00000000000000) =
    .ok [0x0F00000000000000, vstopWord] s1 := ⟨_, rfl⟩

/-- A loop table of one level at 0x10080: 3 passes, strides 1, -1, 0 and 0. -/
def tableOf (n count : Nat) : State :=
  regs (put (blockOf 0) 0x10080 (leBytes 8 n ++ leBytes 8 0 ++ leBytes 8 count ++ leBytes 4 1 ++ leBytes 4 0xFFFFFFFF ++
    leBytes 8 0 ++ leBytes 8 0)) [(10, 0x10080)]
theorem witness_Vfetch_table : (0x10080#64).toNat % 16 = 0 ∧ (0x10080#64).toNat % 65536 + (16 + 32 * 1) ≤ 65536 ∧
    Mapped (tableOf 1 3) .fetch 0x10080 16 0x10080 0 page1 ∧ Mapped (tableOf 1 3) .fetch 0x10090 32 0x10090 0 page1 ∧
    (tableOf 1 3).markPage page1 (some 0) false = tableOf 1 3 ∧ Clean (tableOf 1 3) 0x10080 48 ∧
    dwordOf ((tableOf 1 3).bytesIn 0 0x10080 48) 0 = 1 ∧ (dwordOf ((tableOf 1 3).bytesIn 0 0x10080 48) 16).toNat = 3 ∧
    dwordOf ((tableOf 1 3).bytesIn 0 0x10080 48) 40 = 0 ∧ dwordOf ((tableOf 7 3).bytesIn 0 0x10080 48) 0 = 7 ∧
    dwordOf ((tableOf 1 0).bytesIn 0 0x10080 48) 16 = 0 :=
  ⟨by decide, by decide, ⟨rfl, by decide, by decide, by decide, by rfl, fun _ h => absurd rfl h, by rfl⟩,
    ⟨rfl, by decide, by decide, by decide, by rfl, fun _ h => absurd rfl h, by rfl⟩, by decide +kernel, by unfold Clean; decide,
    by decide +kernel⟩
theorem test_readTable : (match readTable 0x10080 (tableOf 1 3) with
    | .ok ls _ => ls == [{ count := 3, strides := [1, BitVec.allOnes 64, 0, 0] }]
    | _ => false) = true ∧
    (match readTable 0x10080 (tableOf 1 0) with
    | .error (.trap t) _ => t == .of 0x08 0x10080
    | _ => false) = true := by decide +kernel

theorem test_vfetch : goesTo (exec (.vfetch 8 9 10) (regs (blockOf 0) [(9, 0x10048), (8, 7)]))
    (fun t => t.me.blk.any fun b => b.addr == 0x10048 && b.bases == [7, 0x10048, 0, 0]) = true := by decide +kernel

/-- The contents of a tile that the team holds, with 4 rows and 4 columns of f32. -/
def tiled (int : Bool) : State :=
  let c := team1.coreAt 0
  let t : Tile := { data := 0, owner := some 0, dirty := false }
  let shape : BitVec 16 := if int then 0x333 else 0x233
  { team1.setCore 0 { c with tiles := c.tiles.set 0 t } with
    team := { team1.team with tshape := team1.team.tshape.set 0 shape } }

/-- A block in flight that has a word for tile t1. -/
def tileWord (s : State) : State :=
  let b := block1 s
  { b with me := { b.me with blk := b.me.blk.map fun x => { x with words := [0x55080800000000BA, vstopWord] } } }
theorem tileHere : TileHere (tiled false) 0 := by unfold TileHere; decide
theorem witness_Tcfg_wait : ∃ b, (tileWord (tiled false)).me.blk = some b ∧ b.suspended = false ∧
    (0x55080800000000BA#64) ∈ b.wordsLeft ∧ tileName 0x55080800000000BA = some ((0x10233#64).toNat / 2 ^ 16 % 8) :=
  ⟨_, rfl, rfl, by decide, by decide⟩
theorem witness_Tcfg : tcfgOk 0 0x233 = true ∧ tcfgOk 0 0x433 = false ∧ (tiled false).me.blk = none := by decide +kernel

/-- An unfolding descriptor of a 4 by 4 input of 8 channels and a 3 by 3 kernel. -/
def unfold1 : List Byte := leBytes 8 0xFFFFC00000000000 ++ leBytes 8 0x0101000400040008 ++ leBytes 8 0x0004000411110303
  ++ List.replicate 40 0

def unfolder : State := regs (put paged 0x10040 unfold1) [(6, 0x10040)]

theorem witness_Unfs : unfolder.me.inFlight = false ∧ (unfoldOf 0x10040 (2 ^ vtW unfolder.me.vtype) unfold1).isSome = true ∧
    unfoldOf 0x10040 (2 ^ vtW unfolder.me.vtype) (List.replicate 64 0) = none := by decide +kernel
theorem witness_unfold_bytes : ∃ parts, parts.flatten = unfold1 ∧
    ((List.range 8).mapM fun k => loadBytes 0 (0x10040 + BitVec.ofNat 64 (8 * k)) 8) unfolder = .ok parts unfolder :=
  ⟨_, by decide, rfl⟩

theorem test_unfs : goesTo (exec (.unfs 6) unfolder) (fun t => t.me.unf.any fun u => u.c == 8 && u.ow == 4 && u.kh == 3) = true ∧
    goesTo (exec (.tcfg 6) (regs (tiled false) [(6, 0x345)])) (fun t => t.team.tshape[0] == 0x345#16) = true := by decide +kernel

theorem witness_Csr : csrKind 2 = .readOnly ∧ csrKind 8 = .task ∧ csrKind 4 = .task ∧ csrKind 9 = .undefined ∧
    csrKind 0x100 = .management ∧ csrKind 0x7FF = .undefined ∧ team1.me.inFlight = false ∧
    (0x045#11).toNat = 69 ∧ csrKind 69 = .task ∧
    (encodeScalar (.csrr 5 9)).isSome = true ∧ (encodeScalar (.csrw 5 6 2)).isSome = true := by decide +kernel

/-- A team with a handler at 0x20000. -/
def handling : State := { team1 with team := { team1.team with tvec := 0x20000, trec := 0 } }
/-- In its handler, a block suspended under it. -/
def inHandler : State :=
  let b := block1 handling
  { b with me := { b.me with tstat := 0x23, tepc := 0x44, blk := b.me.blk.map fun x => { x with suspended := true } } }

theorem witness_Traps : handling.team.versioned = false ∧ handling.me.inHandler = false ∧ handling.team.tvec ≠ 0 ∧
    handling.team.trec = 0 ∧ inHandler.me.inHandler = true ∧ inHandler.team.versioned = false ∧ team1.team.tvec = 0 ∧
    inHandler.me.pixW = [] ∧ inHandler.me.tstat.getLsbD 1 = true ∧ inHandler.me.blkFault = none := by decide +kernel

theorem test_trap : goesTo (exec (.trap 7) handling) (fun t => t.me.pc == 0x20000 && t.me.tepc == 4 && t.me.tcause == 0x17
      && t.me.tval == 7 && t.me.inHandler) = true ∧
    goesTo (exec .eret inHandler) (fun t => t.me.pc == 0x44 && t.me.tstat == 0x20 && t.me.blk.any (!·.suspended)) = true ∧
    goesTo (exec (.illegal 0xFFFFFFFF) handling) (fun t => t.me.tcause == 1 && t.me.tepc == 0 && t.me.tval == 0xFFFFFFFF) = true
      := by decide +kernel +kernel
theorem witness_Csr_words : (encodeScalar (.csrr 5 9)).isSome = true ∧ (encodeScalar (.csrw 5 6 9)).isSome = true ∧
    (encodeScalar (.csrs 5 6 9)).isSome = true ∧ (encodeScalar (.csrc 5 6 9)).isSome = true ∧
    (encodeScalar (.csrw 5 6 2)).isSome = true ∧ (encodeScalar (.csrs 5 6 2)).isSome = true ∧
    (encodeScalar (.csrc 5 6 2)).isSome = true := by decide +kernel
theorem test_csrs_illegal : goesTo (exec (.csrs 5 6 2) handling) (fun t => t.me.tcause == 1 && t.me.tval == 0xFCA61002) = true ∧
    goesTo (exec (.csrc 5 0 9) handling) (fun t => t.me.tcause == 1 && t.me.tval == 0xFCA01809) = true := by decide +kernel

/-! ### Statements about vector words -/

/-- A block in flight that captured a type and a length. -/
def vec (vt : Word) (vl : Nat) : State :=
  let s := block1 paged
  { s with me := { s.me with vtype := vt, vl := vl, blk := s.me.blk.map fun b => { b with vtype := vt, vl := vl } } }

/-- Elements of a register, of w bits, from element 0 on. -/
def velems (s : State) (r w : Nat) (xs : List Nat) : State :=
  { s with me := s.me.setElems s.vlen r w (xs.zipIdx.map fun x => (x.2, x.1)) }

/-- The first n elements of a register. -/
def first (t : State) (r w n : Nat) : List Nat := (List.range n).map (t.me.elem t.vlen r w)

/-- Every element, the type of VTYPE, in every iteration. -/
def all : VMod := { msel := 0, width := 0, fl := .always }

/-- i8 elements 100, -3, 7 in v4 and 50, 4, -1 in v5; active elements 0 and 2 in m3. -/
def ints : State :=
  let s := velems (velems (vec 3 3) 4 8 [100, 253, 7]) 5 8 [50, 4, 255]
  { s with me := { s.me with m := s.me.m.set 3 5 } }

theorem witness_VectorInteger : WordRuns ints all (etyOf 3) [6, 4, 5] := by
  constructor <;> decide

theorem witness_VectorInteger_fcsr : (etyOf 3).fmt ≤ 1 ∧ ints.me.fcsr.getLsbD 18 = false := by decide +kernel

theorem test_vadd : goesTo (exec (.vadd 6 4 (.reg 5) { all with msel := 3 }) ints) (fun t => first t 6 8 3 == [150, 0, 6]) = true ∧
    goesTo (exec (.vsub 4 4 (.imm 5) all) ints) (fun t => first t 4 8 3 == [95, 248, 2]) = true := by decide +kernel
theorem test_vmulh : goesTo (exec (.vmulh 6 4 (.reg 5) all) ints) (fun t => first t 6 8 3 == [19, 255, 255]) = true ∧
    goesTo (exec (.vmul 6 4 (.reg 5) all) ints) (fun t => first t 6 8 3 == [136, 244, 249]) = true := by decide +kernel
theorem test_vadds : goesTo (exec (.vadds 6 4 (.reg 5) all) ints)
      (fun t => first t 6 8 3 == [127, 1, 6] && t.me.fcsr == 0x400) = true ∧
    goesTo (exec (.vsubs 6 4 (.imm 200) all) ints) (fun t => first t 6 8 3 == [127, 53, 63]) = true := by decide +kernel
theorem test_vshift : goesTo (exec (.vsra 6 4 (.imm 1) all) ints) (fun t => first t 6 8 3 == [50, 254, 3]) = true ∧
    goesTo (exec (.vsrl 6 4 (.imm 9) all) ints) (fun t => first t 6 8 3 == [50, 126, 3]) = true ∧
    goesTo (exec (.vsll 6 4 (.imm 1) all) ints) (fun t => first t 6 8 3 == [200, 250, 14]) = true := by decide +kernel
theorem test_vcmp : goesTo (exec (.vcmp .lt 2 4 (.reg 5) all) ints) (fun t => t.me.m[2] == 2) = true ∧
    goesTo (exec (.vcmp .ge 2 4 (.imm 7) { all with msel := 3 }) ints) (fun t => t.me.m[2] == 5) = true := by decide +kernel
theorem test_vsel : goesTo (exec (.vsel 6 4 (.reg 5) 3 all) ints) (fun t => first t 6 8 3 == [100, 4, 7]) = true ∧
    goesTo (exec (.vmin 6 4 (.reg 5) all) ints) (fun t => first t 6 8 3 == [50, 253, 255]) = true ∧
    goesTo (exec (.vmax 6 4 (.reg 5) all) ints) (fun t => first t 6 8 3 == [100, 4, 7]) = true := by decide +kernel
theorem test_vbits : goesTo (exec (.vand 6 4 (.imm 15) all) ints) (fun t => first t 6 8 3 == [4, 13, 7]) = true ∧
    goesTo (exec (.vor 6 4 (.imm 15) all) ints) (fun t => first t 6 8 3 == [111, 255, 15]) = true ∧
    goesTo (exec (.vxor 6 4 (.imm 15) all) ints) (fun t => first t 6 8 3 == [107, 242, 8]) = true := by decide +kernel

/-- f32 elements 1, 2, -0.5 in v4 and 3, 0, 4 in v5. -/
def floats : State :=
  velems (velems (vec 0x25 3) 4 32 [0x3F800000, 0x40000000, 0xBF000000]) 5 32 [0x40400000, 0, 0x40800000]

theorem witness_VectorFloat : WordRuns floats all (etyOf 0x25) [6, 4, 5, 7] := by
  constructor <;> decide

theorem witness_VectorFloat_type : floats.me.fcsr.extractLsb' 16 6 = 0 ∧ 4 ≤ (etyOf 0x25).fmt ∧
    (etyOf 0x25).float = some fmtF32 ∧ typeOk 4 4 0 = true ∧ floats.me.vlNow * 16 ≤ 8 * groupOf 0x25 * floats.vlen := by
  decide

/-- The scales of blocks of 16 elements, and DZ enabled. -/
def scaledFloats : State :=
  let s := velems (velems (vec 0x10025 3) 4 32 [0x3F800000, 0x40000000, 0xBF000000]) 24 32 [0x40000000]
  { s with me := { s.me with fcsr := 0x20000 } }
theorem witness_Vfcvt_scale : WordRuns scaledFloats all (etyOf 0x10025) [4, 6] ∧ Machine.blockOf scaledFloats.me.vt ≠ 0 ∧
    (∀ i, i < 3 → i / Machine.blockOf scaledFloats.me.vt < scaleCount scaledFloats.vlen) ∧
    scaledFloats.me.fcsr.extractLsb' 16 6 = 2 := by
  refine ⟨by constructor <;> decide, by decide⟩
theorem test_vfcvt_scale : goesTo (exec (.vfcvt 6 4 0 0 4 4 8 all) scaledFloats)
      (fun t => first t 6 16 3 == [0x4000, 0x4400, 0xBC00]) = true ∧
    goesTo (exec (.vfdiv 6 4 5 0 all) scaledFloats) (fun t => first t 6 32 1 == [0x7F800000] &&
      t.me.pending == [8] && t.me.blk.any (·.suspended) && t.me.fcsr == 0x20200) = true := by decide +kernel

theorem test_vfadd : goesTo (exec (.vfadd 6 4 5 0 all) floats)
      (fun t => first t 6 32 3 == [0x40800000, 0x40000000, 0x40600000]) = true ∧
    goesTo (exec (.vfsub 6 4 5 0 all) floats)
      (fun t => first t 6 32 3 == [0xC0000000, 0x40000000, 0xC0900000]) = true := by decide +kernel
theorem test_vfmul : goesTo (exec (.vfmul 6 4 5 0 all) floats)
      (fun t => first t 6 32 3 == [0x40400000, 0, 0xC0000000]) = true ∧
    goesTo (exec (.vfma 6 4 5 4 0 all) floats)
      (fun t => first t 6 32 3 == [0x40800000, 0x40000000, 0xC0200000]) = true := by decide +kernel
theorem test_vfdiv : goesTo (exec (.vfdiv 6 4 5 1 all) floats)
      (fun t => first t 6 32 3 == [0x3EAAAAAB, 0x7F800000, 0xBE000000] && t.me.fcsr == 0x1200) = true ∧
    goesTo (exec (.vfsqrt 6 4 1 all) floats)
      (fun t => first t 6 32 2 == [0x3F800000, 0x3FB504F3] && t.me.fcsr.getLsbD 8) = true := by decide +kernel
/-- The square root of 2 and twice it, nearest in f32. -/
theorem test_vfexp2 : goesTo (exec (.vfexp2 6 4 0 all) (velems floats 4 32 [0x3F000000, 0x3FC00000, 0xC0000000]))
    (fun t => first t 6 32 3 == [0x3FB504F3, 0x403504F3, 0x3E800000]) = true := by decide +kernel
theorem test_vfcmp : goesTo (exec (.vfcmp .lt 2 4 5 0 all) floats) (fun t => t.me.m[2] == 5) = true ∧
    goesTo (exec (.vfcvt 6 4 0 0 4 4 0 all) floats) (fun t => first t 6 16 3 == [0x3C00, 0x4000, 0xB800]) = true := by decide +kernel

theorem witness_Values : (fmtF32.value 0x3F800000).isNan = false ∧
    ((fmtB8 4 false).value 0x40).isNan = false := by decide +kernel

theorem witness_Moves : WordRuns ints all (etyOf 3) [4, 6, 5] ∧ ints.me.vlNow ≠ 0 ∧ (vec 3 0).me.vlNow = 0 ∧
    WordRuns (vec 3 0) all (etyOf 3) [4, 6] := by
  refine ⟨by constructor <;> decide, by decide, by decide, by constructor <;> decide⟩
theorem witness_Moves_float : floats.me.vlNow ≠ 0 ∧ (etyOf 0x25).float = some fmtF32 ∧
    ((List.range 3).filter fun i => (ints.me.mask 2).getLsbD i) = [] ∧
    ((List.range 3).filter fun i => (floats.me.mask 0).getLsbD i) = [0, 1, 2] := by decide +kernel

theorem test_vxch : goesTo (exec (.vxch 6 4 1 all) ints) (fun t => first t 6 8 3 == [253, 100, 7]) = true ∧
    goesTo (exec (.vslide 6 4 0xFFFF all) ints) (fun t => first t 6 8 3 == [0, 100, 253]) = true ∧
    goesTo (exec (.vperm 6 4 5 all) (velems ints 5 8 [2, 9, 0])) (fun t => first t 6 8 3 == [7, 0, 100]) = true := by decide +kernel
theorem test_vred : goesTo (exec (.vred .sum 6 4 0 all) ints) (fun t => first t 6 8 3 == [104, 0, 0]) = true ∧
    goesTo (exec (.vred .min 6 4 0 all) ints) (fun t => first t 6 8 1 == [253]) = true ∧
    goesTo (exec (.vred .sum 6 4 0 all) floats) (fun t => first t 6 32 1 == [0x40200000]) = true ∧
    goesTo (exec (.vpopc 3 .always) ints) (fun t => t.me.lq == [2]) = true := by decide +kernel

/-- A mask stack of one entry, elements 0 and 1. -/
def masked : State := { ints with me := { ints.me with depth := 1, stk := ints.me.stk.set 0 3 } }
def fullMasks : State := { ints with me := { ints.me with depth := 8 } }

theorem witness_Masks : masked.me.runs .always = true ∧ masked.me.depth ≤ 8 ∧ 0 < masked.me.depth ∧ masked.me.depth < 8 ∧
    fullMasks.me.depth = 8 ∧ ints.me.depth = 0 := by decide +kernel
theorem test_mpush : goesTo (exec (.mpush 3 .always) masked) (fun t => t.me.depth == 2 && t.me.top == 1) = true ∧
    goesTo (exec (.minv .always) masked) (fun t => t.me.depth == 1 && t.me.top == 4) = true ∧
    goesTo (exec (.mpop .always) ints) (fun t => t.me.pending == [8] && t.me.blk.any (·.suspended)) = true := by decide +kernel
theorem test_mmov : goesTo (exec (.mmov 4 3 .always) ints) (fun t => t.me.m[4] == 5) = true ∧
    goesTo (exec (.vskz 1 .always) masked) (fun t => t.me.blk.any (·.idx == 1)) = true ∧
    goesTo (exec .vstop masked) (fun t => t.me.blk == none) = true := by decide +kernel

/-- A nest of two levels at its last inner point, and at its last point. -/
def nest (i j : Nat) : State :=
  { ints with me := { ints.me with blk := ints.me.blk.map fun b =>
      { b with levels := [{ count := 2, strides := [] }, { count := 3, strides := [] }], index := [i, j] } } }
theorem test_vstop : goesTo (exec .vstop (nest 0 2)) (fun t => t.me.blk.any (·.index == [1, 0])) = true ∧
    goesTo (exec .vstop (nest 0 1)) (fun t => t.me.blk.any (·.index == [0, 2])) = true ∧
    goesTo (exec .vstop (nest 1 2)) (fun t => t.me.blk == none) = true := by decide +kernel

/-! ### Statements about vector memory, tiles and accumulators -/

/-- i8 elements in flight, with 1, 2, 3 in v4, base a0 at 0x10000 and 32-bit indices 0, 8, 16 in v5. -/
def vmem : State := velems (velems (vec 3 3) 4 8 [1, 2, 3]) 5 32 [0, 8, 16]

theorem touches3 (i : Nat) (h : Touches vmem 0 (vmem.me.pix 4) i = true) : i < 3 := by
  simp only [Touches, Bool.and_eq_true, decide_eq_true_eq] at h
  exact h.1.2

theorem mapped3 (a : Acc) (va : Word) (h : vmem.xlate 0 a va = .at_ va.toNat 0 page1)
    (hw : isWindow va = false ∧ isWindow (va + BitVec.ofNat 64 0) = false) (hf : vmem.accessHeld va.toNat 1 page1 (some vmem.team.core) a.wr = false) :
    Mapped vmem a va 1 va.toNat 0 page1 :=
  ⟨rfl, hw.1, hw.2, Nat.mod_le _ _, h, fun _ h => absurd rfl h, hf⟩

theorem witness_Vld : ∀ i, Touches vmem 0 (vmem.me.pix 4) i = true →
    Mapped vmem .load (0x10040 + BitVec.ofNat 64 (i * 8 / 8)) 1 (0x10040 + i) 0 page1 ∧ Clean vmem (0x10040 + i) 1 ∧
      page1 ∈ vmem.tlb ∧ pteMark page1.pte (some 0) false = page1.pte := by
  intro i h
  match i, touches3 i h with
  | 0, _ | 1, _ | 2, _ =>
    exact ⟨⟨rfl, by decide, by decide, by decide, by rfl, fun _ h => absurd rfl h, by rfl⟩, by unfold Clean; decide, by decide, by decide⟩
theorem witness_Vst : ∀ i, Touches vmem 0 (vmem.me.pix 4) i = true →
    Mapped vmem .store (0x10040 + BitVec.ofNat 64 (i * 8 / 8)) 1 (0x10040 + i) 0 page1 ∧
      Mapped vmem .atomic (0x10040 + BitVec.ofNat 64 (i * 8 / 8)) 1 (0x10040 + i) 0 page1 ∧
      pteMark page1.pte (some 0) true = page1.pte ∧
      ∀ j, Touches vmem 0 (vmem.me.pix 4) j = true → i ≠ j → 0x10040 + i + 1 ≤ 0x10040 + j ∨ 0x10040 + j + 1 ≤ 0x10040 + i := by
  intro i h
  refine ⟨?_, ?_, by decide, fun j _ hj => by omega⟩ <;>
  match i, touches3 i h with
  | 0, _ | 1, _ | 2, _ => exact ⟨rfl, by decide, by decide, by decide, by rfl, fun _ h => absurd rfl h, by rfl⟩
theorem witness_Vmem : vmem.side = [] ∧ MemoryOk vmem ∧ WordRuns vmem all (etyOf 3) [4, 5] ∧
    vmem.me.base 0 + (0x40#16).signExtend 64 = 0x10040 ∧ vmem.me.vlNow * 4 ≤ groupOf vmem.me.vt * vmem.vlen ∧
    (∀ i, i < 3 → vmem.me.elem vmem.vlen 5 32 i = 8 * i) ∧ vmem.team.world = 0 := by
  refine ⟨rfl, rfl, by constructor <;> decide, by decide, by decide, by decide, rfl⟩

theorem witness_Vst_lined : vmem.me.enterBlock.partsMade = 0 ∧ page1 ∈ vmem.tlb ∧
    (∃ line : Nat → Nat, ∀ i, Touches vmem 0 (vmem.me.pix 4) i = true →
      0x10040 + i = line ((0x10040 + BitVec.ofNat 64 (i * 8 / 8) : Word).toNat / 64) +
        (0x10040 + BitVec.ofNat 64 (i * 8 / 8) : Word).toNat % 64) ∧
    (∃ line : Nat → Nat, ∀ i, Touches vmem 0 (vmem.me.pix 4) i = true →
      0x10000 + 8 * i = line ((0x10000 + BitVec.ofNat 64 (vmem.me.elem vmem.vlen 5 32 i) : Word).toNat / 64) +
        (0x10000 + BitVec.ofNat 64 (vmem.me.elem vmem.vlen 5 32 i) : Word).toNat % 64) := by
  refine ⟨by decide, by decide, ⟨(64 * ·), ?_⟩, (64 * ·), ?_⟩ <;> intro i h <;>
  match i, touches3 i h with
  | 0, _ | 1, _ | 2, _ => decide

theorem test_vld : goesTo (exec (.vld 6 0 0x40 0 .normal all) (put vmem 0x10040 [9, 8, 7]))
      (fun t => first t 6 8 3 == [9, 8, 7]) = true ∧
    goesTo (exec (.vldx 6 0 5 0 .normal false all) (put vmem 0x10000 [9, 0, 0, 0, 0, 0, 0, 0, 8, 0, 0, 0, 0, 0, 0, 0, 7]))
      (fun t => first t 6 8 3 == [9, 8, 7]) = true := by decide +kernel
theorem test_vst : goesTo (exec (.vst 4 0 0x40 0 .normal all) vmem) (fun t => t.bytesIn 0 0x10040 4 == [1, 2, 3, 0]) = true ∧
    goesTo (exec (.vstx 4 0 5 0 .normal false all) vmem)
      (fun t => t.bytesIn 0 0x10000 9 == [1, 0, 0, 0, 0, 0, 0, 0, 2]) = true := by decide +kernel

/-- i4 elements: two of them in the first byte and one in the next, whose other half stands. -/
def nibbles : State := put (velems (vec 2 3) 4 4 [1, 2, 3]) 0x10040 [0xFF, 0xFF]
theorem witness_Vmem_marks : NoMark vmem page1 (some vmem.team.core) true ∧ NoMark vmem page1 (some vmem.team.core) false ∧ NoOlder vmem ∧
    vmem.me.poolRefused = none ∧ NoMark nibbles page1 (some nibbles.team.core) true :=
  ⟨⟨by decide, by decide +kernel, fun _ => by decide⟩, ⟨by decide, by decide +kernel, fun _ => by decide⟩, fun _ => rfl, rfl,
    by decide, by decide +kernel, fun _ => by decide⟩
theorem witness_Vst_bits : WordRuns nibbles all (etyOf 2) [4] ∧ nibbles.xlate 0 .atomic 0x10041 = .at_ 0x10041 0 page1 ∧
    ∀ x y : Nat, 0x10040 + x = 0x10040 + y → x = y :=
  ⟨by constructor <;> decide, by rfl, fun _ _ h => by omega⟩
theorem test_vst_bits : goesTo (exec (.vst 4 0 0x40 0 .normal all) nibbles)
    (fun t => t.bytesIn 0 0x10040 2 == [0x21, 0xF3]) = true := by decide +kernel

/-- A block over i8 in flight with a tile of 4 by 4, of i32 or f32. -/
def tileBlock (int : Bool) (vt : Word) : State :=
  let s := block1 (tiled int)
  { s with me := { s.me with blk := s.me.blk.map fun b => { b with vtype := vt, vl := 4 } } }
/-- Two elements of row 0 in v4 and of row 0 in v5. -/
def dots : State := velems (velems (tileBlock true 3) 4 8 [2, 3]) 5 8 [4, 5]

theorem tileHere_block : TileHere dots 0 := by unfold TileHere; decide
theorem witness_Tile : dots.me.runs .always = true ∧ shapeSet (dots.slotOf 0) = true ∧ shapeInt (dots.slotOf 0) = true ∧
    dots.physTile 0 = 0 ∧ shapeRows (dots.slotOf 0) = 4 ∧ shapeCols (dots.slotOf 0) = 4 ∧
    etyOf 3 = etyOf (vtWith dots.me.vt 0) ∧ typeOk (etyOf 3).fmt (vtW dots.me.vt) (etyOf 3).p = true ∧ (etyOf 3).w < 32 ∧
    (etyOf 3).fmt ≤ 3 ∧ vtSb dots.me.vt = 0 ∧ (dots.coreAt 0).matrix < dots.matrixQuota 0 ∧ vtypeLegal dots.me.vt = true ∧
    4 * 384 ≤ groupOf dots.me.vt * dots.vlen ∧ dots.me.fcsr = 0 := by decide +kernel
theorem witness_Tile_scale : (0#4).getLsbD 3 = false ∧ dots.me.scaleFor dots.vlen 0 = none := by decide +kernel
theorem witness_Tile_float : shapeInt ((tileBlock false 0x24).slotOf 0) = false ∧
    typeOk (etyOf 0x24).fmt (vtW (tileBlock false 0x24).me.vt) (etyOf 0x24).p = true ∧ (etyOf 0x24).w < 32 := by decide +kernel

/-- An activation of one position of two elements in the launch's scratchpad, the unfolding unit set to it and a3 at
0x10040. -/
def window1 (oh : Nat) : Unfold :=
  { addr := 0, base := 0xFFFFC00000000000, c := 2, h := 1, w := 1, pt := 0, pl := 0, kh := 1, kw := 1, sh := 1, sw := 1,
    dh := 1, dw := 1, oh := oh, ow := 1 }
def unfolding (oh : Nat) : State :=
  let s := put dots (vaultKey 0 0) [2, 3]
  { s with tlb := [page1], launches := [{ newLaunch team1 0 0 0 0 with id := 0, joinrec := 0x40000000, alloc := [(0, 0, 4096)] }],
           me := { s.me with unf := some (window1 oh),
                             blk := s.me.blk.map fun b => { b with bases := [0, 0, 0, 0x10040] } } }
theorem witness_Unfold_read : (∀ i, i < 1 → ((unfolding 1).scratchKey (unfolding 1).team (0xFFFFC00000000000 +
      BitVec.ofNat 64 i)).isSome = true) ∧ isWindow 0xFFFFC00000000000 = true ∧ towerOf 0xFFFFC00000000000 < 3 ∧
    (unfolding 1).side = [] ∧ (unfolding 1).ue = [] := by decide +kernel
theorem witness_Unfold_rows : (unfolding 0).me.unf = some (window1 0) ∧ (unfolding 0).me.base 2 = 0 ∧
    ∀ x cores h, unfoldRow (window1 0) 0 8 384 x { unfolding 0 with cores := cores, me := h } =
      .ok ((List.range 384).map fun _ => 0) { unfolding 0 with cores := cores, me := h } := by
  refine ⟨rfl, rfl, fun x cores h => ?_⟩
  have hp : ∀ p n, (window1 0).place 8 p n = none := fun p n => by simp [Unfold.place, window1]
  unfold unfoldRow
  simp only [hp]
  rw [List.mapM_pure]
  rfl
theorem witness_Unfold_signal : (unfolding 1).me.base 3 = 0x10040 ∧ (0x10040#64).toNat % 8 = 0 ∧
    Mapped (unfolding 1) .atomic 0x10040 8 0x10040 0 page1 ∧ page1 ∈ (unfolding 1).tlb ∧
    pteMark page1.pte (some 0) true = page1.pte ∧ Placeable (unfolding 1) 0x10040 8 ∧ (unfolding 1).me.pixOf 0 < 4 :=
  ⟨rfl, by decide, ⟨rfl, by decide, by decide, by decide, by rfl, fun _ h => absurd rfl h, by rfl⟩, by decide, by decide,
    by unfold Placeable; decide, by decide⟩
theorem witness_Tile_posted : NoMark (unfolding 1) page1 (some (unfolding 1).team.core) true :=
  ⟨by decide, by decide +kernel, fun _ => by decide⟩
theorem test_opa_unfold : goesTo (exec (.opa 0 0 5 0 true true 0 .always) (unfolding 1))
    (fun t => tileElem (t.tileAt 0).data 0 0 == 23 && tileElem (t.tileAt 0).data 1 0 == 0 &&
      t.bytesIn 0 0x10040 2 == [1, 0]) = true := by decide +kernel

theorem test_opa : goesTo (exec (.opa 0 4 5 0 false false 0 .always) dots)
    (fun t => tileElem (t.tileAt 0).data 0 0 == 23 && tileElem (t.tileAt 0).data 0 1 == 0) = true := by decide +kernel
theorem test_opag : goesTo (exec (.opag 0 4 5 6 0 false false 0 0 .always) (velems dots 6 16 [0, 3]))
    (fun t => tileElem (t.tileAt 0).data 3 0 == 23 && tileElem (t.tileAt 0).data 0 0 == 0) = true := by decide +kernel
theorem test_opa_float : goesTo (exec (.opa 0 4 5 0 false false 0 .always)
      (velems (velems (tileBlock false 0x24) 4 16 [0x3C00, 0x4000]) 5 16 [0x4200, 0x3800]))
    (fun t => tileElem (t.tileAt 0).data 0 0 == 0x40800000) = true := by decide +kernel

/-- v4 into row 1, then row 1 out. -/
theorem test_troww : goesTo (exec (.troww 0 4 1 false 0 .always) (velems dots 4 32 [7, 8, 9, 10, 11]))
      (fun t => tileElem (t.tileAt 0).data 1 3 == 10 && tileElem (t.tileAt 0).data 1 4 == 0 &&
        goesTo (exec (.tcolr 6 0 3 false 0 .always) t) (fun u => first u 6 32 4 == [0, 10, 0, 0]) &&
        goesTo (exec (.trowr 6 0 1 false 0 .always) t) (fun u => first u 6 32 4 == [7, 8, 9, 10]) &&
        goesTo (exec (.tzero 0 .always) t) (fun u => tileElem (u.tileAt 0).data 1 3 == 0)) = true ∧
    goesTo (exec (.tcolw 0 4 1 false 0 .always) (velems dots 4 32 [7, 8, 9, 10, 11]))
      (fun t => tileElem (t.tileAt 0).data 3 1 == 10 && tileElem (t.tileAt 0).data 4 1 == 0) = true := by decide +kernel
/-- A team of eight harts, whose groups are smaller than the rows, or the columns, of its tile. -/
def smallGroups (shape : BitVec 16) : State :=
  { dots with team := { dots.team with size := 3, tshape := dots.team.tshape.set 0 shape } }
theorem witness_Tile_traps : shapeSet ((block1 team1).slotOf ((block1 team1).physTile 0)) = false ∧
    (block1 team1).me.runs .always = true ∧ shapeRows (dots.slotOf 0) ≤ 4 ∧ shapeCols (dots.slotOf 0) ≤ 4 ∧
    ¬ ((etyOf 0x24).w < 32 ∧ (shapeInt ((tileBlock true 0x24).slotOf 0) = true → (etyOf 0x24).fmt ≤ 3)) ∧
    shapeSet ((tileBlock true 0x24).slotOf 0) = true ∧ typeOk (etyOf 0x24).fmt (vtW 0x24) (etyOf 0x24).p = true ∧
    shapeSet ((smallGroups 0x333).slotOf ((smallGroups 0x333).physTile 0)) = true ∧
    groupOf dots.me.vt * (smallGroups 0x333).vlen < 4 * 384 ∧ 1 * 384 ≤ groupOf dots.me.vt * (smallGroups 0x330).vlen ∧
    shapeRows ((smallGroups 0x330).slotOf ((smallGroups 0x330).physTile 0)) = 1 ∧
    shapeCols ((smallGroups 0x330).slotOf ((smallGroups 0x330).physTile 0)) = 4 := by decide +kernel
theorem test_tile_traps : goesTo (exec (.tzero 5 .always) (block1 team1)) (fun t => t.me.pending == [8] &&
      t.me.blkFault.any fun f => f.code == 7 && f.tval == 5) = true ∧
    goesTo (exec (.troww 0 4 4 false 0 .always) dots) (fun t => t.me.blkFault.any fun f => f.code == 8 && f.tval == 4) = true ∧
    goesTo (exec (.opa 0 4 5 0 false false 0 .always) (smallGroups 0x330))
      (fun t => t.me.blkFault.any fun f => f.code == 8 && f.tval == 5) = true := by decide +kernel

/-- One accumulator of launch 0 on cluster 0: 16 elements, 8 fractional bits. -/
def acc1 (row : SaRow) : Sa :=
  { launch := 0, cluster := 0, n := 0, len := 16, frac := 8, ln := false, ovfe := false, eps := 0,
    gain := List.replicate 16 0x3F800000, bias := List.replicate 16 0, rows := [row], evicted := false }
def saState : State :=
  let s := velems (vec 0x25 2) 4 32 [0x3F800000, 0xBFC00000]
  { s with sas := [acc1 (.zero 16)],
           me := { s.me with blk := s.me.blk.map fun b => { b with bases := [0xFFFFD80000000000, 0, 0, 0] } } }

theorem witness_Accumulators : WordRuns saState all (etyOf 0x25) [4] ∧ saState.me.vlNow ≠ 0 ∧
    saState.me.base 0 + (0#16).signExtend 64 = 0xFFFFD80000000000 ∧ isWindow 0xFFFFD80000000000 = true ∧
    towerOf 0xFFFFD80000000000 = 3 ∧ (0xFFFFD80000000000#64).extractLsb' 39 4 = 0 ∧
    saState.saAt saState.team.launch 0 0 = some (acc1 (.zero 16)) ∧ saState.team.world = 0 ∧
    saState.addsPending (1#8 <<< 0) = false ∧ (etyOf 0x25).float = some fmtF32 ∧ saState.me.fcsr = 0 := by
  refine ⟨by constructor <;> decide, ?_⟩; decide
theorem witness_Accumulators_none : (vec 0x25 0).me.runs .always = true ∧ (vec 0x25 0).me.vlNow = 0 := by decide
theorem witness_saScale : ∃ sc, saScale saState = .ok sc saState := ⟨_, rfl⟩

theorem test_saadd : goesTo (exec (.saadd 4 0 2 3 all) saState)
    (fun t => t.adds.map (·.elems) == [[(2, 256, false), (3, -384, false)]] && t.me.fcsr == 0) = true := by decide +kernel
theorem test_sanrm : goesTo (exec (.sanrm 6 0 0 0 0 all)
      { saState with sas := [acc1 { x := 16 :: 32 :: List.replicate 14 48, s := 16 ^ 2 + 32 ^ 2 + 14 * 48 ^ 2, t := 720,
                                    ovf := false }] }) (fun t => first t 6 32 1 == [0x3EB2EF41]) = true := by decide +kernel

/-- A launch that has 4096 bytes of arrays on cluster 0, a descriptor of 1 row of 16 elements at 0x10040, one of no rows at
0x10080, and the image area at 0x10100. -/
def saReady (sas : List Sa) : State :=
  let s := put paged 0x10040 (leBytes 8 0 ++ leBytes 8 0 ++ leBytes 4 0 ++ leBytes 2 1 ++ leBytes 2 16 ++ leBytes 8 8)
  regs { s with launches := [{ newLaunch team1 0 0 0 0 with id := 0, joinrec := 0x40000000, sares := [(0, 0, 4096)] }], sas := sas }
    [(5, 0x10040), (6, 0x10080), (7, 0x10100)]

/-- A row of 16 elements: 5, -2 and zeros. -/
def row1 : SaRow := { x := 5 :: -2 :: List.replicate 14 0, s := 29, t := 3, ovf := false }

theorem witness_Sacfg : (saReady []).team.world = 0 ∧
    (saDesc ((saReady []).bytesIn 0 0x10040 32)).ok = true ∧ (saDesc ((saReady []).bytesIn 0 0x10040 32)).rows = 1 ∧
    (saDesc ((saReady []).bytesIn 0 0x10080 32)).ok = true ∧ (saDesc ((saReady []).bytesIn 0 0x10080 32)).rows = 0 ∧
    (saDesc (List.replicate 32 1)).ok = false ∧ (saReady []).saReserved 0 0 = 4096 ∧
    saFoot 16 1 false ≤ 4096 ∧ (saReady []).saBusy 0 0 0 = false := by decide +kernel
theorem witness_readGain : readGain 0 16 0 0 (saReady []) = .ok (List.replicate 16 0) (saReady []) := rfl
theorem witness_Image : (acc1 row1).image row1 = (acc1 row1).image row1 ∧ ((acc1 row1).image row1).length = 128 ∧
    (acc1 row1).rowOf ((acc1 row1).image row1) = some row1 ∧ row1.t = row1.x.sum ∧
    row1.s = (row1.x.map fun v => v.natAbs ^ 2).sum ∧ row1.x.length = (acc1 row1).len ∧
    (saReady [acc1 row1]).addsPending (BitVec.allOnes 8) = false := by decide +kernel

theorem witness_Sasave : (saReady [acc1 row1]).me.partsMade = 0 ∧ page1 ∈ (saReady [acc1 row1]).tlb ∧
    pteMark page1.pte (some 0) true = page1.pte ∧ (0x10100#64).toNat % 64 ≤ 0x10100 ∧
    (∀ i, i < 128 → (saReady [acc1 row1]).xlate 0 .store (0x10100 + BitVec.ofNat 64 i) = .at_ (0x10100 + i) 0 page1 ∧
      (saReady [acc1 row1]).rowHeld (0x10100 + i) 64 true = false) := by decide +kernel
theorem witness_Sacfg_reach : Reaches (saReady []) .load 0x10040 32 0x10040 0 page1 ∧ Clean (saReady []) 0x10040 32 ∧
    Seen (saReady []) page1 0x10040 32 = saReady [] ∧ (saReady []).saSaving 0 0 0 = false ∧
    (∀ x, (saReady []).launchAt 0 = some x → 0 ∉ x.saOut) ∧ (saReady []).saAt 0 0 0 = none :=
  ⟨⟨⟨rfl, by decide, by decide, by decide, by rfl, (fun _ h => nomatch h), by rfl⟩, rfl⟩, by unfold Clean; decide +kernel,
    by decide +kernel, by decide +kernel, by rintro x ⟨rfl⟩; decide, rfl⟩
theorem witness_Sasave_reach : Reaches (saReady [acc1 row1]) .store 0x10100 128 0x10100 0 page1 ∧
    Reaches (saReady [acc1 row1]) .load 0x10100 128 0x10100 0 page1 ∧ Clean (saReady [acc1 row1]) 0x10100 128 ∧
    NoMark (saReady [acc1 row1]) page1 (some (saReady [acc1 row1]).team.core) true ∧
    (∀ i, i < 128 → (saReady [acc1 row1]).accessHeld (0x10100 + i) 64 page1 (some 0) true = false) ∧ MemoryOk (saReady [acc1 row1]) :=
  ⟨⟨⟨rfl, by decide, by decide, by decide, by rfl, (fun _ h => absurd rfl h), by rfl⟩, rfl⟩,
    ⟨⟨rfl, by decide, by decide, by decide, by rfl, (fun _ h => nomatch h), by rfl⟩, rfl⟩, by unfold Clean; decide +kernel,
    ⟨by decide, by decide +kernel, fun _ => by decide⟩, fun i _ => by rfl, by unfold MemoryOk; decide +kernel⟩
/-- An image of row1 at 0x10100. -/
theorem witness_Saload : ∃ bs, (acc1 row1).rowOf ((put (saReady [acc1 row1]) 0x10100 bs).bytesIn 0 0x10100 128) = some row1 :=
  ⟨(acc1 row1).image row1, by decide +kernel⟩

theorem test_sacfg : goesTo (exec (.sacfg 0 5) (saReady [])) (fun t => t.sas == [acc1 (.zero 16)]) = true ∧
    goesTo (exec (.sacfg 0 6) (saReady [acc1 row1])) (fun t => t.sas == []) = true := by decide +kernel
theorem test_sasave : goesTo (exec (.sasave 0 7) (saReady [acc1 row1]))
    (fun t => t.bytesIn 0 0x10100 8 == [16, 0, 8, 0, 0, 0, 0, 0] && t.bytesIn 0 0x10120 12 ==
        [5, 0, 0, 0, 0, 0, 0xFE, 0xFF, 0xFF, 0xFF, 0xFF, 0xFF] &&
      goesTo (exec (.saload 0 7) { t with sas := [acc1 (.zero 16)] }) (fun u => u.sas == [acc1 row1])) = true := by
  decide +kernel

/-! ### Statements about row programs and bank expressions -/

/-- The row program run1 with 5 in its first data row and 3 and 6 in c4 and c5. -/
def rowed : State := ((put { team1 with runs := [run1] } (rowKey 0 64) [5]).setComp 0 4 3).setComp 0 5 6

theorem witness_RowsRun : RowsRun rowed run1 [] ∧ run1.subs.Nodup ∧ rowed.ue = [] ∧ rowed.ce = [] ∧ rowed.rowPoison = [] ∧
    MemoryOk rowed ∧ rowThere run1 (.data 0 0) ∧ rowThere run1 (.comp 8) ∧ rowDestOk (.data 0 1) = true :=
  ⟨⟨rfl, (fun _ h => nomatch h), rfl, by decide, rfl, fun h => nomatch h⟩, by decide, rfl, rfl, rfl, by unfold MemoryOk; decide,
    by simp [rowThere, run1], trivial, rfl⟩

theorem test_aap : goesTo (exec (.aap (.data 0 0) (.comp 8)) rowed) (fun t => t.compRow 0 8 == 5 && t.runs.map (·.pc) == [1]) ∧
    goesTo (exec (.lshf (.comp 5) (.data 0 1)) rowed) (fun t => t.bytesIn 0 (rowKey 0 65) 2 == [3, 0]) ∧
    goesTo (exec (.rshf (.comp 5) (.data 0 1)) rowed) (fun t => t.bytesIn 0 (rowKey 0 65) 2 == [12, 0]) := by decide +kernel
theorem test_dnot : goesTo (exec (.dnot (.data 0 0) (.comp 8)) rowed)
      (fun t => t.compRow 0 8 == ~~~5 && t.compRow 0 2 == 5 && t.compRow 0 3 == ~~~5) = true ∧
    goesTo (exec (.tra 3) rowed) (fun t => t.compRow 0 4 == 2 && t.compRow 0 5 == 2 && t.compRow 0 6 == 2 && t.compRow 0 7 == 0)
      = true := by decide +kernel

/-- The same program in a loop of two passes that began at word 1. -/
def looping (left : Nat) : State := { team1 with runs := [{ run1 with pc := 3, loops := [(1, left, 5)] }] }
theorem witness_RowControl : RowsRun (looping 2) { run1 with pc := 3, loops := [(1, 2, 5)] } [] ∧
    run1.subs.length ≤ run1.hi ∧ run1.bad = [] ∧ run1.tx = false ∧
    ((team1.withCmd kRPL [0, 0, 0, 0]).cmds.find? (·.cid == team1.nextCmd)).isSome = true ∧
    ({ run1 with subs := [0, 1] }).hi < ({ run1 with subs := [0, 1] }).subs.length :=
  ⟨⟨rfl, (fun _ h => nomatch h), rfl, by decide, rfl, fun h => nomatch h⟩, by decide, rfl, rfl, by decide, by decide⟩
/-- A wave with another live one: of bank 0 with a refresh postponed there, or of the same command. -/
def twoWaves (cid lo : Nat) : State :=
  { rowed with runs := [run1, { run1 with cid := cid, lo := lo, hi := lo + 1, subs := [0, 1] }], refreshes := [0] }
theorem witness_Halt : RowsRun (twoWaves 2 0) run1 [{ run1 with cid := 2, lo := 0, hi := 1, subs := [0, 1] }] ∧
    (0 ∈ (twoWaves 2 0).refreshes ∧ 0 ∈ run1.wave ∧ 0 ∈ ({ run1 with cid := 2, lo := 0, hi := 1, subs := [0, 1] } : Run).wave) ∧
    RowsRun { twoWaves 1 1 with refreshes := [] } run1 [{ run1 with cid := 1, lo := 1, hi := 2, subs := [0, 1] }] :=
  ⟨⟨rfl, by decide, rfl, by decide, rfl, fun h => nomatch h⟩, by decide, ⟨rfl, by decide, rfl, by decide, rfl, fun h => nomatch h⟩⟩
theorem witness_Halt_quiet : rowed.late = [] ∧ ∀ t x, x ∈ (rowed.pctlAt t).reqs → x.posted = true :=
  ⟨rfl, fun t x h => by
    have h1 : ∀ i : Fin 8, (rowed.pctl[i]).reqs = [] := by decide +kernel
    have h2 : (rowed.pctlAt t).reqs = [] := h1 ⟨t % 8, Nat.mod_lt _ (by decide)⟩
    rw [h2] at h
    cases h⟩

theorem test_endw : goesTo (exec .endw (looping 2)) (fun t => t.runs.map (·.pc) == [1] &&
      t.runs.map (·.bases) == [[65, 0, 1, 0, 0, 0, 0]] && t.runs.map (·.loops) == [[(1, 1, 5)]]) = true ∧
    goesTo (exec .endw (looping 1)) (fun t => t.runs.map (·.pc) == [4] && t.runs.map (·.loops) == [[]]) = true ∧
    goesTo (exec (.loopw 0 1) rowed) (fun t => t.runs.map (·.loops) == [[(1, 1, 1)]]) = true := by decide +kernel
theorem test_halt : goesTo (exec .halt { team1.withCmd kRPL [0, 0, 0, 0] with runs := [{ run1 with cid := team1.nextCmd }] })
      (fun t => t.runs == [] && t.cmds.all (·.finished)) = true ∧
    goesTo (exec .step { rowed with refreshes := [0] }) (fun t => t.refreshes == [] && t.runs.all (·.atStep)) = true := by
  decide +kernel

/-- An expression over f32 elements, 1.5 at 0x10000 the first, with a stack. -/
def expr (stack : List (BitVec 32)) : State :=
  let s := (put team1 0x10000 [0, 0, 0xC0, 0x3F]).withCmd kBXL [0, 0x10000, 0, 2, 0, 0]
  let r : ExprRun :=
    { cid := team1.nextCmd, order := 0, tower := 0, ops := [0x08, 0x14], consts := [7, 8, 9, 10], aMap := [(0x10000, 0x10000)],
      bMap := [], reads := [], writes := [], live := true, rest := [0x08, 0x14], elem := 0, stack := stack, terms := [],
      acc := none, accs := [], flags := 0, ue := 0, ce := 0, firstUe := 0, out := [], ended := false }
  { s with exprs := [r] }

theorem witness_Expression : (expr []).exprs.length = 1 ∧ (expr []).exprs.all (fun r => r.live && !r.ended) = true ∧
    ((expr []).cmdAt team1.nextCmd).isSome = true ∧ (expr []).ue = [] ∧ (expr []).ce = [] := by decide +kernel

def stackOf (i : Instr) (st : List (BitVec 32)) : Option (List (BitVec 32)) :=
  match exec i (expr st) with
  | .next t => (t.exprs[0]?).map (·.stack)
  | _ => none

theorem test_eLoads : stackOf .eLda [] = some [0x3FC00000] ∧ stackOf (.eLdk 2) [1] = some [9, 1] := by decide +kernel
theorem test_eArith : stackOf .eAdd [0x40000000, 0x3F800000] = some [0x40400000] ∧
    stackOf .eSub [0x40000000, 0x3F800000] = some [0xBF800000] ∧ stackOf .eMul [0x40000000, 0x40400000] = some [0x40C00000] ∧
    stackOf .eFma [0x3F800000, 0x40000000, 0x40400000] = some [0x40E00000] := by decide +kernel
theorem test_eStack : stackOf .eSwap [1, 2, 3] = some [2, 1, 3] ∧ stackOf .eDup [1, 2] = some [1, 1, 2] ∧
    stackOf .eDrop [1, 2] = some [2] ∧ stackOf .eNeg [0x3F800000] = some [0xBF800000] ∧
    stackOf .eAbs [0xBF800000] = some [0x3F800000] := by decide +kernel
theorem test_eCompare : stackOf .eCmplt [0x40000000, 0x3F800000] = some [0x3F800000] ∧
    stackOf .eSel [0, 0x3F800000, 0x40000000] = some [0x3F800000] ∧
    stackOf .eMin [0x40000000, 0x3F800000] = some [0x3F800000] ∧ stackOf .eMax [0x40000000, 0x3F800000] = some [0x40000000] ∧
    stackOf (.eCvt 2 0) [0x3F800001] = some [0x3F800000] := by decide +kernel
theorem test_eEnds : goesTo (exec .eSto (expr [0x3FC00000])) (fun t => t.exprs.map (·.elem) == [1] &&
      t.exprs.map (·.out) == [[[0, 0, 0xC0, 0x3F]]]) = true ∧
    goesTo (exec .eSumr (expr [0x3FC00000])) (fun t => t.exprs.map (·.terms) == [[0x3FC00000]]) = true ∧
    goesTo (exec .eMaxr (expr [0x3FC00000])) (fun t => t.exprs.map (·.acc) == [some 0x3FC00000]) = true := by decide +kernel

/-! ### Statements about host queues and launches -/

/-- A queue of 16 units whose ring lies at 0x10200, with room to run two or three units ahead before it is empty. -/
def fed (tail : Nat) : State :=
  { paged with queues := [(0, { paged.queueAt 0 with base := 0x10200, size := 4, tail := BitVec.ofNat 64 tail })] }
/-- The counter that the doubleword at 0xFFFFE00000000000 names. -/
def ctrVa : Word := 0xFFFFE00000000000

theorem witness_Packets : (∀ x, x ∈ (fed 32).cmds → x.cid ≠ (fed 32).nextCmd) ∧ isWindow ctrVa = true ∧ towerOf ctrVa = 4 ∧
    isWindow 0x10040 = false ∧ (fed 32).markPage page1 none false = fed 32 ∧ ((fed 32).queueAt 0).blockedOn = none ∧
    ((fed 32).counterOf 0 0 0) = 0 ∧ (0x10040#64).toNat % 32 = 0 ∧ (0x10041#64).toNat % 32 ≠ 0 := by decide +kernel
theorem witness_Packets_at : (fed 32).xlate 0 .load 0x10040 = .at_ 0x10040 0 page1 := by rfl

def blocked (va : Word) : State :=
  { fed 0 with queues := [(0, { (fed 0).queueAt 0 with blockedOn := some (va, 1, 0) })] }
theorem witness_Wait : ((blocked ctrVa).queueAt 0).blockedOn = some (ctrVa, 1, 0) ∧ (fed 32).rowHeld 0x10040 8 false = false ∧
    1 ≤ leVal ((put (blocked 0x10040) 0x10040 [1]).bytesIn 0 0x10040 8) := by decide +kernel
theorem witness_Packets_held : (fed 32).accessHeld 0x10040 8 page1 none false = false ∧ (fed 32).poolOut = [] := ⟨by rfl, rfl⟩

theorem test_bind : goesTo (exec (.bind 0 0x1000) (fed 32))
      (fun t => (t.queueAt 0).bound == some 0x1000 && (t.queueAt 0).head == 32 && t.agenda == []) = true ∧
    goesTo (exec (.configDeadline 0 77) (fed 32)) (fun t => (t.queueAt 0).deadline == 77 && (t.queueAt 0).head == 32) = true := by
  decide +kernel
theorem test_nop : goesTo (exec (.nop 0) (put (fed 16) 0x10200 [0, 1, 1])) (fun t => (t.queueAt 0).head == 16) = true ∧
    goesTo (exec (.qtailDoorbell 0 32) (fed 0)) (fun t => (t.queueAt 0).tail == 32) = true := by decide +kernel
theorem test_wait : goesTo (exec (.wait 0 0x10040 1) (fed 32))
      (fun t => (t.queueAt 0).blockedOn == some (0x10040, 1, 0) && (t.queueAt 0).head == 32) = true ∧
    goesTo (exec (.packetWaitDone 0) (put (blocked 0x10040) 0x10040 [1])) (fun t => (t.queueAt 0).blockedOn == none) = true ∧
    goesTo (exec (.packetWaitDone 0) (blocked 0x10040)) (fun t => (t.queueAt 0).blockedOn == some (0x10040, 1, 0)) = true := by
  decide +kernel
theorem test_signal : goesTo (exec (.signal 0 0x10080 9) (fed 32))
      (fun t => t.bytesIn 0 0x10080 8 == leBytes 8 9 && (t.queueAt 0).signals == []) = true ∧
    goesTo (exec (.copy 0 0x10040) (fed 32)) (fun t => (t.queueAt 0).copies == [t.nextCmd - 1] && t.cmds.length == 1) = true := by
  decide +kernel

/-- A gang table of two devices at 0x10600, the first this device. -/
def gangMem (p : BitVec 16) : State :=
  { State.reset.withTeam with
    tlb := [page1], mem := [(0x10600, 2), (0x10608, p.extractLsb' 0 8), (0x10609, p.extractLsb' 8 8)] }
theorem gangWord (p : BitVec 16) : dwordOf ((gangMem p).bytesIn 0 0x10608 16) 0 = p.setWidth 64 := by
  have h : dwordOf ((gangMem p).bytesIn 0 0x10608 16) 0 =
    BitVec.ofNat 64 ((p.extractLsb' 0 8).toNat + 256 * ((p.extractLsb' 8 8).toNat + 256 * 0)) := by rfl
  rw [h]
  apply BitVec.eq_of_toNat_eq
  simp [BitVec.extractLsb'_toNat, Nat.shiftRight_eq_div_pow]
  omega
theorem witness_gangEntries : ∃ ts, gangEntries 0 0 0x10600 (gangMem Config.pbrId) = .ok ts (gangMem Config.pbrId) := by
  let es := [dwordOf ((gangMem Config.pbrId).bytesIn 0 0x10608 16) 0, 0#64]
  have h : gangEntries 0 0 0x10600 (gangMem Config.pbrId) =
    (do qneed (es.all fun e => bits e 22 42 == 0)
        qneed ((es.map fun e => ((bits e 16 6).toNat, (bits e 0 16).toNat)).any (·.2 == Config.pbrId.toNat))
        return es.map fun e => ((bits e 16 6).toNat, (bits e 0 16).toNat) : QM (List (Nat × Nat))) (gangMem Config.pbrId) := by rfl
  have h1 : es = [Config.pbrId.setWidth 64, 0#64] := by simp only [es, gangWord]
  rw [h, h1]
  generalize Config.pbrId = p
  have h2 : bits (p.setWidth 64) 22 42 = 0 := by
    apply BitVec.eq_of_toNat_eq
    simp [bits, BitVec.extractLsb'_toNat, Nat.shiftRight_eq_div_pow]
    omega
  have hp : p.toNat < 65536 := p.isLt
  exact ⟨[((bits (p.setWidth 64) 16 6).toNat, (bits (p.setWidth 64) 0 16).toNat), (0, 0)], by
    simp [h2, qneed, bind, EStateM.bind, pure, EStateM.pure, bits, hp]⟩

/-- A kernel record at 0x10100 with a binding table at 0x10400 of core 3 alone. -/
def launcher (sp : Nat) : State :=
  put (put (fed 48) 0x10100 (leBytes 8 0x20000 ++ leBytes 8 0 ++ leBytes 8 0x10400 ++ leBytes 16 0 ++ leBytes 4 sp))
    0x10400 [1, 3]
def new1 : Launch := newLaunch (launcher 0) 0 0x30000 0 0

theorem witness_Launch : ((launcher 0).queueAt 0).periodUs = 0 ∧ (launcher 0).freeHandles = [] ∧
    (launcher 0).launchAt 0 = none := by decide +kernel
theorem witness_accepted : ∃ l1, acceptLaunch new1 0x10100 (launcher 0) = .ok (.inr l1) (launcher 0) ∧ l1.ranges = [] ∧
    l1.cores = [3] ∧ l1.code = 0x20000 := ⟨_, rfl, rfl, rfl, rfl⟩
theorem witness_refused : acceptLaunch new1 0x10100 (launcher 0x400000) = .ok (.inl (.status 0x14)) (launcher 0x400000) := by rfl
theorem witness_bad : acceptLaunch new1 0x10101 (launcher 0) = .error .bad (launcher 0) := by rfl
/-- The same kernel record with a binding table that is empty. -/
theorem witness_Launch_plain : let s := launcher 0
    let bs := s.bytesIn 0 0x10100 256
    let bs' := leBytes 8 0x20000 ++ leBytes 8 0 ++ leBytes 8 0x10500 ++ List.replicate 232 0
    let t := put s 0x10100 bs'
    bs.length = 256 ∧ t.bytesIn 0 0x10100 256 = bs' ∧ t.xlate 0 .load 0x10100 = .at_ 0x10100 0 page1 ∧
    t.rowHeld 0x10100 256 false = false ∧ t.markPage page1 none false = t ∧ kernelOk bs' = true ∧ dwordOf bs' 32 = 0 ∧
    dwordOf bs' 16 = 0x10500 ∧ t.xlate 0 .load 0x10500 = .at_ 0x10500 0 page1 ∧ t.rowHeld 0x10500 8 false = false ∧
    (∀ j, j < 8 → t.byteIn 0 (0x10500 + j) = 0) ∧ t.freeHandles.length ≤ 8192 ∧ t.launches = [] ∧
    t.covers { new1 with spneed := 0, saneed := 0 } 0 = true ∧ (t.queueAt 0).period.toNat % 2 ^ 32 = 0 := by decide +kernel
theorem witness_held : ∃ s1, acceptLaunch new1 0x20000 (launcher 0) = .error .wait s1 := ⟨_, rfl⟩
theorem witness_Launch_held : (launcher 0).accessHeld 0x10100 256 page1 none false = false ∧
    (launcher 0).accessHeld 0x10500 8 page1 none false = false ∧ (launcher 0).poolOut = [] ∧
    (∀ x, x ∈ (launcher 0).launches → x.id ≠ (launcher 0).nextLaunch) := ⟨by rfl, by rfl, rfl, fun _ h => nomatch h⟩
/-- Launch 7 whose order waits for nothing, on a cluster with room, and one whose order waits for it. -/
def ordered : State :=
  { paged with launches := [{ new1 with id := 7, cores := [3], bound := [3] }, { new1 with id := 9, deps := [7] }] }
theorem witness_Ready : (ordered.launchAt 7).any (fun x => !x.placed && !x.complete && x.deps == [] && x.clusters == [0] &&
      ordered.covers x 0 && ordered.hasRoom x 0) = true ∧ (ordered.clusterAt 0).target = none ∧
    (ordered.launchAt 9).any (fun x => x.deps == [7]) = true ∧ ordered.launchAt 5 = none := by decide +kernel

theorem test_launch : goesTo (exec (.launch 0 0x10100 0x30000 0 0) (launcher 0))
    (fun t => t.launches.map (fun l => (l.code, l.cores, l.placed, l.frame)) == [(0x20000, [3], true, 0x30000)] &&
      (t.queueAt 0).head == 48) = true := by decide +kernel
theorem test_launchReady : goesTo (exec (.launchReady 7) { paged with launches := [{ new1 with id := 7, cores := [3], bound := [3], deps := [9] }] })
    (fun t => t.launches.all (·.placed)) = true := by decide +kernel

/-! ### Statements about scheduling -/

/-- Queue 0 with a period of 100 µs under way, and with a gang. -/
def periodic : State :=
  let c := paged.queueAt 0
  { paged with queues := [(0, { c with period := 100, budget := 7, newPeriod := 200, newBudget := 9, begun := some 5000,
                                       newGang := 0 })] }
def ganged (table : List (Nat × Nat)) : State :=
  let c := periodic.queueAt 0
  { periodic with queues := [(0, { c with gang := 1#64 <<< 63, slice := .waiting, gangTable := table })] }

theorem witness_Periods : (periodic.queueAt 0).period.toNat % 2 ^ 32 ≠ 0 ∧ (periodic.queueAt 0).begun = some 5000 ∧
    (periodic.queueAt 0).newGang.getLsbD 63 = false ∧ (periodic.queueAt 0).demoted = false ∧
    (paged.queueAt 0).period.toNat % 2 ^ 32 = 0 ∧ (paged.queueAt 0).gangEn = false ∧ ((ganged []).queueAt 0).gangEn = true ∧
    ((ganged []).queueAt 0).slice = .waiting ∧ (ganged []).gangMissing 0 = 0 ∧ (ganged []).launches = [] := by decide +kernel
theorem witness_Skew : 0 < (ganged [(0, 1), (1, 2)]).gangMissing 0 := by
  have h : (ganged [(0, 1), (1, 2)]).gangMissing 0 = ([((0, 1), 0), ((1, 2), 1)].filter
      fun x : (Nat × Nat) × Nat => x.1.2 != Config.pbrId.toNat && !false).length := rfl
  rw [h]
  by_cases h1 : Config.pbrId.toNat = 1
  · rw [h1]; decide
  · exact List.length_pos_of_mem (List.mem_filter.mpr ⟨List.mem_cons_self, by simp; omega⟩)

theorem witness_GangSkew : 0 < (ganged [(0, 1), (1, 2)]).gangMissing 0 + 1 ∧ (ganged []).gangCore 0 5 = false ∧
    (∀ x, x ∈ periodic.queues → x.2.slice ≠ .waiting) ∧ (periodic.queueAt 0).left = 0 := by decide +kernel

theorem test_period : goesTo (exec (.periodStart 0) periodic) (fun t => (t.queueAt 0).period == 200 && (t.queueAt 0).left == 9000 &&
      (t.queueAt 0).begun == some 105000) = true ∧
    goesTo (exec (.budgetOverrun 0) periodic) (fun t => (t.queueAt 0).demoted && t.evseq == 1) = true := by decide +kernel

def acorn1 : Acorn := acornOf (record1 0 0) 0x10040 0 0
/-- Two launches of cores 0 and 1, the first of a queue with a period. -/
def sharing (s : State) : State :=
  { s with launches := [{ new1 with id := 0, joinrec := 0x40000000, cores := [0, 1], placed := true },
                        { new1 with id := 1, joinrec := 0x50000000, cores := [0], queue := 1, placed := true }],
           queues := [(1, { paged.queueAt 1 with period := 100, begun := some 0 })] }
def held1 : State := { paged with held := [acorn1], watch := [acorn1] }
/-- Core 0 idle, an acorn of launch 0 in the deque of core 1. -/
def stealing : State := sharing (({ paged with live := false }).setCore 1 { paged.coreAt 1 with deque := [acorn1] })
/-- Core 0 busy with launch 0, an acorn of launch 1 in its deque. -/
def contested : State := sharing (paged.setCore 0 { paged.coreAt 0 with deque := [{ acorn1 with launch := 1 }] })

theorem witness_Deques : held1.held[0]? = some acorn1 ∧ held1.watch[0]? = some acorn1 ∧ held1.readyAcorn acorn1 = true ∧
    bestPick stealing 0 (stealing.candidates 0) = some (.top 1, 0) ∧ bestPick paged 0 (paged.candidates 0) = none ∧
    paged.held[0]? = none ∧ paged.watch[0]? = none ∧ contested.gangHeld 0 = false ∧
    bestPick contested 0 (contested.candidates 0) = some (.bottom, 1) ∧
    lateLt (lateKey (contested.rank 1 0)) (lateKey (contested.rank 0 0)) = true ∧ (contested.rank 1 0).1 ≤ 1 ∧
    (contested.coresOf 1).all (fun y => !contested.idleCore y) = true ∧ paged.runningOn 5 = none := by decide +kernel
theorem witness_running : ∃ x, contested.runningOn 0 = some x ∧ x.team.launch = 0 := ⟨_, rfl, rfl⟩
theorem witness_Steal : (stealing.coreAt 1).deque = [acorn1] ∧ stealing.runningOn 0 = none ∧ stealing.coreServes 0 = true ∧
    acorn1.rival = none ∧ acorn1.versioned = false ∧ stealing.queues.all (fun x => x.2.slice != .waiting) = true := by
  refine ⟨rfl, rfl, ?_, rfl, rfl, ?_⟩ <;> decide +kernel
theorem test_steal_entry : goesTo (exec (.dequeSteal 0 1) stealing) (fun t => t.team.tvec == 0 && t.x 1 == 0 && t.x 2 == 0x30000 &&
    t.x 3 == 0x10040 && t.x 4 == 0 && t.x 6 == 0 && t.team.task == stealing.nextTask) = true := by decide +kernel

theorem test_held : goesTo (exec (.heldAcornPlace 0) held1) (fun t => (t.coreAt 0).deque == [acorn1] && t.held == []) = true ∧
    goesTo (exec (.watcherPush 0) held1) (fun t => (t.coreAt 0).deque == [acorn1] && t.watch == []) = true := by decide +kernel
theorem test_steal : goesTo (exec (.dequeSteal 0 1) stealing) (fun t => t.live && t.team.core == 0 && t.me.pc == 0x20000 &&
      (t.coreAt 1).deque == []) = true ∧
    goesTo (exec (.preempt 0) contested) (fun t => t.live && t.team.launch == 1 && t.parked.length == 1) = true := by decide +kernel

/-- A hart that waits for rows; the same team swapped out. -/
def waiting : State := { team1 with me := { team1.me with wait := some .rows } }
def swapped : State :=
  { team1 with live := false, parked := [{ team := team1.team, harts := [{ team1.me with wait := some .rows }], place := .swapped }] }
/-- The same where the hart waits for a counter that has not got there. -/
def counting : State :=
  { paged with live := false, parked :=
      [{ team := team1.team, harts := [{ team1.me with wait := some (.counter 0x10040 1) }], place := .swapped }] }

theorem witness_Swap : waiting.live = true ∧ waiting.waitswap ≠ 0 ∧ waiting.moving waiting.focusCtx = false ∧
    waiting.me.swappable = true ∧ waiting.me.alive = true ∧ waiting.peers = [] ∧ waiting.me.entry = none ∧
    waiting.hartDue waiting.focusCtx waiting.me = true ∧
    (swapped.parked.find? (fun y => y.team.no == 0 && y.place == .swapped)).any (fun x => x.harts.all (swapped.hartDue x)) = true ∧
    (counting.parked.find? (fun y => y.team.no == 0 && y.place == .swapped)).any (fun x => x.harts.any (fun h =>
      h.alive && h.wait != some .barrier && !counting.hartDue x h)) = true := by decide +kernel
/-- A hart that waits at a TLWAIT of X[6], 0x10100, for the value of X[7] in the doubleword there. -/
def atTlwait : State :=
  regs { put paged 0x10040 (leBytes 4 0x6406380C) with
    me := { paged.me with pc := 0x10040, wait := some (.counter 0x10100 0) } } [(6, 0x10100)]
theorem witness_Tlwait : atTlwait.hartDue atTlwait.focusCtx atTlwait.me = true ∧ ∃ w s1 s2, fetchWord atTlwait = .ok w s1 ∧
    decodeScalar w = .ok (.tlwait 6 7 .package) ∧ tlwaitWord 6 7 .package atTlwait = .ok () s2 :=
  ⟨by decide +kernel, _, _, _, rfl, rfl, rfl⟩
/-- The waiting team with a hart at TBAR whose arrival is not over. -/
def arriving : State := { waiting with peers := [{ Hart.reset with idx := 1, alive := true, wait := some .arriving }] }
theorem witness_Swap_arriving : arriving.peers.all (fun h => h.wait == some .arriving) = true ∧ arriving.me.swappable = true ∧
    arriving.fixed arriving.focusCtx = false := by decide +kernel
theorem test_swap_arriving : goesTo (exec (.teamSwapOut 0) arriving) (fun t => t.parked.map (·.place) == [.swapped]) = true := by
  decide +kernel
theorem witness_Wait_end : waiting.me.pending = [] ∧ waiting.me.blkFault = none ∧ waiting.me.wait = some .rows ∧
    counting.parked.length = 1 ∧ ∃ e s1, fetchWord waiting = .error e s1 := by
  refine ⟨rfl, rfl, rfl, rfl, ?_⟩
  exact ⟨_, _, rfl⟩
theorem witness_Wait_due : ∃ w, atTlwait.me.wait = some w ∧ w ≠ .team ∧ w ≠ .barrier ∧ atTlwait.me.pending = [] ∧ atTlwait.me.blkFault = none ∧
    paged.hartDue paged.focusCtx { paged.me with wait := some (.counter 0x10040 1) } = false :=
  ⟨_, rfl, by decide, by decide, rfl, rfl, by decide +kernel⟩
theorem test_swap : goesTo (exec (.teamSwapOut 0) waiting) (fun t => t.parked.map (·.place) == [.swapped] && !t.live) = true ∧
    goesTo (exec (.teamRequeue 0) swapped) (fun t => t.parked.map (·.place) == [.ready]) = true ∧
    goesTo (exec (.waitSatisfied 0 0) waiting) (fun t => t.me.wait == none) = true := by decide +kernel

/-- A pending fault of a block. -/
def faulty : State :=
  { handling with me := { handling.me with pending := [8], blkFault := some (.of 0x0A 0x77) } }
theorem witness_Delivery : faulty.me.pending = [8] ∧ faulty.me.pendingTrap 8 = some (.of 0x0A 0x77) ∧
    faulty.me.inHandler = false ∧ faulty.canDeliver = true ∧ faulty.me.wait = none ∧ faulty.peers = [] ∧
    team1.me.pending = [] ∧ team1.team.restartable = false ∧ team1.team.versioned = false ∧
    (forked.forkAt 1).isSome = true ∧ team1.forkAt 1 = none := by decide +kernel
theorem test_delivery : goesTo (exec (.asyncFaultDelivery 0 0) faulty)
      (fun t => t.me.pc == 0x20000 && t.me.tcause == 0x0A && t.me.pending == []) = true ∧
    goesTo (exec (.forkContinuation 1) { chooser with worlds := [] }) (fun t => t.forks.all (·.pushed)) = true := by decide +kernel
theorem test_hwError : goesTo (exec (.hwErrorRestart 0) team1) (fun t => !t.live) = true := by decide +kernel

/-! ### Statements about translation, accesses from outside, rails and power -/

/-- A hart that waits for a request of page 0x20000 at tower 0, numbered 9 and posted. -/
def asking (posted : Bool) : State :=
  let r : PageReq := { tag := 9, page := 0x20000, asid := 0, waiters := 1, rd := true, wr := false, fx := false, posted := posted }
  { paged.setPctl 0 { paged.pctlAt 0 with reqs := [r] } with me := { paged.me with wait := some (.page 0 9) } }
/-- A leased page of the pool. -/
def pooled : State :=
  { team1 with tlb := [{ page1 with pte := page1.pte ||| 2#64 <<< 5 }], ptroots := [((0, 0), 1)], leases := [0x10000] }

theorem witness_Pager : ((asking true).pctlAt 0).reqs.find? (fun r => r.tag == 9 && r.posted) =
      some { tag := 9, page := 0x20000, asid := 0, waiters := 1, rd := true, wr := false, fx := false, posted := true } ∧
    (asking false).pctlAt 0 ≠ (asking true).pctlAt 0 ∧ ((asking false).pctlAt 0).reqs.all (fun r => !r.posted) = true ∧
    (asking true).side = [] ∧ (asking true).queues = [] ∧ (asking true).launches = [] ∧ (asking true).cmds = [] ∧
    (asking true).peers = [] ∧ (asking true).parked = [] ∧ (asking true).me.blk = none ∧
    pageOf 0x20000 = 0x20000 ∧ team1.ptroots = [] ∧ pooled.poolOut = [] ∧
    (pooled.lookup 0 0 (offsetOf 0x10000)).map (fun e => pteClass e.pte) = some 2 ∧
    ((({ pooled with tlb := [page1] }).lookup 0 0 (offsetOf 0x10000)).map fun e : TlbEntry => pteClass e.pte) ≠ some 2 := by decide +kernel
theorem witness_Pager_quiet : (asking true).refusals = [] ∧ pooled.late = [] ∧ pooled.rowHeld 0x100000 8 true = false ∧
    (((asking true).pctlAt 0).reqs.all (·.posted)) = true ∧ (asking true).me.wait = some (.page 0 9) := ⟨rfl, rfl, rfl, rfl, rfl⟩
theorem test_mapped : goesTo (exec (.mapped 0 9) (asking true)) (fun t => (t.pctlAt 0).reqs == [] && (t.pctlAt 0).tag == 9) = true ∧
    goesTo (exec (.mapped 0 8) (asking true)) (fun t => (t.pctlAt 0).reqs.length == 1 && (t.pctlAt 0).bad) = true := by decide +kernel
theorem test_refuse : goesTo (exec (.refuse 0 9) (asking true)) (fun t => t.me.answers == [(0x20000, 3)]) = true ∧
    goesTo (exec (.deny 0 9) (asking true)) (fun t => t.me.answers == [(0x20000, 5)]) = true := by decide +kernel
theorem test_ptinv : goesTo (exec (.ptinvPage 0x10040) paged) (fun t => t.tlb == []) = true ∧
    goesTo (exec (.ptinvPage 0x20040) paged) (fun t => t.tlb == [page1]) = true ∧
    goesTo (exec .ptinvAsid paged) (fun t => t.tlb == []) = true := by decide +kernel
theorem test_lease : goesTo (exec (.leaseExpiry 0x10000) pooled)
    (fun t => t.tlb == [] && t.leases == [] && leVal (t.bytesIn 0 0x100000 8) == 0x103DE) = true := by decide +kernel

theorem witness_Outside : (0x10040 : Nat) / (48 * 2 ^ 30) < 8 ∧ 8 ≤ 8 * (48 * 2 ^ 30) / (48 * 2 ^ 30) ∧
    paged.rowsBusy 0x10040 8 = false ∧ (0x10040#64 &&& 0x3FFFFFFFFFFF#64) = 0x10040 ∧
    paged.xlate 0 .load 0x20000 = .missing ∧ (paged.pctlAt 0).reqs = [] ∧
    ({ paged with tlb := [{ page1 with pte := 0x10001 }] }).xlate 0 .load 0x10040 = .denied 0 := by decide +kernel
theorem witness_Outside_at : paged.xlate 0 .load 0x10040 = .at_ 0x10040 0 page1 ∧
    paged.xlate 0 .store 0x10040 = .at_ 0x10040 0 page1 ∧ paged.xlate 0 .atomic 0x10040 = .at_ 0x10040 0 page1 :=
  ⟨by rfl, by rfl, by rfl⟩
theorem witness_Outside_held : paged.physHeld 0 0x10040 8 true = false ∧ paged.accessHeld 0x10040 8 page1 none true = false ∧
    paged.accessHeld 0x10040 8 page1 none false = false ∧ paged.boot.husk = false ∧ paged.boot.recovering = false := by decide +kernel
/-- The tables of an address space in row 128, which a live row program writes. -/
def walking : State := { paged with ptroots := [((0, 0), 0x20001)], runs := [{ run1 with writes := [128] }] }
theorem witness_Outside_busy : walking.xlate 0 .load 0x40040 = .busy ∧
    ({ paged with tlb := [{ page1 with pte := 0x10001 }] }).xlate 0 .load 0x10040 = .denied 0 := ⟨by rfl, by rfl⟩
theorem witness_Outside_atomic : AtomicWrites 1 64 5 3 0 (some 8) := by
  simp [AtomicWrites]

theorem test_hostMem : goesTo (exec (.hostMemAccess 0x10040 (.write [1, 2])) paged)
      (fun t => goesTo (exec (.hostMemAccess 0x10040 (.read 3)) t) (fun u => u.reply == [1, 2, 0])) = true := by decide +kernel
theorem test_fabric : goesTo (exec (.fabricRequest 0 0x10040 (.atomic 1 true 3 0)) (put paged 0x10040 [5]))
      (fun t => t.reply == leBytes 8 5 && t.bytesIn 0 0x10040 8 == leBytes 8 8) = true ∧
    goesTo (exec (.fabricRequest 0 0x10040 (.tlsig 4)) (put paged 0x10040 [5]))
      (fun t => t.reply == leBytes 8 5 && t.bytesIn 0 0x10040 8 == leBytes 8 5) = true := by decide +kernel

/-- Cluster 0 as given; X[6] as given. -/
def railed (f : Cluster → Cluster) (x : Word) : State := regs (paged.setCluster 0 (f (paged.clusterAt 0))) [(6, x)]

theorem witness_Rails : ((railed id 1).clusterAt 0).target = none ∧ (railed id 1).fitsLv 0 = true ∧
    ((railed (fun c => { c with target := some true }) 1).clusterAt 0).target = some true ∧
    (2#64 &&& 0xFFFFFFFFFFFF00FE#64) ≠ 0 ∧ (0xFF01#64 &&& 0xFFFFFFFFFFFF00FE#64) = 0 ∧ (0xFF01#64).toNat / 256 % 256 = 255 ∧
    (railed id 1).railcmd.getLsbD 15 = false ∧ ((railed (fun c => { c with lv := true }) 0).clusterAt 0).lv = true := by decide +kernel
theorem test_railsel : goesTo (exec (.railsel 5 6) (railed id 1))
      (fun t => t.me.wait == some .hold && (t.clusterAt 0).target == some true &&
        goesTo (exec (.railSwitchDone 0) t) (fun u => (u.clusterAt 0).lv && u.me.pc == 4 && u.x 5 == 0)) = true ∧
    goesTo (exec (.railsel 5 6) (railed id 0)) (fun t => t.x 5 == 1 && t.me.pc == 4) = true ∧
    goesTo (exec (.railsel 5 6) (railed id 2)) (fun t => t.x 5 == 5) = true := by decide +kernel
theorem test_clipq : goesTo (exec (.clipq 5 6) (railed id 0xFF00)) (fun t => t.x 5 == 0x0040000000200000) = true ∧
    goesTo (exec (.clipq 5 6) (railed id 2)) (fun t => t.x 5 == BitVec.allOnes 64) = true := by decide +kernel
/-- A cluster at LV with as many array rows clipped. -/
def atLv (n : Nat) : State :=
  railed (fun c => { c with lv := true, saClip := n, vaultClip := Vector.replicate 4 0 }) 0

theorem witness_Rails_moving :
    ((railed (fun c => { c with target := some true, mover := .command, queued := [(.device, false)] }) 1).clusterAt 0).mover = .command ∧
    ((railed (fun c => { c with target := some true, mover := .hart 0 0 5 }) 1).clusterAt 0).mover = .hart 0 0 5 ∧
    ((railed (fun c => { c with target := some true, mover := .device }) 1).clusterAt 0).target = some true := by decide +kernel
/-- A command waits behind a RAILSEL and ends with it: the cluster is on its rail already. -/
theorem test_railQueue : goesTo (exec (.railcmdGo 0 true) (railed (fun c => { c with target := some true, mover := .hart 0 0 5 }) 1))
    (fun t => t.railcmd.getLsbD 15 && (t.clusterAt 0).queued.length == 1 && goesTo (exec (.railSwitchDone 0) t) (fun u =>
      !u.railcmd.getLsbD 15 && u.railcmd.toNat / 4096 % 8 == 1 && u.me.pc == 4)) = true := by decide +kernel
theorem test_learnedRow : goesTo (exec (.learnedRow 0 .sa 3) (atLv 0))
      (fun t => (t.clusterAt 0).saClip == 1 && (t.clusterAt 0).grown && !(t.clusterAt 0).lvbar) = true ∧
    goesTo (exec (.learnedRow 0 .sa 3) (atLv 4096))
      (fun t => (t.clusterAt 0).lvbar && (t.clusterAt 0).target == some false) = true ∧
    goesTo (exec (.railcmdGo 0 true) paged) (fun t => t.railcmd.getLsbD 15 && (t.clusterAt 0).target == some true) = true := by
  decide +kernel

/-- Tower 0 at a step, or offline. -/
def tower0 (f : Tower → Tower) : State := paged.setTower 0 (f (paged.towerAt 0))
def cold : State := { State.reset with towers := State.reset.towers.set 0 { State.reset.towerAt 0 with step := 2 } }

theorem witness_Heat : paged.limit.toNat ≤ 105 ∧ (tower0 fun t => { t with step := 1 }).towerAt 0 ≠ paged.towerAt 0 ∧
    cold.live = false ∧ cold.parked = [] ∧ cold.launches = [] ∧ cold.cores = [] ∧ cold.watch = [] ∧ cold.held = [] ∧
    cold.forks = [] ∧ cold.sas = [] ∧ cold.queues = [] ∧ (cold.towerAt 0).step = 2 ∧ (cold.towerAt 0).offline = false ∧
    (cold.clusterAt 0).target = none ∧ ((3 : BitVec 2) = 3 ∧ paged.powermode.getLsbD 8 = false) ∧
    (paged.towerAt 0).step = 0 := by decide +kernel
theorem test_power : goesTo (exec (.powermodeWrite 2) paged) (fun t => t.powermode.toNat % 4 == 2) = true ∧
    goesTo (exec (.powermodeWrite 3) paged) (fun t => t.powermode.toNat % 4 == 0 && t.powermode.toNat / 1024 % 4 == 1) = true ∧
    goesTo (exec .contractLoss { paged with powermode := powerWord 3 true false 0 })
      (fun t => t.powermode.toNat % 4 == 0 && t.powermode.toNat / 1024 % 4 == 2 && !t.powermode.getLsbD 8) = true := by decide +kernel
theorem test_heat : goesTo (exec (.thermalStep1 0 105) paged) (fun t => (t.towerAt 0).step == 1) = true ∧
    goesTo (exec (.thermalStep1 0 104) paged) (fun t => (t.towerAt 0).step == 0 && (t.towerAt 0).temp == 104) = true ∧
    goesTo (exec (.thermalStep2 0 105) (tower0 fun t => { t with step := 1 }))
      (fun t => (t.towerAt 0).step == 2 && (t.clusterAt 7).target == some true && (t.clusterAt 8).target == none) = true ∧
    goesTo (exec (.thermalUnwind 0 94) (tower0 fun t => { t with step := 1 })) (fun t => (t.towerAt 0).step == 0) = true := by
  decide +kernel
theorem test_towerReturn : goesTo (exec (.towerReturn 1) (tower0 fun t => { t with offline := true }))
      (fun t => !(t.towerAt 0).offline) = true ∧
    goesTo (exec (.matrixWindow 0) (paged.setCore 0 { paged.coreAt 0 with matrix := 9 })) (fun t => (t.coreAt 0).matrix == 0) = true
      := by decide +kernel

/-! ### Statements about the alarm, monitors, start-up and registers -/

theorem witness_Alarm : (∃ j, j < 5 ∧ (4#5).getLsbD j = true ∧ paged.alarmcfg.toNat / 4 ^ j % 4 = 1) ∧
    (∀ j, j < 5 → (4#5).getLsbD j = true → paged.alarmcfg.toNat / 4 ^ j % 4 ≤ 1) ∧
    (∃ j, j < 5 ∧ (1#5).getLsbD j = true ∧ paged.alarmcfg.toNat / 4 ^ j % 4 = 2) ∧
    (∀ j, j < 5 → (1#5).getLsbD j = true → paged.alarmcfg.toNat / 4 ^ j % 4 ≤ 2) ∧
    (∃ j, j < 5 ∧ (1#5).getLsbD j = true ∧ ({ paged with alarmcfg := 0 }).alarmcfg.toNat / 4 ^ j % 4 = 0) ∧
    (4#5) ≠ 0 := by decide +kernel
theorem test_alarm : goesTo (exec (.alarmcfgWrite 3) paged) (fun t => t.alarmcfg == 2) = true ∧
    goesTo (exec (.alarm 1) paged) (fun t => t.boot.husk && t.boot.reason == 2 && !t.live && !t.boot.keyPresent) = true ∧
    goesTo (exec (.alarmcfgWrite 0) { paged with alarmcfg := 0x296 ||| 1#64 <<< 63 })
      (fun t => t.alarmcfg == 0x296 ||| 1#64 <<< 63) = true := by decide +kernel

/-- A unit of core 3 that captures code 2. -/
def monitoring : State := { paged with mons := [{ Mon.reset (.core 3) with ctl := 0x201 }] }
theorem witness_Capture : (monitoring.monAt (.core 3)).ctl.getLsbD 0 = true ∧ (monitoring.monAt (.core 3)).ctl.getLsbD 1 = false ∧
    (monitoring.monAt (.core 3)).ctl.toNat / 256 % 256 = 2 ∧ (paged.monAt (.queue 0)).ctl.getLsbD 0 = false := by decide +kernel
/-- A unit of queue 0 that captures code 5. -/
def measuring : State := { fed 0 with mons := [{ Mon.reset (.queue 0) with ctl := 0x501 }] }
theorem witness_Capture_queue : (measuring.monAt (.queue 0)).ctl.toNat / 256 % 256 = 5 ∧ measuring.packetsIn 0 = 0 := by decide +kernel
theorem test_capture : goesTo (exec (.monitorSample (.core 3) 2 9) monitoring) (fun t => (t.monAt (.core 3)).count == 1 &&
      (t.monAt (.core 3)).lo == 9 && (t.monAt (.core 3)).buckets[4]? == some 1) = true ∧
    goesTo (exec (.monitorSample (.core 3) 0 0) monitoring) (fun t => (t.monAt (.core 3)).slip == 1) = true ∧
    goesTo (exec (.monitorClr (.core 3)) monitoring) (fun t => (t.monAt (.core 3)).ctl == 0x201) = true := by decide +kernel

def booting (f : Boot → Boot) : State := { State.reset with boot := f State.reset.boot }
theorem witness_Start : (booting fun b => { b with counter := 3 }).boot.counter = 3 ∧
    (booting fun b => { b with keyPresent := false, epoch := 15 }).boot.keyPresent = false ∧ State.reset.boot.counter < 3 ∧
    State.reset.boot.keyPresent = true ∧ State.reset.boot.recovery = false ∧ State.reset.imageOk 1 [] = false ∧
    State.reset.imageOk 3 [] = false ∧ (booting fun b => { b with recovery := true }).boot.recovery = true ∧
    State.reset.boot.ready = false ∧ State.reset.boot.husk = false ∧ State.reset.boot.recovering = false ∧
    team1.boot.ready = true := by decide +kernel
/-- A device without a key, in an erase epoch below 15. -/
theorem witness_Start_key : (booting fun b => { b with keyPresent := false, epoch := 2 }).boot.keyPresent = false ∧
    (booting fun b => { b with keyPresent := false, epoch := 2 }).boot.epoch < 15 := by decide
/-- An image of one byte of a kind, for a key of zeros, with its digest and a signature. -/
def image1 (kind : Nat) : List Byte :=
  leBytes 8 0x4B465A4C5A394657 ++ leBytes 4 kind ++ leBytes 4 0 ++ leBytes 8 1 ++ leBytes 48 (Config.sha384 [7]).toNat ++
    List.replicate 184 0 ++ [7] ++ List.replicate 96 0
/-- Where the open verification accepts its signature and the fuses hold its key, such an image is accepted (R321, log entry 12). -/
theorem witness_Image_accepted : ∀ kind ∈ [1, 2, 3],
    Config.ecdsaVerify (List.replicate 96 0) (Config.sha384 ((image1 kind).take 256)) (List.replicate 96 0) = true →
    (booting fun b => { b with fuseRoot := Config.sha384 (List.replicate 96 0), fuseSvn := 0 }).imageOk kind (image1 kind) = true := by
  have hd : (Config.sha384 [7]).toNat = leVal (leBytes 48 (Config.sha384 [7]).toNat) := by
    rw [leVal_leBytes]
    exact (Nat.mod_eq_of_lt (Config.sha384 [7]).isLt).symm
  have hk : ∀ kind ∈ [1, 2, 3], imageLen (image1 kind) = 1 ∧ imageBody (image1 kind) = [7] ∧ ((image1 kind).drop 24).take 48 =
      leBytes 48 (Config.sha384 [7]).toNat ∧ ((image1 kind).drop 72).take 96 = List.replicate 96 0 ∧
      (image1 kind).drop 257 = List.replicate 96 0 ∧ (image1 kind).length = 353 ∧ imageKind (image1 kind) = kind ∧
      leVal ((image1 kind).take 8) = imageMagic ∧ ((image1 kind).drop 168).take 88 = List.replicate 88 0 := by
    intro kind h
    simp only [List.mem_cons, List.not_mem_nil, or_false] at h
    rcases h with rfl | rfl | rfl <;> exact ⟨rfl, rfl, rfl, rfl, rfl, rfl, rfl, rfl, rfl⟩
  intro kind h hv
  obtain ⟨h1, h2, h3, h4, h5, h6, h7, h8, h9⟩ := hk kind h
  simp only [State.imageOk, h1, h2, h3, h4, h6, h7, h8, h9, show 256 + 1 = 257 from rfl, h5, ← hd, imageHead, hv]
  simp [booting]
theorem test_start : goesTo (exec (.start { fail := some (2, 1, 7), retired := [], narrowed := [] }) State.reset)
      (fun t => t.boot.counter == 1 && t.boot.stage == 2 && t.boot.tower == 1 && !t.boot.husk) = true ∧
    goesTo (exec (.start { fail := some (0, 0, 7), retired := [], narrowed := [] }) (booting fun b => { b with counter := 2 }))
      (fun t => t.boot.husk && t.boot.reason == 1) = true := by decide +kernel

/-- Husk mode for a reason, and recovery. -/
def husked (r : Nat) : State := booting fun b => { b with husk := true, reason := r, counter := 3, stage := 4, mayClear := r != 2 }
def mending : State := booting fun b => { b with recovering := true }
theorem witness_Mailbox : (husked 1).boot.husk = true ∧ (husked 1).boot.reason ≠ 2 ∧ (husked 2).boot.mayClear = false ∧ (husked 1).boot.mayClear = true ∧
    mending.boot.recovering = true ∧ mending.boot.keyPresent = true ∧
    ({ mending with boot := { mending.boot with fuseRoot := Config.chainRoot [] } }).boot.fuseRoot = Config.chainRoot [] ∧
    (booting fun b => { b with keyPresent := false }).boot.keyPresent = false := ⟨rfl, by decide, rfl, rfl, rfl, rfl, rfl, rfl⟩
theorem test_mailbox : goesTo (exec .report (husked 1)) (fun t => t.reply == [1, 4, 0, 3, 0, 0, 0, 0, 0, 0, 0, 0, 0, 0, 0, 0]) = true ∧
    goesTo (exec .clear (husked 1)) (fun t => t.boot.counter == 0) = true ∧
    goesTo (exec .clear (husked 2)) (fun t => t.boot.counter == 3) = true ∧
    goesTo (exec .done mending) (fun t => !t.boot.recovering && t.boot.counter == 0) = true := by decide +kernel
/-- A routing table that holds as many load-store devices as there may be. -/
def routed : State := { paged with routes := (List.range 4095).map fun i => (i + 1, true) }
theorem witness_Route : (routed.routes.filter (·.1 != 5000)).length + 1 = 4096 := by decide +kernel
theorem test_registerWrite : goesTo (exec (.registerWrite (.qsize 1) (BitVec.allOnes 64)) paged)
      (fun t => (t.queueAt 1).size == 0xFFFF00000000001F) = true ∧
    goesTo (exec (.registerWrite .ctxscope 7) paged) (fun t => t.ctxscope == 2) = true ∧
    goesTo (exec (.registerWrite .ptroot 0x21001) { paged with ptsel := 0x10005 })
      (fun t => t.ptroots == [((5, 1), 0x20001)]) = true := by decide +kernel

/-! ### Statements about engines and row commands -/

/-- A command of the hart, not yet started, with bytes at 0x10040 and at 0x10100. -/
def engine (kind : Nat) (args : List Word) (at1 at2 : List Byte) : State :=
  put (put (paged.withCmd kind args) 0x10040 at1) 0x10100 at2
def copying (mode : Nat) : State :=
  engine 0 [0x10040] (leBytes 8 0x10100 ++ leBytes 8 0x10200 ++ leBytes 8 5 ++ leBytes 8 mode) [1, 2, 3, 4, 5, 6]
/-- One 32-bit index, 3, over a table of words at 0x10100 with rows of 4 bytes, its packed area at 0x10200. -/
def indexing (kind limit : Nat) (q : Word) : State :=
  put (engine kind [0x10040, 0x10100, 0x10200, BitVec.ofNat 64 (limit * 2 ^ 32 + 1), 4#64 <<< 32 ||| q] [3]
    (List.replicate 12 0 ++ [7, 0, 0, 1])) 0x10220 [9, 0, 0, 2]
def cmd1 (s : State) : Cmd := (s.cmds[0]?).getD
  { cid := 0, kind := 0, args := [], team := 0, hart := 0, ctx := 0, seq := 0, core := 0, world := 0, asid := 0, launch := 0,
    queue := none, hold := [], answers := [], accepted := false, started := false, finished := false, dropped := false,
    work := .none, fault := none }

theorem witness_engineMapped : EngineMapped (copying 0) (cmd1 (copying 0)) .load 0x10040 32 0x10040 ∧
    EngineMapped (copying 0) (cmd1 (copying 0)) .load 0x10100 5 0x10100 ∧
    EngineMapped (copying 0) (cmd1 (copying 0)) .store 0x10200 5 0x10200 := by
  refine ⟨⟨?_, ?_, ⟨0, page1, by rfl, ?_, ?_, ?_⟩, by rfl⟩, ⟨?_, ?_, ⟨0, page1, by rfl, ?_, ?_, ?_⟩, by rfl⟩,
    ⟨?_, ?_, ⟨0, page1, by rfl, ?_, ?_, ?_⟩, by rfl⟩⟩ <;> decide +kernel
theorem witness_Engines : MemoryOk (copying 0) ∧ (copying 0).settled (cmd1 (copying 0)) = true ∧
    (copying 0).copyTurn (cmd1 (copying 0)) = true ∧ (cmd1 (copying 0)).finished = false ∧ (cmd1 (copying 0)).world = 0 ∧
    (cmd1 (copying 0)).dropped = false ∧ (cmd1 (copying 0)).kind = 0 ∧ (cmd1 (copying 0)).args = [0x10040] ∧
    (copying 0).routes = [] ∧ (cmd1 (copying 0)).work = .none ∧ (copying 0).launches = [] ∧ leVal ((copying 2).bytesIn 0 0x10058 8) = 2 := by unfold MemoryOk; decide +kernel
theorem witness_Engine_marks : NoMark (copying 0) page1 none false ∧ NoMark (copying 0) page1 none true ∧
    NoMark (indexing 2 4 0x1302) page1 none true :=
  ⟨⟨by decide, by decide, fun h => absurd rfl h⟩, ⟨by decide, by decide, fun h => absurd rfl h⟩, by decide, by decide, fun h => absurd rfl h⟩
theorem witness_indexed : EngineMapped (indexing 1 4 2) (cmd1 (indexing 1 4 2)) .load 0x10040 4 0x10040 ∧
    EngineMapped (indexing 1 4 2) (cmd1 (indexing 1 4 2)) .store 0x10200 32 0x10200 ∧
    EngineMapped (indexing 1 4 2) (cmd1 (indexing 1 4 2)) .store 0x10220 4 0x10220 ∧
    EngineMapped (indexing 1 4 2) (cmd1 (indexing 1 4 2)) .load 0x1010C 4 0x1010C := by
  refine ⟨⟨?_, ?_, ⟨0, page1, by rfl, ?_, ?_, ?_⟩, by rfl⟩, ⟨?_, ?_, ⟨0, page1, by rfl, ?_, ?_, ?_⟩, by rfl⟩,
    ⟨?_, ?_, ⟨0, page1, by rfl, ?_, ?_, ?_⟩, by rfl⟩, ⟨?_, ?_, ⟨0, page1, by rfl, ?_, ?_, ?_⟩, by rfl⟩⟩ <;> decide +kernel
theorem witness_bursts : (∀ i, i < 32 → (indexing 1 4 2).byteBad 0 (0x10100 + i) = false) ∧ 0x1010C / 32 * 32 = 0x10100 ∧
    (0x1010C + 4 + 31) / 32 * 32 - 0x10100 = 32 ∧ (cmd1 (indexing 1 4 2)).work = .none ∧ (indexing 1 4 2).ce = [] := by decide +kernel
theorem witness_indexed_args : (ixArgs (cmd1 (indexing 2 4 0x1302)).args).sop = 1 ∧
    (ixArgs (cmd1 (indexing 2 4 0x1302)).args).atype = 3 ∧ (ixArgs (cmd1 (indexing 2 4 0x1302)).args).esize = 2 ∧
    (ixArgs (cmd1 (indexing 2 4 0x1302)).args).count = 1 ∧ ¬ (3 < (ixArgs (cmd1 (indexing 2 3 0x1302)).args).limit) ∧
    (ixArgs (cmd1 (indexing 1 3 2)).args).limit ≠ 0 ∧ 3 < (ixArgs (cmd1 (indexing 1 4 2)).args).limit := by decide +kernel
theorem witness_indexed_scatter : EngineMapped (indexing 2 4 0x1302) (cmd1 (indexing 2 4 0x1302)) .load 0x10200 36 0x10200 ∧
    EngineMapped (indexing 2 4 0x1302) (cmd1 (indexing 2 4 0x1302)) .load 0x10220 4 0x10220 ∧
    EngineMapped (indexing 2 4 0x1302) (cmd1 (indexing 2 4 0x1302)) .atomic 0x1010C 4 0x1010C := by
  refine ⟨⟨?_, ?_, ⟨0, page1, by rfl, ?_, ?_, ?_⟩, by rfl⟩, ⟨?_, ?_, ⟨0, page1, by rfl, ?_, ?_, ?_⟩, by rfl⟩,
    ⟨?_, ?_, ⟨0, page1, by rfl, ?_, ?_, ?_⟩, by rfl⟩⟩ <;> decide +kernel

theorem test_copyStart : goesTo (exec (.copyStart paged.nextCmd) (copying 0))
      (fun t => t.bytesIn 0 0x10200 6 == [1, 2, 3, 4, 5, 0] && t.cmds.all (·.finished)) = true ∧
    goesTo (exec (.copyStart paged.nextCmd) (copying 2)) (fun t => t.bytesIn 0 0x10200 5 == [0, 1, 1, 0, 0]) = true := by decide +kernel
theorem test_gatherStart : goesTo (exec (.gatherStart paged.nextCmd) (indexing 1 4 2))
      (fun t => t.bytesIn 0 0x10220 4 == [7, 0, 0, 1] && t.bytesIn 0 0x10218 2 == [1, 0] && t.cmds.all (·.finished)) = true ∧
    goesTo (exec (.gatherStart paged.nextCmd) (indexing 1 3 2))
      (fun t => t.bytesIn 0 0x10220 4 == [0, 0, 0, 0] && t.bytesIn 0 0x1020C 1 == [1]) = true := by decide +kernel
theorem test_scatterStart : goesTo (exec (.scatterStart paged.nextCmd) (indexing 2 4 2))
      (fun t => t.bytesIn 0 0x1010C 4 == [9, 0, 0, 2] && t.bytesIn 0 0x10218 2 == [1, 0]) = true ∧
    goesTo (exec (.scatterStart paged.nextCmd) (indexing 2 4 0x1302)) (fun t => t.bytesIn 0 0x1010C 4 == [16, 0, 0, 3]) = true ∧
    goesTo (exec (.scatterStart paged.nextCmd) (indexing 2 3 2)) (fun t => t.bytesIn 0 0x1010C 4 == [7, 0, 0, 1]) = true := by
  decide +kernel

/-- The same command performed, with or without a fault. -/
def performed (f : Option Trap) : State :=
  (copying 0).onCmd paged.nextCmd fun c => { c with finished := true, accepted := true, started := true, fault := f }
theorem witness_Complete : ((performed none).cmdAt paged.nextCmd).isSome = true ∧ (cmd1 (performed none)).finished = true ∧
    (cmd1 (performed none)).queue = none ∧ (cmd1 (performed none)).seq = 1 ∧ (performed none).peers = [] ∧
    ((performed none).me.ctxs[0]).late = [] ∧ ((performed none).me.ctxs[0]).fault = none ∧
    (cmd1 (performed (some (.of 0x16 0)))).fault = some (.of 0x16 0) := by decide +kernel
theorem test_complete : goesTo (exec (.engineComplete paged.nextCmd) (performed none))
      (fun t => t.cmds == [] && (t.me.ctxs[0]).tc == 1 && t.me.pending == []) = true ∧
    goesTo (exec (.engineComplete paged.nextCmd) (performed (some (.of 0x16 0))))
      (fun t => (t.me.ctxs[0]).tc == 1 && t.me.pending == [0]) = true := by decide +kernel

/-- A row program or an expression that its CP has accepted, with a lock of another team on its row or none. -/
def accepted (kind : Nat) (locks : List RowLock) : State :=
  let s := (team1.withCmd kind [0, 0, 0, 1, 0, 0]).onCmd team1.nextCmd fun c => { c with accepted := true }
  let e : ExprRun :=
    { cid := team1.nextCmd, order := 0, tower := 0, ops := [8], consts := [0, 0, 0, 0], aMap := [], bMap := [], reads := [64], writes := [],
      live := false, rest := [8], elem := 0, stack := [], terms := [], acc := none, accs := [], flags := 0, ue := 0, ce := 0,
      firstUe := 0, out := [], ended := false }
  { s with runs := if kind = 3 then [{ run1 with cid := team1.nextCmd, live := false, hi := 0 }] else [],
           exprs := if kind = 4 then [e] else [], locks := locks }
def lock1 : RowLock := { tower := 0, team := 9, rows := [64] }

theorem witness_RowCommands : ((accepted 3 []).cmdAt team1.nextCmd).isSome = true ∧ (cmd1 (accepted 3 [])).accepted = true ∧
    (cmd1 (accepted 3 [])).started = false ∧ (accepted 3 []).issueOrder (cmd1 (accepted 3 [])) = true ∧
    (accepted 3 []).settled (cmd1 (accepted 3 [])) = true ∧ (accepted 3 []).runs.length = 1 ∧ lock1.team ≠ 0 ∧
    (accepted 3 []).rowUses.length = 1 ∧ (accepted 4 []).rowUses.length = 1 ∧ 64 ∈ lock1.rows ∧
    (accepted 3 []).exprs = [] ∧ (accepted 4 []).exprs.length = 1 ∧ (accepted 4 []).runs = [] ∧
    (bxlArgs (cmd1 (accepted 4 [])).args).acc = false ∧
    (accepted 4 []).issueOrder (cmd1 (accepted 4 [])) = true := by decide +kernel
theorem witness_acceptRpl : ∃ f s1, acceptRpl { cmd1 (engine 3 [0x10100, 0x10040, 0, 0] [] []) with asid := 0 }
    (engine 3 [0x10100, 0x10040, 0, 0] [] []) = .error (.fault f) s1 ∧ s1.runs = [] := ⟨_, _, rfl, rfl⟩
/-- A launch with a range to flush whose page the mark of the flush changes: its entry lies in row 128, which a live row program writes. -/
def flushing (busy : Bool) : State :=
  let s := accepted 3 []
  { s with
    tlb := [{ page1 with pte := 0x1031F, slot := 0x20000 }]
    launches := [{ newLaunch team1 0 0 0 0 with id := 0, joinrec := 0x40000000, ranges := [{ handle := 1, flush := true, access := 1, base := 0x10000, len := 64 }] }]
    runs := s.runs ++ if busy then [{ run1 with cid := 77, order := 9, subs := [5], coords := [5], reads := [], writes := [128] }] else [] }
theorem witness_flushHeld : (accepted 3 []).flushHeld 0 = false ∧ (accepted 4 []).flushHeld 0 = false := by decide +kernel
theorem witness_flushHeld_busy : (flushing true).flushHeld 0 = true ∧ (flushing false).flushHeld 0 = false ∧ (flushing true).runs.length = 2 := by decide +kernel
theorem test_rowStart : goesTo (exec (.rowProgramStart team1.nextCmd) (accepted 3 [])) (fun t => t.runs.all (·.live)) = true ∧
    goesTo (exec (.rowProgramStart team1.nextCmd) (accepted 3 [lock1])) (fun t => t.runs.all (!·.live)) = true ∧
    goesTo (exec (.bxlStart team1.nextCmd) (accepted 4 [])) (fun t => t.exprs.all (·.live)) = true := by decide +kernel

/-- A live program before its first wave. -/
def unadmitted : State := { team1 with runs := [{ run1 with hi := 0 }] }
theorem witness_Waves : unadmitted.runs.find? (fun y => y.cid == 1 && (y.live && y.lo == y.hi && decide (y.lo < y.subs.length))) = some { run1 with hi := 0 } ∧ run1.subs.length = run1.coords.length ∧
    unadmitted.dieLoad 0 0 = 0 ∧ unadmitted.powermode.toNat % 4 = 0 ∧ (∃ m, m ∈ run1.wave ∧ m / 128 = 0) := by decide +kernel
theorem test_wave : goesTo (exec (.waveAdmit 1) unadmitted) (fun t => t.runs.map (·.hi) == [1]) = true ∧
    goesTo (exec (.refreshDue 0) rowed) (fun t => t.refreshes == [0]) = true ∧
    goesTo (exec (.refreshDue 1) rowed) (fun t => t.refreshes == []) = true := by decide +kernel

/-- A pending add of 7 to element 2. -/
def adding (evicted : Bool) : State :=
  { saReady [{ acc1 row1 with evicted := evicted }] with
    live := false,
    adds := [{ launch := 0, cluster := 0, n := 0, row := 0, team := 0, hart := 0, stream := 0, elems := [(2, 7, false)] }] }
/-- The same launch with its reservation out of the arrays. -/
def leaving : State :=
  { adding true with adds := [], launches := (adding true).launches.map fun x => { x with sares := [], saOut := [0] } }
theorem witness_Adds : (adding false).saAt 0 0 0 = some (acc1 row1) ∧ (acc1 row1).rows[0]? = some row1 ∧ row1.x[2]? = some 0 ∧
    (adding false).adds.length = 1 ∧ (adding false).runsOn 0 0 = false ∧ (saReady []).runsOn 0 0 = true ∧
    ((adding true).sas.filter fun y => y.launch == 0 && y.cluster == 0 && y.evicted).map (·.evicted) = [true] ∧
    ((adding false).launchAt 0).map (·.sares) = some [(0, 0, 4096)] ∧ (leaving.launchAt 0).map (·.saOut) = some [0] ∧
    (leaving.launchAt 0).all (fun x => leaving.saFits (fun _ => true) x 0) = true ∧
    (leaving.sas.filter fun y => y.launch == 0 && y.cluster == 0 && y.evicted).length = 1 ∧
    ((adding false).towerAt 0).offline = false := by decide +kernel
theorem witness_areaHeld : (adding false).areaHeld (acc1 row1) true = false ∧ leaving.areaHeld { acc1 row1 with evicted := true } false = false := ⟨by rfl, by rfl⟩
theorem test_add : goesTo (exec (.saaddApply 0) (adding false)) (fun t => t.adds == [] && t.sas.map (fun a => a.rows.map
      (fun r => (r.x.take 3, r.s, r.t))) == [[([5, -2, 7], 78, 10)]]) = true ∧
    goesTo (exec (.saaddApply 0) (adding true)) (fun t => t.adds.length == 1) = true := by decide +kernel

/-! ### Statements about the whole machine -/

/-- ADDI X[1], X[0], 5 at the program counter, its hart to move. -/
def coded (bs : List Byte) : State :=
  { put paged 0x10040 bs with agenda := [.hart 0 0], me := { paged.me with pc := 0x10040 } }
theorem witness_Step : (coded [5, 0, 0x20, 4]).agenda = [.hart (coded []).team.no (coded []).me.idx] ∧
    (coded []).halted = false ∧ (coded []).boot.husk = false ∧ (coded []).boot.recovering = false ∧ (coded []).code = [] ∧
    (husked 1).admitsEvent .report = true ∧ (husked 1).admitsEvent (.nop 0) = false ∧ (coded []).me.entry = none ∧ (coded []).me.pending = [] ∧ (coded []).moving (coded []).focusCtx = false ∧
    (coded [5, 0, 0x20, 4]).markPage page1 (some 0) false = coded [5, 0, 0x20, 4] ∧
    leVal ((coded [5, 0, 0x20, 4]).bytesIn 0 0x10040 4) = 0x04200005 ∧
    (ints.me.blk.bind fun b => b.words[b.idx]?) = some vstopWord := by decide +kernel
theorem witness_Step_fetch : Mapped (coded [5, 0, 0x20, 4]) .fetch 0x10040 4 0x10040 0 page1 :=
  ⟨rfl, by decide, by decide, by decide, by rfl, (fun h => nomatch h), by rfl⟩
/-- VADD v6, v4, 5 over 100 elements of i8, its block to come to a point. -/
def grouped (a : Input) : State :=
  let s := vec 3 100
  { s with agenda := [a], me := { s.me with blk := s.me.blk.map fun b => { b with words := [0x1031000000040005, vstopWord] } } }
/-- The line of the word at the program counter, as its cluster has it. -/
def kept (s : State) : CodeLine :=
  { cluster := 0, world := 0, key := 0x10040, asid := 0, va := 0x10040, bytes := s.bytesIn 0 0x10040 64 }
theorem witness_Step_units : (coded [5, 0, 0x20, 4]).boot.ready = true ∧ State.reset.boot.ready = false ∧
    inReset (.start { fail := none, retired := [], narrowed := [] }) = true ∧ inReset (.nop 0) = false ∧ inHalt .ptinvAll = true ∧
    inHalt (.nop 0) = false ∧ (husked 1).halted = false ∧ reads (decodeScalar 0x04200005) (.addi 1 0 5) = true ∧
    (grouped (.group 0 0)).me.blk.any (fun b => !b.suspended && b.words[b.idx]? == some 0x1031000000040005) = true ∧
    reads (decodeVector 0x1031000000040005) (.vadd 6 4 (.imm 5) all) = true := by decide +kernel
theorem witness_Step_kept : let s := coded [5, 0, 0x20, 4]
    let t := { s with code := [kept s] }
    Mapped t .fetch 0x10040 4 0x10040 0 page1 ∧ (∀ y, y ∈ t.code →
      ((t.viaCopy 0 y.world y.key y.bytes).drop (0x10040 % 64)).take 4 = t.bytesIn 0 0x10040 4) ∧ t.serves 0 0 = true := by
  refine ⟨⟨rfl, by decide, by decide, by decide, by rfl, (fun h => nomatch h), by rfl⟩, ?_, by decide⟩
  decide +kernel
theorem test_step_group : goesTo (step (grouped (.group 0 0))) (fun t => t.agenda == [] && t.me.pix 6 == 64 &&
      t.me.blk.any (·.idx == 0) && t.me.elem t.vlen 6 8 63 == 5 &&
      goesTo (exec (.vadd 6 4 (.imm 5) all) t) fun u => u.me.blk.any (·.idx == 1) && u.me.elem u.vlen 6 8 99 == 5) = true ∧
    goesTo (step { coded [5, 0, 0x20, 4] with code := [kept (coded [5, 0, 0x20, 4])] }) (fun t => t.x 1 == 5 && t.code.length == 1)
      = true := by decide +kernel
theorem test_step : goesTo (step (coded [5, 0, 0x20, 4])) (fun t => t.x 1 == 5 && t.me.pc == 0x10044 && t.agenda == []) = true ∧
    goesTo (step { rowed with agenda := [.row 1 0] }) (fun t => t.agenda == [] && t.runs.map (·.pc) == [1]) = true ∧
    goesTo (step { expr [] with agenda := [.bank team1.nextCmd] }) (fun t => t.agenda == [] && t.exprs.length == 1) = true := by
  decide +kernel
theorem witness_Stop : (match step (husked 1) with | .fault .stopped => true | _ => false) = true ∧ (husked 1).agenda = [] := by
  decide +kernel

/-! ### Ill-formed terms, one for each check of Instr.wf -/

theorem test_wf_scalar : (Instr.ld 1 2 0 .normal .dword true 0).wf = false ∧ (Instr.sbar 0).wf = false ∧
    (Instr.cpy 1 0 0).wf = false ∧ (Instr.gthr 1 28 0).wf = false ∧ (Instr.sctr 1 0 0).wf = false ∧
    (Instr.rpl 1 29 0).wf = false ∧ (Instr.bxl 1 27 0).wf = false ∧ (Instr.vfetch 29 1 2).wf = false := by decide
theorem test_wf_vector : (Instr.vskz 0 .always).wf = false ∧ (Instr.vcmp .eq 1 2 (.imm 0) all).wf = false ∧
    (Instr.vcmp .eq 8 2 (.imm 0) all).wf = false ∧ (Instr.vsel 1 2 (.imm 0) 0 all).wf = false ∧
    (Instr.vfadd 1 2 3 6 all).wf = false ∧ (Instr.vfcmp .eq 1 2 3 0 all).wf = false ∧
    (Instr.vfcmp .eq 2 2 3 7 all).wf = false ∧ (Instr.vpopc 0 .always).wf = false ∧ (Instr.mpush 1 .always).wf = false ∧
    (Instr.mmov 1 2 .always).wf = false ∧ (Instr.mmov 2 0 .always).wf = false := by decide
theorem test_wf_tile : (Instr.opa 0 1 2 0 true false 0 .always).wf = false ∧
    (Instr.opa 0 0 2 0 false true 0 .always).wf = false ∧ (Instr.opag 0 0 2 4 6 false false 0 0 .always).wf = false ∧
    (Instr.opag 0 1 2 4 0 true false 0 0 .always).wf = false := by decide
theorem test_wf_rows : (Instr.aap (.comp 4) (.comp 0)).wf = false ∧ (Instr.dnot (.comp 4) (.comp 3)).wf = false ∧
    (Instr.lshf (.comp 4) (.comp 1)).wf = false ∧ (Instr.eCvt 9 0).wf = false ∧ (Instr.eCvt 7 0).wf = false ∧
    (Instr.eCvt 1 1).wf = false := by decide

end Sys2Proof.Tests
end

/-! Proofs of the family "scope": the ALU words, what reset leaves, and the writes of the device's registers. -/

namespace Sys2Proof.Machine

/-! ### Words as integers (R8, R331) -/

theorem ofInt_sub (n : Nat) (i j : Int) : BitVec.ofInt n (i - j) = BitVec.ofInt n i - BitVec.ofInt n j := by
  rw [Int.sub_eq_add_neg, BitVec.ofInt_add, BitVec.ofInt_neg, BitVec.sub_eq_add_neg]

theorem shiftLeft_eq_ofNat {n : Nat} (x : BitVec n) (k : Nat) : x <<< k = BitVec.ofNat n (x.toNat * 2 ^ k) := by
  rw [← Nat.shiftLeft_eq]
  exact BitVec.eq_of_toNat_eq (by simp)

theorem ushiftRight_eq_ofNat {n : Nat} (x : BitVec n) (k : Nat) : x >>> k = BitVec.ofNat n (x.toNat / 2 ^ k) := by
  rw [← Nat.shiftRight_eq_div_pow, ← BitVec.toNat_ushiftRight, BitVec.ofNat_toNat, BitVec.setWidth_eq]

theorem sshiftRight_eq_ofInt {n : Nat} (x : BitVec n) (k : Nat) :
    x.sshiftRight k = BitVec.ofInt n (x.toInt / 2 ^ k) := by
  have h : x.toInt / 2 ^ k = (x.sshiftRight k).toInt := by
    rw [BitVec.toInt_sshiftRight, Int.shiftRight_eq_div_pow]
    norm_cast
  rw [h, BitVec.ofInt_toInt]

/-- The high half of a number of 128 bits is its quotient by 2^64. -/
theorem bits_high_ofInt (p : Int) : bits (BitVec.ofInt 128 p) 64 64 = BitVec.ofInt 64 (p / 2 ^ 64) := by
  apply BitVec.eq_of_toNat_eq
  simp only [BitVec.extractLsb'_toNat, BitVec.toNat_ofInt, Nat.shiftRight_eq_div_pow]
  omega

theorem bits_high_ofNat (p : Nat) : bits (BitVec.ofNat 128 p) 64 64 = BitVec.ofNat 64 (p / 2 ^ 64) := by
  rw [← BitVec.ofInt_natCast, ← BitVec.ofInt_natCast, bits_high_ofInt]; norm_cast

theorem mulHigh_eq_ofInt (x y : Word) : mulHigh x y = BitVec.ofInt 64 (x.toInt * y.toInt / 2 ^ 64) := by
  rw [← bits_high_ofInt, BitVec.ofInt_mul]; rfl

theorem mulHighU_eq_ofNat (x y : Word) : mulHighU x y = BitVec.ofNat 64 (x.toNat * y.toNat / 2 ^ 64) := by
  rw [← bits_high_ofNat, BitVec.ofNat_mul, BitVec.ofNat_toNat, BitVec.ofNat_toNat]; rfl

theorem truth_decide (p : Prop) [Decidable p] : truth (decide p) = if p then 1 else 0 := by
  unfold truth; split <;> simp_all

/-- A word's low k bits, as a mask takes them. -/
theorem and_low (v : Word) (k : Nat) :
    v &&& BitVec.ofNat 64 (2 ^ k - 1) = BitVec.ofNat 64 (v.toNat % 2 ^ k) := by
  rw [← Nat.and_two_pow_sub_one_eq_mod, BitVec.ofNat_and, BitVec.ofNat_toNat, BitVec.setWidth_eq]

theorem toNat_bits {n : Nat} (v : BitVec n) (lo k : Nat) : (bits v lo k).toNat = v.toNat / 2 ^ lo % 2 ^ k := by
  rw [BitVec.extractLsb'_toNat, Nat.shiftRight_eq_div_pow]

theorem toNat_bits_zero {n : Nat} (v : BitVec n) (k : Nat) : (bits v 0 k).toNat = v.toNat % 2 ^ k :=
  (toNat_bits v 0 k).trans (congrArg (· % 2 ^ k) (Nat.div_one v.toNat))

/-! ### The ALU words -/

theorem computes_of_put {i : Instr} {s : State} {d : Reg} {v : Word} (h : exec i s = .next (s.put d v)) :
    Computes i s d v := by
  refine ⟨_, h, fun r => State.x_put s d r v, ?_⟩
  show s.put d v = _
  unfold State.put State.setX
  rw [Hart.setReg_eq]
  rfl

/-- A three-operand word computes what its operation gives on the operands, under whatever name that value has. -/
theorem computes_of_alu {i : Instr} {s : State} {f : Word → Word → Word} {d a b : Reg} {v : Word}
    (h : exec i s = .next (s.alu f d a b)) (hv : f (s.x a) (s.x b) = v) : Computes i s d v :=
  computes_of_put (hv ▸ h)

/-- Settles O1: each word is its operation on the operands, whose exact value the lemmas above give. -/
theorem aluWordsGiveTheExactResult : Obligations.AluWordsGiveTheExactResult := by
  intro s d a b x y
  refine ⟨computes_of_alu rfl ?add, computes_of_alu rfl ?sub, computes_of_alu rfl rfl, computes_of_alu rfl rfl,
    computes_of_alu rfl rfl, computes_of_alu rfl (shiftLeft_eq_ofNat x _), computes_of_alu rfl (ushiftRight_eq_ofNat x _),
    computes_of_alu rfl (sshiftRight_eq_ofInt x _), computes_of_alu rfl ?slt, computes_of_alu rfl ?sltu,
    computes_of_alu rfl ?min, computes_of_alu rfl ?max, computes_of_alu rfl ?minu, computes_of_alu rfl ?maxu,
    computes_of_alu rfl ?mul, computes_of_alu rfl (mulHigh_eq_ofInt x y), computes_of_alu rfl (mulHighU_eq_ofNat x y)⟩
  case add => rw [BitVec.ofInt_add, BitVec.ofInt_toInt, BitVec.ofInt_toInt]
  case sub => rw [ofInt_sub, BitVec.ofInt_toInt, BitVec.ofInt_toInt]
  case mul => rw [BitVec.ofInt_mul, BitVec.ofInt_toInt, BitVec.ofInt_toInt]
  case slt => exact (congrArg truth BitVec.slt_eq_decide).trans (truth_decide _)
  case sltu => exact truth_decide _
  case min => simp only [BitVec.slt_iff_toInt_lt, x, y]
  case max => simp only [BitVec.slt_iff_toInt_lt, x, y]
  case minu => simp only [BitVec.ult_iff_toNat_lt, x, y]
  case maxu => simp only [BitVec.ult_iff_toNat_lt, x, y]

/-! ### What reset leaves -/

theorem State.queueAt_reset (q : Nat) : State.reset.queueAt q = .reset := rfl
theorem State.clusterAt_reset (k : Nat) : State.reset.clusterAt k = .reset k := rfl
theorem State.monAt_reset (u : MonUnit) : State.reset.monAt u = .reset u := rfl
theorem State.towerAt_reset (t : Nat) : State.reset.towerAt t = .reset := Vector.getElem_replicate ..

/-- Settles O58: the fields of the reset state as they stand, and every unit of a table at the unit's own reset. -/
theorem resetValues : Obligations.ResetValues := by
  refine ⟨rfl, rfl, rfl, rfl, rfl, rfl, rfl, rfl, rfl, rfl, rfl, rfl, rfl, rfl, rfl, rfl, rfl, rfl, rfl, rfl, rfl, rfl,
    rfl, rfl, rfl, rfl, rfl, fun q => ?queue, fun k => ?cluster, fun t => ?tower, fun u => ?unit⟩
  case queue => rw [State.queueAt_reset]; exact ⟨rfl, rfl, rfl⟩
  case cluster => rw [State.clusterAt_reset]; exact ⟨rfl, rfl, rfl⟩
  case tower => rw [State.towerAt_reset]; exact ⟨rfl, rfl⟩
  case unit => rw [State.monAt_reset]; exact ⟨rfl, rfl⟩

/-! ### Lists keyed by their first component -/

/-- What a lookup finds after the entries of key k have been replaced by o: o at k, the old entry elsewhere. -/
theorem find?_replaced {α β : Type} [BEq α] [LawfulBEq α] [DecidableEq α] (t : List (α × β)) (k j : α) (o : Option β) :
    ((t.filter (·.1 != k) ++ o.toList.map (k, ·)).find? (·.1 == j)).map (·.2) =
      if j = k then o else (t.find? (·.1 == j)).map (·.2) := by
  rw [List.find?_append, List.find?_filter]
  split
  next h =>
    subst h
    have none_left : t.find? (fun e => decide ((e.1 != j) = true ∧ (e.1 == j) = true)) = none :=
      List.find?_eq_none.mpr (by simp)
    rw [none_left]
    cases o <;> simp
  next h =>
    have same : (fun e : α × β => decide ((e.1 != k) = true ∧ (e.1 == j) = true)) = (·.1 == j) := by
      funext e
      by_cases he : e.1 = j <;> simp [he, h]
    rw [same]
    cases o <;> simp [Ne.symm h]

/-! ### Writes of registers (R7) -/

theorem exec_registerWrite {s s1 : State} {r : MReg} {v : Word} (h : s.writeReg r v = s1) :
    exec (.registerWrite r v) s = .next s1 := congrArg Host.Outcome.next h

theorem State.monAt_unit (s : State) (u : MonUnit) : (s.monAt u).unit = u := by
  unfold State.monAt
  cases h : s.mons.find? (·.unit == u) with
  | none => rfl
  | some m => simpa using List.find?_some h

theorem Queue.writePeriod_eq (c : Queue) (v : Word) :
    let p : Word := BitVec.ofNat 64 (v.toNat % 2 ^ 32)
    c.writePeriod v = { c with newPeriod := p, period := if c.period.toNat % 2 ^ 32 = 0 ∧ p ≠ 0 then p else c.period } := by
  rw [← and_low]; rfl

theorem ctxscopeWrite_eq (old : BitVec 3) (v : Word) :
    ctxscopeWrite old v = if v.toNat % 8 ∈ [2, 3, 4] then v.extractLsb' 0 3 else old := by
  have h : (bits v 0 3).toNat = v.toNat % 8 := toNat_bits_zero v 3
  simp only [ctxscopeWrite, ← h, List.mem_cons, List.not_mem_nil, or_false, ← BitVec.toNat_inj]
  rfl

theorem State.writeRailcmd_eq (s : State) (v : Word) :
    s.writeRailcmd v = if v.getLsbD 1 then s.railCommand (v.toNat / 4 % 64) (v.getLsbD 0)
      else { s with railcmd := railcmdFields s.railcmd (v.toNat / 4 % 64) (v.getLsbD 0) } := by
  have h : (bits v 2 6).toNat = v.toNat / 4 % 64 := toNat_bits v 2 6
  simp only [State.writeRailcmd, h]

theorem State.writeReg_qbudget (s : State) (q : Nat) (v : Word) :
    s.writeReg (.qbudget q) v =
      (s.setQueue q { s.queueAt q with newBudget := BitVec.ofNat 64 (v.toNat % 2 ^ 32) }).frontEnd q := by
  rw [← and_low]; rfl

theorem State.writeReg_ptsel (s : State) (v : Word) :
    s.writeReg .ptsel v = { s with ptsel := BitVec.ofNat 64 (v.toNat % 2 ^ 19) } := by
  rw [← and_low]; rfl

theorem State.writeReg_monCtl_of_clear {s : State} {u : MonUnit} {v : Word} (h : v.getLsbD 2 = true) :
    s.writeReg (.monCtl u) v = s.setMon { Mon.reset u with ctl := v &&& 0xFF03#64 } := by
  simp only [State.writeReg, h, if_true, Mon.clear, State.monAt_unit]

theorem State.writeReg_monCtl_of_keep {s : State} {u : MonUnit} {v : Word} (h : v.getLsbD 2 = false) :
    s.writeReg (.monCtl u) v = s.setMon { s.monAt u with ctl := v &&& 0xFF03#64 } := by
  simp only [State.writeReg, h, Bool.false_eq_true, if_false]

theorem State.writeReg_berr {s : State} {t b : Nat} {v : Word} (ht : t < 8) (hb : b < 384) :
    s.writeReg (.berr t b) v =
      if v.getLsbD 63 then { s with berr := tableSet s.berr (t * 384 + b) 0 } else s := by
  simp only [State.writeReg, Nat.mod_eq_of_lt ht, Nat.mod_eq_of_lt hb]

theorem State.ptroots_writeReg_ptroot (s : State) (v : Word) (key : Nat × Nat) :
    ((s.writeReg .ptroot v).ptroots.find? (·.1 == key)).map (·.2) =
      if key = (s.ptsel.toNat % 2 ^ 16, s.ptsel.toNat / 2 ^ 16 % 8) then some (v &&& 0xFFFFFFFFF0001#64)
      else (s.ptroots.find? (·.1 == key)).map (·.2) := by
  have hk : (s.selAsid.toNat, s.selTower) = (s.ptsel.toNat % 2 ^ 16, s.ptsel.toNat / 2 ^ 16 % 8) :=
    Prod.ext (toNat_bits_zero s.ptsel 16) (toNat_bits s.ptsel 16 3)
  exact hk ▸ find?_replaced s.ptroots _ key (some _)

theorem State.mem_leases_writeReg_lease (s : State) (va v page : Word) :
    page ∈ (s.writeReg (.lease va) v).leases ↔ page ∈ s.leases ∨ page = pageOf va := by
  show page ∈ (if s.leases.contains (pageOf va) then s.leases else s.leases ++ [pageOf va]) ↔ _
  split
  next h =>
    have hm : pageOf va ∈ s.leases := List.contains_iff_mem.mp h
    exact ⟨.inl, fun hp => hp.elim id fun e => e ▸ hm⟩
  next => simp

/-! ### The routing table (R21, R130) -/

/-- The entries of the routing table for every NODE but n. -/
def State.routesBeside (s : State) (n : Nat) : List (Nat × Bool) := s.routes.filter (·.1 != n)

/-- The kind of device that a value of ROUTE enters: a load-store or a message-only one, or none. -/
def routeKind (v : Word) : Option Bool := if v = 1 then some true else if v = 2 then some false else none

/-- Whether the routing table has room for what v enters for n, beside this device and the others (R21). -/
def State.routeFits (s : State) (n : Nat) (v : Word) : Bool :=
  v ≠ 1 ∧ v ≠ 2 ∨
    (s.routesBeside n).length + 1 < 131072 ∧ (v = 1 → ((s.routesBeside n).filter (·.2)).length + 1 < 4096)

theorem State.routeFits_loadStore (s : State) (n : Nat) :
    s.routeFits n 1 = true ↔ ((s.routesBeside n).filter (·.2)).length < 4095 ∧ (s.routesBeside n).length < 131071 := by
  rw [State.routeFits, decide_eq_true_iff]
  simp only [ne_eq, not_true, false_and, false_or, forall_const]
  omega

theorem State.routeFits_messageOnly (s : State) (n : Nat) :
    s.routeFits n 2 = true ↔ (s.routesBeside n).length < 131071 := by
  rw [State.routeFits, decide_eq_true_iff]
  have h : (2 : Word) ≠ 1 := by decide
  simp only [ne_eq, not_true, and_false, false_or, h, false_imp_iff, and_true]
  omega

theorem State.routeFits_none (s : State) (n : Nat) {v : Word} (h1 : v ≠ 1) (h2 : v ≠ 2) : s.routeFits n v = true :=
  decide_eq_true (.inl ⟨h1, h2⟩)

theorem State.writeRoute_eq (s : State) (n : Nat) (v : Word) :
    s.writeRoute n v = if s.routeFits n v then { s with routes := s.routesBeside n ++ (routeKind v).toList.map (n, ·) }
      else s := by
  by_cases h1 : v = 1
  · subst h1
    simp only [State.routeFits_loadStore]; rfl
  · by_cases h2 : v = 2
    · subst h2
      simp only [State.routeFits_messageOnly]; rfl
    · rw [State.writeRoute, if_neg h1, if_neg h2, if_pos (s.routeFits_none n h1 h2), routeKind, if_neg h1, if_neg h2]
      simp [State.routesBeside]

/-- Settles O52, clause by clause: a register whose write masks a field, has conditions or replaces an entry of a table by
the lemma on its write, one that takes v as it stands by its equation. -/
theorem registerWritesKeepReadOnlyFields : Obligations.RegisterWritesKeepReadOnlyFields := by
  intro s v n q t u w c queue p low k x others room
  have route (s1 : State) (h : (if s.routeFits n v then _ else s) = s1) : w (.route n) s1 :=
    exec_registerWrite ((State.writeRoute_eq s n v).trans h)
  refine ⟨rfl, rfl, rfl, exec_registerWrite (State.writeReg_qbudget s q v), rfl,
    exec_registerWrite (congrArg (fun d => (s.setQueue q d).frontEnd q) (Queue.writePeriod_eq c v)), rfl, rfl, rfl, rfl, rfl,
    rfl, rfl, fun h => exec_registerWrite (State.writeReg_monCtl_of_keep h),
    fun h => exec_registerWrite (State.writeReg_monCtl_of_clear h),
    fun ht hn => exec_registerWrite (State.writeReg_berr ht hn), rfl,
    exec_registerWrite (congrArg (fun b => { s with ctxscope := b }) (ctxscopeWrite_eq s.ctxscope v)), rfl, rfl, rfl,
    exec_registerWrite (State.writeRailcmd_eq s v), rfl, exec_registerWrite (State.writeReg_ptsel s v), rfl,
    ⟨_, rfl, rfl, State.ptroots_writeReg_ptroot s v⟩, fun h => ?full, fun h => ?room,
    ⟨_, rfl, rfl, State.mem_leases_writeReg_lease s v v⟩⟩
  case full => exact route s (if_neg (Bool.eq_false_iff.mp h))
  case room => exact ⟨_, route _ (if_pos h), rfl, fun i => find?_replaced s.routes n i (routeKind v)⟩

end Sys2Proof.Machine

/-! Proofs of the family "number formats": what a write stores in a CSR, and numbers that round to their own codes. -/

namespace Sys2Proof.Machine

/-! ### Signs and magnitudes of codes (R30 to R32) -/

/-- The sign of a code. -/
def Fmt.signOf (f : Fmt) (c : Nat) : Bool :=
  match f.sign with
  | some s => c.testBit s
  | none => false

/-- The magnitude code of a code. -/
def Fmt.magOf (f : Fmt) (c : Nat) : Nat :=
  match f.sign with
  | some s => c % 2 ^ s
  | none => c

/-- The code of a sign and a magnitude code. -/
def Fmt.codeOf (f : Fmt) (neg : Bool) (mag : Nat) : Nat :=
  match f.sign with
  | some s => if neg then mag + 2 ^ s else mag
  | none => mag

/-- The codes of a format have this many bits: a sign bit is the top one, and the code that has no other bit set is −0 or
the NaN. -/
def Fmt.Fills (f : Fmt) (width : Nat) : Prop :=
  ∀ s, f.sign = some s → width = s + 1 ∧ (f.negZero = true ∨ f.nan = 2 ^ s)

theorem Fmt.fills_signed {f : Fmt} {s : Nat} (hs : f.sign = some s) (hz : f.negZero = true ∨ f.nan = 2 ^ s) :
    f.Fills (s + 1) := by
  intro s' hs'
  cases hs.symm.trans hs'
  exact ⟨rfl, hz⟩

theorem Fmt.fills_unsigned {f : Fmt} (hs : f.sign = none) (width : Nat) : f.Fills width :=
  fun _ h => nomatch hs.symm.trans h

theorem Fmt.signOf_unsigned {f : Fmt} (c : Nat) (hs : f.sign = none) : f.signOf c = false := by
  rw [Fmt.signOf, hs]

theorem Fmt.codeOf_self {f : Fmt} {width c : Nat} (hf : f.Fills width) (hc : c < 2 ^ width) :
    f.codeOf (f.signOf c) (f.magOf c) = c := by
  unfold Fmt.codeOf Fmt.signOf Fmt.magOf
  split
  next s hs =>
    rw [(hf s hs).1] at hc
    have hsplit := Nat.mod_pow_succ (x := c) (b := 2) (k := s)
    rw [Nat.mod_eq_of_lt hc, ← Nat.toNat_testBit] at hsplit
    cases hb : c.testBit s <;> simpa [hb] using hsplit.symm
  next => rfl

/-- A negative zero that is no NaN is one of a format that holds it. -/
theorem Fmt.negZero_of_zero {f : Fmt} {width c : Nat} (hf : f.Fills width) (hc : c < 2 ^ width) (hn : c ≠ f.nan)
    (hm : f.magOf c = 0) (hs : f.signOf c = true) : f.negZero = true := by
  cases hsign : f.sign with
  | none => rw [f.signOf_unsigned c hsign] at hs; cases hs
  | some s =>
    have hcode : 2 ^ s = c := by simpa [Fmt.codeOf, hsign, hm, hs] using f.codeOf_self hf hc
    exact (hf s hsign).2.resolve_right fun h => hn (hcode.symm.trans h.symm)

theorem Fmt.value_eq (f : Fmt) (c : Nat) : f.value c =
    if f.poison == some c then .poison
    else if c == f.nan then .nan
    else if f.inf == some (f.magOf c) then .inf (f.signOf c)
    else if f.cmax < f.magOf c then .nan
    else f.magnitude (f.signOf c) (f.magOf c) := by
  unfold Fmt.value Fmt.magOf Fmt.signOf
  cases f.sign <;> rfl

/-- A code that is no NaN is an infinity or a finite code. -/
theorem Fmt.value_of_number {f : Fmt} {c : Nat} (h : (f.value c).isNan = false) : c ≠ f.nan ∧
    (f.inf = some (f.magOf c) ∧ f.value c = .inf (f.signOf c) ∨
      f.magOf c ≤ f.cmax ∧ f.value c = f.magnitude (f.signOf c) (f.magOf c)) := by
  rw [Fmt.value_eq] at h ⊢
  split at h
  next => cases h
  next hp =>
    split at h
    next => cases h
    next hn =>
      rw [if_neg hp, if_neg hn]
      refine ⟨fun he => hn (beq_iff_eq.mpr he), ?_⟩
      split at h
      next hi => exact .inl ⟨beq_iff_eq.mp hi, if_pos hi⟩
      next hi =>
        rw [if_neg hi]
        split at h
        next => cases h
        next hm => exact .inr ⟨Nat.le_of_not_lt hm, if_neg hm⟩

/-! ### Rounding what a format holds (R43) -/

theorem bitLen_le {n k : Nat} : bitLen n ≤ k ↔ n < 2 ^ k := by
  unfold bitLen
  by_cases hn : n = 0
  · rw [hn]
    exact iff_of_true (Nat.zero_le k) (Nat.two_pow_pos k)
  · rw [if_neg (mt beq_iff_eq.mp hn), Nat.succ_le_iff, Nat.log2_lt hn]

theorem bitLen_leading {k t : Nat} (ht : t < 2 ^ k) : bitLen (2 ^ k + t) = k + 1 := by
  apply Nat.le_antisymm
  · rw [bitLen_le, Nat.pow_succ]; omega
  · rw [← Nat.not_lt, Nat.lt_succ_iff, bitLen_le]; omega

/-- A magnitude whose exponent is its quantum's is cut without a rest. -/
theorem Fmt.roundMag_exact {f : Fmt} {m : Nat} {e : Int} (mode : RM) (neg : Bool)
    (hq : max f.qmin (e + bitLen m - 1 - f.trail) = e) :
    ∃ tiny, f.roundMag mode neg m e false = (((e - f.qmin).toNat <<< f.trail) + m, false, tiny) := by
  have hcut : cutAt m e e false = (m, .exact) := by simp [cutAt]
  simp only [Fmt.roundMag, hq, hcut, stepUp]
  exact ⟨_, rfl⟩

/-- A magnitude code is zero, or its value rounds to that code without a rest: a subnormal stands at the least quantum, a
normal number has its leading bit just above the trailing ones. -/
theorem Fmt.magnitude_cases (f : Fmt) (neg : Bool) (c : Nat) :
    (c = 0 ∧ f.magnitude neg c = .zero neg) ∨
    (c ≠ 0 ∧ ∃ m e, f.magnitude neg c = .fin neg m e ∧
      ∀ mode, ∃ tiny, f.roundMag mode neg m e false = (c, false, tiny)) := by
  have hsplit : (c >>> f.trail) * 2 ^ f.trail + c % 2 ^ f.trail = c := by
    rw [Nat.shiftRight_eq_div_pow]; exact Nat.div_add_mod' c _
  have hpos := Nat.two_pow_pos f.trail
  have ht : c % 2 ^ f.trail < 2 ^ f.trail := Nat.mod_lt _ hpos
  unfold Fmt.magnitude
  generalize c >>> f.trail = e at hsplit
  generalize c % 2 ^ f.trail = t at hsplit ht
  match e, t with
  | 0, 0 => exact .inl ⟨by simpa using hsplit.symm, rfl⟩
  | 0, t + 1 =>
    have hlen := bitLen_le.mpr ht
    refine .inr ⟨by omega, _, _, rfl, fun mode => ?_⟩
    obtain ⟨tiny, h⟩ := f.roundMag_exact (m := t + 1) (e := f.qmin) mode neg (by omega)
    exact ⟨tiny, by rw [h, ← hsplit]; simp⟩
  | e + 1, t =>
    have hlen := bitLen_leading ht
    refine .inr ⟨by rw [← hsplit, Nat.succ_mul]; omega, _, _, rfl, fun mode => ?_⟩
    obtain ⟨tiny, h⟩ := f.roundMag_exact (m := 2 ^ f.trail + t) (e := f.qmin + e) mode neg (by omega)
    refine ⟨tiny, ?_⟩
    have hq : f.qmin + (e : Int) - f.qmin = e := by omega
    rw [Nat.add_sub_cancel, h, ← hsplit, Nat.succ_mul, hq, Int.toNat_natCast, Nat.shiftLeft_eq,
      Nat.add_assoc]

theorem Fmt.roundFin_exact {f : Fmt} {mode : RM} {neg tiny : Bool} {m c : Nat} {e : Int} (sat : Bool)
    (hr : f.roundMag mode neg m e false = (c, false, tiny)) (hs : f.sign = none → neg = false) (hc : c ≤ f.cmax)
    (h0 : c ≠ 0) : f.roundFin sat mode neg m e false = (f.codeOf neg c, 0) := by
  simp only [Fmt.roundFin, hr, Fmt.codeOf]
  cases hf : f.sign with
  | none => simp [hs hf, Nat.not_lt.mpr hc]
  | some s => simp [Nat.not_lt.mpr hc, h0]

theorem Fmt.round_inf {f : Fmt} {c : Nat} {neg : Bool} (sat : Bool) (mode : RM) (hi : f.inf = some c)
    (hs : f.sign = none → neg = false) : f.round sat mode (.inf neg) = (f.codeOf neg c, 0) := by
  simp only [Fmt.round, hi, Fmt.codeOf]
  cases hf : f.sign with
  | none => rw [hs hf]; rfl
  | some s => rfl

theorem Fmt.round_zero {f : Fmt} {neg : Bool} (sat : Bool) (mode : RM) (hz : neg = true → f.negZero = true) :
    f.round sat mode (.zero neg) = (f.codeOf neg 0, 0) := by
  simp only [Fmt.round, Fmt.codeOf]
  cases f.sign with
  | none => rfl
  | some s => cases neg <;> simp [hz]

/-- In a format that fills its width every code of a number is what its value rounds to, without a flag. -/
theorem Fmt.round_value {f : Fmt} {width c : Nat} (sat : Bool) (mode : RM) (hf : f.Fills width) (hc : c < 2 ^ width)
    (hn : (f.value c).isNan = false) : f.round sat mode (f.value c) = (c, 0) := by
  have hs := f.signOf_unsigned c
  have hself : (f.codeOf (f.signOf c) (f.magOf c), (0 : Flags)) = (c, 0) := by rw [f.codeOf_self hf hc]
  obtain ⟨hnan, ⟨hi, hv⟩ | ⟨hmax, hv⟩⟩ := f.value_of_number hn
  · rw [hv, f.round_inf sat mode hi hs, hself]
  · obtain ⟨h0, hz⟩ | ⟨h0, m, e, hfin, hround⟩ := f.magnitude_cases (f.signOf c) (f.magOf c)
    · rw [hv, hz, f.round_zero sat mode (Fmt.negZero_of_zero hf hc hnan h0), ← h0, hself]
    · obtain ⟨tiny, hr⟩ := hround mode
      rw [hv, hfin]
      exact (f.roundFin_exact sat hr hs hmax h0).trans hself

/-- Settles O32: each of the formats fills its width, and in such a format every number rounds to its own code. -/
theorem valuesRoundToTheirOwnCodes : Obligations.ValuesRoundToTheirOwnCodes := by
  intro f width p c io sat mode hf hc hn
  refine Fmt.round_value sat mode ?fills hc hn
  obtain ⟨rfl, rfl⟩ | ⟨rfl, rfl⟩ | ⟨rfl, rfl⟩ | ⟨-, -, rfl, rfl | rfl⟩ := hf
  · exact Fmt.fills_signed rfl (.inl rfl)
  · exact Fmt.fills_signed rfl (.inl rfl)
  · exact Fmt.fills_signed rfl (.inl rfl)
  · exact Fmt.fills_signed rfl (.inr rfl)
  · exact Fmt.fills_unsigned rfl 8

/-! ### What a write stores in a CSR (R351) -/

/-- A word with its low k bits cleared, as a mask clears them. -/
theorem and_not_low (v : Word) (k : Nat) :
    v &&& ~~~BitVec.ofNat 64 (2 ^ k - 1) = BitVec.ofNat 64 (v.toNat / 2 ^ k * 2 ^ k) := by
  apply BitVec.eq_of_getLsbD_eq
  intro i hi
  simp only [BitVec.getLsbD_and, BitVec.getLsbD_not, BitVec.getLsbD_ofNat, Nat.testBit_two_pow_sub_one,
    Nat.testBit_mul_two_pow, Nat.testBit_div_two_pow, hi, decide_true, Bool.true_and]
  by_cases h : i < k
  · rw [decide_eq_true h, decide_eq_false (Nat.not_le.mpr h), Bool.not_true, Bool.and_false, Bool.false_and]
  · have hle := Nat.le_of_not_lt h
    rw [decide_eq_false h, decide_eq_true hle, Nat.sub_add_cancel hle, Bool.not_false, Bool.and_true, Bool.true_and]
    rfl

theorem getLsbD_putBit_false (w : Word) (k : Nat) : (putBit w k false).getLsbD k = false := by
  by_cases hk : k < 64 <;> simp [putBit, hk]

/-- The fields of FCSR that a write reaches (R38). -/
theorem getLsbD_fcsrFields : ∀ k, k < 64 →
    (0x3F3F07#64).getLsbD k = decide (k < 3 ∨ (8 ≤ k ∧ k < 14) ∨ (16 ≤ k ∧ k < 22)) := by decide

theorem getLsbD_fcsrRm : ∀ k, k < 64 → (7#64).getLsbD k = decide (k < 3) := by decide

theorem toNat_fcsrRm (v : Word) : (bits (v &&& 0x3F3F07#64) 0 3).toNat = v.toNat % 8 := by
  rw [toNat_bits_zero, BitVec.toNat_and, Nat.and_mod_two_pow]
  exact (Nat.and_two_pow_sub_one_eq_mod _ 3).trans (Nat.mod_mod _ _)

/-- A write of FCSR stores the fields that exist, and 0 as RM when it is 6 or 7 (R38). -/
theorem getLsbD_fcsrWrite (v : Word) {k : Nat} (hk : k < 64) : (fcsrWrite v).getLsbD k =
    (decide ((k < 3 ∧ v.toNat % 8 < 6) ∨ (8 ≤ k ∧ k < 14) ∨ (16 ≤ k ∧ k < 22)) && v.getLsbD k) := by
  simp only [fcsrWrite, toNat_fcsrRm]
  split
  next h =>
    have hrm : ¬ v.toNat % 8 < 6 := Nat.not_lt.mpr h
    simp only [BitVec.getLsbD_and, BitVec.getLsbD_not, getLsbD_fcsrFields k hk, getLsbD_fcsrRm k hk, hk, hrm]
    by_cases h3 : k < 3
    · have hout : ¬ 8 ≤ k ∧ ¬ 16 ≤ k := by omega
      simp [h3, hout]
    · simp [h3, Bool.and_comm]
  next h =>
    have hrm : v.toNat % 8 < 6 := Nat.lt_of_not_le h
    simp [BitVec.getLsbD_and, getLsbD_fcsrFields k hk, hrm, Bool.and_comm]

theorem State.tstat_csrStore (s : State) (v src : Word) (clr : Bool) : (s.csrStore 0x045 v src clr).me.tstat =
    if !clr && src.getLsbD tOVR then putBit s.me.tstat tOVR false else s.me.tstat :=
  apply_ite (fun t : State => t.me.tstat) _ { s with me := { s.me with tstat := putBit s.me.tstat tOVR false } } s

/-- Settles O26, selector by selector: VL, VTYPE, MSTK, TEPC and TVAL store what the clause states as it stands, FCSR, TVEC,
TREC, TCAUSE and TSTAT by the lemma on their mask. -/
theorem csrFieldRules : Obligations.CsrFieldRules := by
  intro s v src clr
  refine ⟨rfl, fun _ => ⟨rfl, rfl⟩, fun k hk => getLsbD_fcsrWrite v hk, rfl, and_not_low v 2, and_not_low v 12, rfl, rfl,
    and_low v 16, ?ovr, State.tstat_csrStore s v src true⟩
  case ovr =>
    rw [State.tstat_csrStore, tOVR, Bool.not_false, Bool.true_and]
    cases src.getLsbD 5 with
    | false => exact (Bool.and_true _).symm
    | true => exact (getLsbD_putBit_false _ 5).trans (Bool.and_false _).symm

end Sys2Proof.Machine

/-! Proofs of the family "instruction encoding": what words encode and decode to, and what a step runs. -/

namespace Sys2Proof.Machine

/-! ### Words and instructions (R89 to R110) -/

open Sys2Proof.Laws in
/-- Settles O55: each instruction of the table by the lemma on its own encoding. -/
theorem encodeDecode : Obligations.EncodeDecode := fun i => match i with
  | .add .. => RoundTrip.add _ _ _ | .addw .. => RoundTrip.addw _ _ _ | .sub .. => RoundTrip.sub _ _ _
  | .subw .. => RoundTrip.subw _ _ _ | .and .. => RoundTrip.and _ _ _ | .or .. => RoundTrip.or _ _ _
  | .xor .. => RoundTrip.xor _ _ _ | .sll .. => RoundTrip.sll _ _ _ | .sllw .. => RoundTrip.sllw _ _ _
  | .srl .. => RoundTrip.srl _ _ _ | .srlw .. => RoundTrip.srlw _ _ _ | .sra .. => RoundTrip.sra _ _ _
  | .sraw .. => RoundTrip.sraw _ _ _ | .slt .. => RoundTrip.slt _ _ _ | .sltu .. => RoundTrip.sltu _ _ _
  | .min .. => RoundTrip.min _ _ _ | .max .. => RoundTrip.max _ _ _ | .minu .. => RoundTrip.minu _ _ _
  | .maxu .. => RoundTrip.maxu _ _ _ | .clz .. => RoundTrip.clz _ _ | .clzw .. => RoundTrip.clzw _ _
  | .popc .. => RoundTrip.popc _ _ | .popcw .. => RoundTrip.popcw _ _ | .sext .. => RoundTrip.sext _ _ _
  | .mul .. => RoundTrip.mul _ _ _ | .mulw .. => RoundTrip.mulw _ _ _ | .mulh .. => RoundTrip.mulh _ _ _
  | .mulhu .. => RoundTrip.mulhu _ _ _ | .div .. => RoundTrip.div _ _ _ | .divw .. => RoundTrip.divw _ _ _
  | .divu .. => RoundTrip.divu _ _ _ | .divuw .. => RoundTrip.divuw _ _ _ | .rem .. => RoundTrip.rem _ _ _
  | .remw .. => RoundTrip.remw _ _ _ | .remu .. => RoundTrip.remu _ _ _ | .remuw .. => RoundTrip.remuw _ _ _
  | .addi .. => RoundTrip.addi _ _ _ | .andi .. => RoundTrip.andi _ _ _ | .ori .. => RoundTrip.ori _ _ _
  | .xori .. => RoundTrip.xori _ _ _ | .slti .. => RoundTrip.slti _ _ _ | .slli .. => RoundTrip.slli _ _ _
  | .srli .. => RoundTrip.srli _ _ _ | .srai .. => RoundTrip.srai _ _ _ | .slliw .. => RoundTrip.slliw _ _ _
  | .srliw .. => RoundTrip.srliw _ _ _ | .sraiw .. => RoundTrip.sraiw _ _ _ | .lui .. => RoundTrip.lui _ _
  | .auipc .. => RoundTrip.auipc _ _ | .ld .. => RoundTrip.ld _ _ _ _ _ _ _ | .st .. => RoundTrip.st _ _ _ _ _ _
  | .amoswap .. => RoundTrip.amoswap _ _ _ _ _ _ | .amoadd .. => RoundTrip.amoadd _ _ _ _ _ _
  | .amoand .. => RoundTrip.amoand _ _ _ _ _ _ | .amoor .. => RoundTrip.amoor _ _ _ _ _ _
  | .amoxor .. => RoundTrip.amoxor _ _ _ _ _ _ | .amomin .. => RoundTrip.amomin _ _ _ _ _ _
  | .amomax .. => RoundTrip.amomax _ _ _ _ _ _ | .amominu .. => RoundTrip.amominu _ _ _ _ _ _
  | .amomaxu .. => RoundTrip.amomaxu _ _ _ _ _ _ | .amocas .. => RoundTrip.amocas _ _ _ _ _ _ | .beq .. => RoundTrip.beq _ _ _
  | .bne .. => RoundTrip.bne _ _ _ | .blt .. => RoundTrip.blt _ _ _ | .bge .. => RoundTrip.bge _ _ _
  | .bltu .. => RoundTrip.bltu _ _ _ | .bgeu .. => RoundTrip.bgeu _ _ _ | .j .. => RoundTrip.j _ | .jal .. => RoundTrip.jal _
  | .jalr .. => RoundTrip.jalr _ _ _ | .bmz .. => RoundTrip.bmz _ | .fence .. => RoundTrip.fence _ _ _ _
  | .sbar .. => RoundTrip.sbar _ | .ifence .. => RoundTrip.ifence _ _ | .tbar => RoundTrip.tbar
  | .tlwait .. => RoundTrip.tlwait _ _ _ | .tlpoll .. => RoundTrip.tlpoll _ _ _ | .tlsig .. => RoundTrip.tlsig _ _ _
  | .cpy .. => RoundTrip.cpy _ _ _ | .gthr .. => RoundTrip.gthr _ _ _ | .sctr .. => RoundTrip.sctr _ _ _
  | .rpl .. => RoundTrip.rpl _ _ _ | .bxl .. => RoundTrip.bxl _ _ _ | .rlock .. => RoundTrip.rlock _ _
  | .runlock .. => RoundTrip.runlock _ _ | .rfence .. => RoundTrip.rfence _ _ | .spawn .. => RoundTrip.spawn _ _
  | .join .. => RoundTrip.join _ _ | .tend => RoundTrip.tend | .forkw .. => RoundTrip.forkw _ _ _
  | .wend .. => RoundTrip.wend _ | .choose .. => RoundTrip.choose _ | .chooseSelf => RoundTrip.chooseSelf
  | .wabort => RoundTrip.wabort | .wquery .. => RoundTrip.wquery _ _ | .vfetch .. => RoundTrip.vfetch _ _ _
  | .vsett .. => RoundTrip.vsett _ _ | .vsetl .. => RoundTrip.vsetl _ _ | .vsetlLq .. => RoundTrip.vsetlLq _
  | .tcfg .. => RoundTrip.tcfg _ | .vdrain => RoundTrip.vdrain | .unfs .. => RoundTrip.unfs _
  | .sacfg .. => RoundTrip.sacfg _ _ | .sasave .. => RoundTrip.sasave _ _ | .saload .. => RoundTrip.saload _ _
  | .csrr .. => RoundTrip.csrr _ _ | .csrw .. => RoundTrip.csrw _ _ _ | .csrs .. => RoundTrip.csrs _ _ _
  | .csrc .. => RoundTrip.csrc _ _ _ | .trap .. => RoundTrip.trap _ | .eret => RoundTrip.eret
  | .railsel .. => RoundTrip.railsel _ _ | .clipq .. => RoundTrip.clipq _ _ | .vstop => RoundTrip.vstop
  | .vskz .. => RoundTrip.vskz _ _ | .vadd .. => RoundTrip.vadd _ _ _ _ | .vsub .. => RoundTrip.vsub _ _ _ _
  | .vadds .. => RoundTrip.vadds _ _ _ _ | .vsubs .. => RoundTrip.vsubs _ _ _ _ | .vmul .. => RoundTrip.vmul _ _ _ _
  | .vmulh .. => RoundTrip.vmulh _ _ _ _ | .vmin .. => RoundTrip.vmin _ _ _ _ | .vmax .. => RoundTrip.vmax _ _ _ _
  | .vand .. => RoundTrip.vand _ _ _ _ | .vor .. => RoundTrip.vor _ _ _ _ | .vxor .. => RoundTrip.vxor _ _ _ _
  | .vsll .. => RoundTrip.vsll _ _ _ _ | .vsrl .. => RoundTrip.vsrl _ _ _ _ | .vsra .. => RoundTrip.vsra _ _ _ _
  | .vcmp .. => RoundTrip.vcmp _ _ _ _ _ | .vsel .. => RoundTrip.vsel _ _ _ _ _ | .vfadd .. => RoundTrip.vfadd _ _ _ _ _
  | .vfsub .. => RoundTrip.vfsub _ _ _ _ _ | .vfmul .. => RoundTrip.vfmul _ _ _ _ _ | .vfma .. => RoundTrip.vfma _ _ _ _ _ _
  | .vfmin .. => RoundTrip.vfmin _ _ _ _ _ | .vfmax .. => RoundTrip.vfmax _ _ _ _ _ | .vfdiv .. => RoundTrip.vfdiv _ _ _ _ _
  | .vfsqrt .. => RoundTrip.vfsqrt _ _ _ _ | .vfrsq .. => RoundTrip.vfrsq _ _ _ _ | .vfexp2 .. => RoundTrip.vfexp2 _ _ _ _
  | .vfcmp .. => RoundTrip.vfcmp _ _ _ _ _ _ | .vfcvt .. => RoundTrip.vfcvt _ _ _ _ _ _ _ _
  | .vred .. => RoundTrip.vred _ _ _ _ _ | .vxch .. => RoundTrip.vxch _ _ _ _ | .vperm .. => RoundTrip.vperm _ _ _ _
  | .vslide .. => RoundTrip.vslide _ _ _ _ | .vpopc .. => RoundTrip.vpopc _ _ | .mpush .. => RoundTrip.mpush _ _
  | .minv .. => RoundTrip.minv _ | .mpop .. => RoundTrip.mpop _ | .mmov .. => RoundTrip.mmov _ _ _
  | .vld .. => RoundTrip.vld _ _ _ _ _ _ | .vst .. => RoundTrip.vst _ _ _ _ _ _ | .vldx .. => RoundTrip.vldx _ _ _ _ _ _ _
  | .vstx .. => RoundTrip.vstx _ _ _ _ _ _ _ | .tzero .. => RoundTrip.tzero _ _ | .troww .. => RoundTrip.troww _ _ _ _ _ _
  | .trowr .. => RoundTrip.trowr _ _ _ _ _ _ | .tcolw .. => RoundTrip.tcolw _ _ _ _ _ _
  | .tcolr .. => RoundTrip.tcolr _ _ _ _ _ _ | .opa .. => RoundTrip.opa _ _ _ _ _ _ _ _
  | .opag .. => RoundTrip.opag _ _ _ _ _ _ _ _ _ _ | .saadd .. => RoundTrip.saadd _ _ _ _ _
  | .sanrm .. => RoundTrip.sanrm _ _ _ _ _ _ | .aap .. => RoundTrip.aap _ _ | .tra .. => RoundTrip.tra _
  | .dnot .. => RoundTrip.dnot _ _ | .lshf .. => RoundTrip.lshf _ _ | .rshf .. => RoundTrip.rshf _ _
  | .loopw .. => RoundTrip.loopw _ _ | .eLdk .. => RoundTrip.eLdk _ | .eCvt .. => RoundTrip.eCvt _ _
  | .qtailDoorbell .. => RoundTrip.qtailDoorbell _ _ | .nop .. => RoundTrip.nop _ | .launch .. => RoundTrip.launch _ _ _ _ _
  | .wait .. => RoundTrip.wait _ _ _ | .packetWaitDone .. => RoundTrip.packetWaitDone _ | .signal .. => RoundTrip.signal _ _ _
  | .copy .. => RoundTrip.copy _ _ | .bind .. => RoundTrip.bind _ _ | .configDeadline .. => RoundTrip.configDeadline _ _
  | .configGangTable .. => RoundTrip.configGangTable _ _ | .queueRestart .. => RoundTrip.queueRestart _
  | .launchReady .. => RoundTrip.launchReady _ | .periodStart .. => RoundTrip.periodStart _
  | .budgetOverrun .. => RoundTrip.budgetOverrun _ | .preempt .. => RoundTrip.preempt _
  | .gangrdyWrite .. => RoundTrip.gangrdyWrite _ _ _ | .gangSkew .. => RoundTrip.gangSkew _
  | .heldAcornPlace .. => RoundTrip.heldAcornPlace _ | .watcherPush .. => RoundTrip.watcherPush _
  | .dequeSteal .. => RoundTrip.dequeSteal _ _ | .teamSwapOut .. => RoundTrip.teamSwapOut _
  | .teamRequeue .. => RoundTrip.teamRequeue _ | .waitSatisfied .. => RoundTrip.waitSatisfied _ _
  | .hwErrorRestart .. => RoundTrip.hwErrorRestart _ | .forkContinuation .. => RoundTrip.forkContinuation _
  | .asyncFaultDelivery .. => RoundTrip.asyncFaultDelivery _ _ | .mapped .. => RoundTrip.mapped _ _
  | .refuse .. => RoundTrip.refuse _ _ | .deny .. => RoundTrip.deny _ _ | .ptinvPage .. => RoundTrip.ptinvPage _
  | .ptinvAsid => RoundTrip.ptinvAsid | .ptinvAll => RoundTrip.ptinvAll | .leaseExpiry .. => RoundTrip.leaseExpiry _
  | .hostMemAccess .. => RoundTrip.hostMemAccess _ _ | .linkRetry .. => RoundTrip.linkRetry _
  | .railSwitchDone .. => RoundTrip.railSwitchDone _ | .learnedRow .. => RoundTrip.learnedRow _ _ _
  | .railcmdGo .. => RoundTrip.railcmdGo _ _ | .powermodeWrite .. => RoundTrip.powermodeWrite _
  | .matrixWindow .. => RoundTrip.matrixWindow _ | .thermalStep1 .. => RoundTrip.thermalStep1 _ _
  | .thermalStep2 .. => RoundTrip.thermalStep2 _ _ | .thermalOffline .. => RoundTrip.thermalOffline _ _
  | .thermalUnwind .. => RoundTrip.thermalUnwind _ _ | .towerReturn .. => RoundTrip.towerReturn _
  | .monitorClr .. => RoundTrip.monitorClr _ | .monitorSample .. => RoundTrip.monitorSample _ _ _
  | .alarmcfgWrite .. => RoundTrip.alarmcfgWrite _ | .alarm .. => RoundTrip.alarm _ | .start .. => RoundTrip.start _
  | .recover .. => RoundTrip.recover _ | .provision .. => RoundTrip.provision _ | .writefw .. => RoundTrip.writefw _
  | .attestationReport .. => RoundTrip.attestationReport _ | .refreshDue .. => RoundTrip.refreshDue _
  | .rowProgramStart .. => RoundTrip.rowProgramStart _ | .waveAdmit .. => RoundTrip.waveAdmit _
  | .bxlStart .. => RoundTrip.bxlStart _ | .copyStart .. => RoundTrip.copyStart _ | .gatherStart .. => RoundTrip.gatherStart _
  | .scatterStart .. => RoundTrip.scatterStart _ | .engineComplete .. => RoundTrip.engineComplete _
  | .saaddApply .. => RoundTrip.saaddApply _ | .saEvict .. => RoundTrip.saEvict _ _ | .saRestore .. => RoundTrip.saRestore _ _
  | .registerWrite .. => RoundTrip.registerWrite _ _ | .illegal .. => RoundTrip.illegal _
  | .fabricRequest .. => RoundTrip.fabricRequest _ _ _ | .halt => RoundTrip.halt | .endw => RoundTrip.endw
  | .step => RoundTrip.step | .eLda => RoundTrip.eLda | .eLdb => RoundTrip.eLdb | .eAdd => RoundTrip.eAdd
  | .eSub => RoundTrip.eSub | .eMul => RoundTrip.eMul | .eFma => RoundTrip.eFma | .eMin => RoundTrip.eMin
  | .eMax => RoundTrip.eMax | .eAbs => RoundTrip.eAbs | .eNeg => RoundTrip.eNeg | .eCmplt => RoundTrip.eCmplt
  | .eSel => RoundTrip.eSel | .eDup => RoundTrip.eDup | .eSwap => RoundTrip.eSwap | .eDrop => RoundTrip.eDrop
  | .eSumr => RoundTrip.eSumr | .eMaxr => RoundTrip.eMaxr | .eSto => RoundTrip.eSto | .pendingClear => RoundTrip.pendingClear
  | .contractLoss => RoundTrip.contractLoss | .contractHolds => RoundTrip.contractHolds
  | .startTimeout => RoundTrip.startTimeout | .report => RoundTrip.report | .clear => RoundTrip.clear
  | .reset => RoundTrip.reset | .done => RoundTrip.done

theorem decodeScalar_encoded {i : Instr} {w : BitVec 32} (hw : i.wf = true) (he : encodeScalar i = some w) :
    decodeScalar w = .ok i := (encodeDecode i hw).1 w he
theorem decodeVector_encoded {i : Instr} {w : BitVec 64} (hw : i.wf = true) (he : encodeVector i = some w) :
    decodeVector w = .ok i := (encodeDecode i hw).2.1 w he
theorem decodeRow_encoded {i : Instr} {w : BitVec 32} (hw : i.wf = true) (he : encodeRow i = some w) :
    decodeRow w = .ok i := (encodeDecode i hw).2.2.1 w he

/-- Settles O56: each word is what its instruction encodes to, and so decodes to it; the last two are words of none. -/
theorem wordsDecode : Obligations.WordsDecode :=
  ⟨decodeScalar_encoded rfl rfl, decodeScalar_encoded rfl rfl, decodeScalar_encoded rfl rfl, decodeScalar_encoded rfl rfl,
    decodeScalar_encoded rfl rfl, decodeScalar_encoded rfl rfl, decodeScalar_encoded rfl rfl, decodeScalar_encoded rfl rfl,
    decodeScalar_encoded rfl rfl, decodeScalar_encoded rfl rfl, decodeScalar_encoded rfl rfl, decodeScalar_encoded rfl rfl,
    decodeScalar_encoded rfl rfl, decodeVector_encoded rfl rfl, decodeVector_encoded rfl rfl, decodeVector_encoded rfl rfl,
    decodeRow_encoded rfl rfl, decodeRow_encoded rfl rfl, rfl, rfl⟩

/-! ### Code that a fetch reads (R89, R187)

A step takes its input off the agenda before the unit moves, so what is known of the state is first carried past that change. -/

theorem State.noteOwner_agenda (s : State) (l : List Input) (e : TlbEntry) (agent : Option Nat) :
    ({ s with agenda := l } : State).noteOwner e agent = { s.noteOwner e agent with agenda := l } := by
  cases agent <;> (unfold State.noteOwner; dsimp only; split <;> rfl)

theorem State.sharePage_agenda (s : State) (l : List Input) (e : TlbEntry) (p : Word) :
    ({ s with agenda := l } : State).sharePage e p = { s.sharePage e p with agenda := l } := by
  unfold State.sharePage; split <;> rfl

theorem State.markPage_agenda (s : State) (l : List Input) (e : TlbEntry) (agent : Option Nat) (wr : Bool) :
    ({ s with agenda := l } : State).markPage e agent wr = { s.markPage e agent wr with agenda := l } := by
  have ho : ({ s with agenda := l } : State).ownedPage e = s.ownedPage e := rfl
  unfold State.markPage
  rw [ho, ← State.sharePage_agenda, ← State.noteOwner_agenda]
  by_cases hp : pteMark e.pte agent wr (s.ownedPage e) = e.pte <;> simp only [hp, if_true, if_false] <;> split <;> rfl

/-- A fetch of clean bytes of a mapped page that nothing holds goes on with their key. -/
theorem fetch_bind {s : State} {va : Word} {n k cls : Nat} {e : TlbEntry} {α : Type} (f : Nat → M α)
    (h : Mapped s .fetch va n k cls e) (hc : Clean s k n) (hm : s.markPage e (some s.team.core) false = s) :
    (do trapIf (if isWindow va then some (.window 3 va n) else straddle va n)
        let k ← findBytes .fetch va n
        checkPoison va k n
        f k : M α) s = f k s := by
  have hn : (if isWindow va then some (.window 3 va n) else straddle va n) = none := by
    simp [h.ordinary, straddle, h.oneRange]
  have hf : findBytes .fetch va n s = .ok k s := (findBytes_mapped h).trans (congrArg _ hm)
  rw [hn, M.bind_trapIf_none, M.bind_ok hf]
  exact M.bind_ok (checkPoison_clean hc)

theorem fetchCode_mapped {s : State} {va : Word} {n k cls : Nat} {e : TlbEntry} (h : Mapped s .fetch va n k cls e)
    (hc : Clean s k n) (hm : s.markPage e (some s.team.core) false = s) :
    fetchCode va n s = .ok (s.takeCode (clusterOf s.team.core) s.team.world s.team.asid va k n).1
      (s.takeCode (clusterOf s.team.core) s.team.world s.team.asid va k n).2 := fetch_bind _ h hc hm

theorem mapped_agenda {s : State} {a : Acc} {va : Word} {n k cls : Nat} {e : TlbEntry} (h : Mapped s a va n k cls e)
    (l : List Input) : Mapped { s with agenda := l } a va n k cls e :=
  ⟨h.noSide, h.ordinary, h.oneRange, h.line, h.found, h.inView, h.free⟩

/-- The copies of a line that a fetch of a unit may find (R187). -/
def CopyFound (s : State) (unit w : Nat) (asid : BitVec 16) (va : Word) (k : Nat) (y : CodeLine) : Prop :=
  y.cluster = unit ∧ y.key = k - va.toNat % 64 ∧ y.asid = asid ∧ y.va = va &&& ~~~63#64 ∧ s.serves y.world w = true

/-- The line of an address as a unit would keep it. -/
def State.newCopy (s : State) (unit w : Nat) (asid : BitVec 16) (va : Word) (k : Nat) : CodeLine :=
  { cluster := unit, world := w, key := k - va.toNat % 64, asid := asid, va := va &&& ~~~63#64,
    bytes := s.bytesIn w (k - va.toNat % 64) 64 }

section
variable {s : State} {unit w : Nat} {asid : BitVec 16} {va : Word} {k n : Nat}

/-- A unit without a copy of the line takes the newer bytes and keeps the line. -/
theorem State.takeCode_new (h : ∀ y, y ∈ s.code → ¬ CopyFound s unit w asid va k y) : s.takeCode unit w asid va k n =
    (s.bytesIn w k n, { s with code := trimCode (s.code ++ [s.newCopy unit w asid va k]) unit }) := by
  have hf : (s.code.find? fun e => e.cluster == unit && e.key == k - va.toNat % 64 && e.asid == asid &&
      e.va == va &&& ~~~63#64 && s.serves e.world w) = none := by
    simpa [CopyFound, and_assoc] using h
  unfold State.takeCode
  dsimp only [lineBytes, lineOf]
  rw [hf]
  rfl

/-- A unit whose copies of the line have the bytes of the point of coherence takes those. -/
theorem State.takeCode_kept (h : ∀ y, y ∈ s.code → CopyFound s unit w asid va k y →
      ((s.viaCopy w y.world y.key y.bytes).drop (va.toNat % 64)).take n = s.bytesIn w k n)
    (he : ∃ y, y ∈ s.code ∧ CopyFound s unit w asid va k y) : s.takeCode unit w asid va k n = (s.bytesIn w k n, s) := by
  obtain ⟨x, hx, hm⟩ := he
  unfold State.takeCode
  dsimp only [lineBytes, lineOf]
  split
  next y hy =>
    have hp := List.find?_some hy
    simp only [Bool.and_eq_true, beq_iff_eq, and_assoc] at hp
    rw [if_pos (h y (List.mem_of_find?_eq_some hy) hp)]
  next hn =>
    simp only [List.find?_eq_none, Bool.and_eq_true, beq_iff_eq, and_assoc] at hn
    exact absurd hm (hn x hx)

end

/-! ### What moves (log entry 14) -/

theorem State.asleep_eq_false (s : State) : s.asleep = false ↔
    s.halted = false ∧ s.boot.husk = false ∧ s.boot.recovering = false ∧ s.boot.ready = true := by
  simp [State.asleep, State.still, and_assoc]

theorem State.admitsEvent_iff (s : State) (i : Instr) : s.admitsEvent i = true ↔
    (s.halted = false ∧ s.boot.husk = false ∧ s.boot.recovering = false ∧ s.boot.ready = true) ∨
    ((s.boot.husk = true ∨ s.boot.recovering = true ∨ s.boot.ready = false) ∧ inReset i = true) ∨
    (¬ (s.boot.husk = true ∨ s.boot.recovering = true ∨ s.boot.ready = false) ∧ inHalt i = true) := by
  unfold State.admitsEvent
  by_cases hoff : s.boot.husk = true ∨ s.boot.recovering = true ∨ s.boot.ready = false
  · have hc : (s.boot.husk || s.boot.recovering || !s.boot.ready) = true := by simpa [or_assoc] using hoff
    have hon : ¬ (s.boot.husk = false ∧ s.boot.recovering = false ∧ s.boot.ready = true) := by grind
    simp [hc, hoff, hon]
  · have hon : s.boot.husk = false ∧ s.boot.recovering = false ∧ s.boot.ready = true := by simpa using hoff
    simp [hon]

/-- The focus stays where it is. -/
theorem State.atHart_focus {s : State} (h : s.live = true) : s.atHart s.team.no s.me.idx = some s := by
  have hr : s.runningTeam s.team.no = some s.focusCtx := by
    simp [State.runningTeam, State.teams, h, State.focusCtx]
  have hf : s.focus s.team.no s.me.idx = s := by
    simp [State.focus, State.focusTeam, State.focusHart, h]
  simp [State.atHart, hr, hf, h]

theorem fetchWord_of_code {s s1 : State} {bs : List Byte} (ha : s.me.pc.toNat % 4 = 0)
    (h : fetchCode s.me.pc 4 s = .ok bs s1) : fetchWord s = .ok (BitVec.ofNat 32 (leVal bs)) s1 := by
  simp only [fetchWord, ha, h, ne_eq, not_true_eq_false, if_false]

/-- What a hart runs for the word that it fetches: its instruction, or the trap of a word that is none (R90). -/
def fetched (w : BitVec 32) : Instr :=
  match decodeScalar w with
  | .ok i => i
  | .error _ => .illegal w

theorem fetched_ok {w : BitVec 32} {i : Instr} (h : decodeScalar w = .ok i) : fetched w = i := by
  unfold fetched; rw [h]
theorem fetched_error {w : BitVec 32} {r : Reject} (h : decodeScalar w = .error r) : fetched w = .illegal w := by
  unfold fetched; rw [h]

/-- A hart with nothing to deliver runs the word that it fetches. -/
theorem State.hartMove_word {s s1 : State} {w : BitVec 32} (ha : s.me.alive = true) (he : s.me.entry = none)
    (hp : s.me.pending = []) (hm : s.moving s.focusCtx = false) (hf : fetchWord s = .ok w s1) :
    s.hartMove = .run (fetched w) s1 := by
  have hd : s.faultDue = false := by simp [State.faultDue, hp]
  unfold State.hartMove
  simp only [ha, hm, he, hd, hf, Bool.not_true, Bool.or_self, Bool.false_eq_true, if_false]
  cases hw : decodeScalar w with
  | ok i => rw [fetched_ok hw]
  | error r => rw [fetched_error hw]

theorem State.blockMove_word {s : State} {b : Block} {w : BitVec 64} {i : Instr} (hb : s.me.blk = some b)
    (hs : b.suspended = false) (hw : b.words[b.idx]? = some w) (hi : decodeVector w = .ok i) : s.blockMove = .run i s := by
  unfold State.blockMove
  simp only [hb, hs, hw, hi, Bool.false_eq_true, if_false]

theorem State.groupMove_word {s : State} {b : Block} {w : BitVec 64} {i : Instr} (hb : s.me.blk = some b)
    (hs : b.suspended = false) (hw : b.words[b.idx]? = some w) (hi : decodeVector w = .ok i) :
    s.groupMove = .pass (s.toPoint i) := by
  unfold State.groupMove; rw [State.blockMove_word hb hs hw hi]

/-- The only entry of a list that a search finds, put at its head, stands there already. -/
theorem filter_head {α : Type} {p : α → Bool} {x : α} {l : List α} (hx : p x = true) (hl : ∀ y, y ∈ l → p y = false) :
    (x :: l).filter p ++ (x :: l).filter (fun y => !p y) = x :: l := by
  have h1 : l.filter p = [] := List.filter_eq_nil_iff.2 fun y hy => by simp [hl y hy]
  have h2 : l.filter (fun y => !p y) = l := List.filter_eq_self.2 fun y hy => by simp [hl y hy]
  simp [hx, h1, h2]

/-- The wave at the head of the list runs its word. -/
theorem State.rowMove_head {s : State} {r : Run} {rs : List Run} {w : BitVec 32} {i : Instr} (hr : s.runs = r :: rs)
    (ho : ∀ y, y ∈ rs → y.cid ≠ r.cid ∨ y.lo ≠ r.lo) (hl : r.live = true) (hh : r.halted = false) (hn : r.lo ≠ r.hi)
    (hw : r.words[r.pc]? = some w) (hi : decodeRow w = .ok i) : s.rowMove r.cid r.lo = .run i s := by
  have hs : s.headRun r.cid r.lo = s := by
    have hl : s.runs.filter (fun y => y.cid == r.cid && y.lo == r.lo) ++
        s.runs.filter (fun y => !(y.cid == r.cid && y.lo == r.lo)) = s.runs := by
      rw [hr]
      exact filter_head (by simp) fun y hy =>
        Bool.and_eq_false_iff.2 ((ho y hy).imp beq_eq_false_iff_ne.2 beq_eq_false_iff_ne.2)
    exact congrArg (fun l => ({ s with runs := l } : State)) hl
  unfold State.rowMove
  simp [hs, hr, hl, hh, hn, hw, hi]

/-- The expression at the head of the list runs its operator. -/
theorem State.bankMove_head {s : State} {r : ExprRun} {rs : List ExprRun} {bs : List Byte} {i : Instr} (hr : s.exprs = r :: rs)
    (ho : ∀ y, y ∈ rs → y.cid ≠ r.cid) (hl : r.live = true) (he : r.ended = false) (hi : decodeExpr r.rest = .ok (i, bs)) :
    s.bankMove r.cid = .run i s := by
  have hs : s.headExpr r.cid = s := by
    have hl : s.exprs.filter (·.cid == r.cid) ++ s.exprs.filter (·.cid != r.cid) = s.exprs := by
      rw [hr]; exact filter_head (by simp) fun y hy => beq_eq_false_iff_ne.2 (ho y hy)
    exact congrArg (fun l => ({ s with exprs := l } : State)) hl
  unfold State.bankMove
  simp [hs, hr, hl, he, hi]

/-! ### Inputs of the agenda (log entry 14) -/

theorem step_of_move {s : State} {x : Input} {rest : List Input} {m : Move} (h : s.agenda = x :: rest)
    (hm : State.moveOf { s with agenda := rest } x = m) : step s = m.go := by
  unfold step; rw [h, ← hm]

section
variable {s : State} (hl : s.live = true) (ha : s.asleep = false)
include ha

theorem State.moveOf_row (cid lo : Nat) : s.moveOf (.row cid lo) = s.rowMove cid lo := by simp [State.moveOf, ha]
theorem State.moveOf_bank (cid : Nat) : s.moveOf (.bank cid) = s.bankMove cid := by simp [State.moveOf, ha]

include hl

theorem State.moveOf_hart : s.moveOf (.hart s.team.no s.me.idx) = s.hartMove := by
  simp [State.moveOf, State.atHart_focus hl, ha]
theorem State.moveOf_block : s.moveOf (.block s.team.no s.me.idx) = s.blockMove := by
  simp [State.moveOf, State.atHart_focus hl, ha]
theorem State.moveOf_group : s.moveOf (.group s.team.no s.me.idx) = s.groupMove := by
  simp [State.moveOf, State.atHart_focus hl, ha]

end

theorem State.moveOf_event (s : State) (i : Instr) :
    s.moveOf (.event i) = if s.admitsEvent i then .run i s else .pass s := rfl

/-- No unit of a device at rest moves. -/
theorem State.moveOf_asleep {s : State} {x : Input} (ha : s.asleep = true) (hx : ∀ i, x ≠ .event i) :
    s.moveOf x = .pass s := by
  cases x with
  | event i => exact absurd rfl (hx i)
  | row | bank | sideLogs | queues | seek => simp only [State.moveOf, ha, if_true]
  | hart | block | group => simp only [State.moveOf, ha, if_true]; split <;> rfl

/-- Settles O57, clause by clause: what the input at the head of the agenda comes to, by the lemma on its unit; the word of
a hart by what its fetch takes. -/
theorem stepRunsTheDecodedWord : Obligations.StepRunsTheDecodedWord := by
  intro s rest i s0 on off runs
  have awake : on → s0.asleep = false := (State.asleep_eq_false s0).2
  refine ⟨fun ha => ?event, fun hoff n m ha => ?off, fun hon ha hl hal he hp hm hpc k cls e hk hc hme => ?hart,
    fun hon b w ha hl hb hs hw hi => ?block, fun hon b w ha hl hb hs hw hi => ?group,
    fun hon r rs w hr ho ha hl hh hn hw hi => ?row, fun hon r rs bs hr ho ha hl he hi => ?bank⟩
  case event =>
    have hadm : s0.admitsEvent i = true ↔ runs := State.admitsEvent_iff s0 i
    exact ⟨fun hr => step_of_move ha ((State.moveOf_event ..).trans (if_pos (hadm.2 hr))),
      fun hr => step_of_move ha ((State.moveOf_event ..).trans (if_neg (mt hadm.1 hr)))⟩
  case off =>
    have hs : s0.asleep = true := (Bool.not_eq_false _).mp (mt (State.asleep_eq_false s0).1 hoff)
    rcases ha with h | h | h | h | h | h | h | h <;>
      exact step_of_move (m := .pass s0) h (State.moveOf_asleep hs (fun _ => Input.noConfusion))
  case hart =>
    intro bs w o copy same code
    have hme0 : s0.markPage e (some s.team.core) false = s0 :=
      (State.markPage_agenda ..).trans (congrArg (fun t : State => { t with agenda := rest }) hme)
    have run {s1 : State} (ht : s0.takeCode (clusterOf s.team.core) s.team.world s.team.asid s.me.pc k 4 = (bs, s1)) :
        step s = exec (fetched w) s1 := by
      have hf : fetchCode s.me.pc 4 s0 = .ok bs s1 :=
        (fetchCode_mapped (mapped_agenda hk rest) hc hme0).trans (congrArg (fun p => EStateM.Result.ok p.1 p.2) ht)
      exact step_of_move ha ((State.moveOf_hart (s := s0) hl (awake hon)).trans
        (State.hartMove_word hal he hp hm (fetchWord_of_code hpc hf)))
    have words {t : State} (h : step s = exec (fetched w) t) : (decodeScalar w = .ok i → step s = exec i t) ∧
        ∀ r, decodeScalar w = .error r → step s = exec (.illegal w) t :=
      ⟨fun hi => fetched_ok hi ▸ h, fun r hr => fetched_error hr ▸ h⟩
    exact ⟨fun hnew => words (run (State.takeCode_new hnew)), fun hold hex => words (run (State.takeCode_kept hold hex))⟩
  case block => exact step_of_move ha ((State.moveOf_block (s := s0) hl (awake hon)).trans (State.blockMove_word hb hs hw hi))
  case group => exact step_of_move ha ((State.moveOf_group (s := s0) hl (awake hon)).trans (State.groupMove_word hb hs hw hi))
  case row => exact step_of_move ha ((State.moveOf_row (awake hon) ..).trans (State.rowMove_head hr ho hl hh hn hw hi))
  case bank => exact step_of_move ha ((State.moveOf_bank (awake hon) _).trans (State.bankMove_head hr ho hl he hi))

/-! ### Loop tables (R103, R104) -/

theorem need_holds {c : Bool} (h : c = true) (x : Stop) (s : State) : need c x s = .ok () s := by rw [h]; rfl
theorem need_fails {c : Bool} (h : c = false) (x : Stop) (s : State) : need c x s = .error x s := by rw [h]; rfl

theorem bytesIn_take (s : State) (w k : Nat) {m n : Nat} (h : m ≤ n) : s.bytesIn w k m = (s.bytesIn w k n).take m := by
  simp only [State.bytesIn, ← List.map_take, List.take_range, Nat.min_eq_left h]

theorem bytesIn_drop (s : State) (w k m n : Nat) : s.bytesIn w (k + m) n = (s.bytesIn w k (m + n)).drop m := by
  apply List.ext_getElem
  · simp [State.bytesIn]
  · intro i h1 h2; simp [State.bytesIn, Nat.add_assoc]

theorem dwordOf_take {m off : Nat} (bs : List Byte) (h : off + 8 ≤ m) : dwordOf (bs.take m) off = dwordOf bs off := by
  unfold dwordOf
  rw [List.drop_take, List.take_take, Nat.min_eq_left (by omega)]

theorem dwordOf_drop (bs : List Byte) (m off : Nat) : dwordOf (bs.drop m) off = dwordOf bs (m + off) := by
  unfold dwordOf
  rw [List.drop_drop]

/-- The low word of a doubleword is that of its first four bytes (R3). -/
theorem lowWord_dwordOf (bs : List Byte) (off : Nat) :
    bits (dwordOf bs off) 0 32 = BitVec.ofNat 32 (leVal ((bs.drop off).take 4)) := by
  apply BitVec.eq_of_getLsbD_eq
  intro i hi
  have h4 : i / 8 < 4 := by omega
  have h8 : i / 8 < 8 := by omega
  have h64 : i < 64 := by omega
  simp only [dwordOf, BitVec.getLsbD_extractLsb', BitVec.getLsbD_ofNat, Nat.zero_add, hi, h64, leVal_testBit, List.getD,
    List.getElem?_take, if_pos h4, if_pos h8, decide_true, Bool.true_and]

theorem bits_eq_zero {n : Nat} (v : BitVec n) (lo k : Nat) : bits v lo k = 0 ↔ v.toNat / 2 ^ lo % 2 ^ k = 0 := by
  rw [← BitVec.toNat_inj, toNat_bits, BitVec.ofNat_eq_ofNat, BitVec.toNat_zero]

theorem levelOf_eq (bs : List Byte) : levelOf bs =
    if 0 < (dwordOf bs 0).toNat ∧ (dwordOf bs 0).toNat < 2 ^ 32 ∧ dwordOf bs 24 = 0 then
      some { count := (dwordOf bs 0).toNat, strides := (List.range 4).map fun j =>
        (BitVec.ofNat 32 (leVal ((bs.drop (8 + 4 * j)).take 4))).signExtend 64 }
    else none := by
  have hcount : (bits (dwordOf bs 0) 0 32).toNat = (dwordOf bs 0).toNat % 2 ^ 32 := toNat_bits_zero _ _
  have hbad : (bits (dwordOf bs 0) 0 32 = 0 ∨ bits (dwordOf bs 0) 32 32 ≠ 0 ∨ dwordOf bs 24 ≠ 0) ↔
      ¬ (0 < (dwordOf bs 0).toNat ∧ (dwordOf bs 0).toNat < 2 ^ 32 ∧ dwordOf bs 24 = 0) := by
    have hd : (dwordOf bs 0).toNat < 2 ^ 64 := (dwordOf bs 0).isLt
    rw [ne_eq, bits_eq_zero, bits_eq_zero]
    by_cases h24 : dwordOf bs 24 = 0
    · simp only [h24, ne_eq, not_true_eq_false, or_false, and_true]; omega
    · simp only [h24, ne_eq, not_false_eq_true, or_true, and_false]
  unfold levelOf
  dsimp only
  by_cases h : 0 < (dwordOf bs 0).toNat ∧ (dwordOf bs 0).toNat < 2 ^ 32 ∧ dwordOf bs 24 = 0
  · rw [if_neg (fun x => hbad.1 x h), if_pos h, hcount, Nat.mod_eq_of_lt h.2.1]
    simp only [lowWord_dwordOf]
    rfl
  · rw [if_pos (hbad.2 h), if_neg h]

theorem piecesOf_onePage {va : Word} {n : Nat} (f : Nat) (h0 : 0 < n) (h : va.toNat % 65536 + n ≤ 65536) :
    piecesOf va (f + 2) n = [(va, n)] := by
  have hm : min n (65536 - va.toNat % 65536) = n := Nat.min_eq_left (by omega)
  simp [piecesOf, hm, Nat.ne_of_gt h0]

theorem fetchLong_onePage {va : Word} {n : Nat} {bs : List Byte} {s s1 : State} (h0 : 0 < n)
    (h : va.toNat % 65536 + n ≤ 65536) (hf : fetchBytes va n s = .ok bs s1) : fetchLong va n s = .ok bs s1 := by
  have one : (do let r ← fetchBytes va n; pure [r] : M (List (List Byte))) s = .ok [bs] s1 := by rw [M.bind_ok hf]; rfl
  rw [fetchLong, piecesOf_onePage _ h0 h]
  refine (M.bind_ok one).trans ?_
  simp

theorem fetchBytes_mapped {s : State} {va : Word} {n k cls : Nat} {e : TlbEntry} (h : Mapped s .fetch va n k cls e)
    (hc : Clean s k n) (hm : s.markPage e (some s.team.core) false = s) :
    fetchBytes va n s = .ok (s.bytesIn s.team.world k n) s := fetch_bind _ h hc hm

section
variable {s : State} {lt : Word} {head : List Byte} (ha : lt.toNat % 16 = 0) (hh : fetchLong lt 16 s = .ok head s)
include ha hh

/-- A table whose head breaks the rules is a VTYPE trap. -/
theorem readTable_badHead (h : dwordOf head 0 = 0 ∨ 6 < (dwordOf head 0).toNat ∨ dwordOf head 8 ≠ 0) :
    readTable lt s = .error (vtypeTrap lt) s := by
  have hbad : (bits (dwordOf head 0) 3 61 == 0 && dwordOf head 8 == 0 &&
      decide (1 ≤ (bits (dwordOf head 0) 0 3).toNat ∧ (bits (dwordOf head 0) 0 3).toNat ≤ 6)) = false := by
    rw [← Bool.not_eq_true, Bool.and_eq_true, Bool.and_eq_true, beq_iff_eq, beq_iff_eq, decide_eq_true_eq, toNat_bits_zero]
    rintro ⟨⟨hr, h8⟩, hn⟩
    have hr' := (bits_eq_zero (dwordOf head 0) 3 61).1 hr
    have hd := (dwordOf head 0).isLt
    rcases h with h | h | h
    · rw [h] at hn; exact absurd hn.1 (by decide)
    · omega
    · exact h h8
  rw [readTable, M.bind_ok (aligned_run s ha), M.bind_ok hh]
  dsimp only
  rw [hbad]
  rfl

section
variable {n : Nat} {body : List Byte} (h0 : dwordOf head 0 = BitVec.ofNat 64 n) (h8 : dwordOf head 8 = 0)
variable (h1 : 1 ≤ n) (h6 : n ≤ 6) (hb : fetchLong (lt + 16) (32 * n) s = .ok body s)
include h0 h8 h1 h6 hb

/-- A table with a good head has the levels that its body gives, if every one is valid. -/
theorem readTable_body : readTable lt s =
    (do need (((List.range n).map fun l => levelOf (body.drop (32 * l))).all Option.isSome) (vtypeTrap lt)
        return ((List.range n).map fun l => levelOf (body.drop (32 * l))).filterMap id : M (List Level)) s := by
  have hn : (bits (dwordOf head 0) 0 3).toNat = n := by
    rw [h0, toNat_bits_zero, BitVec.toNat_ofNat]; omega
  have hr : bits (dwordOf head 0) 3 61 = 0 := by
    rw [bits_eq_zero, h0, BitVec.toNat_ofNat]; omega
  rw [readTable, M.bind_ok (aligned_run s ha), M.bind_ok hh]
  dsimp only
  rw [hn, hr, h8, decide_eq_true (And.intro h1 h6)]
  exact (M.bind_need_true _ _ s).trans (M.bind_ok hb)

theorem readTable_badLevel {l : Nat} (hl : l < n) (hbad : levelOf (body.drop (32 * l)) = none) :
    readTable lt s = .error (vtypeTrap lt) s := by
  have hall : ((List.range n).map fun l => levelOf (body.drop (32 * l))).all Option.isSome = false :=
    List.all_eq_false.2 ⟨none, List.mem_map.2 ⟨l, List.mem_range.2 hl, hbad⟩, Bool.false_ne_true⟩
  exact (readTable_body ha hh h0 h8 h1 h6 hb).trans (M.bind_error (need_fails hall _ s))

theorem readTable_levels {g : Nat → Level} (hg : ∀ l, l < n → levelOf (body.drop (32 * l)) = some (g l)) :
    readTable lt s = .ok ((List.range n).map g) s := by
  have e : ((List.range n).map fun l => levelOf (body.drop (32 * l))) = ((List.range n).map g).map some := by
    rw [List.map_map]; exact List.map_congr_left fun l hl => hg l (List.mem_range.1 hl)
  rw [readTable_body ha hh h0 h8 h1 h6 hb, e]
  refine (M.bind_ok (need_holds (by simp) _ s)).trans (congrArg (EStateM.Result.ok · s) ?_)
  simp [List.filterMap_map]

end

end

/-! ### The levels of a table in one page -/

/-- Level l of a table of these bytes. -/
def tableLevel (bs : List Byte) (l : Nat) : Level :=
  { count := (dwordOf bs (16 + 32 * l)).toNat, strides := (List.range 4).map fun j =>
      (BitVec.ofNat 32 (leVal ((bs.drop (16 + 32 * l + 8 + 4 * j)).take 4))).signExtend 64 }

theorem levelOf_table (bs : List Byte) (l : Nat) : levelOf ((bs.drop 16).drop (32 * l)) =
    if 0 < (dwordOf bs (16 + 32 * l)).toNat ∧ (dwordOf bs (16 + 32 * l)).toNat < 2 ^ 32 ∧ dwordOf bs (16 + 32 * l + 24) = 0 then
      some (tableLevel bs l)
    else none := by
  rw [levelOf_eq]
  simp only [tableLevel, List.drop_drop, dwordOf_drop, Nat.add_assoc, Nat.add_zero]

theorem clean_sub {s : State} {k n j m : Nat} (h : Clean s k n) (hj : j + m ≤ n) : Clean s (k + j) m := fun i hi => by
  rw [Nat.add_assoc]; exact h (j + i) (by omega)

section
variable {s : State} {lt : Word} {n k cls : Nat} {e : TlbEntry} (hp : lt.toNat % 65536 + (16 + 32 * n) ≤ 65536)
variable (hc : Clean s k (16 + 32 * n)) (hm : s.markPage e (some s.team.core) false = s)
include hp hc hm

theorem fetchLong_head (h : Mapped s .fetch lt 16 k cls e) :
    fetchLong lt 16 s = .ok ((s.bytesIn s.team.world k (16 + 32 * n)).take 16) s := by
  rw [← bytesIn_take s _ k (Nat.le_add_right 16 (32 * n))]
  exact fetchLong_onePage (by decide) (by omega) (fetchBytes_mapped h (clean_sub (j := 0) hc (by omega)) hm)

theorem fetchLong_body (h : Mapped s .fetch (lt + 16) (32 * n) (k + 16) cls e) (h1 : 1 ≤ n) :
    fetchLong (lt + 16) (32 * n) s = .ok ((s.bytesIn s.team.world k (16 + 32 * n)).drop 16) s := by
  have hva : (lt + 16).toNat % 65536 = lt.toNat % 65536 + 16 := by
    rw [BitVec.toNat_add, show (16 : Word).toNat = 16 from rfl]; omega
  rw [← bytesIn_drop]
  exact fetchLong_onePage (by omega) (by omega) (fetchBytes_mapped h (clean_sub hc (Nat.le_refl _)) hm)

end

/-! ### VFETCH (R103, R204, R424) -/

/-- The state in which VFETCH looks for a block of its hart: in a handler without the one that the trap suspended. -/
def State.dropSuspended (s : State) : State := { s with me := s.me.dropSuspended }

theorem State.dropSuspended_eq (s : State) : s.dropSuspended =
    if s.me.inHandler = true ∧ s.me.tstat.getLsbD 1 = true then
      { s with me := { s.me with blk := none, tstat := s.me.tstat &&& ~~~2#64 } } else s := by
  unfold State.dropSuspended Hart.dropSuspended
  simp only [Bool.and_eq_true]
  split
  · rw [if_pos ‹_›]; rfl
  · rw [if_neg ‹_›]

theorem State.dropSuspended_frame (s : State) : s.dropSuspended =
    { s with me := { s.me with blk := s.dropSuspended.me.blk, tstat := s.dropSuspended.me.tstat } } := by
  unfold State.dropSuspended Hart.dropSuspended; split <;> rfl

@[simp] theorem State.x_dropSuspended (s : State) (r : Reg) : s.dropSuspended.x r = s.x r := by
  rw [s.dropSuspended_frame]; rfl
@[simp] theorem State.team_dropSuspended (s : State) : s.dropSuspended.team = s.team := by rw [s.dropSuspended_frame]
@[simp] theorem State.temporal_dropSuspended (s : State) : s.dropSuspended.temporal = s.temporal := by
  rw [s.dropSuspended_frame]; rfl
@[simp] theorem State.vtype_dropSuspended (s : State) : s.dropSuspended.me.vtype = s.me.vtype := by
  rw [s.dropSuspended_frame]
@[simp] theorem State.vl_dropSuspended (s : State) : s.dropSuspended.me.vl = s.me.vl := by rw [s.dropSuspended_frame]
@[simp] theorem State.fcsr_dropSuspended (s : State) : s.dropSuspended.me.fcsr = s.me.fcsr := by
  rw [s.dropSuspended_frame]

/-- VFETCH up to the words of its block, and what it does with them. -/
def readsBlock (a : Reg) (f : State → List (BitVec 64) → M Unit) : M Unit := do
  change State.dropSuspended
  let s ← now
  need s.me.blk.isNone (.wait .block)
  needAligned (s.x a) 8
  let ws ← readBlock 512 (s.x a)
  f s ws

section
variable {s : State} {a : Reg} {f : State → List (BitVec 64) → M Unit}

theorem readsBlock_waits (hb : s.dropSuspended.me.blk ≠ none) :
    readsBlock a f s = .error (.wait .block) s.dropSuspended :=
  (M.bind_change ..).trans ((M.bind_now ..).trans
    (M.bind_error (need_fails (Option.isNone_eq_false_iff.2 (Option.isSome_iff_ne_none.2 hb)) _ _)))

variable (hb : s.dropSuspended.me.blk = none)
include hb

theorem readsBlock_idle : readsBlock a f s =
    (needAligned (s.x a) 8 >>= fun _ => readBlock 512 (s.x a) >>= f s.dropSuspended) s.dropSuspended := by
  rw [← s.x_dropSuspended]
  exact (M.bind_change ..).trans ((M.bind_now ..).trans (M.bind_ok (need_holds (Option.isNone_iff_eq_none.2 hb) _ _)))

theorem readsBlock_misaligned (ha : (s.x a).toNat % 8 ≠ 0) :
    readsBlock a f s = .error (.trap (.sized cMISALIGN (s.x a) 8)) s.dropSuspended :=
  (readsBlock_idle hb).trans (M.bind_error (misaligned_run _ ha))

theorem readsBlock_ok {s1 : State} {ws : List (BitVec 64)} (ha : (s.x a).toNat % 8 = 0)
    (hr : readBlock 512 (s.x a) s.dropSuspended = .ok ws s1) : readsBlock a f s = f s.dropSuspended ws s1 :=
  (readsBlock_idle hb).trans ((M.bind_ok (aligned_run _ ha)).trans (M.bind_ok hr))

end

/-- The levels behind those of the launch: none without a table, else those of the table. -/
theorem table_bind {lt : Word} {table : List Level} {s1 s2 : State} {g : List Level → M Unit}
    (h : if lt = 0 then table = [] ∧ s2 = s1 else readTable lt s1 = .ok table s2) :
    (if lt = 0 then (pure [] : M (List Level)) >>= g else readTable lt >>= g) s1 = g table s2 := by
  by_cases hz : lt = 0
  · rw [if_pos hz] at h ⊢; rw [h.1, h.2]; rfl
  · rw [if_neg hz] at h ⊢; exact M.bind_ok h

/-- The block that VFETCH loads: the words, the levels, and what the hart has of the rest (R204). -/
def State.captured (s : State) (d a : Reg) (ws : List (BitVec 64)) (levels : List Level) : Block :=
  { addr := s.x a, words := ws, idx := 0, levels := levels, index := levels.map fun _ => 0,
    bases := (List.range 4).map fun k => if d = 0 then 0 else s.x ⟨(d.val + k) % 32, Nat.mod_lt _ (by decide)⟩,
    vtype := s.me.vtype, vl := s.me.vl, frm := bits s.me.fcsr 0 3, suspended := false, wait := none, answers := [],
    word := 0 }

def State.loadBlock (s : State) (blk : Block) : State :=
  { s with me := { s.me with blk := some blk, pixV := Vector.replicate 32 0, pixT := Vector.replicate 8 0 } }

section
variable {s s1 s2 : State} {d a b : Reg} {ws : List (BitVec 64)} {table : List Level}
variable (hb : s.dropSuspended.me.blk = none) (ha : (s.x a).toNat % 8 = 0)
variable (hr : readBlock 512 (s.x a) s.dropSuspended = .ok ws s1)
variable (hf : blockFails (tilesOf s.team.size) ws = none)
include hb ha hr

theorem vfetch_invalid {k : Nat} (hk : blockFails (tilesOf s.team.size) ws = some k) : exec (.vfetch d a b) s =
    .next (s1.settle.takeTrap (.of cILLEGAL (s.x a + BitVec.ofNat 64 (8 * k))) s1.me.pc true) := by
  refine congrArg Host.Outcome.next (State.word_trap ((readsBlock_ok hb ha hr).trans ?_))
  simp only [State.team_dropSuspended, State.x_dropSuspended, hk]
  rfl

include hf

theorem vfetch_unclosed (hl : ws.getLast? ≠ some vstopWord) : exec (.vfetch d a b) s =
    .next (s1.settle.takeTrap (.of cILLEGAL (s.x a + 4096)) s1.me.pc true) := by
  refine congrArg Host.Outcome.next (State.word_trap ((readsBlock_ok hb ha hr).trans ?_))
  simp only [State.team_dropSuspended, State.x_dropSuspended, hf]
  exact M.bind_error (need_fails (beq_eq_false_iff_ne.2 hl) _ _)

variable (hl : ws.getLast? = some vstopWord)
variable (ht : if s.x b = 0 then table = [] ∧ s2 = s1 else readTable (s.x b) s1 = .ok table s2)
include hl ht

theorem vfetch_deep (h : 6 < (s.temporal ++ table).length) : exec (.vfetch d a b) s =
    .next (s2.settle.takeTrap (.of cVTYPE (s.x b)) s2.me.pc true) := by
  refine congrArg Host.Outcome.next (State.word_trap ((readsBlock_ok hb ha hr).trans ?_))
  simp only [State.team_dropSuspended, State.x_dropSuspended, State.temporal_dropSuspended, hf]
  exact (M.bind_ok (need_holds (beq_iff_eq.2 hl) _ _)).trans ((table_bind ht).trans
    (M.bind_error (need_fails (decide_eq_false (Nat.not_le.2 h)) _ _)))

theorem vfetch_loads (h : (s.temporal ++ table).length ≤ 6) : exec (.vfetch d a b) s =
    .next (s2.loadBlock (s.captured d a ws (s.temporal ++ table))).settle.next := by
  refine congrArg Host.Outcome.next (State.word_ok ((readsBlock_ok hb ha hr).trans ?_))
  simp only [State.team_dropSuspended, State.x_dropSuspended, State.temporal_dropSuspended, State.vtype_dropSuspended,
    State.vl_dropSuspended, State.fcsr_dropSuspended, hf]
  exact (M.bind_ok (need_holds (beq_iff_eq.2 hl) _ _)).trans ((table_bind ht).trans
    (M.bind_ok (need_holds (decide_eq_true h) _ _)))

end

/-- Settles O23: what VFETCH comes to at each of its checks, and what its loop table reads as. -/
theorem vfetchLoadsABlock : Obligations.VfetchLoadsABlock := by
  intro s s1 d a b ws va lt s0 traps
  have h0 : s.dropSuspended = s0 := s.dropSuspended_eq
  clear_value s0
  subst h0
  refine ⟨fun hb => congrArg Host.Outcome.next (State.word_wait (readsBlock_waits hb)),
    fun hb ha => congrArg Host.Outcome.next (State.word_trap (readsBlock_misaligned hb ha)),
    fun hb ha hr => ⟨fun k hk => vfetch_invalid hb ha hr hk, fun hf hl => vfetch_unclosed hb ha hr hf hl,
      fun hf hl table s2 ht => ⟨fun h6 => vfetch_deep hb ha hr hf hl ht h6, fun h6 => ?loads⟩⟩,
    fun n k cls cls' e e' hal hpage hm hm' hc hmark hmark' => ?table⟩
  case loads =>
    exact ⟨_, _, vfetch_loads hb ha hr hf hl ht h6, rfl, fun k hk => Vector.getElem?_replicate_of_lt hk,
      fun k hk => Vector.getElem?_replicate_of_lt hk, rfl, rfl, rfl, rfl, rfl, rfl, rfl, rfl,
      fun k hk => (List.getElem?_map ..).trans (congrArg _ (List.getElem?_range hk))⟩
  case table =>
    intro bs count good
    have hhead := fetchLong_head hpage hc hmark hm
    have hd0 : dwordOf (bs.take 16) 0 = dwordOf bs 0 := dwordOf_take bs (by decide)
    have hd8 : dwordOf (bs.take 16) 8 = dwordOf bs 8 := dwordOf_take bs (by decide)
    refine ⟨fun h => readTable_badHead hal hhead (by rwa [hd0, hd8]), fun hn hz h1 h6 => ?_⟩
    have hbody := fetchLong_body hpage hc hmark' hm' h1
    exact ⟨fun ⟨l, hl, hbad⟩ => readTable_badLevel hal hhead (hd0.trans hn) (hd8.trans hz) h1 h6 hbody hl
        ((levelOf_table bs l).trans (if_neg hbad)),
      fun hgood => readTable_levels hal hhead (hd0.trans hn) (hd8.trans hz) h1 h6 hbody
        fun l hl => (levelOf_table bs l).trans (if_pos (hgood l hl))⟩

end Sys2Proof.Machine
